-- ==== Sys2Proof/Word.lean ====
section
/-! DEFINITION. The word types of the OWM block (00_scope.md R14, R15) and nothing else: bit 0 is the least
significant bit everywhere. -/

namespace Sys2Proof

/-- A host register or command word: 32 bits (R14). -/
abbrev Word := BitVec 32

/-- One byte on the line, in an identifier, in a frame or in the CRC (R14). -/
abbrev Byte := BitVec 8

/-- The host port's byte offset into the 512-byte register window: 9 bits (20_memory.md R100). -/
abbrev Offset := BitVec 9

/-- A device identifier: 8 bytes, byte k at bits [8k+7 : 8k] (30_encoding.md R150). -/
abbrev Ident := BitVec 64

end Sys2Proof
end

