-- ==== Sys2Proof/Syntax.lean ====
section
/-! DEFINITION. The commands of the OWM block: one constructor per row of spec/opcode_table.json, with the operand
fields the operation reads (30_encoding.md R131 to R135). -/

namespace Sys2Proof

/-- The sixteen operations (R131). A constructor holds the fields its operation reads; `data`, `sel`, `idx` and
`res` are the fields of the command word (R130). -/
inductive Instr where
  /-- 0x00 NOP (R180). -/
  | nop
  /-- 0x01 RESET (R181). -/
  | reset
  /-- 0x02 WRITE_BIT (R182): bit 0 of `data` is sent, bits 7 to 1 are ignored (R132). -/
  | writeBit (data : Byte)
  /-- 0x03 READ_BIT (R183). -/
  | readBit
  /-- 0x04 WRITE_BYTE (R184). -/
  | writeByte (data : Byte)
  /-- 0x05 READ_BYTE (R185). -/
  | readByte
  /-- 0x06 CRC_CLEAR (R216). -/
  | crcClear
  /-- 0x07 CRC_BYTE (R217). -/
  | crcByte (data : Byte)
  /-- 0x08 SEARCH_CLEAR (R240). -/
  | searchClear
  /-- 0x09 SEARCH_NEXT (R241). -/
  | searchNext
  /-- 0x0A SEARCH_FIRST (R242). -/
  | searchFirst
  /-- 0x0B ENUMERATE (R250). -/
  | enumerate
  /-- 0x10 CONVERT (R285): `idx` is read only when `sel` is set (R134). -/
  | convert (sel : Bool) (idx : BitVec 4)
  /-- 0x11 CONV_POLL (R291). -/
  | convPoll
  /-- 0x12 READ_TEMP (R296): `idx` is always read (R134). -/
  | readTemp (sel : Bool) (idx : BitVec 4)
  /-- 0x13 CONFIGURE (R300): `idx` is read only when `sel` is set (R134). -/
  | configure (sel : Bool) (idx : BitVec 4) (res : BitVec 4)
deriving DecidableEq, Repr

end Sys2Proof
end

