-- ==== Sys2Proof/WellFormed.lean ====
section
/-! DEFINITION. When a command is in the one form the decoder gives it: every operand bit that the operation does
not read is 0 (30_encoding.md R132, R134). Any value of such a bit selects the same operation with the same effect
(R132, R138), so this loses no behaviour. -/

namespace Sys2Proof

/-- The operand bits the operation ignores are 0: DATA[7:1] of WRITE_BIT (R132), IDX of CONVERT and CONFIGURE with
SEL = 0 (R134). -/
def Instr.wellFormed : Instr → Bool
  | .nop => true
  | .reset => true
  | .writeBit data => data >>> 1 == 0#8
  | .readBit => true
  | .writeByte _ => true
  | .readByte => true
  | .crcClear => true
  | .crcByte _ => true
  | .searchClear => true
  | .searchNext => true
  | .searchFirst => true
  | .enumerate => true
  | .convert sel idx => sel || idx == 0#4
  | .convPoll => true
  | .readTemp _ _ => true
  | .configure sel idx _ => sel || idx == 0#4

end Sys2Proof
end

