-- ==== Sys2Proof/Decode.lean ====
section
/-! DEFINITION. The command word: its fields, the decoder (total, refusing by name) and the encoder
(30_encoding.md R130 to R139). -/

namespace Sys2Proof

/-- Why a command word is illegal (R136, R137). Such a word is still accepted as a command and finishes with
ILLEGAL_OP. -/
inductive Illegal where
  /-- One of bits [7:5], [19:17], [31:28] is set (R136). -/
  | reservedBits
  /-- OP is 0x0C to 0x0F or 0x14 to 0x1F (R137). -/
  | reservedOp (op : BitVec 5)
deriving DecidableEq, Repr

/-- What the decoder gives for a command word. -/
inductive Decoded where
  /-- One of the sixteen operations. -/
  | command (i : Instr)
  /-- An illegal word. -/
  | illegal (why : Illegal)
deriving DecidableEq, Repr

/-- OP, bits [4:0] (R130). -/
def opField (w : Word) : BitVec 5 := w.extractLsb' 0 5

/-- DATA, bits [15:8] (R130). -/
def dataField (w : Word) : Byte := w.extractLsb' 8 8

/-- SEL, bit [16] (R130). -/
def selField (w : Word) : Bool := w.getLsbD 16

/-- IDX, bits [23:20] (R130). -/
def idxField (w : Word) : BitVec 4 := w.extractLsb' 20 4

/-- RES, bits [27:24] (R130). -/
def resField (w : Word) : BitVec 4 := w.extractLsb' 24 4

/-- A reserved bit, [7:5], [19:17] or [31:28], is set (R136). -/
def reservedSet (w : Word) : Bool := w &&& 0xF00E00E0#32 != 0#32

/-- IDX as CONVERT and CONFIGURE read it: ignored, so taken as 0, when SEL = 0 (R134). -/
def idxWhenSel (w : Word) : BitVec 4 := if selField w then idxField w else 0#4

/-- The operation OP selects, with its operands (R131 to R135). -/
def decodeOp (w : Word) : Decoded :=
  match (opField w).toNat with
  | 0x00 => .command .nop
  | 0x01 => .command .reset
  | 0x02 => .command (.writeBit (dataField w &&& 1#8))
  | 0x03 => .command .readBit
  | 0x04 => .command (.writeByte (dataField w))
  | 0x05 => .command .readByte
  | 0x06 => .command .crcClear
  | 0x07 => .command (.crcByte (dataField w))
  | 0x08 => .command .searchClear
  | 0x09 => .command .searchNext
  | 0x0A => .command .searchFirst
  | 0x0B => .command .enumerate
  | 0x10 => .command (.convert (selField w) (idxWhenSel w))
  | 0x11 => .command .convPoll
  | 0x12 => .command (.readTemp (selField w) (idxField w))
  | 0x13 => .command (.configure (selField w) (idxWhenSel w) (resField w))
  | _ => .illegal (.reservedOp (opField w))

/-- The decoder: OP and the reserved bits decide legality (R139), the reserved bits first (R323). -/
def decode (w : Word) : Decoded :=
  if reservedSet w then .illegal .reservedBits else decodeOp w

/-- The command word of R130: `OP | (DATA << 8) | (SEL << 16) | (IDX << 20) | (RES << 24)`. -/
def assemble (op : BitVec 5) (data : Byte) (sel : Bool) (idx res : BitVec 4) : Word :=
  op.setWidth 32 ||| (data.setWidth 32 <<< 8) ||| ((BitVec.ofBool sel).setWidth 32 <<< 16) |||
    (idx.setWidth 32 <<< 20) ||| (res.setWidth 32 <<< 24)

/-- The OP value of each operation (R131). -/
def Instr.opcode : Instr → BitVec 5
  | .nop => 0x00
  | .reset => 0x01
  | .writeBit _ => 0x02
  | .readBit => 0x03
  | .writeByte _ => 0x04
  | .readByte => 0x05
  | .crcClear => 0x06
  | .crcByte _ => 0x07
  | .searchClear => 0x08
  | .searchNext => 0x09
  | .searchFirst => 0x0A
  | .enumerate => 0x0B
  | .convert _ _ => 0x10
  | .convPoll => 0x11
  | .readTemp _ _ => 0x12
  | .configure _ _ _ => 0x13

/-- The encoder: the command word of a command, with 0 in every field it does not hold (R130, R140). -/
def encode (i : Instr) : Word :=
  match i with
  | .writeBit data => assemble i.opcode data false 0 0
  | .writeByte data => assemble i.opcode data false 0 0
  | .crcByte data => assemble i.opcode data false 0 0
  | .convert sel idx => assemble i.opcode 0 sel idx 0
  | .readTemp sel idx => assemble i.opcode 0 sel idx 0
  | .configure sel idx res => assemble i.opcode 0 sel idx res
  | .nop => assemble i.opcode 0 false 0 0
  | .reset => assemble i.opcode 0 false 0 0
  | .readBit => assemble i.opcode 0 false 0 0
  | .readByte => assemble i.opcode 0 false 0 0
  | .crcClear => assemble i.opcode 0 false 0 0
  | .searchClear => assemble i.opcode 0 false 0 0
  | .searchNext => assemble i.opcode 0 false 0 0
  | .searchFirst => assemble i.opcode 0 false 0 0
  | .enumerate => assemble i.opcode 0 false 0 0
  | .convPoll => assemble i.opcode 0 false 0 0

/-- The command word the table numbers with `nbits` bits and the value `w`: every command is one 32-bit word (R139),
and every bit above `nbits` is 0. -/
def tableWord (nbits w : Nat) : Word := BitVec.ofNat 32 (w % 2 ^ nbits)

/-- The command the decoder reads from a table row's word; none where it refuses, or where the row is wider than the
one 32-bit word of R139. -/
def decodeTableWord (nbits w : Nat) : Option Instr :=
  if 32 < nbits then none else
  match decode (tableWord nbits w) with
  | .command i => some i
  | .illegal _ => none

/-- A command word as the four bytes the host port lays it out in, least significant byte first (20_memory.md R103). -/
def wordOfBytes (b0 b1 b2 b3 : Byte) : Word := b3 ++ b2 ++ b1 ++ b0

end Sys2Proof
end

