-- ==== Sys2Proof/Config.lean ====
section
/-! DEFINITION. What an implementation fixes (the parameters of 00_scope.md R13 and the window base of
20_memory.md R100) and the free values: constants with no body that stand for what the spec leaves to the
environment or calls unspecified. -/

namespace Sys2Proof

/-- The slot phases of the timing state machine (10_state.md R72, 40_transport.md R170). -/
inductive Phase where
  | idle | rstLow | rstPds | rstRec | wLow | wRel | rLow | rSmp | rRec | wait
deriving DecidableEq, Repr

/-- PAD in a phase: 1 (drive low) only in RST_LOW, W_LOW and R_LOW (10_state.md R73, R170). -/
def Phase.drivesLow : Phase → Bool
  | .rstLow => true
  | .wLow => true
  | .rLow => true
  | .idle => false
  | .rstPds => false
  | .rstRec => false
  | .wRel => false
  | .rSmp => false
  | .rRec => false
  | .wait => false

/-- One stretch of the waveform the master puts on the line: a phase, the value of NOW at the tick it is entered, and
how many ticks it lasts (R142, R175). A stretch of phase IDLE and 0 ticks marks a block reset, which cuts the stretch
before it short at that NOW (70_reset_and_hazards.md R351). -/
structure Seg where
  phase : Phase
  start : BitVec 32
  ticks : Nat
deriving DecidableEq, Repr

/-- The parameters of one OWM block (R13, R100). They are no state (R25): no step changes them. The state carries
them as an argument, so that a statement about every state holds for every choice of them.
DESIGN CHOICE (log entry 1), safe. -/
structure Params where
  /-- CYC_PER_US: clock cycles per microsecond tick. -/
  cycPerUs : Nat
  /-- T_RSTL: reset low time, in ticks. -/
  tRstl : Nat
  /-- T_PDS: release-to-presence-sample time. -/
  tPds : Nat
  /-- T_RSTREC: time after the presence sample. -/
  tRstRec : Nat
  /-- T_W1L: low time of a write-1 slot. -/
  tW1l : Nat
  /-- T_W0L: low time of a write-0 slot. -/
  tW0l : Nat
  /-- T_WSLOT: total length of a write slot. -/
  tWslot : Nat
  /-- T_RL: read-initiation low time. -/
  tRl : Nat
  /-- T_RS: release-to-sample time of a read slot. -/
  tRs : Nat
  /-- T_RSLOT: total length of a read slot. -/
  tRslot : Nat
  /-- CONV_UNIT_US: ticks in one time-unit (R272). -/
  convUnitUs : Nat
  /-- MAX_DEVICES: rows of the device table. -/
  maxDevices : Nat
  /-- ENUM_RETRIES: total passes of one ENUMERATE. -/
  enumRetries : Nat
  /-- T_COPY_WAIT: release time after the copy-scratchpad byte. -/
  tCopyWait : Nat
  /-- CLK_TOL: the tolerance of the microsecond tick against real time, in parts per million, a unit the model chose
  (log entry 15). No rule of the block reads it: a model's ticks are exact (70_reset_and_hazards.md R367). -/
  clkTol : Nat
  /-- OWM_BASE: where the platform places the register window. -/
  owmBase : Nat
deriving DecidableEq, Repr

/-- The legal ranges of R13. T_COPY_WAIT is at least 0, which every count is, and CLK_TOL and OWM_BASE have no range. -/
abbrev Params.Legal (p : Params) : Prop :=
  1 ≤ p.cycPerUs ∧ 480 ≤ p.tRstl ∧ (60 ≤ p.tPds ∧ p.tPds ≤ 75) ∧ 480 ≤ p.tPds + p.tRstRec ∧
  (1 ≤ p.tW1l ∧ p.tW1l ≤ 15) ∧ (60 ≤ p.tW0l ∧ p.tW0l ≤ 65) ∧ (60 ≤ p.tWslot ∧ p.tWslot ≤ 70 ∧ p.tW0l < p.tWslot) ∧
  (1 ≤ p.tRl ∧ p.tRl ≤ 2) ∧ p.tRl + p.tRs ≤ 15 ∧ p.tRl + p.tRs < p.tRslot ∧ 1 ≤ p.convUnitUs ∧
  (1 ≤ p.maxDevices ∧ p.maxDevices ≤ 16) ∧ 1 ≤ p.enumRetries

/-- CYC_PER_US − 1 of the block that `State.reset` describes. R13 leaves CYC_PER_US OPEN, so it has no body: a
statement about the reset state holds for every CYC_PER_US ≥ 1. -/
opaque Config.cycPerUsLessOne : Nat

/-- OWM_BASE of the block that `State.reset` describes: OPEN (R100). -/
opaque Config.owmBase : Nat

/-- CLK_TOL of the block that `State.reset` describes: OPEN (R13, R367). -/
opaque Config.clkTol : Nat

/-- The line level the bus environment answers at the `n`-th free sample, after the waveform the master has put on
the line so far, newest stretch first (R22, R176; U10: any value). It has no body, so nothing can be proved of a
level. Marked in log entry 3, safe. -/
opaque Config.lineLevel : Nat → List Seg → Bool

/-- The word a host reads from a register that is unspecified while BUSY = 1, at the `n`-th free value
(10_state.md R62; U2: any value). Marked in log entry 4, safe. -/
opaque Config.busyRead : Nat → Word

/-- The default parameters of R13, with the OPEN ones and OWM_BASE left open. -/
def Params.default : Params where
  cycPerUs := Config.cycPerUsLessOne + 1
  tRstl := 480
  tPds := 70
  tRstRec := 410
  tW1l := 10
  tW0l := 65
  tWslot := 70
  tRl := 2
  tRs := 10
  tRslot := 60
  convUnitUs := 1000
  maxDevices := 8
  enumRetries := 5
  tCopyWait := 0
  clkTol := Config.clkTol
  owmBase := Config.owmBase

end Sys2Proof
end

