-- ==== Sys2Proof/Machine/State.lean ====
section
/-! DEFINITION. The state of one OWM block: everything 10_state.md gives it, the host's and the bus environment's
coming inputs, and the record of what the block put out. All of it is plain data. -/

namespace Sys2Proof.Machine

/-- Why a step stops with a fault. -/
inductive Fault where
  /-- Raised by `step`, and by a command's meaning for an access that comes due in one of the command's cycles, for a
  host access that is not an aligned 32-bit one (20_memory.md R101; U1), naming the access: whether it writes, its byte
  offset and its size in bytes. Safe: the access is given no value. -/
  | badAccess (write : Bool) (off : Offset) (size : Nat)
deriving DecidableEq, Repr

/-- Why a step has no meaning. -/
inductive Refusal where
  /-- Raised only by an arm of `exec` for an instruction that has no meaning yet. Safe. -/
  | notModelled (mnemonic : String)
deriving DecidableEq, Repr

/-- The result codes of 60_exceptions.md R320. Codes 9 to 15 are never written (U7). -/
inductive Code where
  | ok | busAbsent | collision | crcMismatch | convTimeout | unsupportedRes | complete | badIndex | illegalOp
deriving DecidableEq, Repr

/-- A resolution in bits, 9 to 12 (R14, R155). -/
inductive Resolution where
  | r9 | r10 | r11 | r12
deriving DecidableEq, Repr

/-- CSTATE of a device-table entry (10_state.md R58). -/
inductive CState where
  | idle | started | ready | timedOut
deriving DecidableEq, Repr

/-- STATUS (10_state.md R45). -/
structure Status where
  /-- Bit 0, RO. -/
  busy : Bool
  /-- Bit 1, W1C, sticky. -/
  done : Bool
  /-- Bit 2, W1C, sticky. -/
  ovr : Bool
  /-- Bit 3, RO. -/
  presence : Bool
  /-- Bit 4, RO. -/
  rxbit : Bool
  /-- Bit 5, W1C, sticky. -/
  cevt : Bool
  /-- Bits 11 to 8, RO. -/
  err : Code
deriving DecidableEq, Repr

/-- CTRL (10_state.md R46). -/
structure Ctrl where
  doneIe : Bool
  cevtIe : Bool
deriving DecidableEq, Repr

/-- The session state of the search: LD, LFD, LDF and ROMBUF (10_state.md R49, R50, R71). -/
structure Session where
  ld : BitVec 7
  lfd : BitVec 4
  ldf : Bool
  rombuf : Ident
deriving DecidableEq, Repr

/-- ENUMSTAT (10_state.md R55). -/
structure EnumStat where
  passes : BitVec 8
  lastPassErr : Code
  trunc : Bool
deriving DecidableEq, Repr

/-- What the supervisor does to an entry at a tick: its next ELAPSED and CSTATE (43_sensor.md R271). -/
structure SupStep where
  elapsed : BitVec 32
  next : CState
deriving DecidableEq, Repr

/-- One entry of the device table (10_state.md R56 to R59). -/
structure Entry where
  /-- TBL_ROM_LO, TBL_ROM_HI (R56). -/
  rom : Ident
  /-- TBL_TEMP, a signed count of centidegrees (R57). -/
  temp : BitVec 32
  /-- TBL_STAT.CSTATE (R58). -/
  cstate : CState
  /-- TBL_STAT.TVALID (R58). -/
  tvalid : Bool
  /-- TBL_STAT.RES (R58). -/
  res : Resolution
  /-- The hidden counter ELAPSED (R59). -/
  elapsed : BitVec 32
  /-- The model's own: the supervisor's step of this entry in the clock cycle now running, computed from the state at
  the start of the cycle and landing at its end unless the engine writes CSTATE or ELAPSED in the same cycle (R273).
  None between cycles. -/
  sup : Option SupStep
deriving DecidableEq, Repr

/-- An entry as reset leaves it (10_state.md R78). -/
def Entry.reset : Entry where
  rom := 0
  temp := 0
  cstate := .idle
  tvalid := false
  res := .r12
  elapsed := 0
  sup := none

/-- The engine's working registers x[...] (10_state.md R70). -/
structure Work where
  cmdw : Word
  alw : Word
  sh : Byte
  bit : BitVec 3
  pos : BitVec 7
  lastzero : BitVec 7
  lfdw : BitVec 4
  idb : Bool
  cmb : Bool
  dir : Bool
  newrom : Ident
  sp : Vector Byte 9
  c : Byte
  pass : BitVec 8
  k : BitVec 5
deriving DecidableEq, Repr

/-- One access of the host port: a byte offset, a size in bytes and, for a write, a value (R17, 20_memory.md R101). -/
inductive Access where
  | read (off : Offset) (size : Nat)
  | write (off : Offset) (size : Nat) (v : Word)
deriving DecidableEq, Repr

/-- What the outside does to the block in one clock cycle: a host access (R21), or `rst_n` held low for the cycle
(70_reset_and_hazards.md R350). -/
inductive HostAct where
  | access (a : Access)
  | reset
deriving DecidableEq, Repr

/-- One coming act of the outside, and how many clock cycles without an act pass before its cycle. -/
structure HostEvent where
  gap : Nat
  act : HostAct
deriving DecidableEq, Repr

/-- The model's own fields: the coming inputs of the host and of the bus environment, and the record of outputs. No
rule of the spec names them (log entries 3 to 6 and 13); the spec gives the agents behind them (R21, R22). -/
structure Env where
  /-- The host's coming acts, the next one first. -/
  host : List HostEvent
  /-- The read the host port performs in the clock cycle now running; it is answered at the cycle's end (R116). -/
  pend : Option Offset
  /-- What the host has read, newest first: the byte offset and the word returned. -/
  reads : List (Offset × Word)
  /-- The line levels the bus environment will answer at the coming samples, the next one first; when it is empty a
  level is the free value `Config.lineLevel` (R22). -/
  bus : List Bool
  /-- How many free values have been taken. -/
  draws : Nat
  /-- The waveform the master has put on the line, newest stretch first (R142). -/
  wave : List Seg
deriving DecidableEq, Repr

/-- The state of the block (10_state.md R40). -/
structure State where
  /-- The parameters of R13; no step changes them (R25). -/
  params : Params
  /-- STATUS (R45). -/
  status : Status
  /-- CTRL (R46). -/
  ctrl : Ctrl
  /-- RXDATA.BYTE (R47). -/
  rxdata : Byte
  /-- CRC.ACC (R48). -/
  crc : Byte
  /-- SEARCH, ROM_LO and ROM_HI (R49, R50, R71). -/
  session : Session
  /-- TIMEOUT.BUDGET_MS (R51). -/
  budget : BitVec 22
  /-- ALARM: TH in bits 31 to 16, TL in bits 15 to 0 (R52). -/
  alarm : Word
  /-- NOW (R53). -/
  now : BitVec 32
  /-- DEVCNT.COUNT (R54). -/
  count : BitVec 5
  /-- ENUMSTAT (R55). -/
  enumstat : EnumStat
  /-- The device table; rows from MAX_DEVICES up do not exist for the host or for a command (R43, R56 to R60). -/
  table : Vector Entry 16
  /-- x[...] (R70). -/
  x : Work
  /-- x.PH (R72). -/
  ph : Phase
  /-- x.PCNT (R72). -/
  pcnt : BitVec 32
  /-- x.SEQ (R74): none is IDLE; `some n` is the running command's step after `n` phases entered. -/
  seq : Option Nat
  /-- PAD = `ow_oe` (R73). -/
  pad : Bool
  /-- PRESC (R42). -/
  presc : Nat
  /-- The model's own fields. -/
  env : Env
deriving DecidableEq, Repr

/-- STATUS after reset: 0x00000000 (R78). -/
def Status.reset : Status where
  busy := false
  done := false
  ovr := false
  presence := false
  rxbit := false
  cevt := false
  err := .ok

/-- The cleared session state (R78, 42_enumeration.md R231). -/
def Session.clear : Session where
  ld := 0
  lfd := 0
  ldf := false
  rombuf := 0

/-- The working registers after reset. R70 leaves them unspecified and no rule reads one before writing it; 0 is a
DESIGN CHOICE (log entry 7), unsafe. -/
def Work.reset : Work where
  cmdw := 0
  alw := 0
  sh := 0
  bit := 0
  pos := 0
  lastzero := 0
  lfdw := 0
  idb := false
  cmb := false
  dir := false
  newrom := 0
  sp := #v[0, 0, 0, 0, 0, 0, 0, 0, 0]
  c := 0
  pass := 0
  k := 0

/-- Nothing coming in, nothing put out yet. -/
def Env.start : Env where
  host := []
  pend := none
  reads := []
  bus := []
  draws := 0
  wave := []

/-- The device table after reset (R78). -/
def tableReset : Vector Entry 16 :=
  #v[.reset, .reset, .reset, .reset, .reset, .reset, .reset, .reset,
     .reset, .reset, .reset, .reset, .reset, .reset, .reset, .reset]

/-- The block right after reset (10_state.md R78), with the default parameters of R13. x.PCNT and the working
registers have no reset value in the spec; 0 is a DESIGN CHOICE (log entry 7), unsafe. -/
def State.reset : State where
  params := Params.default
  status := .reset
  ctrl := ⟨false, false⟩
  rxdata := 0
  crc := 0
  session := .clear
  budget := 0
  alarm := 0
  now := 0
  count := 0
  enumstat := ⟨0, .ok, false⟩
  table := tableReset
  x := .reset
  ph := .idle
  pcnt := 0
  seq := none
  pad := false
  presc := 0
  env := .start

end Sys2Proof.Machine
end

