-- ==== Sys2Proof/Machine/Flags.lean ====
section
/-! DEFINITION. The flags and status fields as register words, the write-1-to-clear of STATUS, and the interrupt
output (10_state.md R45 to R58, R75, R76). -/

namespace Sys2Proof.Machine

/-- A Bool as the bit `n` of a word. -/
def bitAt (n : Nat) (b : Bool) : Word := (BitVec.ofBool b).setWidth 32 <<< n

/-- The number of a result code (60_exceptions.md R320). -/
def Code.bits : Code → BitVec 4
  | .ok => 0
  | .busAbsent => 1
  | .collision => 2
  | .crcMismatch => 3
  | .convTimeout => 4
  | .unsupportedRes => 5
  | .complete => 6
  | .badIndex => 7
  | .illegalOp => 8

/-- The number of a conversion state (10_state.md R58). -/
def CState.bits : CState → BitVec 2
  | .idle => 0
  | .started => 1
  | .ready => 2
  | .timedOut => 3

/-- A resolution as the number of its bits, 9 to 12. -/
def Resolution.toNat : Resolution → Nat
  | .r9 => 9
  | .r10 => 10
  | .r11 => 11
  | .r12 => 12

/-- STATUS as a word (R45). -/
def Status.word (st : Status) : Word :=
  bitAt 0 st.busy ||| bitAt 1 st.done ||| bitAt 2 st.ovr ||| bitAt 3 st.presence ||| bitAt 4 st.rxbit |||
    bitAt 5 st.cevt ||| (st.err.bits.setWidth 32 <<< 8)

/-- A host write of `v` to STATUS: a 1 in DONE, OVR or CEVT clears that bit, every other bit is ignored (R45). -/
def Status.clearWritten (st : Status) (v : Word) : Status :=
  { st with
    done := st.done && !v.getLsbD 1
    ovr := st.ovr && !v.getLsbD 2
    cevt := st.cevt && !v.getLsbD 5 }

/-- CTRL as a word (R46). -/
def Ctrl.word (c : Ctrl) : Word := bitAt 0 c.doneIe ||| bitAt 1 c.cevtIe

/-- CTRL as a host write of `v` leaves it (R46). -/
def Ctrl.ofWord (v : Word) : Ctrl := ⟨v.getLsbD 0, v.getLsbD 1⟩

/-- SEARCH as a word: LD, LFD, LDF (R49). -/
def Session.searchWord (se : Session) : Word :=
  se.ld.setWidth 32 ||| (se.lfd.setWidth 32 <<< 8) ||| bitAt 16 se.ldf

/-- ENUMSTAT as a word (R55). -/
def EnumStat.word (e : EnumStat) : Word :=
  e.passes.setWidth 32 ||| (e.lastPassErr.bits.setWidth 32 <<< 8) ||| bitAt 12 e.trunc

/-- TBL_STAT as a word (R58). -/
def Entry.statWord (e : Entry) : Word :=
  e.cstate.bits.setWidth 32 ||| bitAt 4 e.tvalid ||| (BitVec.ofNat 32 e.res.toNat <<< 8)

/-- Bytes 0 to 3 of an identifier as a word (R50, R56). -/
def loWord (rom : Ident) : Word := rom.extractLsb' 0 32

/-- Bytes 4 to 7 of an identifier as a word (R50, R56). -/
def hiWord (rom : Ident) : Word := rom.extractLsb' 32 32

/-- An identifier whose bytes 0 to 3 are replaced by a host write (R56). -/
def withLoWord (rom : Ident) (v : Word) : Ident := hiWord rom ++ v

/-- An identifier whose bytes 4 to 7 are replaced by a host write (R56). -/
def withHiWord (rom : Ident) (v : Word) : Ident := v ++ loWord rom

/-- The interrupt output (R75, 60_exceptions.md R326): combinational, no state of its own. -/
def State.irq (s : State) : Bool := (s.status.done && s.ctrl.doneIe) || (s.status.cevt && s.ctrl.cevtIe)

/-- `ow_oe`, the pad output: 1 drives the line low (R41, R73). -/
def State.owOe (s : State) : Bool := s.pad

end Sys2Proof.Machine
end

