-- ==== Sys2Proof/Machine/Operands.lean ====
section
/-! DEFINITION. The operand forms and the data conversions of the commands: the table index, the resolution, the
alarm clamp, the configuration byte, the identifier's bytes and bit positions, and the temperature decoder
(30_encoding.md R132 to R135, R150 to R155, 42_enumeration.md R232, 43_sensor.md R272, R277 to R280, R305). -/

namespace Sys2Proof.Machine

/-- IDX as a table row: i = zext(IDX), 0 to 15 (R134). -/
def rowOf (idx : BitVec 4) : Fin 16 := idx.toFin

/-- Row `i` is a valid entry: i < DEVCNT.COUNT (10_state.md R60). -/
def State.validRow (s : State) (i : Fin 16) : Bool := i.val < s.count.toNat

/-- SEL and IDX name entry `i` among the targets: the one entry IDX with SEL = 1, every valid entry with SEL = 0
(43_sensor.md R285, R300). -/
def State.isTarget (s : State) (sel : Bool) (idx : BitVec 4) (i : Fin 16) : Bool :=
  if sel then i == rowOf idx else s.validRow i

/-- CMD.RES as a resolution: 9 to 12, anything else is none (R135). -/
def resolutionOf (res : BitVec 4) : Option Resolution :=
  match res.toNat with
  | 9 => some .r9
  | 10 => some .r10
  | 11 => some .r11
  | 12 => some .r12
  | _ => none

/-- The resolution a configuration byte carries: bits [6:5] + 9 (R152, R277, R281). -/
def resolutionOfConfig (b4 : Byte) : Resolution :=
  match (b4.extractLsb' 5 2).toNat with
  | 0 => .r9
  | 1 => .r10
  | 2 => .r11
  | _ => .r12

/-- CfgByte(r) = ((r − 9) << 5) | 0x1F (R280). -/
def cfgByte (r : Resolution) : Byte := (BitVec.ofNat 8 (r.toNat - 9) <<< 5) ||| 0x1F#8

/-- Clamp: a signed 16-bit threshold clamped to −55 to 125, as a two's-complement byte (R305). -/
def clampByte (v : BitVec 16) : Byte := BitVec.ofInt 8 (min (max v.toInt (-55)) 125)

/-- DUR(r) = 100 · 2^(r − 9) time-units (R272). -/
def Resolution.duration (r : Resolution) : Nat := 100 * 2 ^ (r.toNat - 9)

/-- Byte `k` of an identifier, bits [8k+7 : 8k] (R150). -/
def romByte (rom : Ident) (k : Nat) : Byte := rom.extractLsb' (8 * k) 8

/-- bit(rom, k), 1 ≤ k ≤ 64: bit (k−1) mod 8 of byte (k−1) div 8 (R232). -/
def romBit (rom : Ident) (k : Nat) : Bool := (romByte rom ((k - 1) / 8)).getLsbD ((k - 1) % 8)

/-- The identifier with bit(rom, k) replaced by `b` (R232, R233). -/
def setRomBit (rom : Ident) (k : Nat) (b : Bool) : Ident :=
  if b then rom ||| (1#64 <<< (k - 1)) else rom &&& ~~~(1#64 <<< (k - 1))

/-- The magnitude of the raw temperature, 0 to 32768 (R277, R278). -/
def rawMagnitude (raw : Nat) : Nat := if 32768 ≤ raw then 65536 - raw else raw

/-- The centidegrees of a magnitude at resolution `r`, the fraction floored (R277, R279). -/
def magnitudeCenti (mag r : Nat) : Nat :=
  let f := r - 8
  let fc := mag / 2 ^ (12 - r) % 2 ^ f
  mag / 16 * 100 + fc * 100 / 2 ^ f

/-- The centidegrees of Decode(b0, b1, b4) on unbounded integers; the sign is applied last (R277, R278). -/
def decodeCenti (b0 b1 b4 : Byte) : Int :=
  let raw := b1.toNat * 256 + b0.toNat
  let v := magnitudeCenti (rawMagnitude raw) (resolutionOfConfig b4).toNat
  if 32768 ≤ raw then -(v : Int) else (v : Int)

end Sys2Proof.Machine
end

