-- ==== Sys2Proof/Machine/Supervisor.lean ====
section
/-! DEFINITION. The conversion timing supervisor (43_sensor.md R270 to R273) and the device table as a whole. -/

namespace Sys2Proof.Machine

/-- A device table changed entry by entry. -/
def mapTable (f : Fin 16 → Entry → Entry) (t : Vector Entry 16) : Vector Entry 16 :=
  #v[f 0 t[0], f 1 t[1], f 2 t[2], f 3 t[3], f 4 t[4], f 5 t[5], f 6 t[6], f 7 t[7],
     f 8 t[8], f 9 t[9], f 10 t[10], f 11 t[11], f 12 t[12], f 13 t[13], f 14 t[14], f 15 t[15]]

/-- Some entry of a device table, with its row number, satisfies `p`. -/
def anyRow (p : Fin 16 → Entry → Bool) (t : Vector Entry 16) : Bool :=
  p 0 t[0] || p 1 t[1] || p 2 t[2] || p 3 t[3] || p 4 t[4] || p 5 t[5] || p 6 t[6] || p 7 t[7] ||
    p 8 t[8] || p 9 t[9] || p 10 t[10] || p 11 t[11] || p 12 t[12] || p 13 t[13] || p 14 t[14] || p 15 t[15]

/-- ELAPSED one tick later: saturating at 2^32 − 1 (10_state.md R59). -/
def nextElapsed (e : BitVec 32) : BitVec 32 := if e = BitVec.allOnes 32 then e else e + 1

/-- CSTATE of a started entry at a tick, from its stepped ELAPSED: Ready once the resolution's duration has elapsed,
else TimedOut once a non-zero budget has, else still started (R271; Ready wins, R273). The products are exact. -/
def supervisedState (unit : Nat) (budget : BitVec 22) (res : Resolution) (elapsed : BitVec 32) : CState :=
  if res.duration * unit ≤ elapsed.toNat then .ready
  else if budget ≠ 0 ∧ budget.toNat * unit ≤ elapsed.toNat then .timedOut
  else .started

/-- SupervisorTick of an entry, as the step it will make: none unless its conversion has started (R271). -/
def supStep (unit : Nat) (budget : BitVec 22) (e : Entry) : Option SupStep :=
  if e.cstate = .started then
    some ⟨nextElapsed e.elapsed, supervisedState unit budget e.res (nextElapsed e.elapsed)⟩
  else none

/-- The supervisor's step of row `i` at a tick: only valid entries are stepped (R271). -/
def State.supStepAt (s : State) (i : Fin 16) (e : Entry) : Option SupStep :=
  if s.validRow i then supStep s.params.convUnitUs s.budget e else none

/-- An entry with its pending supervisor step landed; TimedOut clears TVALID and leaves TEMP (R271). -/
def Entry.settle (e : Entry) : Entry :=
  match e.sup with
  | none => e
  | some u =>
    { e with
      elapsed := u.elapsed
      cstate := u.next
      tvalid := if u.next = .timedOut then false else e.tvalid
      sup := none }

/-- The pending supervisor step takes the entry out of ConversionStarted: it sets CEVT (R271). -/
def Entry.supEvent (e : Entry) : Bool :=
  match e.sup with
  | none => false
  | some u => u.next != .started

end Sys2Proof.Machine
end

