-- ==== Sys2Proof/Machine/Ops.lean ====
section
/-! DEFINITION. The shared operations: the register window, one clock cycle (host port, prescaler, NOW, supervisor),
the passing of ticks while a command runs, block reset, and the acceptance and completion of a command
(10_state.md R42 to R62, 20_memory.md R100 to R106, 40_transport.md R175 to R177, 43_sensor.md R273, 60_exceptions.md
R321, R322, 70_reset_and_hazards.md R350 to R352). The block has no trap: completion with a result code stands where
another machine takes an exception (60_exceptions.md R327). -/

namespace Sys2Proof.Machine

/-! ### The register window -/

/-- The registers of the map (10_state.md R43). -/
inductive Reg where
  | cmd | status | ctrl | rxdata | crc | search | romLo | romHi | timeout | alarm | now | devcnt | enumstat
  | tblRomLo (i : Fin 16) | tblRomHi (i : Fin 16) | tblTemp (i : Fin 16) | tblStat (i : Fin 16)
deriving DecidableEq, Repr

/-- A register of table row `i`, by the low four bits of its offset. -/
def rowRegAt (i : Fin 16) (low : Nat) : Option Reg :=
  match low with
  | 0x0 => some (.tblRomLo i)
  | 0x4 => some (.tblRomHi i)
  | 0x8 => some (.tblTemp i)
  | 0xC => some (.tblStat i)
  | _ => none

/-- A register below the table, by its offset. -/
def lowRegAt (off : Nat) : Option Reg :=
  match off with
  | 0x000 => some .cmd
  | 0x004 => some .status
  | 0x008 => some .ctrl
  | 0x00C => some .rxdata
  | 0x010 => some .crc
  | 0x014 => some .search
  | 0x018 => some .romLo
  | 0x01C => some .romHi
  | 0x020 => some .timeout
  | 0x024 => some .alarm
  | 0x028 => some .now
  | 0x02C => some .devcnt
  | 0x030 => some .enumstat
  | _ => none

/-- The register map (R43): none where the offset is unmapped; table rows exist for i < MAX_DEVICES. -/
def regAt (maxDevices : Nat) (off : Offset) : Option Reg :=
  if off.getLsbD 8 then
    let i : Fin 16 := rowOf (off.extractLsb' 4 4)
    if i.val < maxDevices then rowRegAt i (off.extractLsb' 0 4).toNat else none
  else lowRegAt off.toNat

/-- A write to the register while BUSY = 1 is dropped (10_state.md R61). -/
def Reg.locked : Reg → Bool
  | .cmd => true
  | .crc => true
  | .alarm => true
  | .devcnt => true
  | .tblRomLo _ => true
  | .tblRomHi _ => true
  | .status => false
  | .ctrl => false
  | .rxdata => false
  | .search => false
  | .romLo => false
  | .romHi => false
  | .timeout => false
  | .now => false
  | .enumstat => false
  | .tblTemp _ => false
  | .tblStat _ => false

/-- A read of the register while BUSY = 1 returns an unspecified value (10_state.md R62). -/
def Reg.hiddenWhileBusy : Reg → Bool
  | .rxdata => true
  | .crc => true
  | .search => true
  | .romLo => true
  | .romHi => true
  | .devcnt => true
  | .enumstat => true
  | .tblRomLo _ => true
  | .tblRomHi _ => true
  | .tblTemp _ => true
  | .tblStat _ => true
  | .cmd => false
  | .status => false
  | .ctrl => false
  | .timeout => false
  | .alarm => false
  | .now => false

/-- The value a register holds, reserved bits 0 (R44 to R58, 20_memory.md R102). -/
def State.regValue (s : State) : Reg → Word
  | .cmd => 0
  | .status => s.status.word
  | .ctrl => s.ctrl.word
  | .rxdata => s.rxdata.setWidth 32
  | .crc => s.crc.setWidth 32
  | .search => s.session.searchWord
  | .romLo => loWord s.session.rombuf
  | .romHi => hiWord s.session.rombuf
  | .timeout => s.budget.setWidth 32
  | .alarm => s.alarm
  | .now => s.now
  | .devcnt => s.count.setWidth 32
  | .enumstat => s.enumstat.word
  | .tblRomLo i => loWord s.table[i].rom
  | .tblRomHi i => hiWord s.table[i].rom
  | .tblTemp i => s.table[i].temp
  | .tblStat i => s.table[i].statWord

/-- The word the window holds at an offset; 0 where it is unmapped (20_memory.md R102). -/
def State.windowWord (s : State) (off : Offset) : Word :=
  match regAt s.params.maxDevices off with
  | none => 0
  | some r => s.regValue r

/-- The byte the window holds at an offset: bits [7:0] of a register at its offset + 0 (20_memory.md R103). -/
def State.windowByte (s : State) (off : Offset) : Byte :=
  (s.windowWord (off &&& 0x1FC#9)).extractLsb' (8 * (off.toNat % 4)) 8

/-- The state with one free value taken. -/
def State.takeDraw (s : State) : State := { s with env := { s.env with draws := s.env.draws + 1 } }

/-- A read of the register window is answered: `v` at `off` goes to the host. -/
def State.answer (s : State) (off : Offset) (v : Word) : State :=
  { s with env := { s.env with reads := (off, v) :: s.env.reads } }

/-- A read that returns an unspecified value, a free value (10_state.md R62). -/
def State.readsUnspecified (s : State) (off : Offset) : Bool :=
  match regAt s.params.maxDevices off with
  | none => false
  | some r => s.status.busy && r.hiddenWhileBusy

/-- A host read of the window: no state of the block changes (20_memory.md R104). -/
def hostRead (off : Offset) (s : State) : State :=
  if s.readsUnspecified off then s.takeDraw.answer off (Config.busyRead s.env.draws)
  else s.answer off (s.windowWord off)

/-- The state with the entry of row `i` changed. -/
def State.setEntry (s : State) (i : Fin 16) (f : Entry → Entry) : State :=
  { s with table := s.table.set i (f s.table[i]) }

/-- STATUS.OVR <- 1 (10_state.md R61). -/
def State.setOvr (s : State) : State := { s with status := { s.status with ovr := true } }

/-- DEVCNT as a host write of `v` leaves it: min(v[4:0], MAX_DEVICES) (10_state.md R54). -/
def clampCount (maxDevices : Nat) (v : Word) : BitVec 5 := BitVec.ofNat 5 (min (v.extractLsb' 0 5).toNat maxDevices)

/-- A write that is taken (10_state.md R43 to R58). A write to CMD that is accepted starts a command, which `step`
runs; nothing of it is done here. -/
def writeTaken (r : Reg) (v : Word) (s : State) : State :=
  match r with
  | .cmd => s
  | .status => { s with status := s.status.clearWritten v }
  | .ctrl => { s with ctrl := Ctrl.ofWord v }
  | .rxdata => s
  | .crc => { s with crc := v.extractLsb' 0 8 }
  | .search => s
  | .romLo => s
  | .romHi => s
  | .timeout => { s with budget := v.extractLsb' 0 22 }
  | .alarm => { s with alarm := v }
  | .now => s
  | .devcnt => { s with count := clampCount s.params.maxDevices v }
  | .enumstat => s
  | .tblRomLo i => s.setEntry i fun e => { e with rom := withLoWord e.rom v }
  | .tblRomHi i => s.setEntry i fun e => { e with rom := withHiWord e.rom v }
  | .tblTemp _ => s
  | .tblStat _ => s

/-- A host write to a mapped register: dropped with OVR where it is locked and BUSY = 1 (10_state.md R61). -/
def writeReg (r : Reg) (v : Word) (s : State) : State :=
  if s.status.busy && r.locked then s.setOvr else writeTaken r v s

/-- A host write to an offset of the window; a write to an unmapped offset changes nothing (20_memory.md R102). -/
def hostWrite (off : Offset) (v : Word) (s : State) : State :=
  match regAt s.params.maxDevices off with
  | none => s
  | some r => writeReg r v s

/-! ### Host accesses -/

/-- The byte offset of an access. -/
def Access.off : Access → Offset
  | .read off _ => off
  | .write off _ _ => off

/-- The size of an access in bytes. -/
def Access.size : Access → Nat
  | .read _ size => size
  | .write _ size _ => size

/-- Whether an access writes. -/
def Access.writes : Access → Bool
  | .read _ _ => false
  | .write _ _ _ => true

/-- An aligned 32-bit access, the only kind the block defines (20_memory.md R101). -/
def Access.defined (a : Access) : Bool := a.size == 4 && a.off &&& 3#9 == 0#9

/-- MemRead(addr, size) as an access of the block's host port: none where the address lies outside the window, which
the platform then takes elsewhere (R17, 20_memory.md R100). -/
def memRead (p : Params) (addr size : Nat) : Option Access :=
  if p.owmBase ≤ addr ∧ addr < p.owmBase + 512 then some (.read (BitVec.ofNat 9 (addr - p.owmBase)) size) else none

/-- MemWrite(addr, size, v) as an access of the block's host port (R17, 20_memory.md R100). -/
def memWrite (p : Params) (addr size : Nat) (v : Word) : Option Access :=
  if p.owmBase ≤ addr ∧ addr < p.owmBase + 512 then some (.write (BitVec.ofNat 9 (addr - p.owmBase)) size v) else none

/-- The port takes an access in the clock cycle now running: a write lands at once, a read waits for the cycle's end,
because it sees the state after the supervisor and the engine (20_memory.md R116). -/
def takeAccess (a : Access) (s : State) : State :=
  match a with
  | .read off _ => { s with env := { s.env with pend := some off } }
  | .write off _ v => hostWrite off v s

/-! ### One clock cycle -/

/-- `tick_us` is asserted in the cycle in which PRESC = CYC_PER_US − 1 (10_state.md R42). -/
def State.isTick (s : State) : Bool := s.params.cycPerUs ≤ s.presc + 1

/-- The start of a clock cycle: PRESC counts, NOW and x.PCNT count ticks, and at a tick the supervisor computes its
steps from the state as it is at the start of the cycle (10_state.md R42, R53, R72, 43_sensor.md R271, R273). -/
def openCycle (s : State) : State :=
  { s with
    presc := if s.isTick then 0 else s.presc + 1
    now := if s.isTick then s.now + 1 else s.now
    pcnt := if s.isTick && s.ph != .idle then s.pcnt - 1 else s.pcnt
    table := mapTable (fun i e => { e with sup := if s.isTick then s.supStepAt i e else none }) s.table }

/-- The supervisor's steps land on the entries the engine has not written in the cycle; leaving ConversionStarted
sets CEVT, which wins over a host clear of the same cycle (43_sensor.md R271, R273). -/
def settleSupervisor (s : State) : State :=
  { s with
    table := mapTable (fun _ e => e.settle) s.table
    status := { s.status with cevt := s.status.cevt || anyRow (fun _ e => e.supEvent) s.table } }

/-- The pending read is answered from the state after the supervisor and the engine (20_memory.md R116). -/
def settleRead (s : State) : State :=
  match s.env.pend with
  | none => s
  | some off => hostRead off { s with env := { s.env with pend := none } }

/-- The end of a clock cycle. -/
def closeCycle (s : State) : State := settleRead (settleSupervisor s)

/-- The state with the host's coming acts replaced. -/
def State.withHost (s : State) (h : List HostEvent) : State := { s with env := { s.env with host := h } }

/-- Block reset: every state element at its value of 10_state.md R78 at once, the line released, a running command
abandoned (70_reset_and_hazards.md R350, R351). The devices, and so the environment's answers, are not reached
(R353); nor is what the host has done and will do. -/
def blockReset (s : State) : State :=
  { State.reset with
    params := s.params
    env := { s.env with pend := none, wave := ⟨.idle, s.now, 0⟩ :: s.env.wave } }

/-! ### Ticks while a command runs -/

/-- What ends the engine's pseudocode early. -/
inductive Cut where
  /-- A block reset (60_exceptions.md R329, 70_reset_and_hazards.md R351). -/
  | reset
  /-- A host access that is not defined comes due: the step is refused (20_memory.md R101; U1). -/
  | bad (a : Access)
deriving DecidableEq, Repr

/-- The engine's pseudocode runs on the state, and ends early only where it is cut. -/
abbrev Engine := EStateM Cut State

/-- A host access that is not defined is refused, as a fault naming the access (20_memory.md R101; U1). -/
def refuseAccess (a : Access) : Host.Outcome State Fault Refusal := .fault (.badAccess a.writes a.off a.size)

/-- Clock cycles left before the cycle of the next tick. -/
def State.cyclesToTick (s : State) : Nat := s.params.cycPerUs - 1 - s.presc

/-- `n` clock cycles pass in which nothing happens: no act of the host and no tick. -/
def State.passCycles (s : State) (n : Nat) : State := { s with presc := s.presc + n }

/-- From the end of a clock cycle to the next tick's cycle, which stays open for the engine. `h` is the host's coming
acts; those that fall before the tick, or in its cycle, are taken in their own cycles (20_memory.md R105, R113). A
block reset ends the command there (R351), and an access that is not defined ends the run there (R101). -/
def toTick (h : List HostEvent) (s : State) : EStateM.Result Cut State Unit :=
  match h with
  | [] => .ok () (openCycle (s.passCycles s.cyclesToTick))
  | e :: es =>
    if s.cyclesToTick < e.gap then
      .ok () (openCycle ((s.passCycles s.cyclesToTick).withHost (⟨e.gap - (s.cyclesToTick + 1), e.act⟩ :: es)))
    else
      match e.act with
      | .reset => .error .reset (blockReset (s.withHost es))
      | .access a =>
        if a.defined then
          let s' := takeAccess a (openCycle ((s.passCycles e.gap).withHost es))
          if e.gap = s.cyclesToTick then .ok () s' else toTick es (closeCycle s')
        else .error (.bad a) s

/-- The engine waits for the next tick: the cycle now running ends, and the next tick's cycle begins. -/
def nextTick : Engine Unit := fun s => toTick (closeCycle s).env.host (closeCycle s)

/-- The engine waits for `n` ticks. -/
def ticks : Nat → Engine Unit
  | 0 => pure ()
  | n + 1 => do
    nextTick
    ticks n

/-! ### Phases and samples -/

/-- A phase of `n` ticks is entered: PAD takes the phase's level (40_transport.md R170, R175). x.PCNT has 32 bits and
R13 does not bound every duration: a duration of 2^32 ticks or more is in x.PCNT modulo 2^32. DESIGN CHOICE (log
entry 20), unsafe for such durations only. -/
def enterPhase (ph : Phase) (n : Nat) (s : State) : State :=
  { s with
    ph := ph
    pcnt := BitVec.ofNat 32 n
    pad := ph.drivesLow
    seq := s.seq.map (· + 1)
    env := { s.env with wave := ⟨ph, s.now, n⟩ :: s.env.wave } }

/-- Drive(level, t): the phase is held for exactly `dur` ticks; a phase of duration 0 is skipped (R18, 40_transport.md
R170, R175). A duration of 2^32 ticks or more is held for all its ticks although x.PCNT does not hold it (log entry
20). -/
def drive (ph : Phase) (dur : Params → Nat) : Engine Unit := fun s =>
  if dur s.params = 0 then .ok () s else ticks (dur s.params) (enterPhase ph (dur s.params) s)

/-- The line level the bus environment answers next (R22). -/
def State.nextLevel (s : State) : Bool :=
  match s.env.bus with
  | b :: _ => b
  | [] => Config.lineLevel s.env.draws s.env.wave

/-- The state with the environment's next answer taken. -/
def State.takeLevel (s : State) : State :=
  match s.env.bus with
  | _ :: bs => { s with env := { s.env with bus := bs } }
  | [] => s.takeDraw

/-- Sample(): the wired-AND of the environment's level and the master's own drive (R22, R28, 40_transport.md R176). -/
def sample : Engine Bool := fun s => .ok (s.nextLevel && !s.pad) s.takeLevel

/-! ### Acceptance and completion -/

/-- x.CMDW <- w: the command word is latched (60_exceptions.md R321). -/
def latchCommand (w : Word) (s : State) : State := { s with x := { s.x with cmdw := w } }

/-- The acceptance cycle (60_exceptions.md R321): x.ALW <- ALARM, BUSY <- 1, x.SEQ leaves IDLE. DONE and ERR keep
their values. If the cycle is a tick it still counts for NOW and the supervisor; the command starts at a later one. -/
def accept (s : State) : State :=
  { openCycle s with
    x := { s.x with alw := s.alarm }
    status := { s.status with busy := true }
    seq := some 0 }

/-- finish(code) (R19, 60_exceptions.md R322). The working registers keep what the command left in them, and x.PCNT too:
R70 leaves x[...] unspecified outside the command that uses them. DESIGN CHOICE (log entry 21), unsafe. -/
def complete (code : Code) (s : State) : State :=
  { s with
    status := { s.status with err := code, done := true, busy := false }
    seq := none
    ph := .idle
    pad := false }

/-- One command from its acceptance cycle to the end of its finish cycle, or to the block reset that cuts it short, or
to the access that is refused (40_transport.md R177, 60_exceptions.md R329, 20_memory.md R101): it starts at the first
tick strictly after acceptance. -/
def runCommand (body : Engine Code) (s : State) : Host.Outcome State Fault Refusal :=
  match (nextTick >>= fun _ => body) (accept s) with
  | .ok code t => .next (closeCycle (complete code t))
  | .error .reset t => .next t
  | .error (.bad a) _ => refuseAccess a

/-- An illegal command word, accepted: it does nothing and finishes with ILLEGAL_OP (30_encoding.md R136, R137). -/
def runIllegal (s : State) : Host.Outcome State Fault Refusal := runCommand (pure .illegalOp) s

/-! ### What the block does in its next clock cycle when no command is running -/

/-- What is due at the block's pins in its next clock cycle. -/
inductive Due where
  /-- Nothing. -/
  | quiet
  /-- `rst_n` is low. -/
  | reset
  /-- An access that is not defined (20_memory.md R101). -/
  | bad (a : Access)
  /-- A write of a command word to CMD with BUSY = 0, which is accepted (60_exceptions.md R321). -/
  | command (w : Word)
  /-- Any other access. -/
  | access (a : Access)
deriving DecidableEq, Repr

/-- A write to CMD's offset carries this command word. -/
def commandWord : Access → Option Word
  | .write off _ v => if off = 0 then some v else none
  | .read _ _ => none

/-- What the host's next act is, if it is due in the next clock cycle. -/
def State.due (s : State) : Due :=
  match s.env.host with
  | [] => .quiet
  | e :: _ =>
    match e.gap with
    | _ + 1 => .quiet
    | 0 =>
      match e.act with
      | .reset => .reset
      | .access a =>
        if a.defined then
          match commandWord a with
          | some w => if s.status.busy then .access a else .command w
          | none => .access a
        else .bad a

/-- The host's acts after one clock cycle without an act. -/
def afterQuiet : List HostEvent → List HostEvent
  | [] => []
  | e :: es => ⟨e.gap - 1, e.act⟩ :: es

/-- One clock cycle without an act of the host. -/
def quietCycle (s : State) : State := closeCycle (openCycle (s.withHost (afterQuiet s.env.host)))

/-- One clock cycle with a host access. -/
def accessCycle (a : Access) (s : State) : State :=
  closeCycle (takeAccess a (openCycle (s.withHost s.env.host.tail)))

/-- One clock cycle with `rst_n` low. -/
def resetCycle (s : State) : State := blockReset (s.withHost s.env.host.tail)

/-- The state in which the accepted command runs: its write is taken from the host's acts and its word latched. -/
def fetchCommand (w : Word) (s : State) : State := latchCommand w (s.withHost s.env.host.tail)

/-- The host's next act is a write of the table's word to CMD in the next clock cycle, and the block is idle to
accept it. -/
def placeCommand (nbits w : Nat) (s : State) : State :=
  { s with
    status := { s.status with busy := false }
    env := { s.env with host := ⟨0, .access (.write 0 4 (tableWord nbits w))⟩ :: s.env.host } }

end Sys2Proof.Machine
end

