-- ==== Sys2Proof/Machine/Line.lean ====
section
/-! DEFINITION. The slot and byte procedures: the only way any unit of the block touches the line (00_scope.md R18,
40_transport.md R171 to R174, R179). -/

namespace Sys2Proof.Machine

/-- STATUS.PRESENCE <- p, at the sample tick (40_transport.md R171). -/
def setPresence (p : Bool) (s : State) : State := { s with status := { s.status with presence := p } }

/-- STATUS.RXBIT <- b, at the sample tick (40_transport.md R183, 43_sensor.md R291). -/
def setRxbit (b : Bool) (s : State) : State := { s with status := { s.status with rxbit := b } }

/-- SlotReset: whether any device asserted presence; every reset slot writes STATUS.PRESENCE (R171). -/
def slotReset : Engine Bool := do
  drive .rstLow Params.tRstl
  drive .rstPds Params.tPds
  let level ← sample
  modify (setPresence !level)
  drive .rstRec Params.tRstRec
  pure !level

/-- The low time of a write slot (30_encoding.md R143). -/
def Params.lowTime (b : Bool) (p : Params) : Nat := if b then p.tW1l else p.tW0l

/-- SlotWrite: the low time encodes the bit, the slot length does not depend on it (R172). -/
def slotWrite (b : Bool) : Engine Unit := do
  drive .wLow (Params.lowTime b)
  drive .wRel fun p => p.tWslot - Params.lowTime b p

/-- SlotRead with what is done with the bit at its sample tick (R173). -/
def slotReadWith (atSample : Bool → State → State) : Engine Bool := do
  drive .rLow Params.tRl
  drive .rSmp Params.tRs
  let level ← sample
  modify (atSample level)
  drive .rRec fun p => p.tRslot - p.tRl - p.tRs
  pure level

/-- SlotRead: the bit is the sampled level (R173, 30_encoding.md R144). -/
def slotRead : Engine Bool := slotReadWith fun _ s => s

/-- The bit indexes of a byte, in their order on the line (20_memory.md R109). -/
def bitIndexes : List Nat := [0, 1, 2, 3, 4, 5, 6, 7]

/-- x.SH <- v, before a byte is sent or received (10_state.md R70). -/
def loadShift (v : Byte) (s : State) : State := { s with x := { s.x with sh := v } }

/-- x.BIT <- j (10_state.md R70). -/
def setBitIndex (j : Nat) (s : State) : State := { s with x := { s.x with bit := BitVec.ofNat 3 j } }

/-- x.SH[j] <- b, where x.SH[j] is 0. -/
def storeBit (j : Nat) (b : Bool) (s : State) : State :=
  { s with x := { s.x with sh := s.x.sh ||| ((BitVec.ofBool b).setWidth 8 <<< j) } }

/-- Bits of `v` are sent, one write slot each. -/
def sendBits (v : Byte) : List Nat → Engine Unit
  | [] => pure ()
  | j :: js => do
    modify (setBitIndex j)
    slotWrite (v.getLsbD j)
    sendBits v js

/-- SendByte: eight write slots, bit 0 first (R174). -/
def sendByte (v : Byte) : Engine Unit := do
  modify (loadShift v)
  sendBits v bitIndexes

/-- Bits are received into x.SH, one read slot each. -/
def recvBits : List Nat → Engine Unit
  | [] => pure ()
  | j :: js => do
    modify (setBitIndex j)
    let b ← slotRead
    modify (storeBit j b)
    recvBits js

/-- RecvByte: eight read slots, bit 0 first, from v = 0x00 (R174, 30_encoding.md R146). -/
def recvByte : Engine Byte := do
  modify (loadShift 0)
  recvBits bitIndexes
  let s ← get
  pure s.x.sh

/-- Bytes are sent one after another. -/
def sendBytes : List Byte → Engine Unit
  | [] => pure ()
  | v :: vs => do
    sendByte v
    sendBytes vs

/-- Wait(t): phase WAIT, the line released (40_transport.md R170, 43_sensor.md R300). -/
def waitTicks (dur : Params → Nat) : Engine Unit := drive .wait dur

end Sys2Proof.Machine
end

