-- ==== Sys2Proof/Machine/Crc.lean ====
section
/-! DEFINITION. The CRC-8 unit and the commands CRC_CLEAR and CRC_BYTE (41_crc.md R210 to R217). -/

namespace Sys2Proof.Machine

/-- One input bit of crc8_step: `m` is the CRC's low bit XOR the input bit (R210). -/
def crcBit (c : Byte) (b : Bool) : Byte := if c.getLsbD 0 ^^ b then (c >>> 1) ^^^ 0x8C#8 else c >>> 1

/-- crc8_step: the eight bits of `v`, least significant first (R210). -/
def crc8Step (c v : Byte) : Byte :=
  crcBit (crcBit (crcBit (crcBit (crcBit (crcBit (crcBit (crcBit c (v.getLsbD 0)) (v.getLsbD 1)) (v.getLsbD 2))
    (v.getLsbD 3)) (v.getLsbD 4)) (v.getLsbD 5)) (v.getLsbD 6)) (v.getLsbD 7)

/-- crc8 of a byte sequence, from 0x00 with no final inversion (R211). -/
def crc8 (bs : List Byte) : Byte := bs.foldl crc8Step 0

/-- Bytes 0 to 6 of an identifier (R214). -/
def romBody (rom : Ident) : List Byte :=
  [romByte rom 0, romByte rom 1, romByte rom 2, romByte rom 3, romByte rom 4, romByte rom 5, romByte rom 6]

/-- An identifier is valid iff crc8 of bytes 0 to 6 is byte 7 (R214, 30_encoding.md R150). -/
def romValid (rom : Ident) : Bool := crc8 (romBody rom) == romByte rom 7

/-- Bytes 0 to 7 of a frame (R214). -/
def frameBody (sp : Vector Byte 9) : List Byte := [sp[0], sp[1], sp[2], sp[3], sp[4], sp[5], sp[6], sp[7]]

/-- A frame is valid iff crc8 of bytes 0 to 7 is byte 8 (R214, 43_sensor.md R276). -/
def frameValid (sp : Vector Byte 9) : Bool := crc8 (frameBody sp) == sp[8]

/-- x.C <- c: the working accumulator of the engine's own checks, which never touch CRC.ACC (10_state.md R48, R70). -/
def setWorkCrc (c : Byte) (s : State) : State := { s with x := { s.x with c := c } }

/-- CRC.ACC <- c. -/
def setCrc (c : Byte) (s : State) : State := { s with crc := c }

/-- CRC_CLEAR: CRC.ACC <- 0x00 (R216). -/
def crcClearBody : Engine Code := do
  modify (setCrc 0)
  pure .ok

/-- CRC_BYTE: CRC.ACC <- crc8_step(CRC.ACC, DATA) (R217). -/
def crcByteBody (data : Byte) : Engine Code := do
  modify fun s => setCrc (crc8Step s.crc data) s
  pure .ok

/-- The meaning of CRC_CLEAR. -/
def execCrcClear (s : State) : Host.Outcome State Fault Refusal := runCommand crcClearBody s

/-- The meaning of CRC_BYTE. -/
def execCrcByte (data : Byte) (s : State) : Host.Outcome State Fault Refusal := runCommand (crcByteBody data) s

end Sys2Proof.Machine
end

