-- ==== Sys2Proof/Machine/Search.lean ====
section
/-! DEFINITION. The enumeration engine: the search step, and the commands SEARCH_CLEAR, SEARCH_NEXT, SEARCH_FIRST and
ENUMERATE (42_enumeration.md R230 to R250). -/

namespace Sys2Proof.Machine

/-- The bus command byte SEARCH_ROM (30_encoding.md R147). -/
def searchRomByte : Byte := 0xF0

/-- SessionClear() (R231). -/
def clearSession (s : State) : State := { s with session := .clear }

/-- x.LASTZERO <- 0; x.LFDW <- LFD; x.NEWROM <- ROMBUF (R233). -/
def beginSearch (s : State) : State :=
  { s with x := { s.x with lastzero := 0, lfdw := s.session.lfd, newrom := s.session.rombuf } }

/-- The direction at a position where the two bits read are equal and not both 1: replay before the last
discrepancy, 1 at it, else 0 (R233 step 4, R236). -/
def discrepancyDirection (se : Session) (k : Nat) : Bool :=
  if k < se.ld.toNat then romBit se.rombuf k else k == se.ld.toNat

/-- The search direction at position `k` after the two bits are read (R233 steps 3 and 4). -/
def direction (se : Session) (k : Nat) (idb cmb : Bool) : Bool :=
  if idb != cmb then idb else discrepancyDirection se k

/-- x.POS <- k; x.IDB and x.CMB <- the two bits read (R233 step 1, R234). -/
def noteBits (k : Nat) (idb cmb : Bool) (s : State) : State :=
  { s with x := { s.x with pos := BitVec.ofNat 7 k, idb := idb, cmb := cmb } }

/-- x.DIR <- the search direction (R233 steps 3 and 4). -/
def noteDirection (k : Nat) (s : State) : State :=
  { s with x := { s.x with dir := direction s.session k s.x.idb s.x.cmb } }

/-- A direction 0 was taken at a discrepancy (R233 step 5). -/
def tookZero (s : State) : Bool := s.x.idb == s.x.cmb && !s.x.dir

/-- Step 5: position `k` is recorded in x.LASTZERO, and in x.LFDW within positions 1 to 8 (R233, R237). -/
def recordZero (k : Nat) (s : State) : State :=
  { s with
    x := { s.x with
      lastzero := BitVec.ofNat 7 k
      lfdw := if k ≤ 8 then BitVec.ofNat 4 k else s.x.lfdw } }

/-- Steps 3 to 5 at position `k` (R233). -/
def choose (k : Nat) (s : State) : State :=
  if tookZero (noteDirection k s) then recordZero k (noteDirection k s) else noteDirection k s

/-- bit(x.NEWROM, k) <- x.DIR (R233 step 6). -/
def storeDirection (k : Nat) (s : State) : State :=
  { s with x := { s.x with newrom := setRomBit s.x.newrom k s.x.dir } }

/-- The search positions from `k` on, `n` of them; false is the protocol error of step 2 (R233, R235). -/
def searchFrom : Nat → Nat → Engine Bool
  | 0, _ => pure true
  | n + 1, k => do
    let idb ← slotRead
    let cmb ← slotRead
    modify (noteBits k idb cmb)
    if idb && cmb then
      pure false
    else
      modify (choose k)
      let s ← get
      slotWrite s.x.dir
      modify (storeDirection k)
      searchFrom n (k + 1)

/-- The commit of a search step: ROMBUF, LD and LFD together, and LDF if LASTZERO = 0 (R233, R239). -/
def commitSearch (s : State) : State :=
  { s with
    session :=
      { ld := s.x.lastzero
        lfd := s.x.lfdw
        ldf := s.session.ldf || s.x.lastzero == 0
        rombuf := s.x.newrom } }

/-- The end of a search step: the assembled identifier's CRC decides (R233, R239). -/
def endSearch : Engine Code := do
  modify fun s => setWorkCrc (crc8 (romBody s.x.newrom)) s
  let s ← get
  if romValid s.x.newrom then
    modify commitSearch
    pure .ok
  else
    modify clearSession
    pure .crcMismatch

/-- SearchStep(): one call of the source's search() (R233). -/
def searchStep : Engine Code := do
  let s ← get
  if s.session.ldf then
    pure .complete
  else
    let present ← slotReset
    if !present then
      modify clearSession
      pure .busAbsent
    else
      sendByte searchRomByte
      modify beginSearch
      let found ← searchFrom 64 1
      if !found then
        modify clearSession
        pure .collision
      else
        endSearch

/-- SEARCH_CLEAR (R240). -/
def searchClearBody : Engine Code := do
  modify clearSession
  pure .ok

/-- SEARCH_NEXT (R241). -/
def searchNextBody : Engine Code := searchStep

/-- SEARCH_FIRST (R242). -/
def searchFirstBody : Engine Code := do
  modify clearSession
  searchStep

/-- x.PASS <- x.PASS + 1; SessionClear(); x.K <- 0 (R250). x.PASS has 8 bits and R13 does not bound ENUM_RETRIES: the
count is modulo 256. DESIGN CHOICE (log entry 2), unsafe for ENUM_RETRIES above 255 only. -/
def beginPass (s : State) : State :=
  clearSession { s with x := { s.x with pass := s.x.pass + 1, k := 0 } }

/-- An entry as ENUMERATE writes it (R250). -/
def freshEntry (rom : Ident) : Entry := { Entry.reset with rom := rom }

/-- TBL[x.K] is written from ROMBUF and re-initialised; x.K <- x.K + 1 (R250). The engine's write wins over the
supervisor's step of the same cycle (43_sensor.md R273). -/
def storeRow (s : State) : State :=
  let s' := s.setEntry (rowOf (s.x.k.setWidth 4)) fun _ => freshEntry s.session.rombuf
  { s' with x := { s'.x with k := s.x.k + 1 } }

/-- The inner loop of ENUMERATE with `n` table rows left: its code, and whether the table was full before the last
device (R250). -/
def enumDevices : Nat → Engine (Code × Bool)
  | 0 => pure (.ok, true)
  | n + 1 => do
    let code ← searchStep
    if code != .ok then
      pure (code, false)
    else
      modify storeRow
      let s ← get
      if s.session.ldf then pure (.ok, false) else enumDevices n

/-- DEVCNT.COUNT and ENUMSTAT at the end of an ENUMERATE (R250). -/
def commitEnum (count : BitVec 5) (err : Code) (trunc : Bool) (s : State) : State :=
  { s with count := count, enumstat := ⟨s.x.pass, err, trunc⟩ }

/-- The passes of ENUMERATE: this one and `n` more, after a pass whose code was `lastErr` (R250). It ends after
ENUM_RETRIES passes also where x.PASS does not hold that number (log entry 2). -/
def enumPasses : Nat → Code → Engine Code
  | n, lastErr => do
    modify beginPass
    let s ← get
    let (code, trunc) ← enumDevices s.params.maxDevices
    if code == .ok then
      modify fun s => commitEnum s.x.k lastErr trunc s
      pure .ok
    else
      match n with
      | 0 =>
        modify (commitEnum 0 code false)
        pure .busAbsent
      | n + 1 => enumPasses n code

/-- ENUMERATE (R250): at most ENUM_RETRIES passes. -/
def enumerateBody : Engine Code := do
  modify fun s => { s with x := { s.x with pass := 0 } }
  let s ← get
  enumPasses (s.params.enumRetries - 1) .ok

/-- The meaning of SEARCH_CLEAR. -/
def execSearchClear (s : State) : Host.Outcome State Fault Refusal := runCommand searchClearBody s

/-- The meaning of SEARCH_NEXT. -/
def execSearchNext (s : State) : Host.Outcome State Fault Refusal := runCommand searchNextBody s

/-- The meaning of SEARCH_FIRST. -/
def execSearchFirst (s : State) : Host.Outcome State Fault Refusal := runCommand searchFirstBody s

/-- The meaning of ENUMERATE. -/
def execEnumerate (s : State) : Host.Outcome State Fault Refusal := runCommand enumerateBody s

end Sys2Proof.Machine
end

