-- ==== Sys2Proof/Machine/Sensor.lean ====
section
/-! DEFINITION. The temperature sensor command sequencer: CONVERT, CONV_POLL, READ_TEMP and CONFIGURE (43_sensor.md
R274 to R300). -/

namespace Sys2Proof.Machine

/-! ### The bus command bytes (30_encoding.md R147) -/

def matchRomByte : Byte := 0x55
def skipRomByte : Byte := 0xCC
def convertTByte : Byte := 0x44
def readScratchpadByte : Byte := 0xBE
def writeScratchpadByte : Byte := 0x4E
def copyScratchpadByte : Byte := 0x48

/-- The bytes of a selection: SKIP_ROM, or MATCH_ROM and the identifier, byte 0 first (R274, 30_encoding.md R148). -/
def selectBytes (sel : Bool) (rom : Ident) : List Byte :=
  if sel then
    [matchRomByte, romByte rom 0, romByte rom 1, romByte rom 2, romByte rom 3, romByte rom 4, romByte rom 5,
      romByte rom 6, romByte rom 7]
  else [skipRomByte]

/-- Select(sel, i) (R274). -/
def select (sel : Bool) (idx : BitVec 4) : Engine Unit := do
  let s ← get
  sendBytes (selectBytes sel s.table[rowOf idx].rom)

/-- x.SP[k] <- v. -/
def storeFrameByte (k : Fin 9) (v : Byte) (s : State) : State := { s with x := { s.x with sp := s.x.sp.set k v } }

/-- Bytes of a frame are received into x.SP. -/
def recvFrame : List (Fin 9) → Engine Unit
  | [] => pure ()
  | k :: ks => do
    let v ← recvByte
    modify (storeFrameByte k v)
    recvFrame ks

/-- ReadFrame(): READ_SCRATCHPAD, then nine bytes, byte 0 first (R275, 20_memory.md R111). -/
def readFrame : Engine Unit := do
  sendByte readScratchpadByte
  recvFrame [0, 1, 2, 3, 4, 5, 6, 7, 8]

/-- FrameValid(), with the working accumulator x.C (R276). -/
def checkFrame : Engine Bool := do
  modify fun s => setWorkCrc (crc8 (frameBody s.x.sp)) s
  let s ← get
  pure (frameValid s.x.sp)

/-- SEL = 1 and IDX names no valid entry (R285, R300). -/
def State.badTarget (s : State) (sel : Bool) (idx : BitVec 4) : Bool := sel && !s.validRow (rowOf idx)

/-- CSTATE <- ConversionStarted; ELAPSED <- 0 (R285). The engine's write wins over the supervisor's step of the same
cycle (R273, R286). -/
def Entry.start (e : Entry) : Entry := { e with cstate := .started, elapsed := 0, sup := none }

/-- The targets' conversions start, at the finish tick (R285, R286). -/
def startTargets (sel : Bool) (idx : BitVec 4) (s : State) : State :=
  { s with table := mapTable (fun i e => if s.isTarget sel idx i then e.start else e) s.table }

/-- CONVERT (R285). -/
def convertBody (sel : Bool) (idx : BitVec 4) : Engine Code := do
  let s ← get
  if s.badTarget sel idx then
    pure .badIndex
  else
    let present ← slotReset
    if !present then
      pure .busAbsent
    else
      select sel idx
      sendByte convertTByte
      modify (startTargets sel idx)
      pure .ok

/-- Row `i` is a valid entry whose conversion has started (R291). -/
def State.startedRow (s : State) (i : Fin 16) (e : Entry) : Bool := s.validRow i && e.cstate == .started

/-- Every valid started entry becomes Ready, and CEVT is set if there was one (R291). -/
def pollReady (s : State) : State :=
  { s with
    table := mapTable (fun i e => if s.startedRow i e then { e with cstate := .ready, sup := none } else e) s.table
    status := { s.status with cevt := s.status.cevt || anyRow s.startedRow s.table } }

/-- CONV_POLL (R291). -/
def convPollBody : Engine Code := do
  let b ← slotReadWith setRxbit
  if b then
    modify pollReady
    pure .ok
  else
    pure .ok

/-- TEMP <- centi; TVALID <- 1; RES <- r, of entry IDX from the frame in x.SP (R296). -/
def storeReading (idx : BitVec 4) (s : State) : State :=
  s.setEntry (rowOf idx) fun e =>
    { e with
      temp := BitVec.ofInt 32 (decodeCenti s.x.sp[0] s.x.sp[1] s.x.sp[4])
      tvalid := true
      res := resolutionOfConfig s.x.sp[4] }

/-- READ_TEMP (R296). -/
def readTempBody (sel : Bool) (idx : BitVec 4) : Engine Code := do
  let s ← get
  if !s.validRow (rowOf idx) then
    pure .badIndex
  else if s.table[rowOf idx].cstate != .ready then
    pure .convTimeout
  else
    let present ← slotReset
    if !present then
      pure .busAbsent
    else
      select sel idx
      readFrame
      let good ← checkFrame
      if !good then
        pure .crcMismatch
      else
        modify (storeReading idx)
        pure .ok

/-- x.SP[2] <- Clamp(TH); x.SP[3] <- Clamp(TL); x.SP[4] <- CfgByte(r), from the latched ALARM (R300). -/
def editFrame (r : Resolution) (s : State) : State :=
  { s with
    x := { s.x with
      sp := ((s.x.sp.set 2 (clampByte (s.x.alw.extractLsb' 16 16))).set 3
        (clampByte (s.x.alw.extractLsb' 0 16))).set 4 (cfgByte r) } }

/-- RES <- r of every target (R300). -/
def setTargetsRes (sel : Bool) (idx : BitVec 4) (r : Resolution) (s : State) : State :=
  { s with table := mapTable (fun i e => if s.isTarget sel idx i then { e with res := r } else e) s.table }

/-- Step 3 of CONFIGURE: commit (R300). -/
def configureCommit (sel : Bool) (idx : BitVec 4) (r : Resolution) : Engine Code := do
  let present ← slotReset
  if !present then
    pure .busAbsent
  else
    select sel idx
    sendByte copyScratchpadByte
    waitTicks Params.tCopyWait
    modify (setTargetsRes sel idx r)
    pure .ok

/-- Step 2 of CONFIGURE: write the three writable bytes, TH, TL and CFG (R300, R301). -/
def configureWrite (sel : Bool) (idx : BitVec 4) (r : Resolution) : Engine Code := do
  modify (editFrame r)
  let present ← slotReset
  if !present then
    pure .busAbsent
  else
    select sel idx
    let s ← get
    sendBytes [writeScratchpadByte, s.x.sp[2], s.x.sp[3], s.x.sp[4]]
    configureCommit sel idx r

/-- Step 1 of CONFIGURE: read (R300). -/
def configureRead (sel : Bool) (idx : BitVec 4) (r : Resolution) : Engine Code := do
  let present ← slotReset
  if !present then
    pure .busAbsent
  else
    select sel idx
    readFrame
    let good ← checkFrame
    if !good then
      pure .crcMismatch
    else
      configureWrite sel idx r

/-- CONFIGURE (R300): the resolution check comes before the index check (60_exceptions.md R323). -/
def configureBody (sel : Bool) (idx res : BitVec 4) : Engine Code :=
  match resolutionOf res with
  | none => pure .unsupportedRes
  | some r => do
    let s ← get
    if s.badTarget sel idx then pure .badIndex else configureRead sel idx r

/-- The meaning of CONVERT. -/
def execConvert (sel : Bool) (idx : BitVec 4) (s : State) : Host.Outcome State Fault Refusal :=
  runCommand (convertBody sel idx) s

/-- The meaning of CONV_POLL. -/
def execConvPoll (s : State) : Host.Outcome State Fault Refusal := runCommand convPollBody s

/-- The meaning of READ_TEMP. -/
def execReadTemp (sel : Bool) (idx : BitVec 4) (s : State) : Host.Outcome State Fault Refusal :=
  runCommand (readTempBody sel idx) s

/-- The meaning of CONFIGURE. -/
def execConfigure (sel : Bool) (idx res : BitVec 4) (s : State) : Host.Outcome State Fault Refusal :=
  runCommand (configureBody sel idx res) s

end Sys2Proof.Machine
end

