-- ==== Sys2Proof/Machine/Transport.lean ====
section
/-! DEFINITION. The transport commands NOP, RESET, WRITE_BIT, READ_BIT, WRITE_BYTE and READ_BYTE (40_transport.md
R180 to R185). The transport never raises a result code of its own (R178). -/

namespace Sys2Proof.Machine

/-- NOP: finish(OK) (R180). -/
def nopBody : Engine Code := pure .ok

/-- RESET: one reset slot; an absent presence is no error (R181). -/
def resetBody : Engine Code := do
  let _ ← slotReset
  pure .ok

/-- WRITE_BIT: one write slot of DATA[0] (R182). -/
def writeBitBody (data : Byte) : Engine Code := do
  slotWrite (data.getLsbD 0)
  pure .ok

/-- READ_BIT: one read slot into RXBIT (R183). -/
def readBitBody : Engine Code := do
  let _ ← slotReadWith setRxbit
  pure .ok

/-- WRITE_BYTE: one byte of DATA (R184). -/
def writeByteBody (data : Byte) : Engine Code := do
  sendByte data
  pure .ok

/-- RXDATA.BYTE <- v (R185, 10_state.md R47). -/
def setRxdata (v : Byte) (s : State) : State := { s with rxdata := v }

/-- READ_BYTE: one byte into RXDATA (R185). -/
def readByteBody : Engine Code := do
  let v ← recvByte
  modify (setRxdata v)
  pure .ok

/-- The meaning of NOP. -/
def execNop (s : State) : Host.Outcome State Fault Refusal := runCommand nopBody s

/-- The meaning of RESET. -/
def execReset (s : State) : Host.Outcome State Fault Refusal := runCommand resetBody s

/-- The meaning of WRITE_BIT. -/
def execWriteBit (data : Byte) (s : State) : Host.Outcome State Fault Refusal :=
  runCommand (writeBitBody data) s

/-- The meaning of READ_BIT. -/
def execReadBit (s : State) : Host.Outcome State Fault Refusal := runCommand readBitBody s

/-- The meaning of WRITE_BYTE. -/
def execWriteByte (data : Byte) (s : State) : Host.Outcome State Fault Refusal :=
  runCommand (writeByteBody data) s

/-- The meaning of READ_BYTE. -/
def execReadByte (s : State) : Host.Outcome State Fault Refusal := runCommand readByteBody s

end Sys2Proof.Machine
end

