-- ==== Sys2Proof/Machine/Dispatch.lean ====
section
/-! DEFINITION. One arm per command: each is the direct call of its meaning. -/

namespace Sys2Proof.Machine

/-- The meaning of every command, from its acceptance cycle to its finish cycle (30_encoding.md R131). -/
def exec (i : Instr) (s : State) : Host.Outcome State Fault Refusal :=
  match i with
  | .nop => Sys2Proof.Machine.execNop s
  | .reset => Sys2Proof.Machine.execReset s
  | .writeBit data => Sys2Proof.Machine.execWriteBit data s
  | .readBit => Sys2Proof.Machine.execReadBit s
  | .writeByte data => Sys2Proof.Machine.execWriteByte data s
  | .readByte => Sys2Proof.Machine.execReadByte s
  | .crcClear => Sys2Proof.Machine.execCrcClear s
  | .crcByte data => Sys2Proof.Machine.execCrcByte data s
  | .searchClear => Sys2Proof.Machine.execSearchClear s
  | .searchNext => Sys2Proof.Machine.execSearchNext s
  | .searchFirst => Sys2Proof.Machine.execSearchFirst s
  | .enumerate => Sys2Proof.Machine.execEnumerate s
  | .convert sel idx => Sys2Proof.Machine.execConvert sel idx s
  | .convPoll => Sys2Proof.Machine.execConvPoll s
  | .readTemp sel idx => Sys2Proof.Machine.execReadTemp sel idx s
  | .configure sel idx res => Sys2Proof.Machine.execConfigure sel idx res s

end Sys2Proof.Machine
end

