-- ==== Sys2Proof/Machine/Step.lean ====
section
/-! DEFINITION. One step: the block's next clock cycle, or, where the host's next act is a command word written to
CMD with BUSY = 0, that whole command from its acceptance cycle to its finish cycle. -/

namespace Sys2Proof.Machine

/-- One step (log entry 5): the host's due act decides (60_exceptions.md R321, 30_encoding.md R136, 20_memory.md
R101). -/
def step (s : State) : Host.Outcome State Fault Refusal :=
  match s.due with
  | .quiet => .next (quietCycle s)
  | .reset => .next (resetCycle s)
  | .bad a => refuseAccess a
  | .access a => .next (accessCycle a s)
  | .command w =>
    match decode w with
    | .command i => exec i (fetchCommand w s)
    | .illegal _ => runIllegal (fetchCommand w s)

/-- The table's word written to CMD in the next clock cycle (log entry 6): the very next step accepts and runs it. -/
def State.withFetchWord (s : State) (nbits w : Nat) : State := placeCommand nbits w s

end Sys2Proof.Machine
end

