-- ==== Sys2Proof/Safety.lean ====
section
/-! DEFINITION. The terms claims about the block use: what the host and the environment do during a run, the
waveform of a sequence of slots, and the invariant of the block between its clock cycles. Nothing here is part of the
machine. -/

namespace Sys2Proof.Machine

/-! ### The outside during a run -/

/-- An act that cuts no command short: a defined access. -/
def HostAct.calm : HostAct → Bool
  | .access a => a.defined
  | .reset => false

/-- Nothing the host does cuts a command short: none of its coming acts is a block reset (70_reset_and_hazards.md R351)
or an access that is not an aligned 32-bit one (20_memory.md R101). -/
def State.calm (s : State) : Bool := s.env.host.all fun e => e.act.calm

/-- `bits` are levels the bus environment may answer at the next samples: where `bus` lists an answer it is that one,
beyond the list any level (00_scope.md R22). -/
def answered : List Bool → List Bool → Prop
  | _, [] => True
  | [], _ :: _ => True
  | b :: bus, c :: cs => b = c ∧ answered bus cs

/-- The byte whose bit j is the j-th of eight bits, bit 0 first (30_encoding.md R146). -/
def byteOfBits (bits : List Bool) : Byte :=
  BitVec.ofNat 8 ((if bits.getD 0 false then 1 else 0) + (if bits.getD 1 false then 2 else 0) +
    (if bits.getD 2 false then 4 else 0) + (if bits.getD 3 false then 8 else 0) +
    (if bits.getD 4 false then 16 else 0) + (if bits.getD 5 false then 32 else 0) +
    (if bits.getD 6 false then 64 else 0) + (if bits.getD 7 false then 128 else 0))

/-- Nothing cuts the coming command and every sample falls in a phase in which the master releases the line: the host
does nothing that cuts it, the parameters are legal (00_scope.md R13), and T_RS is not 0 (log entry 12). -/
structure State.Undisturbed (s : State) : Prop where
  calm : s.calm = true
  legal : s.params.Legal
  samples : s.params.tRs ≠ 0

/-! ### What the passing of time may change -/

/-- What time may do to a table entry while no command writes it: the supervisor steps it only if it is valid and its
conversion has started (43_sensor.md R270, R271). `valid` says whether the entry is valid. -/
structure RowPasses (valid : Bool) (e e' : Entry) : Prop where
  rom : e'.rom = e.rom
  temp : e'.temp = e.temp
  res : e'.res = e.res
  held : e.cstate ≠ .started ∨ valid = false → e'.cstate = e.cstate ∧ e'.tvalid = e.tvalid ∧ e'.elapsed = e.elapsed
  moved : e.cstate = .started → e'.cstate ≠ .idle
  invalidated : e'.cstate = .timedOut → e.cstate = .timedOut ∨ e'.tvalid = false
  kept : e'.cstate ≠ .timedOut → e'.tvalid = e.tvalid

/-- The host has nothing coming and no read waiting. -/
def State.quiet (s : State) : Prop := s.env.host = [] ∧ s.env.pend = none

/-- What is as it was when only time has passed, the line has been used and the engine's working registers have been
written. A quiet host leaves what only it writes. -/
structure Keeps (s t : State) : Prop where
  params : t.params = s.params
  busy : t.status.busy = s.status.busy
  err : t.status.err = s.status.err
  rxdata : t.rxdata = s.rxdata
  crc : t.crc = s.crc
  session : t.session = s.session
  alarm : t.alarm = s.alarm
  count : t.count = s.count
  enumstat : t.enumstat = s.enumstat
  rows : ∀ i : Fin 16, RowPasses (s.validRow i) s.table[i] t.table[i]
  quiet : s.quiet → t.quiet ∧ t.ctrl = s.ctrl ∧ t.budget = s.budget ∧ t.status.ovr = s.status.ovr ∧
    t.status.done = s.status.done ∧ t.env.reads = s.env.reads
  cevt : s.quiet → s.status.cevt = true → t.status.cevt = true
  noEvent : s.quiet → (∀ i : Fin 16, s.validRow i = true → s.table[i].cstate ≠ .started) →
    t.status.cevt = s.status.cevt
  event : s.quiet → ∀ i : Fin 16, s.validRow i = true → s.table[i].cstate = .started →
    t.table[i].cstate ≠ .started → t.status.cevt = true

/-- What a whole command leaves as it was, apart from what the command itself writes: the registers `Keeps` speaks of
but the completion fields BUSY, DONE and ERR (60_exceptions.md R322). A quiet host leaves what only it writes. -/
structure Untouched (s t : State) : Prop where
  params : t.params = s.params
  rxdata : t.rxdata = s.rxdata
  crc : t.crc = s.crc
  session : t.session = s.session
  alarm : t.alarm = s.alarm
  count : t.count = s.count
  enumstat : t.enumstat = s.enumstat
  quiet : s.quiet → t.quiet ∧ t.ctrl = s.ctrl ∧ t.budget = s.budget ∧ t.status.ovr = s.status.ovr ∧
    t.env.reads = s.env.reads
  cevt : s.quiet → s.status.cevt = true → t.status.cevt = true

/-- Only the supervisor has stepped the device table: what it does to the entries, and to CEVT where the host leaves
CEVT alone (43_sensor.md R271). -/
structure Supervised (s t : State) : Prop where
  rows : ∀ i : Fin 16, RowPasses (s.validRow i) s.table[i] t.table[i]
  noEvent : s.quiet → (∀ i : Fin 16, s.validRow i = true → s.table[i].cstate ≠ .started) →
    t.status.cevt = s.status.cevt
  event : s.quiet → ∀ i : Fin 16, s.validRow i = true → s.table[i].cstate = .started →
    t.table[i].cstate ≠ .started → t.status.cevt = true

/-! ### What a command does to the engine's working registers (10_state.md R70) -/

/-- At most the byte registers x.SH and x.BIT differ. -/
def ByteRegsOnly (x y : Work) : Prop := ∃ sh bit, y = { x with sh := sh, bit := bit }

/-- At most the byte registers, the frame buffer and the working CRC differ. -/
def FrameRegsOnly (x y : Work) : Prop := ∃ sh bit sp c, y = { x with sh := sh, bit := bit, sp := sp, c := c }

/-- At most the byte registers, the search's registers and the working CRC differ. -/
def SearchRegsOnly (x y : Work) : Prop :=
  ∃ sh bit pos lastzero lfdw idb cmb dir newrom c, y = { x with
    sh := sh, bit := bit, pos := pos, lastzero := lastzero, lfdw := lfdw, idb := idb, cmb := cmb, dir := dir,
    newrom := newrom, c := c }

/-- At most the registers of `SearchRegsOnly` and the counters of ENUMERATE differ. -/
def EnumRegsOnly (x y : Work) : Prop := ∃ pass k z, SearchRegsOnly x z ∧ y = { z with pass := pass, k := k }

/-- The working registers as the acceptance cycle leaves them: ALARM is latched (60_exceptions.md R321). -/
def State.startWork (s : State) : Work := { s.x with alw := s.alarm }

/-! ### Slots and their waveform -/

/-- A slot on the line (00_scope.md R27), or the WAIT phase of CONFIGURE. -/
inductive Slot where
  | reset
  | write (b : Bool)
  | read
  | wait
deriving DecidableEq, Repr

/-- The phases of a slot and their durations in ticks (40_transport.md R170). -/
def Slot.phases (p : Params) : Slot → List (Phase × Nat)
  | .reset => [(.rstLow, p.tRstl), (.rstPds, p.tPds), (.rstRec, p.tRstRec)]
  | .write b =>
    [(.wLow, if b then p.tW1l else p.tW0l), (.wRel, p.tWslot - (if b then p.tW1l else p.tW0l))]
  | .read => [(.rLow, p.tRl), (.rSmp, p.tRs), (.rRec, p.tRslot - p.tRl - p.tRs)]
  | .wait => [(.wait, p.tCopyWait)]

/-- The phases of a sequence of slots, with no gap between them (40_transport.md R175). -/
def phasesOf (p : Params) (slots : List Slot) : List (Phase × Nat) := slots.flatMap (Slot.phases p)

/-- How many ticks a sequence of phases takes. -/
def phaseTicks : List (Phase × Nat) → Nat
  | [] => 0
  | (_, n) :: rest => n + phaseTicks rest

/-- How many ticks a sequence of slots takes. -/
def slotTicks (p : Params) (slots : List Slot) : Nat := phaseTicks (phasesOf p slots)

/-- The waveform after a sequence of phases that begins at NOW = `start`; a phase of duration 0 is skipped
(40_transport.md R175). -/
def waveAfter (start : BitVec 32) : List (Phase × Nat) → List Seg → List Seg
  | [], w => w
  | (ph, n) :: rest, w =>
    waveAfter (start + BitVec.ofNat 32 n) rest (if n = 0 then w else ⟨ph, start, n⟩ :: w)

/-- How many samples of the line a slot takes (40_transport.md R170). -/
def Slot.samples : Slot → Nat
  | .reset => 1
  | .read => 1
  | .write _ => 0
  | .wait => 0

/-- How many samples a sequence of slots takes. -/
def sampleCount : List Slot → Nat
  | [] => 0
  | sl :: rest => sl.samples + sampleCount rest

/-- The write slots of a byte, bit 0 first (20_memory.md R109). -/
def byteSlots (v : Byte) : List Slot :=
  [.write (v.getLsbD 0), .write (v.getLsbD 1), .write (v.getLsbD 2), .write (v.getLsbD 3), .write (v.getLsbD 4),
    .write (v.getLsbD 5), .write (v.getLsbD 6), .write (v.getLsbD 7)]

/-- The write slots of a sequence of bytes. -/
def bytesSlots (vs : List Byte) : List Slot := vs.flatMap byteSlots

/-- The read slots of `n` bits. -/
def readSlots (n : Nat) : List Slot := List.replicate n .read

/-- The value of NOW at t_s, the first tick strictly after the acceptance cycle (40_transport.md R177). -/
def State.startTick (s : State) : BitVec 32 := s.now + (if s.isTick then 2 else 1)

/-- `t` is the end of a command accepted in `s` that put exactly the slots `slots` on the line, from t_s on with no
gap, and finished with `code` in the last one's last tick (40_transport.md R177, 60_exceptions.md R322). -/
structure Ended (s t : State) (code : Code) (slots : List Slot) : Prop where
  busy : t.status.busy = false
  done : t.status.done = true
  err : t.status.err = code
  seq : t.seq = none
  ph : t.ph = .idle
  pad : t.pad = false
  now : t.now = s.startTick + BitVec.ofNat 32 (slotTicks s.params slots)
  wave : t.env.wave = waveAfter s.startTick (phasesOf s.params slots) s.env.wave
  bus : t.env.bus = s.env.bus.drop (sampleCount slots)

/-- How many ticks the stretches of a waveform take. -/
def waveTicks : List Seg → Nat
  | [] => 0
  | g :: rest => g.ticks + waveTicks rest

/-- The clock cycles of a command accepted in `s` that ended in `t`, from the cycle after the acceptance cycle to the
finish cycle: those up to t_s, and CYC_PER_US for each tick of the phases it put on the line (10_state.md R42,
40_transport.md R177). -/
def State.cyclesTo (s t : State) : Nat :=
  s.params.cycPerUs - (accept s).presc +
    s.params.cycPerUs * waveTicks (t.env.wave.take (t.env.wave.length - s.env.wave.length))

/-- The state `s` of a block whose host does nothing from now on. -/
def State.alone (s : State) : State := { s with env := { s.env with host := [] } }

/-! ### Answers of devices on the line -/

/-- The bits of a byte in their order on the line (20_memory.md R109). -/
def byteBits (v : Byte) : List Bool :=
  [v.getLsbD 0, v.getLsbD 1, v.getLsbD 2, v.getLsbD 3, v.getLsbD 4, v.getLsbD 5, v.getLsbD 6, v.getLsbD 7]

/-- The bits of a frame in their order on the line (20_memory.md R111). -/
def frameBits (sp : Vector Byte 9) : List Bool := sp.toList.flatMap byteBits

/-- Two identifiers agree at every search position before `k` (42_enumeration.md R232). -/
def agreeBefore (k : Nat) (a b : Ident) : Bool := (List.range (k - 1)).all fun j => romBit a (j + 1) == romBit b (j + 1)

/-- The devices of the bus `ds` that still respond at position `k` of a search that goes to `d`: a device drops out
when a written direction differs from its bit (42_enumeration.md R238). -/
def respond (ds : List Ident) (d : Ident) (k : Nat) : List Ident := ds.filter fun a => agreeBefore k a d

/-- The wired-AND of the responding devices' bits (42_enumeration.md R234). -/
def wiredBit (ds : List Ident) (d : Ident) (k : Nat) : Bool := (respond ds d k).all fun a => romBit a k

/-- The wired-AND of the complements of the responding devices' bits (42_enumeration.md R234). -/
def wiredComplement (ds : List Ident) (d : Ident) (k : Nat) : Bool := (respond ds d k).all fun a => !romBit a k

/-- Position `k` is a discrepancy: the two bits read are (0,0) (42_enumeration.md R234). -/
def splits (ds : List Ident) (d : Ident) (k : Nat) : Bool := !wiredBit ds d k && !wiredComplement ds d k

/-- The answers of the bus `ds` at `n` search positions from `k` on, while the search goes to `d`. -/
def searchBits (ds : List Ident) (d : Ident) : Nat → Nat → List Bool
  | 0, _ => []
  | n + 1, k => wiredBit ds d k :: wiredComplement ds d k :: searchBits ds d n (k + 1)

/-- A search step with session state `se` on the bus `ds` goes to its device `d` at the first `n` positions: at a
discrepancy it replays ROMBUF before LD, takes 1 at LD and 0 after it (42_enumeration.md R236). -/
def FollowsTo (n : Nat) (ds : List Ident) (se : Session) (d : Ident) : Prop :=
  d ∈ ds ∧ ∀ k, 1 ≤ k → k ≤ n → splits ds d k = true →
    romBit d k = if k < se.ld.toNat then romBit se.rombuf k else decide (k = se.ld.toNat)

/-- The last of `n` positions from `k` on that is a discrepancy at which `d` has 0; `z` if there is none
(42_enumeration.md R237). -/
def lastZeroFrom (ds : List Ident) (d : Ident) : Nat → Nat → Nat → Nat
  | 0, _, z => z
  | n + 1, k, z => lastZeroFrom ds d n (k + 1) (if splits ds d k && !romBit d k then k else z)

/-- The session state a search step that found `d` commits (42_enumeration.md R237, R239). -/
def afterFound (ds : List Ident) (se : Session) (d : Ident) : Session where
  ld := BitVec.ofNat 7 (lastZeroFrom ds d 64 1 0)
  lfd := BitVec.ofNat 4 (lastZeroFrom ds d 8 1 se.lfd.toNat)
  ldf := lastZeroFrom ds d 64 1 0 == 0
  rombuf := d

/-- The slots of `n` search positions from `k` on, while the search goes to `d` (42_enumeration.md R233). -/
def positionSlots (d : Ident) : Nat → Nat → List Slot
  | 0, _ => []
  | n + 1, k => .read :: .read :: .write (romBit d k) :: positionSlots d n (k + 1)

/-- The slots of a search step before its positions: a reset slot and SEARCH_ROM, 0xF0. -/
def searchHead : List Slot := .reset :: byteSlots 0xF0

/-- The slots of a whole search step that goes to `d`. -/
def searchSlots (d : Ident) : List Slot := searchHead ++ positionSlots d 64 1

/-- `a` comes before `b` in the order of discovery: position 1 is the most significant (42_enumeration.md R251). -/
def comesBefore (a b : Ident) : Prop :=
  ∃ k, 1 ≤ k ∧ k ≤ 64 ∧ (∀ j, 1 ≤ j → j < k → romBit a j = romBit b j) ∧ romBit a k = false ∧ romBit b k = true

/-- The answers of the bus `ds` during a pass that finds `found`. -/
def passBits (ds found : List Ident) : List Bool := found.flatMap fun d => false :: searchBits ds d 64 1

/-- The session state after a pass from `se` that found `found`. -/
def afterPass (ds : List Ident) (se : Session) (found : List Ident) : Session := found.foldl (afterFound ds) se

/-- How the search step that ends a failed pass of ENUMERATE fails (42_enumeration.md R233, R250). -/
inductive PassFailure where
  /-- No presence at the reset slot. -/
  | absent
  /-- Both bits are 1 at position `n + 1` of a search that goes to `d`. -/
  | collision (d : Ident) (n : Nat)
  /-- The search reads `d`, whose CRC byte is wrong. -/
  | wrongCrc (d : Ident)
deriving DecidableEq, Repr

/-- A failed pass of ENUMERATE: the devices that answer in it, those it finds, and how its last search step fails. -/
structure FailedPass where
  devices : List Ident
  found : List Ident
  failure : PassFailure
deriving DecidableEq, Repr

/-- Every search step of a pass from session state `se` goes to the device it finds: a valid one, and not the last. -/
def FindsAll (ds : List Ident) : Session → List Ident → Prop
  | _, [] => True
  | se, d :: rest =>
    FollowsTo 64 ds se d ∧ romValid d = true ∧ (afterFound ds se d).ldf = false ∧ FindsAll ds (afterFound ds se d) rest

/-- A failed pass that a table of `rows` rows allows. -/
def FailedPass.Possible (rows : Nat) (p : FailedPass) : Prop :=
  p.found.length < rows ∧ FindsAll p.devices .clear p.found ∧
    match p.failure with
    | .absent => True
    | .collision d n => n < 64 ∧ FollowsTo n p.devices (afterPass p.devices .clear p.found) d
    | .wrongCrc d => FollowsTo 64 p.devices (afterPass p.devices .clear p.found) d ∧ romValid d = false

/-- The answers of the line in a failed pass. -/
def FailedPass.bits (p : FailedPass) : List Bool :=
  passBits p.devices p.found ++
    match p.failure with
    | .absent => [true]
    | .collision d n => false :: searchBits p.devices d n 1 ++ [true, true]
    | .wrongCrc d => false :: searchBits p.devices d 64 1

/-- The slots of a failed pass. -/
def FailedPass.slots (p : FailedPass) : List Slot :=
  p.found.flatMap searchSlots ++
    match p.failure with
    | .absent => [.reset]
    | .collision d n => searchHead ++ positionSlots d n 1 ++ [.read, .read]
    | .wrongCrc d => searchSlots d

/-- The result code of a failed pass. -/
def FailedPass.code (p : FailedPass) : Code :=
  match p.failure with
  | .absent => .busAbsent
  | .collision _ _ => .collision
  | .wrongCrc _ => .crcMismatch

/-- The identifier that a run of failed passes leaves in row `i`: that of the last pass that found so many devices. -/
def rowAfter (passes : List FailedPass) (i : Nat) : Option Ident :=
  passes.foldl (fun r p => match p.found[i]? with | some d => some d | none => r) none

/-! ### Fields and layouts -/

/-- The bits of a command word its operation reads: OP, and the fields of 30_encoding.md R131 to R135. -/
def readBits : Instr → Word
  | .nop => 0x0000001F
  | .reset => 0x0000001F
  | .writeBit _ => 0x0000011F
  | .readBit => 0x0000001F
  | .writeByte _ => 0x0000FF1F
  | .readByte => 0x0000001F
  | .crcClear => 0x0000001F
  | .crcByte _ => 0x0000FF1F
  | .searchClear => 0x0000001F
  | .searchNext => 0x0000001F
  | .searchFirst => 0x0000001F
  | .enumerate => 0x0000001F
  | .convert sel _ => if sel then 0x00F1001F else 0x0001001F
  | .convPoll => 0x0000001F
  | .readTemp _ _ => 0x00F1001F
  | .configure sel _ _ => if sel then 0x0FF1001F else 0x0F01001F

/-- A reserved bit of the command word is set: [7:5], [19:17] or [31:28] (30_encoding.md R136). -/
def reservedBitSet (w : Word) : Prop :=
  w.getLsbD 5 = true ∨ w.getLsbD 6 = true ∨ w.getLsbD 7 = true ∨ w.getLsbD 17 = true ∨ w.getLsbD 18 = true ∨
    w.getLsbD 19 = true ∨ w.getLsbD 28 = true ∨ w.getLsbD 29 = true ∨ w.getLsbD 30 = true ∨ w.getLsbD 31 = true

/-- A reserved operation: OP 0x0C to 0x0F or 0x14 to 0x1F (30_encoding.md R137). -/
def reservedOp (w : Word) : Prop := (12 ≤ w.toNat % 32 ∧ w.toNat % 32 ≤ 15) ∨ 20 ≤ w.toNat % 32

/-- The bits of a register that are not reserved (10_state.md R44 to R58). -/
def definedBits : Reg → Word
  | .cmd => 0x0FF1FF1F
  | .status => 0x00000F3F
  | .ctrl => 0x00000003
  | .rxdata => 0x000000FF
  | .crc => 0x000000FF
  | .search => 0x00010F7F
  | .romLo => 0xFFFFFFFF
  | .romHi => 0xFFFFFFFF
  | .timeout => 0x003FFFFF
  | .alarm => 0xFFFFFFFF
  | .now => 0xFFFFFFFF
  | .devcnt => 0x0000001F
  | .enumstat => 0x00001FFF
  | .tblRomLo _ => 0xFFFFFFFF
  | .tblRomHi _ => 0xFFFFFFFF
  | .tblTemp _ => 0xFFFFFFFF
  | .tblStat _ => 0x00000F13

/-- The host's next act is the access `a`, in the next clock cycle. -/
def State.accessNext (s : State) (a : Access) (rest : List HostEvent) : Prop := s.env.host = ⟨0, .access a⟩ :: rest

/-- The supervisor takes row `i` out of ConversionStarted in the next clock cycle (43_sensor.md R271). -/
def State.leavesStarted (s : State) (i : Fin 16) : Bool :=
  s.isTick && s.validRow i && s.table[i].cstate == .started &&
    supervisedState s.params.convUnitUs s.budget s.table[i].res (nextElapsed s.table[i].elapsed) != .started

/-- SupervisorTick of 43_sensor.md R271, line by line, for a valid entry; `budget` is TIMEOUT.BUDGET_MS. -/
def tickPseudocode (unit : Nat) (budget : Nat) (e : Entry) : Entry :=
  if e.cstate = .started then
    let n := min (e.elapsed.toNat + 1) (2 ^ 32 - 1)
    let e' := { e with elapsed := BitVec.ofNat 32 n, sup := none }
    if 100 * 2 ^ (e.res.toNat - 9) * unit ≤ n then { e' with cstate := .ready }
    else if budget ≠ 0 ∧ budget * unit ≤ n then { e' with cstate := .timedOut, tvalid := false }
    else e'
  else { e with sup := none }

/-- The supervisor's steps of row `i` in `n` ticks in a row, while COUNT and TIMEOUT stay as they are in `s`. -/
def State.supervisedRow (s : State) (i : Fin 16) : Nat → Entry → Entry
  | 0, e => e
  | n + 1, e =>
    s.supervisedRow i n
      (if i.val < s.count.toNat then tickPseudocode s.params.convUnitUs s.budget.toNat e else { e with sup := none })

/-- How many ticks pass from the acceptance cycle to the start tick t_s, the latter not counted: one if the acceptance
cycle is a tick itself (60_exceptions.md R321, 40_transport.md R177). -/
def State.ticksBefore (s : State) : Nat := if s.isTick then 1 else 0

/-- Decode of 43_sensor.md R277, line by line on unbounded integers. -/
def decodePseudocode (b0 b1 b4 : Nat) : Int × Nat :=
  let raw := b1 * 256 + b0
  let neg := 32768 ≤ raw
  let mag := if neg then 65536 - raw else raw
  let r := b4 / 32 % 4 + 9
  let ip := mag / 16
  let f := r - 8
  let fc := mag / 2 ^ (12 - r) % 2 ^ f
  let v : Int := ip * 100 + (fc * 100 / 2 ^ f : Nat)
  (if neg then -v else v, r)

/-! ### Idle running -/

/-- `n` steps in a row, none of which stops. -/
def runSteps : Nat → State → Option State
  | 0, s => some s
  | n + 1, s =>
    match step s with
    | .next t => runSteps n t
    | .fault _ => none
    | .refused _ => none

/-! ### The invariant between clock cycles -/

/-- What holds of the block after reset and after every step. A step ends with no command running, because the model
makes a whole command one step (log entry 5): so the engine is idle and the line released (10_state.md R72 to R74). PRESC
is in its range (R42), COUNT is legal (R54), the session state is in its ranges with a valid identifier (R49,
42_enumeration.md R239), ENUMSTAT counts at most ENUM_RETRIES passes (R55, log entry 2), and an entry that timed out has
no valid reading (43_sensor.md R271). -/
structure State.Inv (s : State) : Prop where
  legal : s.params.Legal
  notBusy : s.status.busy = false
  seqIdle : s.seq = none
  phaseIdle : s.ph = .idle
  released : s.pad = false
  noPendingRead : s.env.pend = none
  noPendingStep : ∀ i : Fin 16, s.table[i].sup = none
  prescInRange : s.presc < s.params.cycPerUs
  countLegal : s.count.toNat ≤ s.params.maxDevices
  ldInRange : s.session.ld.toNat ≤ 64
  lfdInRange : s.session.lfd.toNat ≤ 8
  lastDevice : s.session.ldf = true → s.session.ld = 0
  identValid : romValid s.session.rombuf = true
  passesInRange : s.enumstat.passes.toNat ≤ s.params.enumRetries
  timedOutInvalid : ∀ i : Fin 16, s.table[i].cstate = .timedOut → s.table[i].tvalid = false

end Sys2Proof.Machine
end

