-- ==== Sys2Proof/Certificates/Slice0/Obligations.lean ====
section
/-! DEFINITION. The statements for the provers. Each is about every state that meets its hypotheses, reached or not;
none speaks of a value the model chose unless its docstring says so. A clause on the working registers after a step
(`t.x`, `State.startWork` and the predicates whose names end in `RegsOnly`) is the model's choice, log entry 21:
10_state.md R70 leaves x[...] unspecified outside the command that uses them. -/

open Sys2Proof Sys2Proof.Machine

/-! ### The command word -/

/-- 30_encoding.md section 1: decoding the encoded word of a well-formed command gives the command back, for every
operation and every value of its operands. -/
def Obligations.EncodeDecode : Prop := ∀ i : Instr, i.wellFormed = true → decode (encode i) = .command i

/-- 30_encoding.md section 1: exactly which words are a command. A word is the command `i` if and only if no reserved
bit is set and the bits the operation reads are those of its encoding; every other bit is ignored. -/
def Obligations.DecodeExactly : Prop :=
  (∀ (w : Word) (i : Instr), i.wellFormed = true →
    (decode w = .command i ↔ ¬ reservedBitSet w ∧ w &&& readBits i = encode i)) ∧
  ∀ (w : Word) (i : Instr), decode w = .command i → i.wellFormed = true

/-- 30_encoding.md R136, R137: a word with a reserved bit set, or with a reserved OP, is accepted as a command, does
nothing on the line or to any register but the completion fields, and finishes with ILLEGAL_OP. What it says of the
working registers `t.x` is log entry 21. -/
def Obligations.IllegalWords : Prop := ∀ (s : State) (w : Word), s.calm = true → s.due = .command w →
  reservedBitSet w ∨ reservedOp w →
    ∃ t, step s = .next t ∧ Ended (fetchCommand w s) t .illegalOp [] ∧ Untouched (fetchCommand w s) t ∧
      Supervised (fetchCommand w s) t ∧ t.status.presence = s.status.presence ∧ t.status.rxbit = s.status.rxbit ∧
      t.x = { s.x with cmdw := w, alw := s.alarm }

/-- 30_encoding.md sections 1 and 2: command words written out bit by bit, one or more of every family. -/
def Obligations.WordsDecode : Prop :=
  decode 0x00000000 = .command .nop ∧ decode 0x00000001 = .command .reset ∧
  decode 0x00000102 = .command (.writeBit 1) ∧ decode 0x0000FE02 = .command (.writeBit 0) ∧
  decode 0x0000CC04 = .command (.writeByte 0xCC) ∧ decode 0x00000207 = .command (.crcByte 0x02) ∧
  decode 0x00000009 = .command .searchNext ∧ decode 0x0000000B = .command .enumerate ∧
  decode 0x00210010 = .command (.convert true 2) ∧ decode 0x00000010 = .command (.convert false 0) ∧
  decode 0x00010012 = .command (.readTemp true 0) ∧ decode 0x0A110013 = .command (.configure true 1 10) ∧
  decode 0x000000E0 = .illegal .reservedBits ∧ decode 0x0000000C = .illegal (.reservedOp 0x0C) ∧
  decode 0x0000001F = .illegal (.reservedOp 0x1F)

/-- 60_exceptions.md R321, as the model's `step` groups it (log entry 5): where the host's next act is a write of `w`
to CMD in the next clock cycle and BUSY = 0, the step is the command `w` decodes to, with `w` latched in x.CMDW and
the write taken from the host's acts. -/
def Obligations.StepRunsCommand : Prop := ∀ (s : State) (w : Word) (i : Instr) (rest : List HostEvent),
  s.accessNext (.write 0 4 w) rest → s.status.busy = false → decode w = .command i →
    step s = exec i { s with x := { s.x with cmdw := w }, env := { s.env with host := rest } }

/-! ### The register window -/

/-- 20_memory.md section 1: the access contract. An address in the 512 bytes from OWM_BASE is the offset from it and any
other does not reach the block, which is the model's reading (log entry 19); an access of any other width or alignment
than an aligned 32-bit one is refused as a fault naming the access, when no command runs and in any cycle of a command;
an aligned 32-bit access that is due when no command runs is not, though a command it starts may be, for a later access
of another kind. -/
def Obligations.AccessContract : Prop :=
  (∀ (p : Params) (off size : Nat) (v : Word),
    (off < 512 → memRead p (p.owmBase + off) size = some (.read (BitVec.ofNat 9 off) size) ∧
      memWrite p (p.owmBase + off) size v = some (.write (BitVec.ofNat 9 off) size v)) ∧
    (512 ≤ off → memRead p (p.owmBase + off) size = none ∧ memWrite p (p.owmBase + off) size v = none) ∧
    (off < p.owmBase → memRead p off size = none ∧ memWrite p off size v = none)) ∧
  (∀ (s : State) (a : Access) (rest : List HostEvent), s.accessNext a rest →
    (a.size ≠ 4 ∨ a.off.toNat % 4 ≠ 0 → step s = .fault (.badAccess a.writes a.off a.size)) ∧
    (a.size = 4 ∧ a.off.toNat % 4 = 0 →
      (∃ t, step s = .next t) ∨ ∃ e ∈ rest, ∃ b, e.act = .access b ∧ (b.size ≠ 4 ∨ b.off.toNat % 4 ≠ 0) ∧
        step s = .fault (.badAccess b.writes b.off b.size))) ∧
  ∀ (i : Instr) (s u : State) (g : Nat) (a : Access) (rest : List HostEvent), 1 ≤ s.params.cycPerUs →
    s.env.host = ⟨g, .access a⟩ :: rest → a.size ≠ 4 ∨ a.off.toNat % 4 ≠ 0 → exec i s.alone = .next u →
      (g < s.cyclesTo u → exec i s = .fault (.badAccess a.writes a.off a.size)) ∧
      (s.cyclesTo u ≤ g →
        exec i s = .next { u with env := { u.env with host := ⟨g - s.cyclesTo u, .access a⟩ :: rest } })

/-- 10_state.md section 2: the register map. Every listed offset shows its register; rows exist below MAX_DEVICES;
every other word of the window reads 0. -/
def Obligations.RegisterMap : Prop := ∀ s : State,
  s.windowWord 0x000 = 0 ∧ s.windowWord 0x004 = s.status.word ∧ s.windowWord 0x008 = s.ctrl.word ∧
  s.windowWord 0x00C = s.rxdata.setWidth 32 ∧ s.windowWord 0x010 = s.crc.setWidth 32 ∧
  s.windowWord 0x014 = s.session.searchWord ∧ s.windowWord 0x018 = s.session.rombuf.extractLsb' 0 32 ∧
  s.windowWord 0x01C = s.session.rombuf.extractLsb' 32 32 ∧ s.windowWord 0x020 = s.budget.setWidth 32 ∧
  s.windowWord 0x024 = s.alarm ∧ s.windowWord 0x028 = s.now ∧ s.windowWord 0x02C = s.count.setWidth 32 ∧
  s.windowWord 0x030 = s.enumstat.word ∧
  (∀ i : Fin 16, i.val < s.params.maxDevices →
    s.windowWord (BitVec.ofNat 9 (0x100 + 16 * i.val)) = s.table[i].rom.extractLsb' 0 32 ∧
    s.windowWord (BitVec.ofNat 9 (0x104 + 16 * i.val)) = s.table[i].rom.extractLsb' 32 32 ∧
    s.windowWord (BitVec.ofNat 9 (0x108 + 16 * i.val)) = s.table[i].temp ∧
    s.windowWord (BitVec.ofNat 9 (0x10C + 16 * i.val)) = s.table[i].statWord) ∧
  (∀ off : Offset, 0x034 ≤ off.toNat → off.toNat < 0x100 → s.windowWord off = 0) ∧
  (∀ off : Offset, 0x100 + 16 * s.params.maxDevices ≤ off.toNat → s.windowWord off = 0)

/-- 10_state.md sections 2 and 3, 60_exceptions.md section 1: where the fields of STATUS, CTRL, SEARCH, ENUMSTAT and
TBL_STAT stand, and the numbers of the result codes and of the conversion states. -/
def Obligations.FieldPlaces : Prop :=
  (∀ st : Status, st.word.getLsbD 0 = st.busy ∧ st.word.getLsbD 1 = st.done ∧ st.word.getLsbD 2 = st.ovr ∧
    st.word.getLsbD 3 = st.presence ∧ st.word.getLsbD 4 = st.rxbit ∧ st.word.getLsbD 5 = st.cevt ∧
    st.word.extractLsb' 8 4 = st.err.bits) ∧
  (∀ c : Ctrl, c.word.getLsbD 0 = c.doneIe ∧ c.word.getLsbD 1 = c.cevtIe) ∧
  (∀ se : Session, se.searchWord.extractLsb' 0 7 = se.ld ∧ se.searchWord.extractLsb' 8 4 = se.lfd ∧
    se.searchWord.getLsbD 16 = se.ldf) ∧
  (∀ e : EnumStat, e.word.extractLsb' 0 8 = e.passes ∧ e.word.extractLsb' 8 4 = e.lastPassErr.bits ∧
    e.word.getLsbD 12 = e.trunc) ∧
  (∀ e : Entry, e.statWord.extractLsb' 0 2 = e.cstate.bits ∧ e.statWord.getLsbD 4 = e.tvalid ∧
    (e.statWord.extractLsb' 8 4).toNat = e.res.toNat) ∧
  Code.bits .ok = 0 ∧ Code.bits .busAbsent = 1 ∧ Code.bits .collision = 2 ∧ Code.bits .crcMismatch = 3 ∧
  Code.bits .convTimeout = 4 ∧ Code.bits .unsupportedRes = 5 ∧ Code.bits .complete = 6 ∧ Code.bits .badIndex = 7 ∧
  Code.bits .illegalOp = 8 ∧
  CState.bits .idle = 0 ∧ CState.bits .started = 1 ∧ CState.bits .ready = 2 ∧ CState.bits .timedOut = 3 ∧
  Resolution.toNat .r9 = 9 ∧ Resolution.toNat .r10 = 10 ∧ Resolution.toNat .r11 = 11 ∧ Resolution.toNat .r12 = 12

/-- 20_memory.md R102: a read of an unmapped offset returns 0 and a write to one changes nothing; reserved bits of a
mapped register read 0, and writes to them are ignored, CMD's excepted: they make the command illegal. -/
def Obligations.ReservedBits : Prop := ∀ (s : State) (v : Word),
  (∀ off : Offset, regAt s.params.maxDevices off = none →
    s.windowWord off = 0 ∧ hostRead off s = s.answer off 0 ∧ hostWrite off v s = s) ∧
  (∀ r : Reg, s.regValue r &&& ~~~(definedBits r) = 0) ∧
  (∀ r : Reg, r ≠ .cmd → writeReg r v s = writeReg r (v &&& definedBits r) s) ∧
  (reservedBitSet v → decode v = .illegal .reservedBits)

/-- 20_memory.md R103: little-endian byte order. -/
def Obligations.ByteOrder : Prop := ∀ (s : State) (off : Offset), off.toNat % 4 = 0 →
  s.windowByte off = (s.windowWord off).extractLsb' 0 8 ∧ s.windowByte (off + 1) = (s.windowWord off).extractLsb' 8 8 ∧
  s.windowByte (off + 2) = (s.windowWord off).extractLsb' 16 8 ∧
  s.windowByte (off + 3) = (s.windowWord off).extractLsb' 24 8

/-- 10_state.md R61: a write to CMD, CRC, ALARM, DEVCNT or a TBL_ROM register while BUSY = 1 changes nothing except
STATUS.OVR <- 1; STATUS, CTRL and TIMEOUT are written whether or not BUSY is 1. -/
def Obligations.WriteLocking : Prop := ∀ (s : State) (v : Word),
  (s.status.busy = true →
    (∀ off : Offset, off = 0x000 ∨ off = 0x010 ∨ off = 0x024 ∨ off = 0x02C →
      hostWrite off v s = { s with status := { s.status with ovr := true } }) ∧
    (∀ i : Fin 16, i.val < s.params.maxDevices →
      hostWrite (BitVec.ofNat 9 (0x100 + 16 * i.val)) v s = { s with status := { s.status with ovr := true } } ∧
      hostWrite (BitVec.ofNat 9 (0x104 + 16 * i.val)) v s = { s with status := { s.status with ovr := true } })) ∧
  hostWrite 0x004 v s = { s with status := { s.status with
    done := s.status.done && !v.getLsbD 1, ovr := s.status.ovr && !v.getLsbD 2, cevt := s.status.cevt && !v.getLsbD 5 } } ∧
  hostWrite 0x008 v s = { s with ctrl := ⟨v.getLsbD 0, v.getLsbD 1⟩ } ∧
  hostWrite 0x020 v s = { s with budget := v.extractLsb' 0 22 }

/-- 10_state.md section 3, 60_exceptions.md sections 1 and 2: a write to a locked register that comes in any cycle of a
command, its finish cycle included, is dropped: the command ends in the very state it ends in without the write, but for
OVR, which is 1. -/
def Obligations.OverrunDuringCommand : Prop := ∀ (i : Instr) (s u : State) (g : Nat) (off : Offset) (v : Word),
  1 ≤ s.params.cycPerUs → s.env.host = [⟨g, .access (.write off 4 v)⟩] →
  (off = 0x000 ∨ off = 0x010 ∨ off = 0x024 ∨ off = 0x02C ∨ ∃ j : Fin 16, j.val < s.params.maxDevices ∧
    (off = BitVec.ofNat 9 (0x100 + 16 * j.val) ∨ off = BitVec.ofNat 9 (0x104 + 16 * j.val))) →
  exec i s.alone = .next u → g < s.cyclesTo u →
    exec i s = .next { u with status := { u.status with ovr := true } }

/-- 10_state.md R62: while BUSY = 1 a read of a listed register answers an unspecified value, the free value of log
entry 4; every other read answers exactly the register, and so does every read when BUSY = 0. -/
def Obligations.ReadsWhileBusy : Prop := ∀ (s : State) (off : Offset) (r : Reg), regAt s.params.maxDevices off = some r →
  (s.status.busy = true → r.hiddenWhileBusy = true → ∃ v, (hostRead off s).env.reads = (off, v) :: s.env.reads) ∧
  (s.status.busy = false ∨ r = .cmd ∨ r = .status ∨ r = .ctrl ∨ r = .timeout ∨ r = .alarm ∨ r = .now →
    (hostRead off s).env.reads = (off, s.regValue r) :: s.env.reads) ∧
  (r.hiddenWhileBusy = true ↔ ¬(r = .cmd ∨ r = .status ∨ r = .ctrl ∨ r = .timeout ∨ r = .alarm ∨ r = .now))

/-- 20_memory.md section 1, read side effects: a host read changes no state of the block: a cycle with a read differs
from a cycle without one only in the model's record of reads, its count of free values and the host's acts. -/
def Obligations.ReadsChangeNothing : Prop := ∀ (s : State) (off : Offset) (rest : List HostEvent),
  s.accessNext (.read off 4) rest → off.toNat % 4 = 0 → s.env.pend = none →
    ∃ t u, step s = .next t ∧ step { s with env := { s.env with host := [] } } = .next u ∧
      t = { u with env := { u.env with host := rest, reads := t.env.reads, draws := t.env.draws } }

/-- 10_state.md sections 1 to 3, 43_sensor.md section 1: what one host write leaves in every register, with BUSY = 0,
at the end of its clock cycle: STATUS with its W1C bits, CTRL, CRC, TIMEOUT, ALARM, DEVCNT with its clamp and a word
of TBL_ROM take the write; NOW counts the tick and the supervisor steps the table, from the state at the start of the
cycle; everything else holds. What it says of the working registers `t.x` is log entry 21. -/
def Obligations.HostWrites : Prop := ∀ (s : State) (off : Offset) (v : Word) (rest : List HostEvent),
  s.accessNext (.write off 4 v) rest → off.toNat % 4 = 0 → s.status.busy = false → off ≠ 0 →
    ∃ t, step s = .next t ∧
      t.ctrl = (if off = 0x008 then ⟨v.getLsbD 0, v.getLsbD 1⟩ else s.ctrl) ∧
      t.crc = (if off = 0x010 then v.extractLsb' 0 8 else s.crc) ∧
      t.budget = (if off = 0x020 then v.extractLsb' 0 22 else s.budget) ∧
      t.alarm = (if off = 0x024 then v else s.alarm) ∧
      t.count.toNat = (if off = 0x02C then min (v.toNat % 32) s.params.maxDevices else s.count.toNat) ∧
      t.status.done = (s.status.done && !(off == 0x004 && v.getLsbD 1)) ∧
      t.status.ovr = (s.status.ovr && !(off == 0x004 && v.getLsbD 2)) ∧
      (t.status.cevt = true ↔ (s.status.cevt = true ∧ ¬(off = 0x004 ∧ v.getLsbD 5 = true)) ∨
        ∃ i : Fin 16, s.leavesStarted i = true) ∧
      t.status.busy = false ∧ t.status.presence = s.status.presence ∧ t.status.rxbit = s.status.rxbit ∧
      t.status.err = s.status.err ∧ t.now = s.now + BitVec.ofNat 32 s.ticksBefore ∧
      t.rxdata = s.rxdata ∧ t.session = s.session ∧ t.enumstat = s.enumstat ∧ t.params = s.params ∧ t.x = s.x ∧
      t.seq = s.seq ∧ t.ph = s.ph ∧ t.pad = s.pad ∧
      (∀ i : Fin 16, t.table[i].cstate = (s.supervisedRow i s.ticksBefore s.table[i]).cstate ∧
        t.table[i].tvalid = (s.supervisedRow i s.ticksBefore s.table[i]).tvalid ∧
        t.table[i].elapsed = (s.supervisedRow i s.ticksBefore s.table[i]).elapsed) ∧
      ∀ i : Fin 16, t.table[i].temp = s.table[i].temp ∧ t.table[i].res = s.table[i].res ∧
        (i.val < s.params.maxDevices →
          t.table[i].rom.extractLsb' 0 32 =
            (if off = BitVec.ofNat 9 (0x100 + 16 * i.val) then v else s.table[i].rom.extractLsb' 0 32) ∧
          t.table[i].rom.extractLsb' 32 32 =
            (if off = BitVec.ofNat 9 (0x104 + 16 * i.val) then v else s.table[i].rom.extractLsb' 32 32))

/-- 10_state.md section 2 (STATUS) and 43_sensor.md section 1: a host write to STATUS clears DONE, OVR and CEVT where it
writes 1 and changes no other bit; a CEVT that the supervisor sets in the same cycle stays set. -/
def Obligations.StatusWrite : Prop := ∀ (s : State) (v : Word) (rest : List HostEvent),
  s.accessNext (.write 0x004 4 v) rest →
    ∃ t, step s = .next t ∧ t.status.done = (s.status.done && !v.getLsbD 1) ∧
      t.status.ovr = (s.status.ovr && !v.getLsbD 2) ∧
      (t.status.cevt = true ↔
        (s.status.cevt = true ∧ v.getLsbD 5 = false) ∨ ∃ i : Fin 16, s.leavesStarted i = true) ∧
      t.status.busy = s.status.busy ∧ t.status.presence = s.status.presence ∧ t.status.rxbit = s.status.rxbit ∧
      t.status.err = s.status.err

/-- 10_state.md R75, R73, 40_transport.md section 1: the outputs. `irq` follows its formula. `ow_oe` is PAD; a phase that
is driven on the line holds PAD at 1 if it is RST_LOW, W_LOW or R_LOW, and at 0 if it is any other, from the tick it is
entered to the tick it ends, whatever the host does meanwhile; a phase of duration 0 is skipped; PAD is 0 from the finish
of a command on, and after a block reset. -/
def Obligations.OutputPins : Prop :=
  (∀ s : State,
    s.irq = true ↔ (s.status.done = true ∧ s.ctrl.doneIe = true) ∨ (s.status.cevt = true ∧ s.ctrl.cevtIe = true)) ∧
  (∀ s : State, s.owOe = s.pad) ∧
  (∀ (s t : State) (ph : Phase) (n k : Nat), s.status.busy = true → ticks k (enterPhase ph n s) = .ok () t →
    t.ph = ph ∧ (t.pad = true ↔ ph = .rstLow ∨ ph = .wLow ∨ ph = .rLow)) ∧
  (∀ (s t : State) (ph : Phase) (dur : Params → Nat), s.status.busy = true → drive ph dur s = .ok () t →
    (dur s.params = 0 → t = s) ∧
    (dur s.params ≠ 0 → t.ph = ph ∧ (t.pad = true ↔ ph = .rstLow ∨ ph = .wLow ∨ ph = .rLow))) ∧
  (∀ (s : State) (code : Code), (closeCycle (complete code s)).pad = false) ∧
  (∀ s : State, (blockReset s).pad = false) ∧ State.reset.pad = false

/-! ### Reset and idle cycles -/

/-- 10_state.md R78: the values after reset that the spec gives. -/
def Obligations.ResetValues : Prop :=
  (∀ off ∈ [0x000#9, 0x004#9, 0x008#9, 0x00C#9, 0x010#9, 0x014#9, 0x018#9, 0x01C#9, 0x020#9, 0x024#9, 0x028#9, 0x02C#9,
      0x030#9], State.reset.windowWord off = 0) ∧
  (∀ i : Fin 16, State.reset.table[i].rom = 0 ∧ State.reset.table[i].temp = 0 ∧
    State.reset.table[i].statWord = 0x00000C00 ∧ State.reset.table[i].elapsed = 0) ∧
  State.reset.ph = .idle ∧ State.reset.seq = none ∧ State.reset.owOe = false ∧ State.reset.presc = 0 ∧
  State.reset.irq = false

/-- The invariant of the block holds after reset. -/
def Obligations.ResetInv : Prop := State.reset.Inv

/-- Every step keeps the invariant of the block, whatever command it runs, whatever the host does in it and whatever
the line answers. That the engine is idle and the line released between steps is the model's grouping of a whole command
into one step (log entry 5), with 10_state.md R72 to R74 for the values; PRESC and COUNT are in range, the session state
is in its ranges and its identifier is valid, PASSES is at most ENUM_RETRIES (with log entry 2 where that is above 255),
and a timed-out entry has no valid reading. -/
def Obligations.StepKeepsInv : Prop := ∀ s t : State, s.Inv → step s = .next t → t.Inv

/-- 70_reset_and_hazards.md section 1: a cycle with `rst_n` low puts every register, the table and the hidden state at
the value after reset, whatever they were; the parameters are no state, and the devices are not reached. Nothing is
said of the working registers and x.PCNT, to which the spec gives no reset value (log entry 7). -/
def Obligations.ResetCycle : Prop := ∀ (s : State) (rest : List HostEvent), s.env.host = ⟨0, .reset⟩ :: rest →
  ∃ t, step s = .next t ∧
    t = { State.reset with params := s.params, x := t.x, pcnt := t.pcnt, env := t.env } ∧
    t.env.host = rest ∧ t.env.bus = s.env.bus ∧ t.env.reads = s.env.reads

/-- 70_reset_and_hazards.md section 1: reset during a command. Where `rst_n` goes low in any cycle of a command, its
finish cycle included, the command is abandoned with no completion: everything the spec gives a reset value is at it, DONE
and ERR too, and the line is released, in the middle of a slot as well: the waveform is that of the command up to there,
cut. A reset that comes later does not change the command. -/
def Obligations.ResetCutsCommand : Prop := ∀ (i : Instr) (s u : State) (g : Nat) (rest : List HostEvent),
  1 ≤ s.params.cycPerUs → s.env.host = ⟨g, .reset⟩ :: rest → exec i s.alone = .next u →
    (g < s.cyclesTo u → ∃ t, exec i s = .next t ∧
      t = { State.reset with params := s.params, x := t.x, pcnt := t.pcnt, env := t.env } ∧
      t.env.host = rest ∧ (∃ k, t.env.bus = s.env.bus.drop k) ∧
      ∃ now w, t.env.wave = ⟨.idle, now, 0⟩ :: (w ++ s.env.wave) ∧ w ++ s.env.wave <:+ u.env.wave) ∧
    (s.cyclesTo u ≤ g →
      exec i s = .next { u with env := { u.env with host := ⟨g - s.cyclesTo u, .reset⟩ :: rest } })

/-- 60_exceptions.md section 2, precision, and 20_memory.md section 1: every command completes, with BUSY clear, DONE set,
the engine idle and the line released, or is cut by a block reset, or is refused for an access that is not an aligned
32-bit one; only a reset and such an access among the host's acts can do so. -/
def Obligations.EveryCommandEnds : Prop := ∀ (i : Instr) (s : State),
  (∃ t, exec i s = .next t ∧ t.status.busy = false ∧ t.status.done = true ∧ t.seq = none ∧ t.ph = .idle ∧
    t.pad = false) ∨
  ((∃ e ∈ s.env.host, e.act = .reset) ∧ ∃ t, exec i s = .next t ∧
    t = { State.reset with params := s.params, x := t.x, pcnt := t.pcnt, env := t.env }) ∨
  ∃ a : Access, (∃ e ∈ s.env.host, e.act = .access a) ∧ (a.size ≠ 4 ∨ a.off.toNat % 4 ≠ 0) ∧
    exec i s = .fault (.badAccess a.writes a.off a.size)

/-- 10_state.md sections 1 and 2, 70_reset_and_hazards.md section 1: while nothing is due, PRESC counts clock cycles and
wraps and NOW counts the ticks; from a reset block the first tick comes in the CYC_PER_US-th cycle. Every register
holds, but for what the supervisor does: it steps the rows of the table once a tick, and may set CEVT. -/
def Obligations.IdleClock : Prop := ∀ (s : State) (n : Nat), s.env.host = [] → s.presc < s.params.cycPerUs →
  ∃ t, runSteps n s = some t ∧ t.presc = (s.presc + n) % s.params.cycPerUs ∧
    t.now = s.now + BitVec.ofNat 32 ((s.presc + n) / s.params.cycPerUs) ∧ t.params = s.params ∧
    t.rxdata = s.rxdata ∧ t.crc = s.crc ∧ t.session = s.session ∧ t.budget = s.budget ∧ t.alarm = s.alarm ∧
    t.count = s.count ∧ t.enumstat = s.enumstat ∧ t.ctrl = s.ctrl ∧ t.pad = s.pad ∧ t.env.wave = s.env.wave ∧
    t.status.busy = s.status.busy ∧ t.status.done = s.status.done ∧ t.status.ovr = s.status.ovr ∧
    t.status.presence = s.status.presence ∧ t.status.rxbit = s.status.rxbit ∧ t.status.err = s.status.err ∧
    ((∀ i : Fin 16, s.table[i].sup = none) → ∀ i : Fin 16,
      t.table[i] = s.supervisedRow i ((s.presc + n) / s.params.cycPerUs) s.table[i]) ∧
    (t.status.cevt = true ↔ s.status.cevt = true ∨ ∃ i : Fin 16, s.table[i].cstate = .started ∧
      t.table[i].cstate ≠ .started)

/-! ### Transport commands -/

/-- 40_transport.md R180: NOP performs no slot and finishes with OK at t_s; with a reserved bit set its word is
illegal. What it says of the working registers `t.x` is log entry 21. -/
def Obligations.NopFinishes : Prop :=
  (∀ w : Word, w.extractLsb' 0 5 = 0 → decode w = if reservedSet w then .illegal .reservedBits else .command .nop) ∧
  ∀ s : State, s.calm = true →
    ∃ t, exec .nop s = .next t ∧ Ended s t .ok [] ∧ Untouched s t ∧ Supervised s t ∧
      t.status.presence = s.status.presence ∧ t.status.rxbit = s.status.rxbit ∧ t.x = s.startWork

/-- 40_transport.md R181, R171: RESET performs one reset slot, PRESENCE is the complement of the sampled level, and
the code is always OK. Meanwhile the supervisor steps the valid entries once at every tick, from the acceptance cycle
to the finish cycle (43_sensor.md section 1), while the host leaves the block alone. What it says of the working
registers `t.x` is log entry 21. -/
def Obligations.ResetWritesPresence : Prop :=
  (∀ w : Word, w.extractLsb' 0 5 = 1 → decode w = if reservedSet w then .illegal .reservedBits else .command .reset) ∧
  ∀ s : State, s.calm = true → s.params.Legal →
    ∃ t, exec .reset s = .next t ∧ Ended s t .ok [.reset] ∧ Untouched s t ∧ Supervised s t ∧
      answered s.env.bus [!t.status.presence] ∧ t.status.rxbit = s.status.rxbit ∧ t.x = s.startWork ∧
      (s.quiet → ∀ i : Fin 16,
        t.table[i] = s.supervisedRow i (s.ticksBefore + 1 + slotTicks s.params [.reset]) s.table[i])

/-- 40_transport.md R182, R172: WRITE_BIT performs one write slot of DATA[0]; DATA[7:1] is ignored. What it says of
the working registers `t.x` is log entry 21. -/
def Obligations.WriteBitSlot : Prop :=
  (∀ w : Word, w.extractLsb' 0 5 = 2 → decode w = if reservedSet w then .illegal .reservedBits else .command (.writeBit (w.extractLsb' 8 8 &&& 1))) ∧
  ∀ (s : State) (data : Byte), s.calm = true →
    ∃ t, exec (.writeBit data) s = .next t ∧ Ended s t .ok [.write (data.getLsbD 0)] ∧ Untouched s t ∧ Supervised s t ∧
      t.status.presence = s.status.presence ∧ t.status.rxbit = s.status.rxbit ∧ t.x = s.startWork

/-- 40_transport.md R183, R173: READ_BIT performs one read slot and RXBIT is the sampled level, where the sample falls
in a phase of its own (T_RS not 0, log entry 12). What it says of the working registers `t.x` is log entry 21. -/
def Obligations.ReadBitSamples : Prop :=
  (∀ w : Word, w.extractLsb' 0 5 = 3 → decode w = if reservedSet w then .illegal .reservedBits else .command .readBit) ∧
  ∀ s : State, s.calm = true →
    ∃ t, exec .readBit s = .next t ∧ Ended s t .ok [.read] ∧ Untouched s t ∧ Supervised s t ∧
      t.status.presence = s.status.presence ∧ (s.params.tRs ≠ 0 → answered s.env.bus [t.status.rxbit]) ∧ t.x = s.startWork

/-- 40_transport.md R184, R174: WRITE_BYTE performs eight write slots of DATA, bit 0 first. What it says of the
working registers `t.x` is log entry 21. -/
def Obligations.WriteByteSlots : Prop :=
  (∀ w : Word, w.extractLsb' 0 5 = 4 → decode w = if reservedSet w then .illegal .reservedBits else .command (.writeByte (w.extractLsb' 8 8))) ∧
  ∀ (s : State) (data : Byte), s.calm = true →
    ∃ t, exec (.writeByte data) s = .next t ∧
      Ended s t .ok [.write (data.getLsbD 0), .write (data.getLsbD 1), .write (data.getLsbD 2), .write (data.getLsbD 3),
        .write (data.getLsbD 4), .write (data.getLsbD 5), .write (data.getLsbD 6), .write (data.getLsbD 7)] ∧
      Untouched s t ∧ Supervised s t ∧ t.status.presence = s.status.presence ∧ t.status.rxbit = s.status.rxbit ∧
      ByteRegsOnly s.startWork t.x

/-- 40_transport.md R185, 30_encoding.md section 3: READ_BYTE performs eight read slots and RXDATA is the byte whose
bit j is the level of the j-th sample, where a sample falls in a phase of its own (T_RS not 0, log entry 12); RXBIT is
not written. What it says of the working registers `t.x` is log entry 21. -/
def Obligations.ReadByteSlots : Prop :=
  (∀ w : Word, w.extractLsb' 0 5 = 5 → decode w = if reservedSet w then .illegal .reservedBits else .command .readByte) ∧
  ∀ s : State, s.calm = true →
    ∃ t, exec .readByte s = .next t ∧ Ended s t .ok [.read, .read, .read, .read, .read, .read, .read, .read] ∧
      Untouched s { t with rxdata := s.rxdata } ∧ Supervised s t ∧
      (s.params.tRs ≠ 0 → answered s.env.bus [t.rxdata.getLsbD 0, t.rxdata.getLsbD 1, t.rxdata.getLsbD 2,
        t.rxdata.getLsbD 3, t.rxdata.getLsbD 4, t.rxdata.getLsbD 5, t.rxdata.getLsbD 6, t.rxdata.getLsbD 7]) ∧
      t.status.presence = s.status.presence ∧ t.status.rxbit = s.status.rxbit ∧ ByteRegsOnly s.startWork t.x

/-! ### CRC -/

/-- 41_crc.md R216: CRC_CLEAR. What it says of the working registers `t.x` is log entry 21. -/
def Obligations.CrcClearZeroes : Prop :=
  (∀ w : Word, w.extractLsb' 0 5 = 6 → decode w = if reservedSet w then .illegal .reservedBits else .command .crcClear) ∧
  ∀ s : State, s.calm = true →
    ∃ t, exec .crcClear s = .next t ∧ t.crc = 0x00 ∧ Ended s t .ok [] ∧ Untouched s { t with crc := s.crc } ∧
      Supervised s t ∧ t.status.presence = s.status.presence ∧ t.status.rxbit = s.status.rxbit ∧ t.x = s.startWork

/-- 41_crc.md R217, R210: CRC_BYTE folds DATA into ACC, bit 0 first: for each bit the XOR of the CRC's low bit with
the input bit decides whether the shifted CRC is XORed with 0x8C. What it says of the working registers `t.x` is log
entry 21. -/
def Obligations.CrcByteFolds : Prop :=
  (∀ w : Word, w.extractLsb' 0 5 = 7 → decode w = if reservedSet w then .illegal .reservedBits else .command (.crcByte (w.extractLsb' 8 8))) ∧
  ∀ (s : State) (data : Byte), s.calm = true →
    ∃ t, exec (.crcByte data) s = .next t ∧
      t.crc = ([0, 1, 2, 3, 4, 5, 6, 7] : List Nat).foldl
        (fun (c : Byte) (j : Nat) => if c.getLsbD 0 ^^ data.getLsbD j then (c >>> 1) ^^^ 0x8C#8 else c >>> 1) s.crc ∧
      Ended s t .ok [] ∧ Untouched s { t with crc := s.crc } ∧ Supervised s t ∧
      t.status.presence = s.status.presence ∧ t.status.rxbit = s.status.rxbit ∧ t.x = s.startWork

/-- 41_crc.md section 1, the table form, the residue and validity: the step depends only on the XOR of its arguments; a
sequence followed by its own CRC folds to zero; an identifier is valid exactly if its eight bytes fold to zero, and a
frame exactly if its nine bytes do. -/
def Obligations.CrcResidue : Prop :=
  (∀ c v : Byte, crc8Step c v = crc8Step 0 (c ^^^ v)) ∧ (∀ bs : List Byte, crc8 (bs ++ [crc8 bs]) = 0) ∧
  (∀ rom : Ident, romValid rom = true ↔
    crc8 [romByte rom 0, romByte rom 1, romByte rom 2, romByte rom 3, romByte rom 4, romByte rom 5, romByte rom 6,
      romByte rom 7] = 0) ∧
  (∀ sp : Vector Byte 9, frameValid sp = true ↔ crc8 sp.toList = 0)

/-! ### Search and enumeration -/

/-- 42_enumeration.md R240, R231: SEARCH_CLEAR. What it says of the working registers `t.x` is log entry 21. -/
def Obligations.SearchClearSession : Prop :=
  (∀ w : Word, w.extractLsb' 0 5 = 8 → decode w = if reservedSet w then .illegal .reservedBits else .command .searchClear) ∧
  ∀ s : State, s.calm = true →
    ∃ t, exec .searchClear s = .next t ∧ t.session.ld = 0 ∧ t.session.lfd = 0 ∧ t.session.ldf = false ∧
      t.session.rombuf = 0 ∧ Ended s t .ok [] ∧ Untouched s { t with session := s.session } ∧ Supervised s t ∧
      t.status.presence = s.status.presence ∧ t.status.rxbit = s.status.rxbit ∧ t.x = s.startWork

/-- 42_enumeration.md section 3: SEARCH_NEXT with LDF = 1 performs no slot, changes nothing and returns COMPLETE. What
it says of the working registers `t.x` is log entry 21. -/
def Obligations.SearchNextComplete : Prop := ∀ s : State, s.calm = true → s.session.ldf = true →
  ∃ t, exec .searchNext s = .next t ∧ Ended s t .complete [] ∧ Untouched s t ∧ Supervised s t ∧
    t.status.presence = s.status.presence ∧ t.status.rxbit = s.status.rxbit ∧ t.x = s.startWork

/-- 42_enumeration.md section 2: SEARCH_NEXT on a line where no device answers the reset slot clears the session state
and returns BUS_ABSENT after that slot. What it says of the working registers `t.x` is log entry 21. -/
def Obligations.SearchNextAbsent : Prop := ∀ (s : State) (rest : List Bool), s.Undisturbed → s.session.ldf = false →
  s.env.bus = true :: rest →
    ∃ t, exec .searchNext s = .next t ∧ Ended s t .busAbsent [.reset] ∧ t.session = ⟨0, 0, false, 0⟩ ∧
      t.status.presence = false ∧ Untouched s { t with session := s.session } ∧ Supervised s t ∧
      t.status.rxbit = s.status.rxbit ∧ SearchRegsOnly s.startWork t.x

/-- 42_enumeration.md section 2, step 2: where the two bits read at position n + 1 are (1,1), SEARCH_NEXT stops at
once with no further slot, clears the session state and returns COLLISION. What it says of the working registers `t.x`
is log entry 21. -/
def Obligations.SearchNextCollision : Prop :=
  ∀ (s : State) (ds : List Ident) (d : Ident) (n : Nat) (rest : List Bool), s.Undisturbed → s.session.ldf = false →
    n < 64 → FollowsTo n ds s.session d → s.env.bus = false :: searchBits ds d n 1 ++ true :: true :: rest →
      ∃ t, exec .searchNext s = .next t ∧
        Ended s t .collision (searchHead ++ positionSlots d n 1 ++ [.read, .read]) ∧ t.session = ⟨0, 0, false, 0⟩ ∧
        t.status.presence = true ∧ Untouched s { t with session := s.session } ∧ Supervised s t ∧
        t.status.rxbit = s.status.rxbit ∧ SearchRegsOnly s.startWork t.x

/-- 42_enumeration.md section 2: SEARCH_NEXT on a bus of any number of devices that answer per the wired-AND. Where
the directions of steps 3 and 4 lead to the device `d`, the step assembles `d`. With a valid CRC it returns OK and
commits ROMBUF, LD, LFD and LDF; with a wrong CRC byte it clears the session state and returns CRC_MISMATCH. What it
says of the working registers `t.x` is log entry 21. -/
def Obligations.SearchNextFinds : Prop :=
  ∀ (s : State) (ds : List Ident) (d : Ident) (rest : List Bool), s.Undisturbed → s.session.ldf = false →
    FollowsTo 64 ds s.session d → s.env.bus = false :: searchBits ds d 64 1 ++ rest →
      ∃ t, exec .searchNext s = .next t ∧
        Ended s t (if romValid d then .ok else .crcMismatch) (searchSlots d) ∧
        t.session = (if romValid d then afterFound ds s.session d else ⟨0, 0, false, 0⟩) ∧
        t.status.presence = true ∧ Untouched s { t with session := s.session } ∧ Supervised s t ∧
        t.status.rxbit = s.status.rxbit ∧ SearchRegsOnly s.startWork t.x

/-- 42_enumeration.md section 5, order of discovery: on a bus whose valid devices are listed in ascending order, a
SEARCH_NEXT that follows the discovery of `c` returns the next device of the order. -/
def Obligations.SearchNextAdvances : Prop :=
  ∀ (s : State) (pre post : List Ident) (c d : Ident) (se : Session) (rest : List Bool), s.Undisturbed →
    (pre ++ c :: d :: post).Pairwise comesBefore → romValid d = true →
    s.session = afterFound (pre ++ c :: d :: post) se c →
    s.env.bus = false :: searchBits (pre ++ c :: d :: post) d 64 1 ++ rest →
      ∃ t, exec .searchNext s = .next t ∧ Ended s t .ok (searchSlots d) ∧ t.session.rombuf = d ∧
        (t.session.ldf = true ↔ post = [])

/-- 42_enumeration.md section 3: SEARCH_FIRST is SEARCH_NEXT on a cleared session, in one command, whatever happens
during it. -/
def Obligations.SearchFirstIsClearNext : Prop := ∀ s : State,
  exec .searchFirst s = exec .searchNext { s with session := ⟨0, 0, false, 0⟩ }

/-- 42_enumeration.md sections 3 and 5: SEARCH_FIRST on a bus whose valid devices are listed in ascending order
returns OK with the first of them, whatever the session state was. What it says of the working registers `t.x` is log
entry 21. -/
def Obligations.SearchFirstFinds : Prop := ∀ (s : State) (d : Ident) (post : List Ident) (rest : List Bool),
  s.Undisturbed → (d :: post).Pairwise comesBefore → romValid d = true →
  s.env.bus = false :: searchBits (d :: post) d 64 1 ++ rest →
    ∃ t, exec .searchFirst s = .next t ∧ Ended s t .ok (searchSlots d) ∧ t.session.rombuf = d ∧
      (t.session.ldf = true ↔ post = []) ∧ t.status.presence = true ∧ Untouched s { t with session := s.session } ∧
      Supervised s t ∧ t.status.rxbit = s.status.rxbit ∧ SearchRegsOnly s.startWork t.x

/-- 10_state.md R77: LDF, once set, is cleared only by SEARCH_CLEAR, SEARCH_FIRST, ENUMERATE and block reset, over
every step of the block. -/
def Obligations.LdfPersists : Prop := ∀ s t : State, s.calm = true → s.session.ldf = true → step s = .next t →
  (∀ w, s.due = .command w → decode w ≠ .command .searchClear ∧ decode w ≠ .command .searchFirst ∧
    decode w ≠ .command .enumerate) → t.session.ldf = true

/-- 42_enumeration.md sections 4 and 5: ENUMERATE on a bus of distinct valid devices, listed in ascending order of
discovery. After any number of passes below ENUM_RETRIES that fail, each with no presence, with a collision or with a
wrong CRC, and after any number of devices found, one pass finds the devices, each exactly once and in that order, up to
MAX_DEVICES of them: COUNT is their number, the first rows of the table hold them re-initialised, a row above keeps what
the failed passes wrote to it, ENUMSTAT has the passes, the last failure and TRUNC, and the code is OK. PASSES is modulo
256 where it is above 255, which is the model's choice (log entry 2). What it says of the working registers `t.x` is log
entry 21. -/
def Obligations.EnumerateFinds : Prop := ∀ (s : State) (passes : List FailedPass) (ds : List Ident) (rest : List Bool),
  s.Undisturbed → ds ≠ [] → ds.Pairwise comesBefore → (∀ d ∈ ds, romValid d = true) →
  passes.length < s.params.enumRetries → (∀ p ∈ passes, p.Possible s.params.maxDevices) →
  s.env.bus = passes.flatMap FailedPass.bits ++ passBits ds (ds.take s.params.maxDevices) ++ rest →
    ∃ t, exec .enumerate s = .next t ∧
      Ended s t .ok (passes.flatMap FailedPass.slots ++ (ds.take s.params.maxDevices).flatMap searchSlots) ∧
      t.count.toNat = min ds.length s.params.maxDevices ∧
      t.enumstat = ⟨BitVec.ofNat 8 (passes.length + 1), (passes.getLast?.map FailedPass.code).getD .ok,
        decide (s.params.maxDevices < ds.length)⟩ ∧
      t.session = afterPass ds .clear (ds.take s.params.maxDevices) ∧
      (∀ i : Fin 16, (h : i.val < (ds.take s.params.maxDevices).length) →
        t.table[i] = ⟨(ds.take s.params.maxDevices)[i.val], 0, .idle, false, .r12, 0, none⟩) ∧
      (∀ i : Fin 16, (ds.take s.params.maxDevices).length ≤ i.val → match rowAfter passes i.val with
        | some d => t.table[i] = ⟨d, 0, .idle, false, .r12, 0, none⟩
        | none => RowPasses (s.validRow i) s.table[i] t.table[i]) ∧
      Untouched s { t with session := s.session, count := s.count, enumstat := s.enumstat } ∧
      (s.quiet → (∀ i : Fin 16, s.validRow i = true → s.table[i].cstate ≠ .started) → t.status.cevt = s.status.cevt) ∧
      t.status.presence = true ∧ t.status.rxbit = s.status.rxbit ∧ EnumRegsOnly s.startWork t.x

/-- 42_enumeration.md section 4: ENUMERATE of which every one of ENUM_RETRIES passes fails, each with no presence,
with a collision or with a wrong CRC, and after any number of devices found. It returns BUS_ABSENT with COUNT = 0, and
the last pass's code in LAST_PASS_ERR; the devices found stay in the table rows, not counted. PASSES is ENUM_RETRIES,
modulo 256 where that is above 255, which is the model's choice (log entry 2). What it says of the working registers
`t.x` is log entry 21. -/
def Obligations.EnumerateAbsent : Prop := ∀ (s : State) (passes : List FailedPass) (last : FailedPass) (rest : List Bool),
  s.Undisturbed → (passes ++ [last]).length = s.params.enumRetries →
  (∀ p ∈ passes ++ [last], p.Possible s.params.maxDevices) →
  s.env.bus = (passes ++ [last]).flatMap FailedPass.bits ++ rest →
    ∃ t, exec .enumerate s = .next t ∧ Ended s t .busAbsent ((passes ++ [last]).flatMap FailedPass.slots) ∧
      t.count = 0 ∧ t.enumstat = ⟨BitVec.ofNat 8 s.params.enumRetries, last.code, false⟩ ∧
      t.session = ⟨0, 0, false, 0⟩ ∧
      (∀ i : Fin 16, match rowAfter (passes ++ [last]) i.val with
        | some d => t.table[i] = ⟨d, 0, .idle, false, .r12, 0, none⟩
        | none => RowPasses (s.validRow i) s.table[i] t.table[i]) ∧
      Untouched s { t with session := s.session, count := s.count, enumstat := s.enumstat } ∧
      (s.quiet → (∀ i : Fin 16, s.validRow i = true → s.table[i].cstate ≠ .started) → t.status.cevt = s.status.cevt) ∧
      (t.status.presence = true ↔ last.failure ≠ .absent) ∧ t.status.rxbit = s.status.rxbit ∧
      EnumRegsOnly s.startWork t.x

/-! ### The sensor commands -/

/-- 43_sensor.md R285: CONVERT, all three outcomes. BAD_INDEX before any slot; BUS_ABSENT after the reset slot, no
entry changed by the command; else the selection and CONVERT_T are sent and every target starts with ELAPSED = 0,
whatever state it was in, its ROM, TEMP, TVALID and RES as the passing of time left them. What it says of the working
registers `t.x` is log entry 21. -/
def Obligations.ConvertStarts : Prop := ∀ (s : State) (sel : Bool) (idx : BitVec 4) (p : Bool) (rest : List Bool),
  s.calm = true → s.params.Legal → s.env.bus = (!p) :: rest →
    ∃ t, exec (.convert sel idx) s = .next t ∧ t.status.rxbit = s.status.rxbit ∧ ByteRegsOnly s.startWork t.x ∧
      Untouched s t ∧
      if sel = true ∧ s.count.toNat ≤ idx.toNat then
        Ended s t .badIndex [] ∧ Supervised s t ∧ t.status.presence = s.status.presence
      else if p = false then
        Ended s t .busAbsent [.reset] ∧ Supervised s t ∧ t.status.presence = false
      else
        Ended s t .ok (.reset :: bytesSlots (selectBytes sel s.table[idx.toFin].rom) ++ byteSlots 0x44) ∧
        t.status.presence = true ∧
        (s.quiet → (∀ i : Fin 16, s.validRow i = true → s.table[i].cstate ≠ .started) →
          t.status.cevt = s.status.cevt) ∧
        ∀ i : Fin 16, ∃ e, RowPasses (s.validRow i) s.table[i] e ∧
          t.table[i] = if (if sel then i = idx.toFin else i.val < s.count.toNat) then
            { e with cstate := .started, elapsed := 0, sup := none } else e

/-- 43_sensor.md R291: CONV_POLL. RXBIT is the bit read. If it is 1, every valid started entry becomes Ready, unless
the supervisor has taken it out of ConversionStarted before the finish tick, and CEVT is set if there was one;
otherwise, and to every other entry, only the supervisor does anything. While the host leaves the block alone each row
is exactly what the supervisor makes of it in the ticks before the finish tick, and then Ready if it is still started
and the bit is 1. That a polled row ends without the supervisor's step of the finish tick, its TVALID kept and that tick
not counted in ELAPSED, is the model's choice (log entry 18): 43_sensor.md R273 says so of CSTATE and ELAPSED and not of
TVALID. What it says of the working registers `t.x` is log entry 21. -/
def Obligations.ConvPollReady : Prop := ∀ (s : State) (b : Bool) (rest : List Bool), s.calm = true → s.params.tRs ≠ 0 →
  s.env.bus = b :: rest →
    ∃ t, exec .convPoll s = .next t ∧ Ended s t .ok [.read] ∧ Untouched s t ∧ t.status.rxbit = b ∧
      t.status.presence = s.status.presence ∧ t.x = s.startWork ∧
      (∀ i : Fin 16, b = false ∨ s.validRow i = false ∨ s.table[i].cstate ≠ .started →
        RowPasses (s.validRow i) s.table[i] t.table[i]) ∧
      (b = true → ∀ i : Fin 16, i.val < s.count.toNat → s.table[i].cstate = .started →
        (t.table[i].cstate = .ready ∧ t.table[i].tvalid = s.table[i].tvalid ∨
          t.table[i].cstate = .timedOut ∧ t.table[i].tvalid = false) ∧
        t.table[i].rom = s.table[i].rom ∧ t.table[i].temp = s.table[i].temp ∧ t.table[i].res = s.table[i].res) ∧
      (s.quiet → (t.status.cevt = true ↔ s.status.cevt = true ∨ ∃ i : Fin 16, i.val < s.count.toNat ∧
        s.table[i].cstate = .started ∧ t.table[i].cstate ≠ .started)) ∧
      (s.quiet → s.budget = 0 → b = true → ∀ i : Fin 16, i.val < s.count.toNat → s.table[i].cstate = .started →
        t.table[i].cstate = .ready) ∧
      (s.quiet → ∀ i : Fin 16,
        let m := s.supervisedRow i (s.ticksBefore + slotTicks s.params [.read]) s.table[i]
        t.table[i] = if b = true ∧ i.val < s.count.toNat ∧ m.cstate = .started then { m with cstate := .ready }
          else s.supervisedRow i 1 m)

/-- 43_sensor.md section 4, 70_reset_and_hazards.md section 3 (R365): READ_TEMP without a frame. BAD_INDEX and
CONV_TIMEOUT, in that order, before any slot and whatever is on the line; BUS_ABSENT after the reset slot; the entry is
not changed by the command. An entry whose conversion is started is read only if it is Ready at t_s, which it is if and
only if the acceptance cycle is a tick whose supervisor step makes it so. What it says of the working registers `t.x` is
log entry 21. -/
def Obligations.ReadTempRefuses : Prop := ∀ (s : State) (sel : Bool) (idx : BitVec 4), s.calm = true →
  let e := s.table[idx.toFin]
  let due := e.cstate = .ready ∨ e.cstate = .started ∧ s.isTick = true ∧
    100 * 2 ^ (e.res.toNat - 9) * s.params.convUnitUs ≤ min (e.elapsed.toNat + 1) (2 ^ 32 - 1)
  let refuses (code : Code) (slots : List Slot) (p : Bool) : Prop :=
    ∃ t, exec (.readTemp sel idx) s = .next t ∧ Ended s t code slots ∧ Untouched s t ∧ Supervised s t ∧
      t.status.presence = p ∧ t.status.rxbit = s.status.rxbit ∧ t.x = s.startWork
  (s.count.toNat ≤ idx.toNat → refuses .badIndex [] s.status.presence) ∧
  (idx.toNat < s.count.toNat → ¬due → refuses .convTimeout [] s.status.presence) ∧
  (idx.toNat < s.count.toNat → due → s.params.Legal → ∀ rest : List Bool, s.env.bus = true :: rest →
    refuses .busAbsent [.reset] false)

/-- 43_sensor.md section 4, READ_TEMP of a Ready entry whose device answers with the frame `sp`. A valid frame is
decoded into TEMP, TVALID and RES of the entry; a frame with a wrong CRC gives CRC_MISMATCH and leaves the entry
entirely unchanged. CSTATE stays Ready. What it says of the working registers `t.x` is log entry 21. -/
def Obligations.ReadTempReads : Prop :=
  ∀ (s : State) (sel : Bool) (idx : BitVec 4) (sp : Vector Byte 9) (rest : List Bool), s.Undisturbed →
    idx.toNat < s.count.toNat → s.table[idx.toFin].cstate = .ready → s.env.bus = false :: frameBits sp ++ rest →
      ∃ t, exec (.readTemp sel idx) s = .next t ∧
        Ended s t (if frameValid sp then .ok else .crcMismatch)
          (.reset :: bytesSlots (selectBytes sel s.table[idx.toFin].rom) ++ byteSlots 0xBE ++ readSlots 72) ∧
        Untouched s t ∧ t.status.presence = true ∧ t.status.rxbit = s.status.rxbit ∧ FrameRegsOnly s.startWork t.x ∧
        (s.quiet → (∀ i : Fin 16, s.validRow i = true → s.table[i].cstate ≠ .started) →
          t.status.cevt = s.status.cevt) ∧
        (∀ i : Fin 16, i ≠ idx.toFin → RowPasses (s.validRow i) s.table[i] t.table[i]) ∧
        t.table[idx.toFin] = if frameValid sp then
          { s.table[idx.toFin] with
            temp := BitVec.ofInt 32 (decodePseudocode sp[0].toNat sp[1].toNat sp[4].toNat).1
            tvalid := true
            res := resolutionOfConfig sp[4]
            sup := none }
        else { s.table[idx.toFin] with sup := none }

/-- 43_sensor.md section 4, 60_exceptions.md section 1: CONFIGURE before its first slot: a RES outside 9 to 12 is
UNSUPPORTED_RES, checked before the index; then BAD_INDEX. What it says of the working registers `t.x` is log entry
21. -/
def Obligations.ConfigureRefuses : Prop := ∀ (s : State) (sel : Bool) (idx res : BitVec 4), s.calm = true →
  res.toNat < 9 ∨ 12 < res.toNat ∨ (sel = true ∧ s.count.toNat ≤ idx.toNat) →
    ∃ t, exec (.configure sel idx res) s = .next t ∧
      Ended s t (if res.toNat < 9 ∨ 12 < res.toNat then .unsupportedRes else .badIndex) [] ∧ Untouched s t ∧
      Supervised s t ∧ t.status.presence = s.status.presence ∧ t.status.rxbit = s.status.rxbit ∧ t.x = s.startWork

/-- 43_sensor.md section 4: CONFIGURE whose three reset slots are all answered and whose device answers the read with
a valid frame: the slots are the read, the write of TH, TL and CFG from the latched ALARM, the copy and the wait, in
that order, and RES of every target becomes the requested one. What it says of the working registers `t.x` is log
entry 21. -/
def Obligations.ConfigureCommits : Prop :=
  ∀ (s : State) (sel : Bool) (idx res : BitVec 4) (r : Resolution) (sp : Vector Byte 9) (rest : List Bool),
    s.Undisturbed → res.toNat = r.toNat → (sel = true → idx.toNat < s.count.toNat) → frameValid sp = true →
    s.env.bus = false :: frameBits sp ++ false :: false :: rest →
      ∃ t, exec (.configure sel idx res) s = .next t ∧
        Ended s t .ok
          (.reset :: bytesSlots (selectBytes sel s.table[idx.toFin].rom) ++ byteSlots 0xBE ++ readSlots 72 ++
            .reset :: bytesSlots (selectBytes sel s.table[idx.toFin].rom) ++
              bytesSlots [0x4E, clampByte (s.alarm.extractLsb' 16 16), clampByte (s.alarm.extractLsb' 0 16), cfgByte r] ++
            .reset :: bytesSlots (selectBytes sel s.table[idx.toFin].rom) ++ byteSlots 0x48 ++ [.wait]) ∧
        Untouched s t ∧ t.status.presence = true ∧ t.status.rxbit = s.status.rxbit ∧ FrameRegsOnly s.startWork t.x ∧
        (s.quiet → (∀ i : Fin 16, s.validRow i = true → s.table[i].cstate ≠ .started) →
          t.status.cevt = s.status.cevt) ∧
        ∀ i : Fin 16, ∃ e, RowPasses (s.validRow i) s.table[i] e ∧
          t.table[i] = if (if sel then i = idx.toFin else i.val < s.count.toNat) then { e with res := r } else e

/-- 43_sensor.md section 4, 60_exceptions.md section 1: CONFIGURE stopped on the line: BUS_ABSENT at its first, second
or third reset slot, CRC_MISMATCH after the read of a frame with a wrong CRC. It writes no entry, and performs no slot
after the one that stopped it. What it says of the working registers `t.x` is log entry 21. -/
def Obligations.ConfigureStops : Prop :=
  ∀ (s : State) (sel : Bool) (idx res : BitVec 4) (r : Resolution) (sp : Vector Byte 9) (rest : List Bool),
    s.Undisturbed → res.toNat = r.toNat → (sel = true → idx.toNat < s.count.toNat) →
    let select := bytesSlots (selectBytes sel s.table[idx.toFin].rom)
    let read := .reset :: select ++ byteSlots 0xBE ++ readSlots 72
    let write := .reset :: select ++
      bytesSlots [0x4E, clampByte (s.alarm.extractLsb' 16 16), clampByte (s.alarm.extractLsb' 0 16), cfgByte r]
    let stops (code : Code) (slots : List Slot) (p : Bool) : Prop :=
      ∃ t, exec (.configure sel idx res) s = .next t ∧ Ended s t code slots ∧ Untouched s t ∧ Supervised s t ∧
        t.status.presence = p ∧ t.status.rxbit = s.status.rxbit ∧ FrameRegsOnly s.startWork t.x
    (s.env.bus = true :: rest → stops .busAbsent [.reset] false) ∧
    (frameValid sp = false → s.env.bus = false :: frameBits sp ++ rest → stops .crcMismatch read true) ∧
    (frameValid sp = true → s.env.bus = false :: frameBits sp ++ true :: rest →
      stops .busAbsent (read ++ [.reset]) false) ∧
    (frameValid sp = true → s.env.bus = false :: frameBits sp ++ false :: true :: rest →
      stops .busAbsent (read ++ write ++ [.reset]) false)

/-! ### Decoding and operand forms -/

/-- 43_sensor.md R277: Decode, line by line, and its range. -/
def Obligations.DecodeFrame : Prop := ∀ b0 b1 b4 : Byte,
  decodeCenti b0 b1 b4 = (decodePseudocode b0.toNat b1.toNat b4.toNat).1 ∧
  (resolutionOfConfig b4).toNat = (decodePseudocode b0.toNat b1.toNat b4.toNat).2 ∧
  -204800 ≤ decodeCenti b0 b1 b4 ∧ decodeCenti b0 b1 b4 ≤ 204793 ∧
  (BitVec.ofInt 32 (decodeCenti b0 b1 b4)).toInt = decodeCenti b0 b1 b4

/-- 43_sensor.md section 3, sign handling and the round-trip property: +10.0 °C decodes to 1000 and −10.0 °C to −1000 at
every resolution; a negative raw value decodes to the negated value of its magnitude, so dropped bits are dropped from
the magnitude. -/
def Obligations.DecodeSigns : Prop := ∀ (b4 : Byte) (mag : BitVec 16), 0 < mag.toNat → mag.toNat < 32768 →
  decodeCenti 0xA0 0x00 b4 = 1000 ∧ decodeCenti 0x60 0xFF b4 = -1000 ∧
  decodeCenti ((-mag).extractLsb' 0 8) ((-mag).extractLsb' 8 8) b4 =
    -decodeCenti (mag.extractLsb' 0 8) (mag.extractLsb' 8 8) b4

/-- 43_sensor.md R280, 30_encoding.md section 5: CfgByte, its four values, and that its resolution bits read back. -/
def Obligations.CfgByteValues : Prop :=
  (∀ r : Resolution, cfgByte r = (BitVec.ofNat 8 (r.toNat - 9) <<< 5) ||| 0x1F#8 ∧ resolutionOfConfig (cfgByte r) = r) ∧
  cfgByte .r9 = 0x1F ∧ cfgByte .r10 = 0x3F ∧ cfgByte .r11 = 0x5F ∧ cfgByte .r12 = 0x7F

/-- 43_sensor.md R305: Clamp takes a 16-bit field as a signed integer, clamps it to [−55, 125] and encodes it as a
two's-complement byte. -/
def Obligations.ClampThreshold : Prop :=
  (∀ v : BitVec 16, (clampByte v).toInt = min (max v.toInt (-55)) 125 ∧
    ((clampByte v).toNat : Int) = (min (max v.toInt (-55)) 125) % 256) ∧
  clampByte 0x8000 = 0xC9 ∧ clampByte 0xFFC8 = 0xC9 ∧ clampByte 0xFFC9 = 0xC9 ∧ clampByte 0x0000 = 0x00 ∧
  clampByte 0x0019 = 0x19 ∧ clampByte 0x007D = 0x7D ∧ clampByte 0x007E = 0x7D ∧ clampByte 0x7FFF = 0x7D

/-! ### The conversion supervisor -/

/-- 43_sensor.md R271, R272: the supervisor step at a tick, in a cycle in which the host does nothing: every valid
started entry counts ELAPSED, saturating, and becomes Ready at the resolution's duration or else TimedOut, with TVALID
cleared, at a non-zero budget, with CEVT set; every other entry is not stepped. In a cycle that is no tick no entry
changes. The durations are 100, 200, 400 and 800 time-units, and a time-unit is 1000 ticks by default. -/
def Obligations.SupervisorTick : Prop :=
  (∀ s : State, s.due = .quiet →
    ∃ t, step s = .next t ∧
      (∀ i : Fin 16,
        let e := s.table[i]
        let n := min (e.elapsed.toNat + 1) (2 ^ 32 - 1)
        let unit := s.params.convUnitUs
        let ready := 100 * 2 ^ (e.res.toNat - 9) * unit ≤ n
        let out := s.budget ≠ 0 ∧ s.budget.toNat * unit ≤ n
        t.table[i] = if s.isTick = true ∧ i.val < s.count.toNat ∧ e.cstate = .started then
          { e with
            elapsed := BitVec.ofNat 32 n
            cstate := if ready then .ready else if out then .timedOut else .started
            tvalid := if ¬ready ∧ out then false else e.tvalid
            sup := none }
        else { e with sup := none }) ∧
      (t.status.cevt = true ↔ s.status.cevt = true ∨ ∃ i : Fin 16, s.table[i].cstate = .started ∧
        t.table[i].cstate ≠ .started)) ∧
  Resolution.duration .r9 = 100 ∧ Resolution.duration .r10 = 200 ∧ Resolution.duration .r11 = 400 ∧
  Resolution.duration .r12 = 800 ∧ Params.default.convUnitUs = 1000

/-- 43_sensor.md sections 1 and 4, the timestamp point: a started entry, left alone with no budget or a budget not
shorter than its duration, is started for exactly DUR · CONV_UNIT_US ticks from ELAPSED = 0 and Ready from then on; its
ELAPSED counts those ticks and then holds. -/
def Obligations.TimedConversion : Prop := ∀ (s : State) (i : Fin 16) (n : Nat), s.env.host = [] →
  s.presc < s.params.cycPerUs → i.val < s.count.toNat → s.table[i].cstate = .started → s.table[i].elapsed = 0 →
  1 ≤ s.params.convUnitUs → s.table[i].res.duration * s.params.convUnitUs < 2 ^ 32 →
  s.budget = 0 ∨ s.table[i].res.duration ≤ s.budget.toNat →
    ∃ t, runSteps n s = some t ∧
      let ticks := (s.presc + n) / s.params.cycPerUs
      let due := s.table[i].res.duration * s.params.convUnitUs
      t.table[i].cstate = (if due ≤ ticks then .ready else .started) ∧ t.table[i].elapsed.toNat = min ticks due ∧
      t.table[i].tvalid = s.table[i].tvalid ∧ t.table[i].temp = s.table[i].temp ∧ t.table[i].res = s.table[i].res

/-- 43_sensor.md section 1: a started entry, left alone with a budget shorter than its duration, times out after exactly
BUDGET_MS · CONV_UNIT_US ticks; its reading stays and its validity is cleared. -/
def Obligations.TimedOutConversion : Prop := ∀ (s : State) (i : Fin 16) (n : Nat), s.env.host = [] →
  s.presc < s.params.cycPerUs → i.val < s.count.toNat → s.table[i].cstate = .started → s.table[i].elapsed = 0 →
  1 ≤ s.params.convUnitUs → s.budget ≠ 0 → s.budget.toNat < s.table[i].res.duration →
  s.budget.toNat * s.params.convUnitUs < 2 ^ 32 →
    ∃ t, runSteps n s = some t ∧
      let ticks := (s.presc + n) / s.params.cycPerUs
      let due := s.budget.toNat * s.params.convUnitUs
      t.table[i].cstate = (if due ≤ ticks then .timedOut else .started) ∧ t.table[i].elapsed.toNat = min ticks due ∧
      t.table[i].tvalid = (if due ≤ ticks then false else s.table[i].tvalid) ∧ t.table[i].temp = s.table[i].temp

/-! ### Whole-machine rules -/

/-- 10_state.md sections 2 and 3, 41_crc.md section 1: which commands write which registers, over every command, every
outcome of it and everything the host does during it that does not cut it. RXDATA is written by READ_BYTE alone,
CRC.ACC by the CRC commands alone, COUNT and ENUMSTAT by ENUMERATE alone, the session state by the four search
commands alone, and ALARM and the parameters by none. What it says of the working registers `t.x` is log entry 21. -/
def Obligations.RegisterWriters : Prop := ∀ (i : Instr) (s t : State), s.calm = true → exec i s = .next t →
  (i ≠ .readByte → t.rxdata = s.rxdata) ∧
  (i ≠ .crcClear → (∀ data, i ≠ .crcByte data) → t.crc = s.crc) ∧
  (i ≠ .enumerate → t.count = s.count ∧ t.enumstat = s.enumstat) ∧
  (i ≠ .searchClear → i ≠ .searchNext → i ≠ .searchFirst → i ≠ .enumerate → t.session = s.session) ∧
  t.alarm = s.alarm ∧ t.params = s.params ∧ t.x.cmdw = s.x.cmdw ∧ t.x.alw = s.alarm

/-- 43_sensor.md sections 1 and 4: only CONVERT and ENUMERATE take an entry out of Idle, Ready or TimedOut, and only a
successful READ_TEMP changes a cached reading, over every other command and every outcome of it. -/
def Obligations.EntryWriters : Prop := ∀ (i : Instr) (s t : State) (j : Fin 16), s.calm = true →
  exec i s = .next t → (∀ sel idx, i ≠ .convert sel idx) → i ≠ .enumerate →
    t.table[j].rom = s.table[j].rom ∧
    (s.table[j].cstate ≠ .started → t.table[j].cstate = s.table[j].cstate) ∧
    ((∀ sel idx, i ≠ .readTemp sel idx) ∨ t.status.err ≠ .ok →
      t.table[j].temp = s.table[j].temp ∧ (t.table[j].tvalid = true → s.table[j].tvalid = true))
end

