-- ==== Sys2Proof/Laws/State.lean ====
section
/-! SUPPORT. What each named update of the state does to each field: one lemma per field per update, true by
definition, so that no later proof unfolds a record update. -/

namespace Sys2Proof.Machine

/-! ### takeDraw -/

@[simp] theorem takeDraw_params (s : State) : (s.takeDraw).params = s.params := rfl
@[simp] theorem takeDraw_status (s : State) : (s.takeDraw).status = s.status := rfl
@[simp] theorem takeDraw_ctrl (s : State) : (s.takeDraw).ctrl = s.ctrl := rfl
@[simp] theorem takeDraw_rxdata (s : State) : (s.takeDraw).rxdata = s.rxdata := rfl
@[simp] theorem takeDraw_crc (s : State) : (s.takeDraw).crc = s.crc := rfl
@[simp] theorem takeDraw_session (s : State) : (s.takeDraw).session = s.session := rfl
@[simp] theorem takeDraw_budget (s : State) : (s.takeDraw).budget = s.budget := rfl
@[simp] theorem takeDraw_alarm (s : State) : (s.takeDraw).alarm = s.alarm := rfl
@[simp] theorem takeDraw_now (s : State) : (s.takeDraw).now = s.now := rfl
@[simp] theorem takeDraw_count (s : State) : (s.takeDraw).count = s.count := rfl
@[simp] theorem takeDraw_enumstat (s : State) : (s.takeDraw).enumstat = s.enumstat := rfl
@[simp] theorem takeDraw_table (s : State) : (s.takeDraw).table = s.table := rfl
@[simp] theorem takeDraw_x (s : State) : (s.takeDraw).x = s.x := rfl
@[simp] theorem takeDraw_ph (s : State) : (s.takeDraw).ph = s.ph := rfl
@[simp] theorem takeDraw_pcnt (s : State) : (s.takeDraw).pcnt = s.pcnt := rfl
@[simp] theorem takeDraw_seq (s : State) : (s.takeDraw).seq = s.seq := rfl
@[simp] theorem takeDraw_pad (s : State) : (s.takeDraw).pad = s.pad := rfl
@[simp] theorem takeDraw_presc (s : State) : (s.takeDraw).presc = s.presc := rfl
@[simp] theorem takeDraw_env (s : State) : (s.takeDraw).env = { s.env with draws := s.env.draws + 1 } := rfl

/-! ### answer -/

@[simp] theorem answer_params (off : Offset) (v : Word) (s : State) : (s.answer off v).params = s.params := rfl
@[simp] theorem answer_status (off : Offset) (v : Word) (s : State) : (s.answer off v).status = s.status := rfl
@[simp] theorem answer_ctrl (off : Offset) (v : Word) (s : State) : (s.answer off v).ctrl = s.ctrl := rfl
@[simp] theorem answer_rxdata (off : Offset) (v : Word) (s : State) : (s.answer off v).rxdata = s.rxdata := rfl
@[simp] theorem answer_crc (off : Offset) (v : Word) (s : State) : (s.answer off v).crc = s.crc := rfl
@[simp] theorem answer_session (off : Offset) (v : Word) (s : State) : (s.answer off v).session = s.session := rfl
@[simp] theorem answer_budget (off : Offset) (v : Word) (s : State) : (s.answer off v).budget = s.budget := rfl
@[simp] theorem answer_alarm (off : Offset) (v : Word) (s : State) : (s.answer off v).alarm = s.alarm := rfl
@[simp] theorem answer_now (off : Offset) (v : Word) (s : State) : (s.answer off v).now = s.now := rfl
@[simp] theorem answer_count (off : Offset) (v : Word) (s : State) : (s.answer off v).count = s.count := rfl
@[simp] theorem answer_enumstat (off : Offset) (v : Word) (s : State) : (s.answer off v).enumstat = s.enumstat := rfl
@[simp] theorem answer_table (off : Offset) (v : Word) (s : State) : (s.answer off v).table = s.table := rfl
@[simp] theorem answer_x (off : Offset) (v : Word) (s : State) : (s.answer off v).x = s.x := rfl
@[simp] theorem answer_ph (off : Offset) (v : Word) (s : State) : (s.answer off v).ph = s.ph := rfl
@[simp] theorem answer_pcnt (off : Offset) (v : Word) (s : State) : (s.answer off v).pcnt = s.pcnt := rfl
@[simp] theorem answer_seq (off : Offset) (v : Word) (s : State) : (s.answer off v).seq = s.seq := rfl
@[simp] theorem answer_pad (off : Offset) (v : Word) (s : State) : (s.answer off v).pad = s.pad := rfl
@[simp] theorem answer_presc (off : Offset) (v : Word) (s : State) : (s.answer off v).presc = s.presc := rfl
@[simp] theorem answer_env (off : Offset) (v : Word) (s : State) : (s.answer off v).env = { s.env with reads := (off, v) :: s.env.reads } := rfl

/-! ### setOvr -/

@[simp] theorem setOvr_params (s : State) : (s.setOvr).params = s.params := rfl
@[simp] theorem setOvr_status (s : State) : (s.setOvr).status = { s.status with ovr := true } := rfl
@[simp] theorem setOvr_ctrl (s : State) : (s.setOvr).ctrl = s.ctrl := rfl
@[simp] theorem setOvr_rxdata (s : State) : (s.setOvr).rxdata = s.rxdata := rfl
@[simp] theorem setOvr_crc (s : State) : (s.setOvr).crc = s.crc := rfl
@[simp] theorem setOvr_session (s : State) : (s.setOvr).session = s.session := rfl
@[simp] theorem setOvr_budget (s : State) : (s.setOvr).budget = s.budget := rfl
@[simp] theorem setOvr_alarm (s : State) : (s.setOvr).alarm = s.alarm := rfl
@[simp] theorem setOvr_now (s : State) : (s.setOvr).now = s.now := rfl
@[simp] theorem setOvr_count (s : State) : (s.setOvr).count = s.count := rfl
@[simp] theorem setOvr_enumstat (s : State) : (s.setOvr).enumstat = s.enumstat := rfl
@[simp] theorem setOvr_table (s : State) : (s.setOvr).table = s.table := rfl
@[simp] theorem setOvr_x (s : State) : (s.setOvr).x = s.x := rfl
@[simp] theorem setOvr_ph (s : State) : (s.setOvr).ph = s.ph := rfl
@[simp] theorem setOvr_pcnt (s : State) : (s.setOvr).pcnt = s.pcnt := rfl
@[simp] theorem setOvr_seq (s : State) : (s.setOvr).seq = s.seq := rfl
@[simp] theorem setOvr_pad (s : State) : (s.setOvr).pad = s.pad := rfl
@[simp] theorem setOvr_presc (s : State) : (s.setOvr).presc = s.presc := rfl
@[simp] theorem setOvr_env (s : State) : (s.setOvr).env = s.env := rfl

/-! ### setEntry -/

@[simp] theorem setEntry_params (i : Fin 16) (f : Entry → Entry) (s : State) : (s.setEntry i f).params = s.params := rfl
@[simp] theorem setEntry_status (i : Fin 16) (f : Entry → Entry) (s : State) : (s.setEntry i f).status = s.status := rfl
@[simp] theorem setEntry_ctrl (i : Fin 16) (f : Entry → Entry) (s : State) : (s.setEntry i f).ctrl = s.ctrl := rfl
@[simp] theorem setEntry_rxdata (i : Fin 16) (f : Entry → Entry) (s : State) : (s.setEntry i f).rxdata = s.rxdata := rfl
@[simp] theorem setEntry_crc (i : Fin 16) (f : Entry → Entry) (s : State) : (s.setEntry i f).crc = s.crc := rfl
@[simp] theorem setEntry_session (i : Fin 16) (f : Entry → Entry) (s : State) : (s.setEntry i f).session = s.session := rfl
@[simp] theorem setEntry_budget (i : Fin 16) (f : Entry → Entry) (s : State) : (s.setEntry i f).budget = s.budget := rfl
@[simp] theorem setEntry_alarm (i : Fin 16) (f : Entry → Entry) (s : State) : (s.setEntry i f).alarm = s.alarm := rfl
@[simp] theorem setEntry_now (i : Fin 16) (f : Entry → Entry) (s : State) : (s.setEntry i f).now = s.now := rfl
@[simp] theorem setEntry_count (i : Fin 16) (f : Entry → Entry) (s : State) : (s.setEntry i f).count = s.count := rfl
@[simp] theorem setEntry_enumstat (i : Fin 16) (f : Entry → Entry) (s : State) : (s.setEntry i f).enumstat = s.enumstat := rfl
@[simp] theorem setEntry_table (i : Fin 16) (f : Entry → Entry) (s : State) : (s.setEntry i f).table = s.table.set i (f s.table[i]) := rfl
@[simp] theorem setEntry_x (i : Fin 16) (f : Entry → Entry) (s : State) : (s.setEntry i f).x = s.x := rfl
@[simp] theorem setEntry_ph (i : Fin 16) (f : Entry → Entry) (s : State) : (s.setEntry i f).ph = s.ph := rfl
@[simp] theorem setEntry_pcnt (i : Fin 16) (f : Entry → Entry) (s : State) : (s.setEntry i f).pcnt = s.pcnt := rfl
@[simp] theorem setEntry_seq (i : Fin 16) (f : Entry → Entry) (s : State) : (s.setEntry i f).seq = s.seq := rfl
@[simp] theorem setEntry_pad (i : Fin 16) (f : Entry → Entry) (s : State) : (s.setEntry i f).pad = s.pad := rfl
@[simp] theorem setEntry_presc (i : Fin 16) (f : Entry → Entry) (s : State) : (s.setEntry i f).presc = s.presc := rfl
@[simp] theorem setEntry_env (i : Fin 16) (f : Entry → Entry) (s : State) : (s.setEntry i f).env = s.env := rfl

/-! ### withHost -/

@[simp] theorem withHost_params (h : List HostEvent) (s : State) : (s.withHost h).params = s.params := rfl
@[simp] theorem withHost_status (h : List HostEvent) (s : State) : (s.withHost h).status = s.status := rfl
@[simp] theorem withHost_ctrl (h : List HostEvent) (s : State) : (s.withHost h).ctrl = s.ctrl := rfl
@[simp] theorem withHost_rxdata (h : List HostEvent) (s : State) : (s.withHost h).rxdata = s.rxdata := rfl
@[simp] theorem withHost_crc (h : List HostEvent) (s : State) : (s.withHost h).crc = s.crc := rfl
@[simp] theorem withHost_session (h : List HostEvent) (s : State) : (s.withHost h).session = s.session := rfl
@[simp] theorem withHost_budget (h : List HostEvent) (s : State) : (s.withHost h).budget = s.budget := rfl
@[simp] theorem withHost_alarm (h : List HostEvent) (s : State) : (s.withHost h).alarm = s.alarm := rfl
@[simp] theorem withHost_now (h : List HostEvent) (s : State) : (s.withHost h).now = s.now := rfl
@[simp] theorem withHost_count (h : List HostEvent) (s : State) : (s.withHost h).count = s.count := rfl
@[simp] theorem withHost_enumstat (h : List HostEvent) (s : State) : (s.withHost h).enumstat = s.enumstat := rfl
@[simp] theorem withHost_table (h : List HostEvent) (s : State) : (s.withHost h).table = s.table := rfl
@[simp] theorem withHost_x (h : List HostEvent) (s : State) : (s.withHost h).x = s.x := rfl
@[simp] theorem withHost_ph (h : List HostEvent) (s : State) : (s.withHost h).ph = s.ph := rfl
@[simp] theorem withHost_pcnt (h : List HostEvent) (s : State) : (s.withHost h).pcnt = s.pcnt := rfl
@[simp] theorem withHost_seq (h : List HostEvent) (s : State) : (s.withHost h).seq = s.seq := rfl
@[simp] theorem withHost_pad (h : List HostEvent) (s : State) : (s.withHost h).pad = s.pad := rfl
@[simp] theorem withHost_presc (h : List HostEvent) (s : State) : (s.withHost h).presc = s.presc := rfl
@[simp] theorem withHost_env (h : List HostEvent) (s : State) : (s.withHost h).env = { s.env with host := h } := rfl

/-! ### passCycles -/

@[simp] theorem passCycles_params (n : Nat) (s : State) : (s.passCycles n).params = s.params := rfl
@[simp] theorem passCycles_status (n : Nat) (s : State) : (s.passCycles n).status = s.status := rfl
@[simp] theorem passCycles_ctrl (n : Nat) (s : State) : (s.passCycles n).ctrl = s.ctrl := rfl
@[simp] theorem passCycles_rxdata (n : Nat) (s : State) : (s.passCycles n).rxdata = s.rxdata := rfl
@[simp] theorem passCycles_crc (n : Nat) (s : State) : (s.passCycles n).crc = s.crc := rfl
@[simp] theorem passCycles_session (n : Nat) (s : State) : (s.passCycles n).session = s.session := rfl
@[simp] theorem passCycles_budget (n : Nat) (s : State) : (s.passCycles n).budget = s.budget := rfl
@[simp] theorem passCycles_alarm (n : Nat) (s : State) : (s.passCycles n).alarm = s.alarm := rfl
@[simp] theorem passCycles_now (n : Nat) (s : State) : (s.passCycles n).now = s.now := rfl
@[simp] theorem passCycles_count (n : Nat) (s : State) : (s.passCycles n).count = s.count := rfl
@[simp] theorem passCycles_enumstat (n : Nat) (s : State) : (s.passCycles n).enumstat = s.enumstat := rfl
@[simp] theorem passCycles_table (n : Nat) (s : State) : (s.passCycles n).table = s.table := rfl
@[simp] theorem passCycles_x (n : Nat) (s : State) : (s.passCycles n).x = s.x := rfl
@[simp] theorem passCycles_ph (n : Nat) (s : State) : (s.passCycles n).ph = s.ph := rfl
@[simp] theorem passCycles_pcnt (n : Nat) (s : State) : (s.passCycles n).pcnt = s.pcnt := rfl
@[simp] theorem passCycles_seq (n : Nat) (s : State) : (s.passCycles n).seq = s.seq := rfl
@[simp] theorem passCycles_pad (n : Nat) (s : State) : (s.passCycles n).pad = s.pad := rfl
@[simp] theorem passCycles_presc (n : Nat) (s : State) : (s.passCycles n).presc = s.presc + n := rfl
@[simp] theorem passCycles_env (n : Nat) (s : State) : (s.passCycles n).env = s.env := rfl

/-! ### openCycle -/

@[simp] theorem openCycle_params (s : State) : (openCycle s).params = s.params := rfl
@[simp] theorem openCycle_status (s : State) : (openCycle s).status = s.status := rfl
@[simp] theorem openCycle_ctrl (s : State) : (openCycle s).ctrl = s.ctrl := rfl
@[simp] theorem openCycle_rxdata (s : State) : (openCycle s).rxdata = s.rxdata := rfl
@[simp] theorem openCycle_crc (s : State) : (openCycle s).crc = s.crc := rfl
@[simp] theorem openCycle_session (s : State) : (openCycle s).session = s.session := rfl
@[simp] theorem openCycle_budget (s : State) : (openCycle s).budget = s.budget := rfl
@[simp] theorem openCycle_alarm (s : State) : (openCycle s).alarm = s.alarm := rfl
@[simp] theorem openCycle_now (s : State) : (openCycle s).now = if s.isTick then s.now + 1 else s.now := rfl
@[simp] theorem openCycle_count (s : State) : (openCycle s).count = s.count := rfl
@[simp] theorem openCycle_enumstat (s : State) : (openCycle s).enumstat = s.enumstat := rfl
@[simp] theorem openCycle_table (s : State) : (openCycle s).table = mapTable (fun i e => { e with sup := if s.isTick then s.supStepAt i e else none }) s.table := rfl
@[simp] theorem openCycle_x (s : State) : (openCycle s).x = s.x := rfl
@[simp] theorem openCycle_ph (s : State) : (openCycle s).ph = s.ph := rfl
@[simp] theorem openCycle_pcnt (s : State) : (openCycle s).pcnt = if s.isTick && s.ph != .idle then s.pcnt - 1 else s.pcnt := rfl
@[simp] theorem openCycle_seq (s : State) : (openCycle s).seq = s.seq := rfl
@[simp] theorem openCycle_pad (s : State) : (openCycle s).pad = s.pad := rfl
@[simp] theorem openCycle_presc (s : State) : (openCycle s).presc = if s.isTick then 0 else s.presc + 1 := rfl
@[simp] theorem openCycle_env (s : State) : (openCycle s).env = s.env := rfl

/-! ### settleSupervisor -/

@[simp] theorem settleSupervisor_params (s : State) : (settleSupervisor s).params = s.params := rfl
@[simp] theorem settleSupervisor_status (s : State) : (settleSupervisor s).status = { s.status with cevt := s.status.cevt || anyRow (fun _ e => e.supEvent) s.table } := rfl
@[simp] theorem settleSupervisor_ctrl (s : State) : (settleSupervisor s).ctrl = s.ctrl := rfl
@[simp] theorem settleSupervisor_rxdata (s : State) : (settleSupervisor s).rxdata = s.rxdata := rfl
@[simp] theorem settleSupervisor_crc (s : State) : (settleSupervisor s).crc = s.crc := rfl
@[simp] theorem settleSupervisor_session (s : State) : (settleSupervisor s).session = s.session := rfl
@[simp] theorem settleSupervisor_budget (s : State) : (settleSupervisor s).budget = s.budget := rfl
@[simp] theorem settleSupervisor_alarm (s : State) : (settleSupervisor s).alarm = s.alarm := rfl
@[simp] theorem settleSupervisor_now (s : State) : (settleSupervisor s).now = s.now := rfl
@[simp] theorem settleSupervisor_count (s : State) : (settleSupervisor s).count = s.count := rfl
@[simp] theorem settleSupervisor_enumstat (s : State) : (settleSupervisor s).enumstat = s.enumstat := rfl
@[simp] theorem settleSupervisor_table (s : State) : (settleSupervisor s).table = mapTable (fun _ e => e.settle) s.table := rfl
@[simp] theorem settleSupervisor_x (s : State) : (settleSupervisor s).x = s.x := rfl
@[simp] theorem settleSupervisor_ph (s : State) : (settleSupervisor s).ph = s.ph := rfl
@[simp] theorem settleSupervisor_pcnt (s : State) : (settleSupervisor s).pcnt = s.pcnt := rfl
@[simp] theorem settleSupervisor_seq (s : State) : (settleSupervisor s).seq = s.seq := rfl
@[simp] theorem settleSupervisor_pad (s : State) : (settleSupervisor s).pad = s.pad := rfl
@[simp] theorem settleSupervisor_presc (s : State) : (settleSupervisor s).presc = s.presc := rfl
@[simp] theorem settleSupervisor_env (s : State) : (settleSupervisor s).env = s.env := rfl

/-! ### enterPhase -/

@[simp] theorem enterPhase_params (p : Phase) (n : Nat) (s : State) : (enterPhase p n s).params = s.params := rfl
@[simp] theorem enterPhase_status (p : Phase) (n : Nat) (s : State) : (enterPhase p n s).status = s.status := rfl
@[simp] theorem enterPhase_ctrl (p : Phase) (n : Nat) (s : State) : (enterPhase p n s).ctrl = s.ctrl := rfl
@[simp] theorem enterPhase_rxdata (p : Phase) (n : Nat) (s : State) : (enterPhase p n s).rxdata = s.rxdata := rfl
@[simp] theorem enterPhase_crc (p : Phase) (n : Nat) (s : State) : (enterPhase p n s).crc = s.crc := rfl
@[simp] theorem enterPhase_session (p : Phase) (n : Nat) (s : State) : (enterPhase p n s).session = s.session := rfl
@[simp] theorem enterPhase_budget (p : Phase) (n : Nat) (s : State) : (enterPhase p n s).budget = s.budget := rfl
@[simp] theorem enterPhase_alarm (p : Phase) (n : Nat) (s : State) : (enterPhase p n s).alarm = s.alarm := rfl
@[simp] theorem enterPhase_now (p : Phase) (n : Nat) (s : State) : (enterPhase p n s).now = s.now := rfl
@[simp] theorem enterPhase_count (p : Phase) (n : Nat) (s : State) : (enterPhase p n s).count = s.count := rfl
@[simp] theorem enterPhase_enumstat (p : Phase) (n : Nat) (s : State) : (enterPhase p n s).enumstat = s.enumstat := rfl
@[simp] theorem enterPhase_table (p : Phase) (n : Nat) (s : State) : (enterPhase p n s).table = s.table := rfl
@[simp] theorem enterPhase_x (p : Phase) (n : Nat) (s : State) : (enterPhase p n s).x = s.x := rfl
@[simp] theorem enterPhase_ph (p : Phase) (n : Nat) (s : State) : (enterPhase p n s).ph = p := rfl
@[simp] theorem enterPhase_pcnt (p : Phase) (n : Nat) (s : State) : (enterPhase p n s).pcnt = BitVec.ofNat 32 n := rfl
@[simp] theorem enterPhase_seq (p : Phase) (n : Nat) (s : State) : (enterPhase p n s).seq = s.seq.map (· + 1) := rfl
@[simp] theorem enterPhase_pad (p : Phase) (n : Nat) (s : State) : (enterPhase p n s).pad = p.drivesLow := rfl
@[simp] theorem enterPhase_presc (p : Phase) (n : Nat) (s : State) : (enterPhase p n s).presc = s.presc := rfl
@[simp] theorem enterPhase_env (p : Phase) (n : Nat) (s : State) : (enterPhase p n s).env = { s.env with wave := ⟨p, s.now, n⟩ :: s.env.wave } := rfl

/-! ### latchCommand -/

@[simp] theorem latchCommand_params (w : Word) (s : State) : (latchCommand w s).params = s.params := rfl
@[simp] theorem latchCommand_status (w : Word) (s : State) : (latchCommand w s).status = s.status := rfl
@[simp] theorem latchCommand_ctrl (w : Word) (s : State) : (latchCommand w s).ctrl = s.ctrl := rfl
@[simp] theorem latchCommand_rxdata (w : Word) (s : State) : (latchCommand w s).rxdata = s.rxdata := rfl
@[simp] theorem latchCommand_crc (w : Word) (s : State) : (latchCommand w s).crc = s.crc := rfl
@[simp] theorem latchCommand_session (w : Word) (s : State) : (latchCommand w s).session = s.session := rfl
@[simp] theorem latchCommand_budget (w : Word) (s : State) : (latchCommand w s).budget = s.budget := rfl
@[simp] theorem latchCommand_alarm (w : Word) (s : State) : (latchCommand w s).alarm = s.alarm := rfl
@[simp] theorem latchCommand_now (w : Word) (s : State) : (latchCommand w s).now = s.now := rfl
@[simp] theorem latchCommand_count (w : Word) (s : State) : (latchCommand w s).count = s.count := rfl
@[simp] theorem latchCommand_enumstat (w : Word) (s : State) : (latchCommand w s).enumstat = s.enumstat := rfl
@[simp] theorem latchCommand_table (w : Word) (s : State) : (latchCommand w s).table = s.table := rfl
@[simp] theorem latchCommand_x (w : Word) (s : State) : (latchCommand w s).x = { s.x with cmdw := w } := rfl
@[simp] theorem latchCommand_ph (w : Word) (s : State) : (latchCommand w s).ph = s.ph := rfl
@[simp] theorem latchCommand_pcnt (w : Word) (s : State) : (latchCommand w s).pcnt = s.pcnt := rfl
@[simp] theorem latchCommand_seq (w : Word) (s : State) : (latchCommand w s).seq = s.seq := rfl
@[simp] theorem latchCommand_pad (w : Word) (s : State) : (latchCommand w s).pad = s.pad := rfl
@[simp] theorem latchCommand_presc (w : Word) (s : State) : (latchCommand w s).presc = s.presc := rfl
@[simp] theorem latchCommand_env (w : Word) (s : State) : (latchCommand w s).env = s.env := rfl

/-! ### accept -/

@[simp] theorem accept_params (s : State) : (accept s).params = s.params := rfl
@[simp] theorem accept_status (s : State) : (accept s).status = { s.status with busy := true } := rfl
@[simp] theorem accept_ctrl (s : State) : (accept s).ctrl = s.ctrl := rfl
@[simp] theorem accept_rxdata (s : State) : (accept s).rxdata = s.rxdata := rfl
@[simp] theorem accept_crc (s : State) : (accept s).crc = s.crc := rfl
@[simp] theorem accept_session (s : State) : (accept s).session = s.session := rfl
@[simp] theorem accept_budget (s : State) : (accept s).budget = s.budget := rfl
@[simp] theorem accept_alarm (s : State) : (accept s).alarm = s.alarm := rfl
@[simp] theorem accept_now (s : State) : (accept s).now = (openCycle s).now := rfl
@[simp] theorem accept_count (s : State) : (accept s).count = s.count := rfl
@[simp] theorem accept_enumstat (s : State) : (accept s).enumstat = s.enumstat := rfl
@[simp] theorem accept_table (s : State) : (accept s).table = (openCycle s).table := rfl
@[simp] theorem accept_x (s : State) : (accept s).x = { s.x with alw := s.alarm } := rfl
@[simp] theorem accept_ph (s : State) : (accept s).ph = s.ph := rfl
@[simp] theorem accept_pcnt (s : State) : (accept s).pcnt = (openCycle s).pcnt := rfl
@[simp] theorem accept_seq (s : State) : (accept s).seq = some 0 := rfl
@[simp] theorem accept_pad (s : State) : (accept s).pad = s.pad := rfl
@[simp] theorem accept_presc (s : State) : (accept s).presc = (openCycle s).presc := rfl
@[simp] theorem accept_env (s : State) : (accept s).env = s.env := rfl

/-! ### complete -/

@[simp] theorem complete_params (code : Code) (s : State) : (complete code s).params = s.params := rfl
@[simp] theorem complete_status (code : Code) (s : State) : (complete code s).status = { s.status with err := code, done := true, busy := false } := rfl
@[simp] theorem complete_ctrl (code : Code) (s : State) : (complete code s).ctrl = s.ctrl := rfl
@[simp] theorem complete_rxdata (code : Code) (s : State) : (complete code s).rxdata = s.rxdata := rfl
@[simp] theorem complete_crc (code : Code) (s : State) : (complete code s).crc = s.crc := rfl
@[simp] theorem complete_session (code : Code) (s : State) : (complete code s).session = s.session := rfl
@[simp] theorem complete_budget (code : Code) (s : State) : (complete code s).budget = s.budget := rfl
@[simp] theorem complete_alarm (code : Code) (s : State) : (complete code s).alarm = s.alarm := rfl
@[simp] theorem complete_now (code : Code) (s : State) : (complete code s).now = s.now := rfl
@[simp] theorem complete_count (code : Code) (s : State) : (complete code s).count = s.count := rfl
@[simp] theorem complete_enumstat (code : Code) (s : State) : (complete code s).enumstat = s.enumstat := rfl
@[simp] theorem complete_table (code : Code) (s : State) : (complete code s).table = s.table := rfl
@[simp] theorem complete_x (code : Code) (s : State) : (complete code s).x = s.x := rfl
@[simp] theorem complete_ph (code : Code) (s : State) : (complete code s).ph = .idle := rfl
@[simp] theorem complete_pcnt (code : Code) (s : State) : (complete code s).pcnt = s.pcnt := rfl
@[simp] theorem complete_seq (code : Code) (s : State) : (complete code s).seq = none := rfl
@[simp] theorem complete_pad (code : Code) (s : State) : (complete code s).pad = false := rfl
@[simp] theorem complete_presc (code : Code) (s : State) : (complete code s).presc = s.presc := rfl
@[simp] theorem complete_env (code : Code) (s : State) : (complete code s).env = s.env := rfl

/-! ### setPresence -/

@[simp] theorem setPresence_params (b : Bool) (s : State) : (setPresence b s).params = s.params := rfl
@[simp] theorem setPresence_status (b : Bool) (s : State) : (setPresence b s).status = { s.status with presence := b } := rfl
@[simp] theorem setPresence_ctrl (b : Bool) (s : State) : (setPresence b s).ctrl = s.ctrl := rfl
@[simp] theorem setPresence_rxdata (b : Bool) (s : State) : (setPresence b s).rxdata = s.rxdata := rfl
@[simp] theorem setPresence_crc (b : Bool) (s : State) : (setPresence b s).crc = s.crc := rfl
@[simp] theorem setPresence_session (b : Bool) (s : State) : (setPresence b s).session = s.session := rfl
@[simp] theorem setPresence_budget (b : Bool) (s : State) : (setPresence b s).budget = s.budget := rfl
@[simp] theorem setPresence_alarm (b : Bool) (s : State) : (setPresence b s).alarm = s.alarm := rfl
@[simp] theorem setPresence_now (b : Bool) (s : State) : (setPresence b s).now = s.now := rfl
@[simp] theorem setPresence_count (b : Bool) (s : State) : (setPresence b s).count = s.count := rfl
@[simp] theorem setPresence_enumstat (b : Bool) (s : State) : (setPresence b s).enumstat = s.enumstat := rfl
@[simp] theorem setPresence_table (b : Bool) (s : State) : (setPresence b s).table = s.table := rfl
@[simp] theorem setPresence_x (b : Bool) (s : State) : (setPresence b s).x = s.x := rfl
@[simp] theorem setPresence_ph (b : Bool) (s : State) : (setPresence b s).ph = s.ph := rfl
@[simp] theorem setPresence_pcnt (b : Bool) (s : State) : (setPresence b s).pcnt = s.pcnt := rfl
@[simp] theorem setPresence_seq (b : Bool) (s : State) : (setPresence b s).seq = s.seq := rfl
@[simp] theorem setPresence_pad (b : Bool) (s : State) : (setPresence b s).pad = s.pad := rfl
@[simp] theorem setPresence_presc (b : Bool) (s : State) : (setPresence b s).presc = s.presc := rfl
@[simp] theorem setPresence_env (b : Bool) (s : State) : (setPresence b s).env = s.env := rfl

/-! ### setRxbit -/

@[simp] theorem setRxbit_params (b : Bool) (s : State) : (setRxbit b s).params = s.params := rfl
@[simp] theorem setRxbit_status (b : Bool) (s : State) : (setRxbit b s).status = { s.status with rxbit := b } := rfl
@[simp] theorem setRxbit_ctrl (b : Bool) (s : State) : (setRxbit b s).ctrl = s.ctrl := rfl
@[simp] theorem setRxbit_rxdata (b : Bool) (s : State) : (setRxbit b s).rxdata = s.rxdata := rfl
@[simp] theorem setRxbit_crc (b : Bool) (s : State) : (setRxbit b s).crc = s.crc := rfl
@[simp] theorem setRxbit_session (b : Bool) (s : State) : (setRxbit b s).session = s.session := rfl
@[simp] theorem setRxbit_budget (b : Bool) (s : State) : (setRxbit b s).budget = s.budget := rfl
@[simp] theorem setRxbit_alarm (b : Bool) (s : State) : (setRxbit b s).alarm = s.alarm := rfl
@[simp] theorem setRxbit_now (b : Bool) (s : State) : (setRxbit b s).now = s.now := rfl
@[simp] theorem setRxbit_count (b : Bool) (s : State) : (setRxbit b s).count = s.count := rfl
@[simp] theorem setRxbit_enumstat (b : Bool) (s : State) : (setRxbit b s).enumstat = s.enumstat := rfl
@[simp] theorem setRxbit_table (b : Bool) (s : State) : (setRxbit b s).table = s.table := rfl
@[simp] theorem setRxbit_x (b : Bool) (s : State) : (setRxbit b s).x = s.x := rfl
@[simp] theorem setRxbit_ph (b : Bool) (s : State) : (setRxbit b s).ph = s.ph := rfl
@[simp] theorem setRxbit_pcnt (b : Bool) (s : State) : (setRxbit b s).pcnt = s.pcnt := rfl
@[simp] theorem setRxbit_seq (b : Bool) (s : State) : (setRxbit b s).seq = s.seq := rfl
@[simp] theorem setRxbit_pad (b : Bool) (s : State) : (setRxbit b s).pad = s.pad := rfl
@[simp] theorem setRxbit_presc (b : Bool) (s : State) : (setRxbit b s).presc = s.presc := rfl
@[simp] theorem setRxbit_env (b : Bool) (s : State) : (setRxbit b s).env = s.env := rfl

/-! ### loadShift -/

@[simp] theorem loadShift_params (v : Byte) (s : State) : (loadShift v s).params = s.params := rfl
@[simp] theorem loadShift_status (v : Byte) (s : State) : (loadShift v s).status = s.status := rfl
@[simp] theorem loadShift_ctrl (v : Byte) (s : State) : (loadShift v s).ctrl = s.ctrl := rfl
@[simp] theorem loadShift_rxdata (v : Byte) (s : State) : (loadShift v s).rxdata = s.rxdata := rfl
@[simp] theorem loadShift_crc (v : Byte) (s : State) : (loadShift v s).crc = s.crc := rfl
@[simp] theorem loadShift_session (v : Byte) (s : State) : (loadShift v s).session = s.session := rfl
@[simp] theorem loadShift_budget (v : Byte) (s : State) : (loadShift v s).budget = s.budget := rfl
@[simp] theorem loadShift_alarm (v : Byte) (s : State) : (loadShift v s).alarm = s.alarm := rfl
@[simp] theorem loadShift_now (v : Byte) (s : State) : (loadShift v s).now = s.now := rfl
@[simp] theorem loadShift_count (v : Byte) (s : State) : (loadShift v s).count = s.count := rfl
@[simp] theorem loadShift_enumstat (v : Byte) (s : State) : (loadShift v s).enumstat = s.enumstat := rfl
@[simp] theorem loadShift_table (v : Byte) (s : State) : (loadShift v s).table = s.table := rfl
@[simp] theorem loadShift_x (v : Byte) (s : State) : (loadShift v s).x = { s.x with sh := v } := rfl
@[simp] theorem loadShift_ph (v : Byte) (s : State) : (loadShift v s).ph = s.ph := rfl
@[simp] theorem loadShift_pcnt (v : Byte) (s : State) : (loadShift v s).pcnt = s.pcnt := rfl
@[simp] theorem loadShift_seq (v : Byte) (s : State) : (loadShift v s).seq = s.seq := rfl
@[simp] theorem loadShift_pad (v : Byte) (s : State) : (loadShift v s).pad = s.pad := rfl
@[simp] theorem loadShift_presc (v : Byte) (s : State) : (loadShift v s).presc = s.presc := rfl
@[simp] theorem loadShift_env (v : Byte) (s : State) : (loadShift v s).env = s.env := rfl

/-! ### setBitIndex -/

@[simp] theorem setBitIndex_params (j : Nat) (s : State) : (setBitIndex j s).params = s.params := rfl
@[simp] theorem setBitIndex_status (j : Nat) (s : State) : (setBitIndex j s).status = s.status := rfl
@[simp] theorem setBitIndex_ctrl (j : Nat) (s : State) : (setBitIndex j s).ctrl = s.ctrl := rfl
@[simp] theorem setBitIndex_rxdata (j : Nat) (s : State) : (setBitIndex j s).rxdata = s.rxdata := rfl
@[simp] theorem setBitIndex_crc (j : Nat) (s : State) : (setBitIndex j s).crc = s.crc := rfl
@[simp] theorem setBitIndex_session (j : Nat) (s : State) : (setBitIndex j s).session = s.session := rfl
@[simp] theorem setBitIndex_budget (j : Nat) (s : State) : (setBitIndex j s).budget = s.budget := rfl
@[simp] theorem setBitIndex_alarm (j : Nat) (s : State) : (setBitIndex j s).alarm = s.alarm := rfl
@[simp] theorem setBitIndex_now (j : Nat) (s : State) : (setBitIndex j s).now = s.now := rfl
@[simp] theorem setBitIndex_count (j : Nat) (s : State) : (setBitIndex j s).count = s.count := rfl
@[simp] theorem setBitIndex_enumstat (j : Nat) (s : State) : (setBitIndex j s).enumstat = s.enumstat := rfl
@[simp] theorem setBitIndex_table (j : Nat) (s : State) : (setBitIndex j s).table = s.table := rfl
@[simp] theorem setBitIndex_x (j : Nat) (s : State) : (setBitIndex j s).x = { s.x with bit := BitVec.ofNat 3 j } := rfl
@[simp] theorem setBitIndex_ph (j : Nat) (s : State) : (setBitIndex j s).ph = s.ph := rfl
@[simp] theorem setBitIndex_pcnt (j : Nat) (s : State) : (setBitIndex j s).pcnt = s.pcnt := rfl
@[simp] theorem setBitIndex_seq (j : Nat) (s : State) : (setBitIndex j s).seq = s.seq := rfl
@[simp] theorem setBitIndex_pad (j : Nat) (s : State) : (setBitIndex j s).pad = s.pad := rfl
@[simp] theorem setBitIndex_presc (j : Nat) (s : State) : (setBitIndex j s).presc = s.presc := rfl
@[simp] theorem setBitIndex_env (j : Nat) (s : State) : (setBitIndex j s).env = s.env := rfl

/-! ### storeBit -/

@[simp] theorem storeBit_params (j : Nat) (b : Bool) (s : State) : (storeBit j b s).params = s.params := rfl
@[simp] theorem storeBit_status (j : Nat) (b : Bool) (s : State) : (storeBit j b s).status = s.status := rfl
@[simp] theorem storeBit_ctrl (j : Nat) (b : Bool) (s : State) : (storeBit j b s).ctrl = s.ctrl := rfl
@[simp] theorem storeBit_rxdata (j : Nat) (b : Bool) (s : State) : (storeBit j b s).rxdata = s.rxdata := rfl
@[simp] theorem storeBit_crc (j : Nat) (b : Bool) (s : State) : (storeBit j b s).crc = s.crc := rfl
@[simp] theorem storeBit_session (j : Nat) (b : Bool) (s : State) : (storeBit j b s).session = s.session := rfl
@[simp] theorem storeBit_budget (j : Nat) (b : Bool) (s : State) : (storeBit j b s).budget = s.budget := rfl
@[simp] theorem storeBit_alarm (j : Nat) (b : Bool) (s : State) : (storeBit j b s).alarm = s.alarm := rfl
@[simp] theorem storeBit_now (j : Nat) (b : Bool) (s : State) : (storeBit j b s).now = s.now := rfl
@[simp] theorem storeBit_count (j : Nat) (b : Bool) (s : State) : (storeBit j b s).count = s.count := rfl
@[simp] theorem storeBit_enumstat (j : Nat) (b : Bool) (s : State) : (storeBit j b s).enumstat = s.enumstat := rfl
@[simp] theorem storeBit_table (j : Nat) (b : Bool) (s : State) : (storeBit j b s).table = s.table := rfl
@[simp] theorem storeBit_x (j : Nat) (b : Bool) (s : State) : (storeBit j b s).x = { s.x with sh := s.x.sh ||| ((BitVec.ofBool b).setWidth 8 <<< j) } := rfl
@[simp] theorem storeBit_ph (j : Nat) (b : Bool) (s : State) : (storeBit j b s).ph = s.ph := rfl
@[simp] theorem storeBit_pcnt (j : Nat) (b : Bool) (s : State) : (storeBit j b s).pcnt = s.pcnt := rfl
@[simp] theorem storeBit_seq (j : Nat) (b : Bool) (s : State) : (storeBit j b s).seq = s.seq := rfl
@[simp] theorem storeBit_pad (j : Nat) (b : Bool) (s : State) : (storeBit j b s).pad = s.pad := rfl
@[simp] theorem storeBit_presc (j : Nat) (b : Bool) (s : State) : (storeBit j b s).presc = s.presc := rfl
@[simp] theorem storeBit_env (j : Nat) (b : Bool) (s : State) : (storeBit j b s).env = s.env := rfl

/-! ### setRxdata -/

@[simp] theorem setRxdata_params (v : Byte) (s : State) : (setRxdata v s).params = s.params := rfl
@[simp] theorem setRxdata_status (v : Byte) (s : State) : (setRxdata v s).status = s.status := rfl
@[simp] theorem setRxdata_ctrl (v : Byte) (s : State) : (setRxdata v s).ctrl = s.ctrl := rfl
@[simp] theorem setRxdata_rxdata (v : Byte) (s : State) : (setRxdata v s).rxdata = v := rfl
@[simp] theorem setRxdata_crc (v : Byte) (s : State) : (setRxdata v s).crc = s.crc := rfl
@[simp] theorem setRxdata_session (v : Byte) (s : State) : (setRxdata v s).session = s.session := rfl
@[simp] theorem setRxdata_budget (v : Byte) (s : State) : (setRxdata v s).budget = s.budget := rfl
@[simp] theorem setRxdata_alarm (v : Byte) (s : State) : (setRxdata v s).alarm = s.alarm := rfl
@[simp] theorem setRxdata_now (v : Byte) (s : State) : (setRxdata v s).now = s.now := rfl
@[simp] theorem setRxdata_count (v : Byte) (s : State) : (setRxdata v s).count = s.count := rfl
@[simp] theorem setRxdata_enumstat (v : Byte) (s : State) : (setRxdata v s).enumstat = s.enumstat := rfl
@[simp] theorem setRxdata_table (v : Byte) (s : State) : (setRxdata v s).table = s.table := rfl
@[simp] theorem setRxdata_x (v : Byte) (s : State) : (setRxdata v s).x = s.x := rfl
@[simp] theorem setRxdata_ph (v : Byte) (s : State) : (setRxdata v s).ph = s.ph := rfl
@[simp] theorem setRxdata_pcnt (v : Byte) (s : State) : (setRxdata v s).pcnt = s.pcnt := rfl
@[simp] theorem setRxdata_seq (v : Byte) (s : State) : (setRxdata v s).seq = s.seq := rfl
@[simp] theorem setRxdata_pad (v : Byte) (s : State) : (setRxdata v s).pad = s.pad := rfl
@[simp] theorem setRxdata_presc (v : Byte) (s : State) : (setRxdata v s).presc = s.presc := rfl
@[simp] theorem setRxdata_env (v : Byte) (s : State) : (setRxdata v s).env = s.env := rfl

/-! ### setWorkCrc -/

@[simp] theorem setWorkCrc_params (c : Byte) (s : State) : (setWorkCrc c s).params = s.params := rfl
@[simp] theorem setWorkCrc_status (c : Byte) (s : State) : (setWorkCrc c s).status = s.status := rfl
@[simp] theorem setWorkCrc_ctrl (c : Byte) (s : State) : (setWorkCrc c s).ctrl = s.ctrl := rfl
@[simp] theorem setWorkCrc_rxdata (c : Byte) (s : State) : (setWorkCrc c s).rxdata = s.rxdata := rfl
@[simp] theorem setWorkCrc_crc (c : Byte) (s : State) : (setWorkCrc c s).crc = s.crc := rfl
@[simp] theorem setWorkCrc_session (c : Byte) (s : State) : (setWorkCrc c s).session = s.session := rfl
@[simp] theorem setWorkCrc_budget (c : Byte) (s : State) : (setWorkCrc c s).budget = s.budget := rfl
@[simp] theorem setWorkCrc_alarm (c : Byte) (s : State) : (setWorkCrc c s).alarm = s.alarm := rfl
@[simp] theorem setWorkCrc_now (c : Byte) (s : State) : (setWorkCrc c s).now = s.now := rfl
@[simp] theorem setWorkCrc_count (c : Byte) (s : State) : (setWorkCrc c s).count = s.count := rfl
@[simp] theorem setWorkCrc_enumstat (c : Byte) (s : State) : (setWorkCrc c s).enumstat = s.enumstat := rfl
@[simp] theorem setWorkCrc_table (c : Byte) (s : State) : (setWorkCrc c s).table = s.table := rfl
@[simp] theorem setWorkCrc_x (c : Byte) (s : State) : (setWorkCrc c s).x = { s.x with c := c } := rfl
@[simp] theorem setWorkCrc_ph (c : Byte) (s : State) : (setWorkCrc c s).ph = s.ph := rfl
@[simp] theorem setWorkCrc_pcnt (c : Byte) (s : State) : (setWorkCrc c s).pcnt = s.pcnt := rfl
@[simp] theorem setWorkCrc_seq (c : Byte) (s : State) : (setWorkCrc c s).seq = s.seq := rfl
@[simp] theorem setWorkCrc_pad (c : Byte) (s : State) : (setWorkCrc c s).pad = s.pad := rfl
@[simp] theorem setWorkCrc_presc (c : Byte) (s : State) : (setWorkCrc c s).presc = s.presc := rfl
@[simp] theorem setWorkCrc_env (c : Byte) (s : State) : (setWorkCrc c s).env = s.env := rfl

/-! ### setCrc -/

@[simp] theorem setCrc_params (c : Byte) (s : State) : (setCrc c s).params = s.params := rfl
@[simp] theorem setCrc_status (c : Byte) (s : State) : (setCrc c s).status = s.status := rfl
@[simp] theorem setCrc_ctrl (c : Byte) (s : State) : (setCrc c s).ctrl = s.ctrl := rfl
@[simp] theorem setCrc_rxdata (c : Byte) (s : State) : (setCrc c s).rxdata = s.rxdata := rfl
@[simp] theorem setCrc_crc (c : Byte) (s : State) : (setCrc c s).crc = c := rfl
@[simp] theorem setCrc_session (c : Byte) (s : State) : (setCrc c s).session = s.session := rfl
@[simp] theorem setCrc_budget (c : Byte) (s : State) : (setCrc c s).budget = s.budget := rfl
@[simp] theorem setCrc_alarm (c : Byte) (s : State) : (setCrc c s).alarm = s.alarm := rfl
@[simp] theorem setCrc_now (c : Byte) (s : State) : (setCrc c s).now = s.now := rfl
@[simp] theorem setCrc_count (c : Byte) (s : State) : (setCrc c s).count = s.count := rfl
@[simp] theorem setCrc_enumstat (c : Byte) (s : State) : (setCrc c s).enumstat = s.enumstat := rfl
@[simp] theorem setCrc_table (c : Byte) (s : State) : (setCrc c s).table = s.table := rfl
@[simp] theorem setCrc_x (c : Byte) (s : State) : (setCrc c s).x = s.x := rfl
@[simp] theorem setCrc_ph (c : Byte) (s : State) : (setCrc c s).ph = s.ph := rfl
@[simp] theorem setCrc_pcnt (c : Byte) (s : State) : (setCrc c s).pcnt = s.pcnt := rfl
@[simp] theorem setCrc_seq (c : Byte) (s : State) : (setCrc c s).seq = s.seq := rfl
@[simp] theorem setCrc_pad (c : Byte) (s : State) : (setCrc c s).pad = s.pad := rfl
@[simp] theorem setCrc_presc (c : Byte) (s : State) : (setCrc c s).presc = s.presc := rfl
@[simp] theorem setCrc_env (c : Byte) (s : State) : (setCrc c s).env = s.env := rfl

/-! ### clearSession -/

@[simp] theorem clearSession_params (s : State) : (clearSession s).params = s.params := rfl
@[simp] theorem clearSession_status (s : State) : (clearSession s).status = s.status := rfl
@[simp] theorem clearSession_ctrl (s : State) : (clearSession s).ctrl = s.ctrl := rfl
@[simp] theorem clearSession_rxdata (s : State) : (clearSession s).rxdata = s.rxdata := rfl
@[simp] theorem clearSession_crc (s : State) : (clearSession s).crc = s.crc := rfl
@[simp] theorem clearSession_session (s : State) : (clearSession s).session = .clear := rfl
@[simp] theorem clearSession_budget (s : State) : (clearSession s).budget = s.budget := rfl
@[simp] theorem clearSession_alarm (s : State) : (clearSession s).alarm = s.alarm := rfl
@[simp] theorem clearSession_now (s : State) : (clearSession s).now = s.now := rfl
@[simp] theorem clearSession_count (s : State) : (clearSession s).count = s.count := rfl
@[simp] theorem clearSession_enumstat (s : State) : (clearSession s).enumstat = s.enumstat := rfl
@[simp] theorem clearSession_table (s : State) : (clearSession s).table = s.table := rfl
@[simp] theorem clearSession_x (s : State) : (clearSession s).x = s.x := rfl
@[simp] theorem clearSession_ph (s : State) : (clearSession s).ph = s.ph := rfl
@[simp] theorem clearSession_pcnt (s : State) : (clearSession s).pcnt = s.pcnt := rfl
@[simp] theorem clearSession_seq (s : State) : (clearSession s).seq = s.seq := rfl
@[simp] theorem clearSession_pad (s : State) : (clearSession s).pad = s.pad := rfl
@[simp] theorem clearSession_presc (s : State) : (clearSession s).presc = s.presc := rfl
@[simp] theorem clearSession_env (s : State) : (clearSession s).env = s.env := rfl

/-! ### beginSearch -/

@[simp] theorem beginSearch_params (s : State) : (beginSearch s).params = s.params := rfl
@[simp] theorem beginSearch_status (s : State) : (beginSearch s).status = s.status := rfl
@[simp] theorem beginSearch_ctrl (s : State) : (beginSearch s).ctrl = s.ctrl := rfl
@[simp] theorem beginSearch_rxdata (s : State) : (beginSearch s).rxdata = s.rxdata := rfl
@[simp] theorem beginSearch_crc (s : State) : (beginSearch s).crc = s.crc := rfl
@[simp] theorem beginSearch_session (s : State) : (beginSearch s).session = s.session := rfl
@[simp] theorem beginSearch_budget (s : State) : (beginSearch s).budget = s.budget := rfl
@[simp] theorem beginSearch_alarm (s : State) : (beginSearch s).alarm = s.alarm := rfl
@[simp] theorem beginSearch_now (s : State) : (beginSearch s).now = s.now := rfl
@[simp] theorem beginSearch_count (s : State) : (beginSearch s).count = s.count := rfl
@[simp] theorem beginSearch_enumstat (s : State) : (beginSearch s).enumstat = s.enumstat := rfl
@[simp] theorem beginSearch_table (s : State) : (beginSearch s).table = s.table := rfl
@[simp] theorem beginSearch_x (s : State) : (beginSearch s).x = { s.x with lastzero := 0, lfdw := s.session.lfd, newrom := s.session.rombuf } := rfl
@[simp] theorem beginSearch_ph (s : State) : (beginSearch s).ph = s.ph := rfl
@[simp] theorem beginSearch_pcnt (s : State) : (beginSearch s).pcnt = s.pcnt := rfl
@[simp] theorem beginSearch_seq (s : State) : (beginSearch s).seq = s.seq := rfl
@[simp] theorem beginSearch_pad (s : State) : (beginSearch s).pad = s.pad := rfl
@[simp] theorem beginSearch_presc (s : State) : (beginSearch s).presc = s.presc := rfl
@[simp] theorem beginSearch_env (s : State) : (beginSearch s).env = s.env := rfl

/-! ### noteBits -/

@[simp] theorem noteBits_params (k : Nat) (a b : Bool) (s : State) : (noteBits k a b s).params = s.params := rfl
@[simp] theorem noteBits_status (k : Nat) (a b : Bool) (s : State) : (noteBits k a b s).status = s.status := rfl
@[simp] theorem noteBits_ctrl (k : Nat) (a b : Bool) (s : State) : (noteBits k a b s).ctrl = s.ctrl := rfl
@[simp] theorem noteBits_rxdata (k : Nat) (a b : Bool) (s : State) : (noteBits k a b s).rxdata = s.rxdata := rfl
@[simp] theorem noteBits_crc (k : Nat) (a b : Bool) (s : State) : (noteBits k a b s).crc = s.crc := rfl
@[simp] theorem noteBits_session (k : Nat) (a b : Bool) (s : State) : (noteBits k a b s).session = s.session := rfl
@[simp] theorem noteBits_budget (k : Nat) (a b : Bool) (s : State) : (noteBits k a b s).budget = s.budget := rfl
@[simp] theorem noteBits_alarm (k : Nat) (a b : Bool) (s : State) : (noteBits k a b s).alarm = s.alarm := rfl
@[simp] theorem noteBits_now (k : Nat) (a b : Bool) (s : State) : (noteBits k a b s).now = s.now := rfl
@[simp] theorem noteBits_count (k : Nat) (a b : Bool) (s : State) : (noteBits k a b s).count = s.count := rfl
@[simp] theorem noteBits_enumstat (k : Nat) (a b : Bool) (s : State) : (noteBits k a b s).enumstat = s.enumstat := rfl
@[simp] theorem noteBits_table (k : Nat) (a b : Bool) (s : State) : (noteBits k a b s).table = s.table := rfl
@[simp] theorem noteBits_x (k : Nat) (a b : Bool) (s : State) : (noteBits k a b s).x = { s.x with pos := BitVec.ofNat 7 k, idb := a, cmb := b } := rfl
@[simp] theorem noteBits_ph (k : Nat) (a b : Bool) (s : State) : (noteBits k a b s).ph = s.ph := rfl
@[simp] theorem noteBits_pcnt (k : Nat) (a b : Bool) (s : State) : (noteBits k a b s).pcnt = s.pcnt := rfl
@[simp] theorem noteBits_seq (k : Nat) (a b : Bool) (s : State) : (noteBits k a b s).seq = s.seq := rfl
@[simp] theorem noteBits_pad (k : Nat) (a b : Bool) (s : State) : (noteBits k a b s).pad = s.pad := rfl
@[simp] theorem noteBits_presc (k : Nat) (a b : Bool) (s : State) : (noteBits k a b s).presc = s.presc := rfl
@[simp] theorem noteBits_env (k : Nat) (a b : Bool) (s : State) : (noteBits k a b s).env = s.env := rfl

/-! ### noteDirection -/

@[simp] theorem noteDirection_params (k : Nat) (s : State) : (noteDirection k s).params = s.params := rfl
@[simp] theorem noteDirection_status (k : Nat) (s : State) : (noteDirection k s).status = s.status := rfl
@[simp] theorem noteDirection_ctrl (k : Nat) (s : State) : (noteDirection k s).ctrl = s.ctrl := rfl
@[simp] theorem noteDirection_rxdata (k : Nat) (s : State) : (noteDirection k s).rxdata = s.rxdata := rfl
@[simp] theorem noteDirection_crc (k : Nat) (s : State) : (noteDirection k s).crc = s.crc := rfl
@[simp] theorem noteDirection_session (k : Nat) (s : State) : (noteDirection k s).session = s.session := rfl
@[simp] theorem noteDirection_budget (k : Nat) (s : State) : (noteDirection k s).budget = s.budget := rfl
@[simp] theorem noteDirection_alarm (k : Nat) (s : State) : (noteDirection k s).alarm = s.alarm := rfl
@[simp] theorem noteDirection_now (k : Nat) (s : State) : (noteDirection k s).now = s.now := rfl
@[simp] theorem noteDirection_count (k : Nat) (s : State) : (noteDirection k s).count = s.count := rfl
@[simp] theorem noteDirection_enumstat (k : Nat) (s : State) : (noteDirection k s).enumstat = s.enumstat := rfl
@[simp] theorem noteDirection_table (k : Nat) (s : State) : (noteDirection k s).table = s.table := rfl
@[simp] theorem noteDirection_x (k : Nat) (s : State) : (noteDirection k s).x = { s.x with dir := direction s.session k s.x.idb s.x.cmb } := rfl
@[simp] theorem noteDirection_ph (k : Nat) (s : State) : (noteDirection k s).ph = s.ph := rfl
@[simp] theorem noteDirection_pcnt (k : Nat) (s : State) : (noteDirection k s).pcnt = s.pcnt := rfl
@[simp] theorem noteDirection_seq (k : Nat) (s : State) : (noteDirection k s).seq = s.seq := rfl
@[simp] theorem noteDirection_pad (k : Nat) (s : State) : (noteDirection k s).pad = s.pad := rfl
@[simp] theorem noteDirection_presc (k : Nat) (s : State) : (noteDirection k s).presc = s.presc := rfl
@[simp] theorem noteDirection_env (k : Nat) (s : State) : (noteDirection k s).env = s.env := rfl

/-! ### recordZero -/

@[simp] theorem recordZero_params (k : Nat) (s : State) : (recordZero k s).params = s.params := rfl
@[simp] theorem recordZero_status (k : Nat) (s : State) : (recordZero k s).status = s.status := rfl
@[simp] theorem recordZero_ctrl (k : Nat) (s : State) : (recordZero k s).ctrl = s.ctrl := rfl
@[simp] theorem recordZero_rxdata (k : Nat) (s : State) : (recordZero k s).rxdata = s.rxdata := rfl
@[simp] theorem recordZero_crc (k : Nat) (s : State) : (recordZero k s).crc = s.crc := rfl
@[simp] theorem recordZero_session (k : Nat) (s : State) : (recordZero k s).session = s.session := rfl
@[simp] theorem recordZero_budget (k : Nat) (s : State) : (recordZero k s).budget = s.budget := rfl
@[simp] theorem recordZero_alarm (k : Nat) (s : State) : (recordZero k s).alarm = s.alarm := rfl
@[simp] theorem recordZero_now (k : Nat) (s : State) : (recordZero k s).now = s.now := rfl
@[simp] theorem recordZero_count (k : Nat) (s : State) : (recordZero k s).count = s.count := rfl
@[simp] theorem recordZero_enumstat (k : Nat) (s : State) : (recordZero k s).enumstat = s.enumstat := rfl
@[simp] theorem recordZero_table (k : Nat) (s : State) : (recordZero k s).table = s.table := rfl
@[simp] theorem recordZero_x (k : Nat) (s : State) : (recordZero k s).x = { s.x with lastzero := BitVec.ofNat 7 k, lfdw := if k ≤ 8 then BitVec.ofNat 4 k else s.x.lfdw } := rfl
@[simp] theorem recordZero_ph (k : Nat) (s : State) : (recordZero k s).ph = s.ph := rfl
@[simp] theorem recordZero_pcnt (k : Nat) (s : State) : (recordZero k s).pcnt = s.pcnt := rfl
@[simp] theorem recordZero_seq (k : Nat) (s : State) : (recordZero k s).seq = s.seq := rfl
@[simp] theorem recordZero_pad (k : Nat) (s : State) : (recordZero k s).pad = s.pad := rfl
@[simp] theorem recordZero_presc (k : Nat) (s : State) : (recordZero k s).presc = s.presc := rfl
@[simp] theorem recordZero_env (k : Nat) (s : State) : (recordZero k s).env = s.env := rfl

/-! ### storeDirection -/

@[simp] theorem storeDirection_params (k : Nat) (s : State) : (storeDirection k s).params = s.params := rfl
@[simp] theorem storeDirection_status (k : Nat) (s : State) : (storeDirection k s).status = s.status := rfl
@[simp] theorem storeDirection_ctrl (k : Nat) (s : State) : (storeDirection k s).ctrl = s.ctrl := rfl
@[simp] theorem storeDirection_rxdata (k : Nat) (s : State) : (storeDirection k s).rxdata = s.rxdata := rfl
@[simp] theorem storeDirection_crc (k : Nat) (s : State) : (storeDirection k s).crc = s.crc := rfl
@[simp] theorem storeDirection_session (k : Nat) (s : State) : (storeDirection k s).session = s.session := rfl
@[simp] theorem storeDirection_budget (k : Nat) (s : State) : (storeDirection k s).budget = s.budget := rfl
@[simp] theorem storeDirection_alarm (k : Nat) (s : State) : (storeDirection k s).alarm = s.alarm := rfl
@[simp] theorem storeDirection_now (k : Nat) (s : State) : (storeDirection k s).now = s.now := rfl
@[simp] theorem storeDirection_count (k : Nat) (s : State) : (storeDirection k s).count = s.count := rfl
@[simp] theorem storeDirection_enumstat (k : Nat) (s : State) : (storeDirection k s).enumstat = s.enumstat := rfl
@[simp] theorem storeDirection_table (k : Nat) (s : State) : (storeDirection k s).table = s.table := rfl
@[simp] theorem storeDirection_x (k : Nat) (s : State) : (storeDirection k s).x = { s.x with newrom := setRomBit s.x.newrom k s.x.dir } := rfl
@[simp] theorem storeDirection_ph (k : Nat) (s : State) : (storeDirection k s).ph = s.ph := rfl
@[simp] theorem storeDirection_pcnt (k : Nat) (s : State) : (storeDirection k s).pcnt = s.pcnt := rfl
@[simp] theorem storeDirection_seq (k : Nat) (s : State) : (storeDirection k s).seq = s.seq := rfl
@[simp] theorem storeDirection_pad (k : Nat) (s : State) : (storeDirection k s).pad = s.pad := rfl
@[simp] theorem storeDirection_presc (k : Nat) (s : State) : (storeDirection k s).presc = s.presc := rfl
@[simp] theorem storeDirection_env (k : Nat) (s : State) : (storeDirection k s).env = s.env := rfl

/-! ### commitSearch -/

@[simp] theorem commitSearch_params (s : State) : (commitSearch s).params = s.params := rfl
@[simp] theorem commitSearch_status (s : State) : (commitSearch s).status = s.status := rfl
@[simp] theorem commitSearch_ctrl (s : State) : (commitSearch s).ctrl = s.ctrl := rfl
@[simp] theorem commitSearch_rxdata (s : State) : (commitSearch s).rxdata = s.rxdata := rfl
@[simp] theorem commitSearch_crc (s : State) : (commitSearch s).crc = s.crc := rfl
@[simp] theorem commitSearch_session (s : State) : (commitSearch s).session = ⟨s.x.lastzero, s.x.lfdw, s.session.ldf || s.x.lastzero == 0, s.x.newrom⟩ := rfl
@[simp] theorem commitSearch_budget (s : State) : (commitSearch s).budget = s.budget := rfl
@[simp] theorem commitSearch_alarm (s : State) : (commitSearch s).alarm = s.alarm := rfl
@[simp] theorem commitSearch_now (s : State) : (commitSearch s).now = s.now := rfl
@[simp] theorem commitSearch_count (s : State) : (commitSearch s).count = s.count := rfl
@[simp] theorem commitSearch_enumstat (s : State) : (commitSearch s).enumstat = s.enumstat := rfl
@[simp] theorem commitSearch_table (s : State) : (commitSearch s).table = s.table := rfl
@[simp] theorem commitSearch_x (s : State) : (commitSearch s).x = s.x := rfl
@[simp] theorem commitSearch_ph (s : State) : (commitSearch s).ph = s.ph := rfl
@[simp] theorem commitSearch_pcnt (s : State) : (commitSearch s).pcnt = s.pcnt := rfl
@[simp] theorem commitSearch_seq (s : State) : (commitSearch s).seq = s.seq := rfl
@[simp] theorem commitSearch_pad (s : State) : (commitSearch s).pad = s.pad := rfl
@[simp] theorem commitSearch_presc (s : State) : (commitSearch s).presc = s.presc := rfl
@[simp] theorem commitSearch_env (s : State) : (commitSearch s).env = s.env := rfl

/-! ### beginPass -/

@[simp] theorem beginPass_params (s : State) : (beginPass s).params = s.params := rfl
@[simp] theorem beginPass_status (s : State) : (beginPass s).status = s.status := rfl
@[simp] theorem beginPass_ctrl (s : State) : (beginPass s).ctrl = s.ctrl := rfl
@[simp] theorem beginPass_rxdata (s : State) : (beginPass s).rxdata = s.rxdata := rfl
@[simp] theorem beginPass_crc (s : State) : (beginPass s).crc = s.crc := rfl
@[simp] theorem beginPass_session (s : State) : (beginPass s).session = .clear := rfl
@[simp] theorem beginPass_budget (s : State) : (beginPass s).budget = s.budget := rfl
@[simp] theorem beginPass_alarm (s : State) : (beginPass s).alarm = s.alarm := rfl
@[simp] theorem beginPass_now (s : State) : (beginPass s).now = s.now := rfl
@[simp] theorem beginPass_count (s : State) : (beginPass s).count = s.count := rfl
@[simp] theorem beginPass_enumstat (s : State) : (beginPass s).enumstat = s.enumstat := rfl
@[simp] theorem beginPass_table (s : State) : (beginPass s).table = s.table := rfl
@[simp] theorem beginPass_x (s : State) : (beginPass s).x = { s.x with pass := s.x.pass + 1, k := 0 } := rfl
@[simp] theorem beginPass_ph (s : State) : (beginPass s).ph = s.ph := rfl
@[simp] theorem beginPass_pcnt (s : State) : (beginPass s).pcnt = s.pcnt := rfl
@[simp] theorem beginPass_seq (s : State) : (beginPass s).seq = s.seq := rfl
@[simp] theorem beginPass_pad (s : State) : (beginPass s).pad = s.pad := rfl
@[simp] theorem beginPass_presc (s : State) : (beginPass s).presc = s.presc := rfl
@[simp] theorem beginPass_env (s : State) : (beginPass s).env = s.env := rfl

/-! ### commitEnum -/

@[simp] theorem commitEnum_params (c : BitVec 5) (e : Code) (b : Bool) (s : State) : (commitEnum c e b s).params = s.params := rfl
@[simp] theorem commitEnum_status (c : BitVec 5) (e : Code) (b : Bool) (s : State) : (commitEnum c e b s).status = s.status := rfl
@[simp] theorem commitEnum_ctrl (c : BitVec 5) (e : Code) (b : Bool) (s : State) : (commitEnum c e b s).ctrl = s.ctrl := rfl
@[simp] theorem commitEnum_rxdata (c : BitVec 5) (e : Code) (b : Bool) (s : State) : (commitEnum c e b s).rxdata = s.rxdata := rfl
@[simp] theorem commitEnum_crc (c : BitVec 5) (e : Code) (b : Bool) (s : State) : (commitEnum c e b s).crc = s.crc := rfl
@[simp] theorem commitEnum_session (c : BitVec 5) (e : Code) (b : Bool) (s : State) : (commitEnum c e b s).session = s.session := rfl
@[simp] theorem commitEnum_budget (c : BitVec 5) (e : Code) (b : Bool) (s : State) : (commitEnum c e b s).budget = s.budget := rfl
@[simp] theorem commitEnum_alarm (c : BitVec 5) (e : Code) (b : Bool) (s : State) : (commitEnum c e b s).alarm = s.alarm := rfl
@[simp] theorem commitEnum_now (c : BitVec 5) (e : Code) (b : Bool) (s : State) : (commitEnum c e b s).now = s.now := rfl
@[simp] theorem commitEnum_count (c : BitVec 5) (e : Code) (b : Bool) (s : State) : (commitEnum c e b s).count = c := rfl
@[simp] theorem commitEnum_enumstat (c : BitVec 5) (e : Code) (b : Bool) (s : State) : (commitEnum c e b s).enumstat = ⟨s.x.pass, e, b⟩ := rfl
@[simp] theorem commitEnum_table (c : BitVec 5) (e : Code) (b : Bool) (s : State) : (commitEnum c e b s).table = s.table := rfl
@[simp] theorem commitEnum_x (c : BitVec 5) (e : Code) (b : Bool) (s : State) : (commitEnum c e b s).x = s.x := rfl
@[simp] theorem commitEnum_ph (c : BitVec 5) (e : Code) (b : Bool) (s : State) : (commitEnum c e b s).ph = s.ph := rfl
@[simp] theorem commitEnum_pcnt (c : BitVec 5) (e : Code) (b : Bool) (s : State) : (commitEnum c e b s).pcnt = s.pcnt := rfl
@[simp] theorem commitEnum_seq (c : BitVec 5) (e : Code) (b : Bool) (s : State) : (commitEnum c e b s).seq = s.seq := rfl
@[simp] theorem commitEnum_pad (c : BitVec 5) (e : Code) (b : Bool) (s : State) : (commitEnum c e b s).pad = s.pad := rfl
@[simp] theorem commitEnum_presc (c : BitVec 5) (e : Code) (b : Bool) (s : State) : (commitEnum c e b s).presc = s.presc := rfl
@[simp] theorem commitEnum_env (c : BitVec 5) (e : Code) (b : Bool) (s : State) : (commitEnum c e b s).env = s.env := rfl

/-! ### storeRow -/

@[simp] theorem storeRow_params (s : State) : (storeRow s).params = s.params := rfl
@[simp] theorem storeRow_status (s : State) : (storeRow s).status = s.status := rfl
@[simp] theorem storeRow_ctrl (s : State) : (storeRow s).ctrl = s.ctrl := rfl
@[simp] theorem storeRow_rxdata (s : State) : (storeRow s).rxdata = s.rxdata := rfl
@[simp] theorem storeRow_crc (s : State) : (storeRow s).crc = s.crc := rfl
@[simp] theorem storeRow_session (s : State) : (storeRow s).session = s.session := rfl
@[simp] theorem storeRow_budget (s : State) : (storeRow s).budget = s.budget := rfl
@[simp] theorem storeRow_alarm (s : State) : (storeRow s).alarm = s.alarm := rfl
@[simp] theorem storeRow_now (s : State) : (storeRow s).now = s.now := rfl
@[simp] theorem storeRow_count (s : State) : (storeRow s).count = s.count := rfl
@[simp] theorem storeRow_enumstat (s : State) : (storeRow s).enumstat = s.enumstat := rfl
@[simp] theorem storeRow_table (s : State) : (storeRow s).table = s.table.set (rowOf (s.x.k.setWidth 4)) (freshEntry s.session.rombuf) := rfl
@[simp] theorem storeRow_x (s : State) : (storeRow s).x = { s.x with k := s.x.k + 1 } := rfl
@[simp] theorem storeRow_ph (s : State) : (storeRow s).ph = s.ph := rfl
@[simp] theorem storeRow_pcnt (s : State) : (storeRow s).pcnt = s.pcnt := rfl
@[simp] theorem storeRow_seq (s : State) : (storeRow s).seq = s.seq := rfl
@[simp] theorem storeRow_pad (s : State) : (storeRow s).pad = s.pad := rfl
@[simp] theorem storeRow_presc (s : State) : (storeRow s).presc = s.presc := rfl
@[simp] theorem storeRow_env (s : State) : (storeRow s).env = s.env := rfl

/-! ### storeFrameByte -/

@[simp] theorem storeFrameByte_params (k : Fin 9) (v : Byte) (s : State) : (storeFrameByte k v s).params = s.params := rfl
@[simp] theorem storeFrameByte_status (k : Fin 9) (v : Byte) (s : State) : (storeFrameByte k v s).status = s.status := rfl
@[simp] theorem storeFrameByte_ctrl (k : Fin 9) (v : Byte) (s : State) : (storeFrameByte k v s).ctrl = s.ctrl := rfl
@[simp] theorem storeFrameByte_rxdata (k : Fin 9) (v : Byte) (s : State) : (storeFrameByte k v s).rxdata = s.rxdata := rfl
@[simp] theorem storeFrameByte_crc (k : Fin 9) (v : Byte) (s : State) : (storeFrameByte k v s).crc = s.crc := rfl
@[simp] theorem storeFrameByte_session (k : Fin 9) (v : Byte) (s : State) : (storeFrameByte k v s).session = s.session := rfl
@[simp] theorem storeFrameByte_budget (k : Fin 9) (v : Byte) (s : State) : (storeFrameByte k v s).budget = s.budget := rfl
@[simp] theorem storeFrameByte_alarm (k : Fin 9) (v : Byte) (s : State) : (storeFrameByte k v s).alarm = s.alarm := rfl
@[simp] theorem storeFrameByte_now (k : Fin 9) (v : Byte) (s : State) : (storeFrameByte k v s).now = s.now := rfl
@[simp] theorem storeFrameByte_count (k : Fin 9) (v : Byte) (s : State) : (storeFrameByte k v s).count = s.count := rfl
@[simp] theorem storeFrameByte_enumstat (k : Fin 9) (v : Byte) (s : State) : (storeFrameByte k v s).enumstat = s.enumstat := rfl
@[simp] theorem storeFrameByte_table (k : Fin 9) (v : Byte) (s : State) : (storeFrameByte k v s).table = s.table := rfl
@[simp] theorem storeFrameByte_x (k : Fin 9) (v : Byte) (s : State) : (storeFrameByte k v s).x = { s.x with sp := s.x.sp.set k v } := rfl
@[simp] theorem storeFrameByte_ph (k : Fin 9) (v : Byte) (s : State) : (storeFrameByte k v s).ph = s.ph := rfl
@[simp] theorem storeFrameByte_pcnt (k : Fin 9) (v : Byte) (s : State) : (storeFrameByte k v s).pcnt = s.pcnt := rfl
@[simp] theorem storeFrameByte_seq (k : Fin 9) (v : Byte) (s : State) : (storeFrameByte k v s).seq = s.seq := rfl
@[simp] theorem storeFrameByte_pad (k : Fin 9) (v : Byte) (s : State) : (storeFrameByte k v s).pad = s.pad := rfl
@[simp] theorem storeFrameByte_presc (k : Fin 9) (v : Byte) (s : State) : (storeFrameByte k v s).presc = s.presc := rfl
@[simp] theorem storeFrameByte_env (k : Fin 9) (v : Byte) (s : State) : (storeFrameByte k v s).env = s.env := rfl

/-! ### editFrame -/

@[simp] theorem editFrame_params (r : Resolution) (s : State) : (editFrame r s).params = s.params := rfl
@[simp] theorem editFrame_status (r : Resolution) (s : State) : (editFrame r s).status = s.status := rfl
@[simp] theorem editFrame_ctrl (r : Resolution) (s : State) : (editFrame r s).ctrl = s.ctrl := rfl
@[simp] theorem editFrame_rxdata (r : Resolution) (s : State) : (editFrame r s).rxdata = s.rxdata := rfl
@[simp] theorem editFrame_crc (r : Resolution) (s : State) : (editFrame r s).crc = s.crc := rfl
@[simp] theorem editFrame_session (r : Resolution) (s : State) : (editFrame r s).session = s.session := rfl
@[simp] theorem editFrame_budget (r : Resolution) (s : State) : (editFrame r s).budget = s.budget := rfl
@[simp] theorem editFrame_alarm (r : Resolution) (s : State) : (editFrame r s).alarm = s.alarm := rfl
@[simp] theorem editFrame_now (r : Resolution) (s : State) : (editFrame r s).now = s.now := rfl
@[simp] theorem editFrame_count (r : Resolution) (s : State) : (editFrame r s).count = s.count := rfl
@[simp] theorem editFrame_enumstat (r : Resolution) (s : State) : (editFrame r s).enumstat = s.enumstat := rfl
@[simp] theorem editFrame_table (r : Resolution) (s : State) : (editFrame r s).table = s.table := rfl
@[simp] theorem editFrame_x (r : Resolution) (s : State) : (editFrame r s).x = { s.x with sp := ((s.x.sp.set 2 (clampByte (s.x.alw.extractLsb' 16 16))).set 3 (clampByte (s.x.alw.extractLsb' 0 16))).set 4 (cfgByte r) } := rfl
@[simp] theorem editFrame_ph (r : Resolution) (s : State) : (editFrame r s).ph = s.ph := rfl
@[simp] theorem editFrame_pcnt (r : Resolution) (s : State) : (editFrame r s).pcnt = s.pcnt := rfl
@[simp] theorem editFrame_seq (r : Resolution) (s : State) : (editFrame r s).seq = s.seq := rfl
@[simp] theorem editFrame_pad (r : Resolution) (s : State) : (editFrame r s).pad = s.pad := rfl
@[simp] theorem editFrame_presc (r : Resolution) (s : State) : (editFrame r s).presc = s.presc := rfl
@[simp] theorem editFrame_env (r : Resolution) (s : State) : (editFrame r s).env = s.env := rfl

/-! ### startTargets -/

@[simp] theorem startTargets_params (b : Bool) (k : BitVec 4) (s : State) : (startTargets b k s).params = s.params := rfl
@[simp] theorem startTargets_status (b : Bool) (k : BitVec 4) (s : State) : (startTargets b k s).status = s.status := rfl
@[simp] theorem startTargets_ctrl (b : Bool) (k : BitVec 4) (s : State) : (startTargets b k s).ctrl = s.ctrl := rfl
@[simp] theorem startTargets_rxdata (b : Bool) (k : BitVec 4) (s : State) : (startTargets b k s).rxdata = s.rxdata := rfl
@[simp] theorem startTargets_crc (b : Bool) (k : BitVec 4) (s : State) : (startTargets b k s).crc = s.crc := rfl
@[simp] theorem startTargets_session (b : Bool) (k : BitVec 4) (s : State) : (startTargets b k s).session = s.session := rfl
@[simp] theorem startTargets_budget (b : Bool) (k : BitVec 4) (s : State) : (startTargets b k s).budget = s.budget := rfl
@[simp] theorem startTargets_alarm (b : Bool) (k : BitVec 4) (s : State) : (startTargets b k s).alarm = s.alarm := rfl
@[simp] theorem startTargets_now (b : Bool) (k : BitVec 4) (s : State) : (startTargets b k s).now = s.now := rfl
@[simp] theorem startTargets_count (b : Bool) (k : BitVec 4) (s : State) : (startTargets b k s).count = s.count := rfl
@[simp] theorem startTargets_enumstat (b : Bool) (k : BitVec 4) (s : State) : (startTargets b k s).enumstat = s.enumstat := rfl
@[simp] theorem startTargets_table (b : Bool) (k : BitVec 4) (s : State) : (startTargets b k s).table = mapTable (fun i e => if s.isTarget b k i then e.start else e) s.table := rfl
@[simp] theorem startTargets_x (b : Bool) (k : BitVec 4) (s : State) : (startTargets b k s).x = s.x := rfl
@[simp] theorem startTargets_ph (b : Bool) (k : BitVec 4) (s : State) : (startTargets b k s).ph = s.ph := rfl
@[simp] theorem startTargets_pcnt (b : Bool) (k : BitVec 4) (s : State) : (startTargets b k s).pcnt = s.pcnt := rfl
@[simp] theorem startTargets_seq (b : Bool) (k : BitVec 4) (s : State) : (startTargets b k s).seq = s.seq := rfl
@[simp] theorem startTargets_pad (b : Bool) (k : BitVec 4) (s : State) : (startTargets b k s).pad = s.pad := rfl
@[simp] theorem startTargets_presc (b : Bool) (k : BitVec 4) (s : State) : (startTargets b k s).presc = s.presc := rfl
@[simp] theorem startTargets_env (b : Bool) (k : BitVec 4) (s : State) : (startTargets b k s).env = s.env := rfl

/-! ### pollReady -/

@[simp] theorem pollReady_params (s : State) : (pollReady s).params = s.params := rfl
@[simp] theorem pollReady_status (s : State) : (pollReady s).status = { s.status with cevt := s.status.cevt || anyRow s.startedRow s.table } := rfl
@[simp] theorem pollReady_ctrl (s : State) : (pollReady s).ctrl = s.ctrl := rfl
@[simp] theorem pollReady_rxdata (s : State) : (pollReady s).rxdata = s.rxdata := rfl
@[simp] theorem pollReady_crc (s : State) : (pollReady s).crc = s.crc := rfl
@[simp] theorem pollReady_session (s : State) : (pollReady s).session = s.session := rfl
@[simp] theorem pollReady_budget (s : State) : (pollReady s).budget = s.budget := rfl
@[simp] theorem pollReady_alarm (s : State) : (pollReady s).alarm = s.alarm := rfl
@[simp] theorem pollReady_now (s : State) : (pollReady s).now = s.now := rfl
@[simp] theorem pollReady_count (s : State) : (pollReady s).count = s.count := rfl
@[simp] theorem pollReady_enumstat (s : State) : (pollReady s).enumstat = s.enumstat := rfl
@[simp] theorem pollReady_table (s : State) : (pollReady s).table = mapTable (fun i e => if s.startedRow i e then { e with cstate := .ready, sup := none } else e) s.table := rfl
@[simp] theorem pollReady_x (s : State) : (pollReady s).x = s.x := rfl
@[simp] theorem pollReady_ph (s : State) : (pollReady s).ph = s.ph := rfl
@[simp] theorem pollReady_pcnt (s : State) : (pollReady s).pcnt = s.pcnt := rfl
@[simp] theorem pollReady_seq (s : State) : (pollReady s).seq = s.seq := rfl
@[simp] theorem pollReady_pad (s : State) : (pollReady s).pad = s.pad := rfl
@[simp] theorem pollReady_presc (s : State) : (pollReady s).presc = s.presc := rfl
@[simp] theorem pollReady_env (s : State) : (pollReady s).env = s.env := rfl

/-! ### setTargetsRes -/

@[simp] theorem setTargetsRes_params (b : Bool) (k : BitVec 4) (r : Resolution) (s : State) : (setTargetsRes b k r s).params = s.params := rfl
@[simp] theorem setTargetsRes_status (b : Bool) (k : BitVec 4) (r : Resolution) (s : State) : (setTargetsRes b k r s).status = s.status := rfl
@[simp] theorem setTargetsRes_ctrl (b : Bool) (k : BitVec 4) (r : Resolution) (s : State) : (setTargetsRes b k r s).ctrl = s.ctrl := rfl
@[simp] theorem setTargetsRes_rxdata (b : Bool) (k : BitVec 4) (r : Resolution) (s : State) : (setTargetsRes b k r s).rxdata = s.rxdata := rfl
@[simp] theorem setTargetsRes_crc (b : Bool) (k : BitVec 4) (r : Resolution) (s : State) : (setTargetsRes b k r s).crc = s.crc := rfl
@[simp] theorem setTargetsRes_session (b : Bool) (k : BitVec 4) (r : Resolution) (s : State) : (setTargetsRes b k r s).session = s.session := rfl
@[simp] theorem setTargetsRes_budget (b : Bool) (k : BitVec 4) (r : Resolution) (s : State) : (setTargetsRes b k r s).budget = s.budget := rfl
@[simp] theorem setTargetsRes_alarm (b : Bool) (k : BitVec 4) (r : Resolution) (s : State) : (setTargetsRes b k r s).alarm = s.alarm := rfl
@[simp] theorem setTargetsRes_now (b : Bool) (k : BitVec 4) (r : Resolution) (s : State) : (setTargetsRes b k r s).now = s.now := rfl
@[simp] theorem setTargetsRes_count (b : Bool) (k : BitVec 4) (r : Resolution) (s : State) : (setTargetsRes b k r s).count = s.count := rfl
@[simp] theorem setTargetsRes_enumstat (b : Bool) (k : BitVec 4) (r : Resolution) (s : State) : (setTargetsRes b k r s).enumstat = s.enumstat := rfl
@[simp] theorem setTargetsRes_table (b : Bool) (k : BitVec 4) (r : Resolution) (s : State) : (setTargetsRes b k r s).table = mapTable (fun i e => if s.isTarget b k i then { e with res := r } else e) s.table := rfl
@[simp] theorem setTargetsRes_x (b : Bool) (k : BitVec 4) (r : Resolution) (s : State) : (setTargetsRes b k r s).x = s.x := rfl
@[simp] theorem setTargetsRes_ph (b : Bool) (k : BitVec 4) (r : Resolution) (s : State) : (setTargetsRes b k r s).ph = s.ph := rfl
@[simp] theorem setTargetsRes_pcnt (b : Bool) (k : BitVec 4) (r : Resolution) (s : State) : (setTargetsRes b k r s).pcnt = s.pcnt := rfl
@[simp] theorem setTargetsRes_seq (b : Bool) (k : BitVec 4) (r : Resolution) (s : State) : (setTargetsRes b k r s).seq = s.seq := rfl
@[simp] theorem setTargetsRes_pad (b : Bool) (k : BitVec 4) (r : Resolution) (s : State) : (setTargetsRes b k r s).pad = s.pad := rfl
@[simp] theorem setTargetsRes_presc (b : Bool) (k : BitVec 4) (r : Resolution) (s : State) : (setTargetsRes b k r s).presc = s.presc := rfl
@[simp] theorem setTargetsRes_env (b : Bool) (k : BitVec 4) (r : Resolution) (s : State) : (setTargetsRes b k r s).env = s.env := rfl

/-! ### storeReading -/

@[simp] theorem storeReading_params (k : BitVec 4) (s : State) : (storeReading k s).params = s.params := rfl
@[simp] theorem storeReading_status (k : BitVec 4) (s : State) : (storeReading k s).status = s.status := rfl
@[simp] theorem storeReading_ctrl (k : BitVec 4) (s : State) : (storeReading k s).ctrl = s.ctrl := rfl
@[simp] theorem storeReading_rxdata (k : BitVec 4) (s : State) : (storeReading k s).rxdata = s.rxdata := rfl
@[simp] theorem storeReading_crc (k : BitVec 4) (s : State) : (storeReading k s).crc = s.crc := rfl
@[simp] theorem storeReading_session (k : BitVec 4) (s : State) : (storeReading k s).session = s.session := rfl
@[simp] theorem storeReading_budget (k : BitVec 4) (s : State) : (storeReading k s).budget = s.budget := rfl
@[simp] theorem storeReading_alarm (k : BitVec 4) (s : State) : (storeReading k s).alarm = s.alarm := rfl
@[simp] theorem storeReading_now (k : BitVec 4) (s : State) : (storeReading k s).now = s.now := rfl
@[simp] theorem storeReading_count (k : BitVec 4) (s : State) : (storeReading k s).count = s.count := rfl
@[simp] theorem storeReading_enumstat (k : BitVec 4) (s : State) : (storeReading k s).enumstat = s.enumstat := rfl
@[simp] theorem storeReading_table (k : BitVec 4) (s : State) : (storeReading k s).table = s.table.set (rowOf k) { s.table[rowOf k] with temp := BitVec.ofInt 32 (decodeCenti s.x.sp[0] s.x.sp[1] s.x.sp[4]), tvalid := true, res := resolutionOfConfig s.x.sp[4] } := rfl
@[simp] theorem storeReading_x (k : BitVec 4) (s : State) : (storeReading k s).x = s.x := rfl
@[simp] theorem storeReading_ph (k : BitVec 4) (s : State) : (storeReading k s).ph = s.ph := rfl
@[simp] theorem storeReading_pcnt (k : BitVec 4) (s : State) : (storeReading k s).pcnt = s.pcnt := rfl
@[simp] theorem storeReading_seq (k : BitVec 4) (s : State) : (storeReading k s).seq = s.seq := rfl
@[simp] theorem storeReading_pad (k : BitVec 4) (s : State) : (storeReading k s).pad = s.pad := rfl
@[simp] theorem storeReading_presc (k : BitVec 4) (s : State) : (storeReading k s).presc = s.presc := rfl
@[simp] theorem storeReading_env (k : BitVec 4) (s : State) : (storeReading k s).env = s.env := rfl

/-! ### blockReset -/

@[simp] theorem blockReset_params (s : State) : (blockReset s).params = s.params := rfl
@[simp] theorem blockReset_status (s : State) : (blockReset s).status = State.reset.status := rfl
@[simp] theorem blockReset_ctrl (s : State) : (blockReset s).ctrl = State.reset.ctrl := rfl
@[simp] theorem blockReset_rxdata (s : State) : (blockReset s).rxdata = State.reset.rxdata := rfl
@[simp] theorem blockReset_crc (s : State) : (blockReset s).crc = State.reset.crc := rfl
@[simp] theorem blockReset_session (s : State) : (blockReset s).session = State.reset.session := rfl
@[simp] theorem blockReset_budget (s : State) : (blockReset s).budget = State.reset.budget := rfl
@[simp] theorem blockReset_alarm (s : State) : (blockReset s).alarm = State.reset.alarm := rfl
@[simp] theorem blockReset_now (s : State) : (blockReset s).now = State.reset.now := rfl
@[simp] theorem blockReset_count (s : State) : (blockReset s).count = State.reset.count := rfl
@[simp] theorem blockReset_enumstat (s : State) : (blockReset s).enumstat = State.reset.enumstat := rfl
@[simp] theorem blockReset_table (s : State) : (blockReset s).table = State.reset.table := rfl
@[simp] theorem blockReset_x (s : State) : (blockReset s).x = State.reset.x := rfl
@[simp] theorem blockReset_ph (s : State) : (blockReset s).ph = State.reset.ph := rfl
@[simp] theorem blockReset_pcnt (s : State) : (blockReset s).pcnt = State.reset.pcnt := rfl
@[simp] theorem blockReset_seq (s : State) : (blockReset s).seq = State.reset.seq := rfl
@[simp] theorem blockReset_pad (s : State) : (blockReset s).pad = State.reset.pad := rfl
@[simp] theorem blockReset_presc (s : State) : (blockReset s).presc = State.reset.presc := rfl
@[simp] theorem blockReset_env (s : State) : (blockReset s).env = { s.env with pend := none, wave := ⟨.idle, s.now, 0⟩ :: s.env.wave } := rfl

/-! ### takeLevel -/

@[simp] theorem takeLevel_params (s : State) : s.takeLevel.params = s.params := by unfold State.takeLevel; split <;> rfl
@[simp] theorem takeLevel_status (s : State) : s.takeLevel.status = s.status := by unfold State.takeLevel; split <;> rfl
@[simp] theorem takeLevel_ctrl (s : State) : s.takeLevel.ctrl = s.ctrl := by unfold State.takeLevel; split <;> rfl
@[simp] theorem takeLevel_rxdata (s : State) : s.takeLevel.rxdata = s.rxdata := by unfold State.takeLevel; split <;> rfl
@[simp] theorem takeLevel_crc (s : State) : s.takeLevel.crc = s.crc := by unfold State.takeLevel; split <;> rfl
@[simp] theorem takeLevel_session (s : State) : s.takeLevel.session = s.session := by unfold State.takeLevel; split <;> rfl
@[simp] theorem takeLevel_budget (s : State) : s.takeLevel.budget = s.budget := by unfold State.takeLevel; split <;> rfl
@[simp] theorem takeLevel_alarm (s : State) : s.takeLevel.alarm = s.alarm := by unfold State.takeLevel; split <;> rfl
@[simp] theorem takeLevel_now (s : State) : s.takeLevel.now = s.now := by unfold State.takeLevel; split <;> rfl
@[simp] theorem takeLevel_count (s : State) : s.takeLevel.count = s.count := by unfold State.takeLevel; split <;> rfl
@[simp] theorem takeLevel_enumstat (s : State) : s.takeLevel.enumstat = s.enumstat := by unfold State.takeLevel; split <;> rfl
@[simp] theorem takeLevel_table (s : State) : s.takeLevel.table = s.table := by unfold State.takeLevel; split <;> rfl
@[simp] theorem takeLevel_x (s : State) : s.takeLevel.x = s.x := by unfold State.takeLevel; split <;> rfl
@[simp] theorem takeLevel_ph (s : State) : s.takeLevel.ph = s.ph := by unfold State.takeLevel; split <;> rfl
@[simp] theorem takeLevel_pcnt (s : State) : s.takeLevel.pcnt = s.pcnt := by unfold State.takeLevel; split <;> rfl
@[simp] theorem takeLevel_seq (s : State) : s.takeLevel.seq = s.seq := by unfold State.takeLevel; split <;> rfl
@[simp] theorem takeLevel_pad (s : State) : s.takeLevel.pad = s.pad := by unfold State.takeLevel; split <;> rfl
@[simp] theorem takeLevel_presc (s : State) : s.takeLevel.presc = s.presc := by unfold State.takeLevel; split <;> rfl
@[simp] theorem takeLevel_env_host (s : State) : s.takeLevel.env.host = s.env.host := by unfold State.takeLevel; split <;> rfl
@[simp] theorem takeLevel_env_pend (s : State) : s.takeLevel.env.pend = s.env.pend := by unfold State.takeLevel; split <;> rfl
@[simp] theorem takeLevel_env_reads (s : State) : s.takeLevel.env.reads = s.env.reads := by unfold State.takeLevel; split <;> rfl
@[simp] theorem takeLevel_env_wave (s : State) : s.takeLevel.env.wave = s.env.wave := by unfold State.takeLevel; split <;> rfl
@[simp] theorem takeLevel_env_bus (s : State) : s.takeLevel.env.bus = s.env.bus.tail := by
  unfold State.takeLevel
  split <;> simp_all

end Sys2Proof.Machine
end

