-- ==== Sys2Proof/Laws/Table.lean ====
section
/-! SUPPORT. The device table entry by entry: what `mapTable`, `anyRow` and `Vector.set` give at a row, and what a
supervisor step does to an entry (43_sensor.md R271). -/

namespace Sys2Proof.Machine

theorem fin16_cases {P : Fin 16 → Prop} (h : P 0 ∧ P 1 ∧ P 2 ∧ P 3 ∧ P 4 ∧ P 5 ∧ P 6 ∧ P 7 ∧ P 8 ∧ P 9 ∧ P 10 ∧
    P 11 ∧ P 12 ∧ P 13 ∧ P 14 ∧ P 15) (i : Fin 16) : P i := by
  obtain ⟨h0, h1, h2, h3, h4, h5, h6, h7, h8, h9, h10, h11, h12, h13, h14, h15⟩ := h
  obtain ⟨n, hn⟩ := i
  have : n = 0 ∨ n = 1 ∨ n = 2 ∨ n = 3 ∨ n = 4 ∨ n = 5 ∨ n = 6 ∨ n = 7 ∨ n = 8 ∨ n = 9 ∨ n = 10 ∨ n = 11 ∨ n = 12 ∨
      n = 13 ∨ n = 14 ∨ n = 15 := by omega
  rcases this with rfl | rfl | rfl | rfl | rfl | rfl | rfl | rfl | rfl | rfl | rfl | rfl | rfl | rfl | rfl | rfl <;>
    assumption

/-- `mapTable` at a row. -/
theorem mapTable_get (f : Fin 16 → Entry → Entry) (t : Vector Entry 16) (i : Fin 16) :
    (mapTable f t)[i] = f i t[i] := by
  apply fin16_cases (P := fun i => (mapTable f t)[i] = f i t[i])
  exact ⟨rfl, rfl, rfl, rfl, rfl, rfl, rfl, rfl, rfl, rfl, rfl, rfl, rfl, rfl, rfl, rfl⟩

/-- `mapTable` at a row, in the form simp gives an index. -/
@[simp] theorem mapTable_getElem (f : Fin 16 → Entry → Entry) (t : Vector Entry 16) (i : Nat) (h : i < 16) :
    (mapTable f t)[i] = f ⟨i, h⟩ t[i] := mapTable_get f t ⟨i, h⟩

/-- `anyRow` holds where some row satisfies the predicate. -/
theorem anyRow_iff (p : Fin 16 → Entry → Bool) (t : Vector Entry 16) :
    anyRow p t = true ↔ ∃ i : Fin 16, p i t[i] = true := by
  constructor
  · intro h
    simp only [anyRow, Bool.or_eq_true] at h
    rcases h with (((((((((((((((h | h) | h) | h) | h) | h) | h) | h) | h) | h) | h) | h) | h) | h) | h) | h)
    exacts [⟨0, h⟩, ⟨1, h⟩, ⟨2, h⟩, ⟨3, h⟩, ⟨4, h⟩, ⟨5, h⟩, ⟨6, h⟩, ⟨7, h⟩, ⟨8, h⟩, ⟨9, h⟩, ⟨10, h⟩, ⟨11, h⟩,
      ⟨12, h⟩, ⟨13, h⟩, ⟨14, h⟩, ⟨15, h⟩]
  · rintro ⟨i, h⟩
    revert h
    apply fin16_cases (P := fun i => p i t[i] = true → anyRow p t = true)
    simp +contextual [anyRow]

theorem anyRow_eq_false (p : Fin 16 → Entry → Bool) (t : Vector Entry 16) (h : ∀ i : Fin 16, p i t[i] = false) :
    anyRow p t = false := by
  rw [Bool.eq_false_iff]
  intro hc
  obtain ⟨i, hi⟩ := (anyRow_iff p t).mp hc
  rw [h i] at hi
  cases hi

/-- Two device tables with the same entry in every row are the same. -/
theorem table_ext {t u : Vector Entry 16} (h : ∀ i : Fin 16, t[i] = u[i]) : t = u :=
  Vector.ext fun i hi => h ⟨i, hi⟩

/-- A row that is set. -/
@[simp] theorem set_get_self (t : Vector Entry 16) (i : Fin 16) (e : Entry) : (t.set i e)[i] = e := by simp

/-- A row that is not set. -/
theorem set_get_ne (t : Vector Entry 16) {i j : Fin 16} (h : j ≠ i) (e : Entry) : (t.set i e)[j] = t[j] := by
  have : i.val ≠ j.val := fun hc => h (Fin.ext hc.symm)
  simp [Vector.getElem_set_ne, this]

/-- Any row of a table in which one row is set. -/
theorem set_get (t : Vector Entry 16) (i j : Fin 16) (e : Entry) : (t.set i e)[j] = if j = i then e else t[j] := by
  split
  · subst j; simp
  · exact set_get_ne t ‹_› e

@[simp] theorem settle_sup (e : Entry) : e.settle.sup = none := by
  unfold Entry.settle; split <;> simp_all

@[simp] theorem settle_rom (e : Entry) : e.settle.rom = e.rom := by unfold Entry.settle; split <;> rfl
@[simp] theorem settle_temp (e : Entry) : e.settle.temp = e.temp := by unfold Entry.settle; split <;> rfl
@[simp] theorem settle_res (e : Entry) : e.settle.res = e.res := by unfold Entry.settle; split <;> rfl

/-- No pending step: the entry stays. -/
theorem settle_of_none {e : Entry} (h : e.sup = none) : e.settle = e := by
  simp [Entry.settle, h]

theorem supEvent_of_none {e : Entry} (h : e.sup = none) : e.supEvent = false := by
  simp [Entry.supEvent, h]

/-- The three states a started entry can be in after a tick (R271). -/
theorem supervisedState_ne_idle (u : Nat) (b : BitVec 22) (r : Resolution) (e : BitVec 32) :
    supervisedState u b r e ≠ .idle := by
  unfold supervisedState; split
  · simp
  · split <;> simp

/-- Only a valid entry whose conversion has started is stepped (R271). -/
theorem supStepAt_some {s : State} {i : Fin 16} {e : Entry} {u : SupStep} (h : s.supStepAt i e = some u) :
    s.validRow i = true ∧ e.cstate = .started ∧ u.elapsed = nextElapsed e.elapsed ∧
      u.next = supervisedState s.params.convUnitUs s.budget e.res (nextElapsed e.elapsed) := by
  unfold State.supStepAt supStep at h
  split at h
  · split at h
    · cases h; simp_all
    · simp at h
  · simp at h

end Sys2Proof.Machine
end

