-- ==== Sys2Proof/Laws/Time.lean ====
section
/-! SUPPORT. What the passing of time does while a command runs: one lemma for each shared operation of a clock cycle,
and `nextTick_spec` and `ticks_spec`, which later proofs cite instead of unfolding a cycle. -/

namespace Sys2Proof.Machine

/-! ### The relations -/

theorem RowPasses.refl (v : Bool) (e : Entry) : RowPasses v e e :=
  ⟨rfl, rfl, rfl, fun _ => ⟨rfl, rfl, rfl⟩, fun h => by simp [h], fun h => .inl h, fun _ => rfl⟩

theorem RowPasses.trans {v : Bool} {a b c : Entry} (h : RowPasses v a b) (k : RowPasses v b c) : RowPasses v a c := by
  have hb : b.cstate ≠ .started → c.cstate = b.cstate ∧ c.tvalid = b.tvalid ∧ c.elapsed = b.elapsed :=
    fun hb => k.held (.inl hb)
  refine ⟨k.rom.trans h.rom, k.temp.trans h.temp, k.res.trans h.res, ?_, ?_, ?_, ?_⟩
  · intro ha
    obtain ⟨h1, h2, h3⟩ := h.held ha
    have : b.cstate ≠ .started ∨ v = false := by rw [h1]; exact ha
    obtain ⟨k1, k2, k3⟩ := k.held this
    exact ⟨k1.trans h1, k2.trans h2, k3.trans h3⟩
  · intro ha
    by_cases hs : b.cstate = .started
    · exact k.moved hs
    · rw [(hb hs).1]; exact h.moved ha
  · intro hc
    rcases k.invalidated hc with hbt | hf
    · rcases h.invalidated hbt with ha | hf
      · exact .inl ha
      · right
        rw [(hb (by rw [hbt]; simp)).2.1]; exact hf
    · exact .inr hf
  · intro hc
    have hbt : b.cstate ≠ .timedOut := by
      intro hbt
      apply hc
      rw [(hb (by rw [hbt]; simp)).1]; exact hbt
    exact (k.kept hc).trans (h.kept hbt)

/-- A change of an entry's pending step alone. -/
theorem RowPasses.of_eq {v : Bool} {e e' : Entry} (h1 : e'.rom = e.rom) (h2 : e'.temp = e.temp) (h3 : e'.res = e.res)
    (h4 : e'.cstate = e.cstate) (h5 : e'.tvalid = e.tvalid) (h6 : e'.elapsed = e.elapsed) : RowPasses v e e' :=
  ⟨h1, h2, h3, fun _ => ⟨h4, h5, h6⟩, fun h => by simp [h4, h], fun h => .inl (h4 ▸ h), fun _ => h5⟩

theorem validRow_congr {s t : State} (h : t.count = s.count) (i : Fin 16) : t.validRow i = s.validRow i := by
  simp [State.validRow, h]

theorem Keeps.refl (s : State) : Keeps s s :=
  ⟨rfl, rfl, rfl, rfl, rfl, rfl, rfl, rfl, rfl, fun _ => .refl _ _, fun h => ⟨h, rfl, rfl, rfl, rfl, rfl⟩, fun _ h => h,
    fun _ _ => rfl, fun _ _ _ hs hn => absurd hs hn⟩

theorem Keeps.trans {a b c : State} (h : Keeps a b) (k : Keeps b c) : Keeps a c := by
  refine ⟨k.params.trans h.params, k.busy.trans h.busy, k.err.trans h.err, k.rxdata.trans h.rxdata, k.crc.trans h.crc,
    k.session.trans h.session, k.alarm.trans h.alarm, k.count.trans h.count, k.enumstat.trans h.enumstat, ?_, ?_, ?_, ?_, ?_⟩
  · intro i
    have := k.rows i
    rw [validRow_congr h.count] at this
    exact (h.rows i).trans this
  · intro q
    obtain ⟨q', h1, h2, h3, h4, h5⟩ := h.quiet q
    obtain ⟨q'', k1, k2, k3, k4, k5⟩ := k.quiet q'
    exact ⟨q'', k1.trans h1, k2.trans h2, k3.trans h3, k4.trans h4, k5.trans h5⟩
  · intro q hc
    exact k.cevt (h.quiet q).1 (h.cevt q hc)
  · intro q hn
    rw [k.noEvent (h.quiet q).1, h.noEvent q hn]
    intro i hv
    rw [validRow_congr h.count] at hv
    rw [((h.rows i).held (.inl (hn i hv))).1]
    exact hn i hv
  · intro q i hv hs hn
    by_cases hb : b.table[i].cstate = .started
    · exact k.event (h.quiet q).1 i (by rw [validRow_congr h.count]; exact hv) hb hn
    · exact k.cevt (h.quiet q).1 (h.event q i hv hs hb)

/-- What is as it was when only time has passed. -/
structure Passes (s t : State) : Prop extends Keeps s t where
  presence : t.status.presence = s.status.presence
  rxbit : t.status.rxbit = s.status.rxbit
  x : t.x = s.x
  ph : t.ph = s.ph
  seq : t.seq = s.seq
  pad : t.pad = s.pad
  bus : t.env.bus = s.env.bus
  wave : t.env.wave = s.env.wave

theorem Passes.refl (s : State) : Passes s s := ⟨.refl s, rfl, rfl, rfl, rfl, rfl, rfl, rfl, rfl⟩

theorem Passes.trans {a b c : State} (h : Passes a b) (k : Passes b c) : Passes a c :=
  ⟨h.toKeeps.trans k.toKeeps, k.presence.trans h.presence, k.rxbit.trans h.rxbit, k.x.trans h.x, k.ph.trans h.ph,
    k.seq.trans h.seq, k.pad.trans h.pad, k.bus.trans h.bus, k.wave.trans h.wave⟩

/-- Pending steps belong to valid started entries, and none leads back to Idle. -/
def SupOk (s : State) : Prop :=
  ∀ (i : Fin 16) (u : SupStep), s.table[i].sup = some u → s.validRow i = true ∧ s.table[i].cstate = .started ∧ u.next ≠ .idle

/-- A state in the middle of a command that nothing the host does will cut short. -/
structure Live (s : State) : Prop where
  busy : s.status.busy = true
  calm : s.calm = true
  sup : SupOk s

/-- A state between two clock cycles. -/
def Closed (s : State) : Prop := s.env.pend = none ∧ ∀ i : Fin 16, s.table[i].sup = none

theorem Closed.supOk {s : State} (h : Closed s) : SupOk s := fun i u hu => by rw [h.2 i] at hu; cases hu

/-! ### The end of a cycle -/

theorem settle_passes {s : State} (h : SupOk s) (i : Fin 16) : RowPasses (s.validRow i) s.table[i] s.table[i].settle := by
  cases hs : s.table[i].sup with
  | none => rw [settle_of_none hs]; exact .refl _ _
  | some u =>
    obtain ⟨hv, hc, hn⟩ := h i u hs
    have he : s.table[i].settle = { s.table[i] with
        elapsed := u.elapsed
        cstate := u.next
        tvalid := if u.next = .timedOut then false else s.table[i].tvalid
        sup := none } := by
      unfold Entry.settle; rw [hs]
    rw [he]
    refine ⟨rfl, rfl, rfl, ?_, fun _ => hn, ?_, ?_⟩
    · rintro (h | h)
      · exact absurd hc h
      · rw [hv] at h; cases h
    · intro ht
      exact .inr (if_pos ht)
    · intro ht
      exact if_neg ht

theorem supEvent_started {s : State} (h : SupOk s) {i : Fin 16} (he : s.table[i].supEvent = true) :
    s.validRow i = true ∧ s.table[i].cstate = .started := by
  cases hs : s.table[i].sup with
  | none => rw [supEvent_of_none hs] at he; cases he
  | some u => exact ⟨(h i u hs).1, (h i u hs).2.1⟩

theorem settleSupervisor_passes {s : State} (h : SupOk s) : Passes s (settleSupervisor s) := by
  refine ⟨⟨rfl, rfl, rfl, rfl, rfl, rfl, rfl, rfl, rfl, ?_, ?_, ?_, ?_, ?_⟩, rfl, rfl, rfl, rfl, rfl, rfl, rfl, rfl⟩
  · intro i
    rw [settleSupervisor_table, mapTable_get]
    exact settle_passes h i
  · exact fun q => ⟨q, rfl, rfl, rfl, rfl, rfl⟩
  · intro _ hc
    simp [hc]
  · intro _ hn
    rw [settleSupervisor_status, anyRow_eq_false]
    · simp
    · intro i
      rw [Bool.eq_false_iff]
      intro he
      obtain ⟨hv, hc⟩ := supEvent_started h he
      exact hn i hv hc
  · intro _ i _ hs hn
    rw [settleSupervisor_table, mapTable_get] at hn
    rw [settleSupervisor_status]
    have he : s.table[i].supEvent = true := by
      cases hu : s.table[i].sup with
      | none => rw [settle_of_none hu] at hn; exact absurd hs hn
      | some u =>
        have hc : s.table[i].settle.cstate = u.next := by unfold Entry.settle; rw [hu]
        unfold Entry.supEvent
        rw [hu]
        rw [hc] at hn
        simpa using hn
    have := (anyRow_iff (fun _ e => e.supEvent) s.table).mpr ⟨i, he⟩
    simp [this]

/-- A host read changes nothing but the model's record of reads and of free values (20_memory.md R104). -/
theorem hostRead_eq (off : Offset) (s : State) :
    ∃ (v : Word) (n : Nat), hostRead off s = { s with env := { s.env with reads := (off, v) :: s.env.reads, draws := n } } := by
  unfold hostRead
  split
  · exact ⟨_, _, rfl⟩
  · exact ⟨_, s.env.draws, rfl⟩

theorem settleRead_eq (s : State) :
    ∃ (r : List (Offset × Word)) (n : Nat),
      settleRead s = { s with env := { s.env with pend := none, reads := r, draws := n } } ∧
      (s.env.pend = none → r = s.env.reads ∧ n = s.env.draws) := by
  unfold settleRead
  split
  · rename_i h
    refine ⟨s.env.reads, s.env.draws, ?_, fun _ => ⟨rfl, rfl⟩⟩
    cases s; rename_i env; cases env; simp_all
  · rename_i off h
    obtain ⟨v, n, hv⟩ := hostRead_eq off { s with env := { s.env with pend := none } }
    exact ⟨_, n, by rw [hv], by simp [h]⟩

theorem settleRead_passes (s : State) : Passes s (settleRead s) := by
  obtain ⟨r, n, h, hq⟩ := settleRead_eq s
  rw [h]
  refine ⟨⟨rfl, rfl, rfl, rfl, rfl, rfl, rfl, rfl, rfl, fun i => .refl _ _, ?_, fun _ h => h, fun _ _ => rfl,
    fun _ _ _ hs hn => absurd hs hn⟩, rfl, rfl, rfl, rfl, rfl, rfl, rfl, rfl⟩
  intro q
  exact ⟨⟨q.1, rfl⟩, rfl, rfl, rfl, rfl, (hq q.2).1⟩

/-- Everything a cycle's end can do. -/
theorem closeCycle_spec {s : State} (h : SupOk s) :
    Passes s (closeCycle s) ∧ Closed (closeCycle s) ∧ (closeCycle s).env.host = s.env.host ∧
      (closeCycle s).now = s.now ∧ (closeCycle s).presc = s.presc := by
  have hp := (settleSupervisor_passes h).trans (settleRead_passes (settleSupervisor s))
  refine ⟨hp, ?_⟩
  unfold closeCycle
  obtain ⟨r, n, h, -⟩ := settleRead_eq (settleSupervisor s)
  rw [h]
  refine ⟨⟨rfl, ?_⟩, rfl, rfl, rfl⟩
  intro i
  show (settleSupervisor s).table[i].sup = none
  rw [settleSupervisor_table, mapTable_get]
  exact settle_sup _

/-! ### The start of a cycle -/

theorem openCycle_passes (s : State) : Passes s (openCycle s) := by
  have hr : ∀ i : Fin 16, (openCycle s).table[i].cstate = s.table[i].cstate := by
    intro i; rw [openCycle_table, mapTable_get]
  refine ⟨⟨rfl, rfl, rfl, rfl, rfl, rfl, rfl, rfl, rfl, ?_, fun q => ⟨q, rfl, rfl, rfl, rfl, rfl⟩, fun _ h => h,
    fun _ _ => rfl, fun _ i _ hs hn => absurd ((hr i).trans hs) hn⟩, rfl, rfl, rfl, rfl, rfl, rfl, rfl, rfl⟩
  intro i
  rw [openCycle_table, mapTable_get]
  exact .of_eq rfl rfl rfl rfl rfl rfl

theorem openCycle_supOk (s : State) : SupOk (openCycle s) := by
  intro i u hu
  rw [openCycle_table, mapTable_get] at hu ⊢
  by_cases ht : s.isTick = true
  · simp only [ht, if_true] at hu
    obtain ⟨h1, h2, -, h4⟩ := supStepAt_some hu
    exact ⟨h1, h2, by rw [h4]; exact supervisedState_ne_idle _ _ _ _⟩
  · simp [ht] at hu

theorem passCycles_passes (s : State) (n : Nat) : Passes s (s.passCycles n) :=
  ⟨⟨rfl, rfl, rfl, rfl, rfl, rfl, rfl, rfl, rfl, fun _ => .refl _ _, fun q => ⟨q, rfl, rfl, rfl, rfl, rfl⟩, fun _ h => h,
    fun _ _ => rfl, fun _ _ _ hs hn => absurd hs hn⟩, rfl, rfl, rfl, rfl, rfl, rfl, rfl, rfl⟩

/-- The host's list changes where it was not empty. -/
theorem withHost_passes {s : State} (h : List HostEvent) (hn : s.env.host ≠ []) : Passes s (s.withHost h) :=
  ⟨⟨rfl, rfl, rfl, rfl, rfl, rfl, rfl, rfl, rfl, fun _ => .refl _ _, fun q => absurd q.1 hn, fun _ h => h,
    fun _ _ => rfl, fun _ _ _ hs hn => absurd hs hn⟩, rfl, rfl, rfl, rfl, rfl, rfl, rfl, rfl⟩

/-! ### Host accesses while a command runs -/

/-- A write while BUSY = 1 changes at most STATUS' sticky bits, CTRL and TIMEOUT (10_state.md R61). -/
theorem hostWrite_busy {s : State} (off : Offset) (v : Word) (hb : s.status.busy = true) :
    ∃ (st : Status) (c : Ctrl) (b : BitVec 22), hostWrite off v s = { s with status := st, ctrl := c, budget := b } ∧
      st.busy = true ∧ st.err = s.status.err ∧ st.presence = s.status.presence ∧ st.rxbit = s.status.rxbit := by
  unfold hostWrite
  split
  · exact ⟨_, _, _, rfl, hb, rfl, rfl, rfl⟩
  · rename_i r _
    unfold writeReg
    split
    · exact ⟨_, s.ctrl, s.budget, rfl, hb, rfl, rfl, rfl⟩
    · rename_i hl
      cases r <;>
        first
        | (exfalso; apply hl; simp [hb, Reg.locked]; done)
        | exact ⟨s.status, s.ctrl, s.budget, rfl, hb, rfl, rfl, rfl⟩
        | exact ⟨s.status.clearWritten v, s.ctrl, s.budget, rfl, hb, rfl, rfl, rfl⟩
        | exact ⟨s.status, Ctrl.ofWord v, s.budget, rfl, hb, rfl, rfl, rfl⟩
        | exact ⟨s.status, s.ctrl, v.extractLsb' 0 22, rfl, hb, rfl, rfl, rfl⟩

/-- The port's part of a cycle while a command runs, for a host with acts to come. -/
theorem takeAccess_busy {a : Access} {s : State} (hb : s.status.busy = true) (hc : SupOk s) :
    (∀ r : State, Passes r s → (¬ r.quiet) → Passes r (takeAccess a s)) ∧ SupOk (takeAccess a s) ∧
      (takeAccess a s).env.host = s.env.host ∧ (takeAccess a s).now = s.now := by
  cases a with
  | read off size =>
    refine ⟨?_, hc, rfl, rfl⟩
    intro r hr hq
    exact ⟨⟨hr.params, hr.busy, hr.err, hr.rxdata, hr.crc, hr.session, hr.alarm, hr.count, hr.enumstat, hr.rows,
      fun q => absurd q hq, fun q => absurd q hq, fun q => absurd q hq, fun q => absurd q hq⟩, hr.presence, hr.rxbit, hr.x, hr.ph, hr.seq,
      hr.pad, hr.bus, hr.wave⟩
  | write off size v =>
    obtain ⟨st, c, b, he, h1, h2, h3, h4⟩ := hostWrite_busy (s := s) off v hb
    rw [show takeAccess (.write off size v) s = _ from he]
    refine ⟨?_, hc, rfl, rfl⟩
    intro r hr hq
    exact ⟨⟨hr.params, (h1.trans hb.symm).trans hr.busy, h2.trans hr.err, hr.rxdata, hr.crc, hr.session, hr.alarm,
      hr.count, hr.enumstat, hr.rows, fun q => absurd q hq, fun q => absurd q hq, fun q => absurd q hq, fun q => absurd q hq⟩,
      h3.trans hr.presence, h4.trans hr.rxbit, hr.x, hr.ph, hr.seq, hr.pad, hr.bus, hr.wave⟩

/-! ### To the next tick -/

theorem isTick_iff (s : State) : s.isTick = true ↔ s.params.cycPerUs ≤ s.presc + 1 := by
  unfold State.isTick
  exact decide_eq_true_iff

theorem isTick_passCycles (s : State) : (s.passCycles s.cyclesToTick).isTick = true := by
  rw [isTick_iff, passCycles_params, passCycles_presc]
  unfold State.cyclesToTick
  omega

theorem not_isTick_passCycles {s : State} {n : Nat} (h : n < s.cyclesToTick) : (s.passCycles n).isTick = false := by
  rw [Bool.eq_false_iff, ne_eq, isTick_iff, passCycles_params, passCycles_presc]
  unfold State.cyclesToTick at h
  omega

theorem isTick_withHost (s : State) (h : List HostEvent) : (s.withHost h).isTick = s.isTick := rfl

theorem calm_of_host {s t : State} (h : t.env.host = s.env.host) : t.calm = s.calm := by
  simp [State.calm, h]

/-- Everything the time to the next tick can do while a command runs and the host cuts nothing short. -/
theorem toTick_spec (h : List HostEvent) : ∀ (s : State), s.env.host = h → s.status.busy = true → s.calm = true →
    Closed s → ∃ t, toTick h s = .ok () t ∧ Live t ∧ Passes s t ∧ t.now = s.now + 1 := by
  induction h with
  | nil =>
    intro s hh hb hr hc
    refine ⟨_, rfl, ⟨hb, hr, openCycle_supOk _⟩, (passCycles_passes s _).trans (openCycle_passes _), ?_⟩
    rw [openCycle_now, isTick_passCycles]
    rfl
  | cons e es ih =>
    intro s hh hb hr hc
    have hne : s.env.host ≠ [] := by rw [hh]; simp
    have hnq : ¬ s.quiet := fun q => hne q.1
    have hall : e.act.calm = true ∧ (es.all fun e => e.act.calm) = true := by
      simpa [State.calm, hh] using hr
    have stay : ∀ (g : Nat), ∃ t, (EStateM.Result.ok () (openCycle ((s.passCycles s.cyclesToTick).withHost (⟨g, e.act⟩ :: es)))
        : EStateM.Result Cut State Unit) = .ok () t ∧ Live t ∧ Passes s t ∧ t.now = s.now + 1 := by
      intro g
      refine ⟨_, rfl, ⟨hb, ?_, openCycle_supOk _⟩,
        ((passCycles_passes s _).trans (withHost_passes _ hne)).trans (openCycle_passes _), ?_⟩
      · simp only [State.calm, openCycle_env, State.withHost, List.all_cons, hall.1, hall.2, Bool.and_self]
      · rw [openCycle_now, isTick_withHost, isTick_passCycles]
        rfl
    unfold toTick
    split
    · exact stay _
    · rename_i hgap
      split
      · rename_i hact
        rw [hact] at hall
        exact absurd hall.1 (by decide)
      · rename_i a hact
        split
        · have hob : (openCycle ((s.passCycles e.gap).withHost es)).status.busy = true := hb
          obtain ⟨tp, tsup, thost, tnow⟩ := takeAccess_busy (a := a) hob (openCycle_supOk _)
          have hp : Passes s (takeAccess a (openCycle ((s.passCycles e.gap).withHost es))) :=
            tp s (((passCycles_passes s _).trans (withHost_passes _ hne)).trans (openCycle_passes _)) hnq
          have hnr : (takeAccess a (openCycle ((s.passCycles e.gap).withHost es))).calm = true := by
            rw [State.calm, thost]; exact hall.2
          split
          · rename_i heq
            refine ⟨_, rfl, ⟨hp.busy.trans hb, hnr, tsup⟩, hp, ?_⟩
            rw [tnow, openCycle_now, isTick_withHost, heq, isTick_passCycles]
            rfl
          · rename_i hneq
            obtain ⟨cp, cc, chost, cnow, -⟩ := closeCycle_spec tsup
            obtain ⟨t, ht, hl, hpt, hn⟩ := ih (closeCycle _) (chost.trans thost) ((hp.trans cp).busy.trans hb)
              ((calm_of_host chost).trans hnr) cc
            refine ⟨t, ht, hl, (hp.trans cp).trans hpt, ?_⟩
            rw [hn, cnow, tnow, openCycle_now, isTick_withHost, not_isTick_passCycles (by omega)]
            rfl
        · rename_i hd
          rw [hact] at hall
          exact absurd hall.1 hd

/-- Everything `nextTick` can do while a command runs and the host cuts nothing short: exactly one tick passes. -/
theorem nextTick_spec {s : State} (h : Live s) :
    ∃ t, nextTick s = .ok () t ∧ Live t ∧ Passes s t ∧ t.now = s.now + 1 := by
  obtain ⟨cp, cc, chost, cnow, -⟩ := closeCycle_spec h.sup
  obtain ⟨t, ht, hl, hp, hn⟩ := toTick_spec _ (closeCycle s) rfl (cp.busy.trans h.busy)
    ((calm_of_host chost).trans h.calm) cc
  exact ⟨t, ht, hl, cp.trans hp, by rw [hn, cnow]⟩

theorem ofNat_succ_add (a : BitVec 32) (n : Nat) : a + 1 + BitVec.ofNat 32 n = a + BitVec.ofNat 32 (n + 1) := by
  rw [BitVec.ofNat_add, BitVec.add_assoc, BitVec.add_comm (BitVec.ofNat 32 n)]
  rfl

/-- Everything `ticks n` can do while a command runs and the host cuts nothing short: exactly `n` ticks pass. -/
theorem ticks_spec (n : Nat) : ∀ {s : State}, Live s →
    ∃ t, ticks n s = .ok () t ∧ Live t ∧ Passes s t ∧ t.now = s.now + BitVec.ofNat 32 n := by
  induction n with
  | zero => exact fun {s} h => ⟨s, rfl, h, .refl s, by simp⟩
  | succ n ih =>
    intro s h
    obtain ⟨t, ht, hl, hp, hn⟩ := nextTick_spec h
    obtain ⟨u, hu, hlu, hpu, hnu⟩ := ih hl
    refine ⟨u, ?_, hlu, hp.trans hpu, ?_⟩
    · show (nextTick >>= fun _ => ticks n) s = _
      simp only [bind, EStateM.bind, ht]
      exact hu
    · rw [hnu, hn, ofNat_succ_add]

end Sys2Proof.Machine
end

