-- ==== Sys2Proof/Laws/Line.lean ====
section
/-! SUPPORT. What the slot and byte procedures do: each `_spec` lemma says once everything its procedure can do while
a command runs and nothing cuts it, so that later proofs cite it and unfold nothing. -/

namespace Sys2Proof.Machine

/-! ### The engine's sequencing -/

theorem bind_ok {α β : Type} {m : Engine α} {f : α → Engine β} {s t : State} {a : α} (h : m s = .ok a t) :
    (m >>= f) s = f a t := by
  show EStateM.bind m f s = f a t
  unfold EStateM.bind
  rw [h]

theorem bind_error {α β : Type} {m : Engine α} {f : α → Engine β} {s t : State} {c : Cut} (h : m s = .error c t) :
    (m >>= f) s = .error c t := by
  show EStateM.bind m f s = _
  unfold EStateM.bind
  rw [h]

theorem modify_ok (f : State → State) (s : State) : (modify f : Engine Unit) s = .ok () (f s) := rfl

theorem get_ok (s : State) : (get : Engine State) s = .ok s s := rfl

theorem pure_ok {α : Type} (a : α) (s : State) : (pure a : Engine α) s = .ok a s := rfl

/-! ### Answers of the environment, waveforms and their lengths -/

@[simp] theorem answered_nil (bus : List Bool) : answered bus [] := by cases bus <;> trivial

@[simp] theorem answered_none (bits : List Bool) : answered [] bits := by cases bits <;> trivial

@[simp] theorem answered_cons (b c : Bool) (bus cs : List Bool) :
    answered (b :: bus) (c :: cs) ↔ b = c ∧ answered bus cs := Iff.rfl

/-- Answers in a row. -/
theorem answered_append (a b : List Bool) : ∀ (bus : List Bool),
    answered bus (a ++ b) ↔ answered bus a ∧ answered (bus.drop a.length) b := by
  induction a with
  | nil => simp
  | cons c cs ih =>
    intro bus
    cases bus with
    | nil => simp
    | cons x bus => simp [ih, and_assoc]

/-- What a list of listed answers leaves no choice in. -/
theorem answered_listed {a b rest : List Bool} (hl : a.length = b.length) (h : answered (a ++ rest) b) : b = a := by
  induction a generalizing b with
  | nil => exact List.eq_nil_of_length_eq_zero hl.symm
  | cons x xs ih =>
    cases b with
    | nil => simp at hl
    | cons y ys =>
      simp only [List.cons_append, answered_cons] at h
      rw [ih (by simpa using hl) h.2, h.1]

theorem waveAfter_append (a b : List (Phase × Nat)) : ∀ (n : BitVec 32) (w : List Seg),
    waveAfter n (a ++ b) w = waveAfter (n + BitVec.ofNat 32 (phaseTicks a)) b (waveAfter n a w) := by
  induction a with
  | nil => intro n w; simp [waveAfter, phaseTicks]
  | cons x xs ih =>
    intro n w
    obtain ⟨ph, k⟩ := x
    simp only [List.cons_append, waveAfter, phaseTicks, ih]
    rw [BitVec.ofNat_add, BitVec.add_assoc]

theorem phaseTicks_append (a b : List (Phase × Nat)) : phaseTicks (a ++ b) = phaseTicks a + phaseTicks b := by
  induction a with
  | nil => simp [phaseTicks]
  | cons x xs ih => simp only [List.cons_append, phaseTicks, ih]; omega

theorem phasesOf_append (p : Params) (a b : List Slot) : phasesOf p (a ++ b) = phasesOf p a ++ phasesOf p b := by
  simp [phasesOf]

theorem slotTicks_append (p : Params) (a b : List Slot) : slotTicks p (a ++ b) = slotTicks p a + slotTicks p b := by
  simp [slotTicks, phasesOf_append, phaseTicks_append]

theorem sampleCount_append (a b : List Slot) : sampleCount (a ++ b) = sampleCount a + sampleCount b := by
  induction a with
  | nil => simp [sampleCount]
  | cons x xs ih => simp only [List.cons_append, sampleCount, ih]; omega

@[simp] theorem sampleCount_readSlots (n : Nat) : sampleCount (readSlots n) = n := by
  induction n with
  | zero => rfl
  | succ n ih =>
    show Slot.samples .read + sampleCount (readSlots n) = n + 1
    rw [ih]; simp [Slot.samples]; omega

@[simp] theorem sampleCount_byteSlots (v : Byte) : sampleCount (byteSlots v) = 0 := rfl

@[simp] theorem sampleCount_bytesSlots (vs : List Byte) : sampleCount (bytesSlots vs) = 0 := by
  induction vs with
  | nil => rfl
  | cons v vs ih =>
    show sampleCount (byteSlots v ++ bytesSlots vs) = 0
    rw [sampleCount_append, sampleCount_byteSlots, ih]

/-! ### Phases in a row -/

/-- From `s` to `t` exactly the phases `phs` were on the line, `k` samples were taken, and everything `Keeps` speaks of
is kept. -/
structure Phased (phs : List (Phase × Nat)) (k : Nat) (s t : State) : Prop extends Keeps s t where
  wave : t.env.wave = waveAfter s.now phs s.env.wave
  now : t.now = s.now + BitVec.ofNat 32 (phaseTicks phs)
  bus : t.env.bus = s.env.bus.drop k

theorem Phased.trans {a b : List (Phase × Nat)} {j k : Nat} {s t u : State} (h : Phased a j s t) (g : Phased b k t u) :
    Phased (a ++ b) (j + k) s u := by
  refine ⟨h.toKeeps.trans g.toKeeps, ?_, ?_, ?_⟩
  · rw [g.wave, h.wave, h.now, waveAfter_append]
  · rw [g.now, h.now, phaseTicks_append, BitVec.ofNat_add, BitVec.add_assoc]
  · rw [g.bus, h.bus, List.drop_drop]

/-- A zero-time step that keeps what `Keeps` speaks of. -/
theorem Phased.still {s t : State} (h : Keeps s t) (hw : t.env.wave = s.env.wave) (hn : t.now = s.now)
    (hb : t.env.bus = s.env.bus) : Phased [] 0 s t :=
  ⟨h, hw, by simp [hn, phaseTicks], by simp [hb]⟩

/-- From `s` to `t` exactly the slots `slots` were on the line (20_memory.md R115). -/
abbrev Does (slots : List Slot) (s t : State) : Prop := Phased (phasesOf s.params slots) (sampleCount slots) s t

theorem Does.trans {a b : List Slot} {s t u : State} (h : Does a s t) (g : Does b t u) : Does (a ++ b) s u := by
  unfold Does at *
  rw [h.params] at g
  rw [phasesOf_append, sampleCount_append]
  exact Phased.trans h g

theorem Does.still {s t : State} (h : Keeps s t) (hw : t.env.wave = s.env.wave) (hn : t.now = s.now)
    (hb : t.env.bus = s.env.bus) : Does [] s t := Phased.still h hw hn hb

/-- The slots a procedure did, written another way. -/
theorem Does.cast {a b : List Slot} {s t : State} (h : Does a s t) (e : a = b) : Does b s t := e ▸ h

/-- An update of STATUS.PRESENCE, STATUS.RXBIT or the working registers keeps the rest. -/
theorem keeps_of_work {s t : State} (b c : Bool) (x : Work)
    (h : t = { s with status := { s.status with presence := b, rxbit := c }, x := x }) : Keeps s t := by
  subst h
  exact ⟨rfl, rfl, rfl, rfl, rfl, rfl, rfl, rfl, rfl, fun _ => .refl _ _, fun q => ⟨q, rfl, rfl, rfl, rfl, rfl⟩,
    fun _ h => h, fun _ _ => rfl, fun _ _ _ hs hn => absurd hs hn⟩

/-- A change outside BUSY, the host's acts and the device table leaves a command running. -/
theorem Live.of_eq {s t : State} (h : Live s) (hb : t.status.busy = s.status.busy) (hh : t.env.host = s.env.host)
    (ht : t.table = s.table) (hc : t.count = s.count) : Live t := by
  refine ⟨hb.trans h.busy, (calm_of_host hh).trans h.calm, ?_⟩
  intro i u hu
  rw [ht] at hu ⊢
  rw [validRow_congr hc]
  exact h.sup i u hu

/-- A phase entered. -/
theorem enterPhase_spec {s : State} (h : Live s) (ph : Phase) (n : Nat) :
    Live (enterPhase ph n s) ∧ Keeps s (enterPhase ph n s) :=
  ⟨h.of_eq rfl rfl rfl rfl, rfl, rfl, rfl, rfl, rfl, rfl, rfl, rfl, rfl, fun _ => .refl _ _,
    fun q => ⟨q, rfl, rfl, rfl, rfl, rfl⟩, fun _ h => h, fun _ _ => rfl, fun _ _ _ hs hn => absurd hs hn⟩

/-- Everything `drive` can do (40_transport.md R175). -/
theorem drive_spec {s : State} (h : Live s) (ph : Phase) (dur : Params → Nat) :
    ∃ t, drive ph dur s = .ok () t ∧ Live t ∧ Phased [(ph, dur s.params)] 0 s t ∧
      t.status.presence = s.status.presence ∧ t.status.rxbit = s.status.rxbit ∧ t.x = s.x ∧
      (dur s.params ≠ 0 → t.pad = ph.drivesLow) := by
  unfold drive
  by_cases hz : dur s.params = 0
  · rw [if_pos hz]
    refine ⟨s, rfl, h, ⟨.refl s, ?_, ?_, by simp⟩, rfl, rfl, rfl, fun hn => absurd hz hn⟩
    · simp [waveAfter, hz]
    · simp [phaseTicks, hz]
  · rw [if_neg hz]
    obtain ⟨hl, hk⟩ := enterPhase_spec h ph (dur s.params)
    obtain ⟨t, ht, hlt, hp, hn⟩ := ticks_spec (dur s.params) hl
    refine ⟨t, ht, hlt, ⟨hk.trans hp.toKeeps, ?_, ?_, ?_⟩, hp.presence, hp.rxbit, hp.x, fun _ => hp.pad⟩
    · rw [hp.wave]
      simp [waveAfter, hz]
    · rw [hn]
      simp [phaseTicks]
    · rw [hp.bus]
      simp

/-- The sample of the line in a phase in which the master releases it (40_transport.md R176). -/
theorem sample_spec {s : State} (h : Live s) :
    ∃ b t, sample s = .ok b t ∧ Live t ∧ Phased [] 1 s t ∧ t.status.presence = s.status.presence ∧
      t.status.rxbit = s.status.rxbit ∧ t.x = s.x ∧ (s.pad = false → answered s.env.bus [b]) := by
  refine ⟨_, _, rfl, h.of_eq (by simp) (by simp) (by simp) (by simp), ⟨?_, ?_, ?_, ?_⟩, by simp, by simp, by simp, ?_⟩
  · refine ⟨by simp, by simp, by simp, by simp, by simp, by simp, by simp, by simp, by simp, ?_, ?_, ?_, ?_, ?_⟩
    · intro i; rw [takeLevel_table]; exact .refl _ _
    · intro q; simp only [State.quiet, takeLevel_env_host, takeLevel_env_pend]; exact ⟨q, by simp⟩
    · intro _ hc; simpa using hc
    · intros; simp
    · intro _ i _ hs hn; rw [takeLevel_table] at hn; exact absurd hs hn
  · simp [waveAfter]
  · simp [phaseTicks]
  · simp
  · intro hp
    cases hb : s.env.bus with
    | nil => simp
    | cons x xs => simp [State.nextLevel, hb, hp]

/-- Everything SlotReset can do (40_transport.md R171). -/
theorem slotReset_spec {s : State} (h : Live s) :
    ∃ b t, slotReset s = .ok b t ∧ Live t ∧ Does [.reset] s t ∧ t.status.presence = b ∧
      t.status.rxbit = s.status.rxbit ∧ t.x = s.x ∧ (s.params.tPds ≠ 0 → answered s.env.bus [!b]) := by
  obtain ⟨t1, e1, l1, d1, p1, r1, x1, -⟩ := drive_spec h .rstLow Params.tRstl
  obtain ⟨t2, e2, l2, d2, p2, r2, x2, q2⟩ := drive_spec l1 .rstPds Params.tPds
  obtain ⟨b, t3, e3, l3, d3, p3, r3, x3, q3⟩ := sample_spec l2
  have l4 : Live (setPresence (!b) t3) := l3.of_eq rfl rfl rfl rfl
  have d4 : Phased [] 0 t3 (setPresence (!b) t3) := .still (keeps_of_work (!b) t3.status.rxbit t3.x rfl) rfl rfl rfl
  obtain ⟨t5, e5, l5, d5, p5, r5, x5, -⟩ := drive_spec l4 .rstRec Params.tRstRec
  have hp1 : t1.params = s.params := d1.params
  have hp2 : t2.params = s.params := d2.params.trans hp1
  have hp4 : (setPresence (!b) t3).params = s.params := d3.params.trans hp2
  refine ⟨!b, t5, ?_, l5, ?_, ?_, ?_, ?_, ?_⟩
  · unfold slotReset
    rw [bind_ok e1, bind_ok e2, bind_ok e3, bind_ok (modify_ok _ _), bind_ok e5]
    rfl
  · have := (((d1.trans d2).trans d3).trans d4).trans d5
    rw [hp1, hp4] at this
    exact this
  · rw [p5]; rfl
  · rw [r5]; exact r3.trans (r2.trans r1)
  · rw [x5]; exact x3.trans (x2.trans x1)
  · intro hz
    rw [Bool.not_not]
    have hpad : t2.pad = false := q2 (by rw [hp1]; exact hz)
    have := q3 hpad
    rwa [d2.bus, d1.bus] at this

/-- Everything SlotWrite can do (40_transport.md R172). -/
theorem slotWrite_spec {s : State} (h : Live s) (b : Bool) :
    ∃ t, slotWrite b s = .ok () t ∧ Live t ∧ Does [.write b] s t ∧ t.status.presence = s.status.presence ∧
      t.status.rxbit = s.status.rxbit ∧ t.x = s.x := by
  obtain ⟨t1, e1, l1, d1, p1, r1, x1, -⟩ := drive_spec h .wLow (Params.lowTime b)
  obtain ⟨t2, e2, l2, d2, p2, r2, x2, -⟩ := drive_spec l1 .wRel (fun p => p.tWslot - Params.lowTime b p)
  refine ⟨t2, ?_, l2, ?_, p2.trans p1, r2.trans r1, x2.trans x1⟩
  · unfold slotWrite
    rw [bind_ok e1]
    exact e2
  · have := d1.trans d2
    rw [d1.params] at this
    exact this

/-- Everything SlotRead can do, with what is done with the bit at its sample tick (40_transport.md R173). -/
theorem slotReadWith_spec {s : State} (h : Live s) (f : Bool → State → State)
    (hf : ∀ b r, ∃ c, f b r = { r with status := { r.status with rxbit := c } }) :
    ∃ b t, slotReadWith f s = .ok b t ∧ Live t ∧ Does [.read] s t ∧ t.status.presence = s.status.presence ∧
      (∃ r, r.status.rxbit = s.status.rxbit ∧ t.status.rxbit = (f b r).status.rxbit) ∧ t.x = s.x ∧
      (s.params.tRs ≠ 0 → answered s.env.bus [b]) := by
  obtain ⟨t1, e1, l1, d1, p1, r1, x1, -⟩ := drive_spec h .rLow Params.tRl
  obtain ⟨t2, e2, l2, d2, p2, r2, x2, q2⟩ := drive_spec l1 .rSmp Params.tRs
  obtain ⟨b, t3, e3, l3, d3, p3, r3, x3, q3⟩ := sample_spec l2
  obtain ⟨c, hc⟩ := hf b t3
  have l4 : Live (f b t3) := l3.of_eq (by rw [hc]) (by rw [hc]) (by rw [hc]) (by rw [hc])
  have d4 : Phased [] 0 t3 (f b t3) :=
    .still (keeps_of_work t3.status.presence c t3.x hc) (by rw [hc]) (by rw [hc]) (by rw [hc])
  obtain ⟨t5, e5, l5, d5, p5, r5, x5, -⟩ := drive_spec l4 .rRec (fun p => p.tRslot - p.tRl - p.tRs)
  have hp1 : t1.params = s.params := d1.params
  have hp2 : t2.params = s.params := d2.params.trans hp1
  have hp4 : (f b t3).params = s.params := d4.params.trans (d3.params.trans hp2)
  refine ⟨b, t5, ?_, l5, ?_, ?_, ?_, ?_, ?_⟩
  · unfold slotReadWith
    rw [bind_ok e1, bind_ok e2, bind_ok e3, bind_ok (modify_ok _ _), bind_ok e5]
    rfl
  · have := (((d1.trans d2).trans d3).trans d4).trans d5
    rw [hp1, hp4] at this
    exact this
  · rw [p5, hc]; exact p3.trans (p2.trans p1)
  · exact ⟨t3, r3.trans (r2.trans r1), r5⟩
  · rw [x5, hc]; exact x3.trans (x2.trans x1)
  · intro hz
    have hpad : t2.pad = false := q2 (by rw [hp1]; exact hz)
    have := q3 hpad
    rwa [d2.bus, d1.bus] at this

/-- Everything SlotRead can do (40_transport.md R173). -/
theorem slotRead_spec {s : State} (h : Live s) :
    ∃ b t, slotRead s = .ok b t ∧ Live t ∧ Does [.read] s t ∧ t.status.presence = s.status.presence ∧
      t.status.rxbit = s.status.rxbit ∧ t.x = s.x ∧ (s.params.tRs ≠ 0 → answered s.env.bus [b]) := by
  obtain ⟨b, t, e, l, d, p, ⟨r, hr, ht⟩, x, q⟩ := slotReadWith_spec h (fun _ s => s) (fun _ r => ⟨r.status.rxbit, rfl⟩)
  exact ⟨b, t, e, l, d, p, ht.trans hr, x, q⟩

/-- Everything a read slot whose bit goes to STATUS.RXBIT can do (40_transport.md R183). -/
theorem slotReadRx_spec {s : State} (h : Live s) :
    ∃ b t, slotReadWith setRxbit s = .ok b t ∧ Live t ∧ Does [.read] s t ∧ t.status.presence = s.status.presence ∧
      t.status.rxbit = b ∧ t.x = s.x ∧ (s.params.tRs ≠ 0 → answered s.env.bus [b]) := by
  obtain ⟨b, t, e, l, d, p, ⟨r, hr, ht⟩, x, q⟩ := slotReadWith_spec h setRxbit (fun b _ => ⟨b, rfl⟩)
  exact ⟨b, t, e, l, d, p, ht, x, q⟩

/-! ### Bytes -/

theorem ByteRegsOnly.refl (x : Work) : ByteRegsOnly x x := ⟨x.sh, x.bit, rfl⟩

theorem ByteRegsOnly.trans {x y z : Work} (h : ByteRegsOnly x y) (g : ByteRegsOnly y z) : ByteRegsOnly x z := by
  obtain ⟨a, b, rfl⟩ := h
  obtain ⟨c, d, rfl⟩ := g
  exact ⟨c, d, rfl⟩

theorem work_step {s t : State} {x : Work} (h : t = { s with x := x }) (l : Live s) : Live t ∧ Does [] s t := by
  have hk : Keeps s t := keeps_of_work s.status.presence s.status.rxbit x (by rw [h])
  subst h
  exact ⟨l.of_eq rfl rfl rfl rfl, Does.still hk rfl rfl rfl⟩

theorem sendBits_spec (v : Byte) (js : List Nat) : ∀ {s : State}, Live s →
    ∃ t, sendBits v js s = .ok () t ∧ Live t ∧ Does (js.map fun j => .write (v.getLsbD j)) s t ∧
      t.status.presence = s.status.presence ∧ t.status.rxbit = s.status.rxbit ∧ ByteRegsOnly s.x t.x := by
  induction js with
  | nil => exact fun {s} h => ⟨s, rfl, h, Does.still (.refl s) rfl rfl rfl, rfl, rfl, .refl _⟩
  | cons j js ih =>
    intro s h
    obtain ⟨l1, d1⟩ := work_step (t := setBitIndex j s) rfl h
    obtain ⟨t2, e2, l2, d2, p2, r2, x2⟩ := slotWrite_spec l1 (v.getLsbD j)
    obtain ⟨t3, e3, l3, d3, p3, r3, x3⟩ := ih l2
    refine ⟨t3, ?_, l3, (d1.trans d2).trans d3, p3.trans p2, r3.trans r2, .trans ⟨s.x.sh, BitVec.ofNat 3 j, ?_⟩ x3⟩
    · unfold sendBits
      rw [bind_ok (modify_ok _ _), bind_ok e2]
      exact e3
    · rw [x2]; rfl

/-- Everything SendByte can do (40_transport.md R174). -/
theorem sendByte_spec {s : State} (h : Live s) (v : Byte) :
    ∃ t, sendByte v s = .ok () t ∧ Live t ∧ Does (byteSlots v) s t ∧ t.status.presence = s.status.presence ∧
      t.status.rxbit = s.status.rxbit ∧ ByteRegsOnly s.x t.x := by
  obtain ⟨l1, d1⟩ := work_step (t := loadShift v s) rfl h
  obtain ⟨t2, e2, l2, d2, p2, r2, x2⟩ := sendBits_spec v bitIndexes l1
  refine ⟨t2, ?_, l2, d1.trans d2, p2, r2, .trans ⟨v, s.x.bit, rfl⟩ x2⟩
  unfold sendByte
  rw [bind_ok (modify_ok _ _)]
  exact e2

/-- Everything sending bytes in a row can do. -/
theorem sendBytes_spec (vs : List Byte) : ∀ {s : State}, Live s →
    ∃ t, sendBytes vs s = .ok () t ∧ Live t ∧ Does (bytesSlots vs) s t ∧ t.status.presence = s.status.presence ∧
      t.status.rxbit = s.status.rxbit ∧ ByteRegsOnly s.x t.x := by
  induction vs with
  | nil => exact fun {s} h => ⟨s, rfl, h, Does.still (.refl s) rfl rfl rfl, rfl, rfl, .refl _⟩
  | cons v vs ih =>
    intro s h
    obtain ⟨t1, e1, l1, d1, p1, r1, x1⟩ := sendByte_spec h v
    obtain ⟨t2, e2, l2, d2, p2, r2, x2⟩ := ih l1
    refine ⟨t2, ?_, l2, d1.trans d2, p2.trans p1, r2.trans r1, x1.trans x2⟩
    unfold sendBytes
    rw [bind_ok e1]
    exact e2

/-- The byte eight bits make in x.SH, bit by bit. -/
def shiftIn (sh : Byte) : List Nat → List Bool → Byte
  | j :: js, b :: bs => shiftIn (sh ||| ((BitVec.ofBool b).setWidth 8 <<< j)) js bs
  | _, _ => sh

theorem recvBits_spec (js : List Nat) : ∀ {s : State}, Live s →
    ∃ bits t, recvBits js s = .ok () t ∧ Live t ∧ Does (readSlots js.length) s t ∧ bits.length = js.length ∧
      t.status.presence = s.status.presence ∧ t.status.rxbit = s.status.rxbit ∧ ByteRegsOnly s.x t.x ∧
      t.x.sh = shiftIn s.x.sh js bits ∧ (s.params.tRs ≠ 0 → answered s.env.bus bits) := by
  induction js with
  | nil => exact fun {s} h => ⟨[], s, rfl, h, Does.still (.refl s) rfl rfl rfl, rfl, rfl, rfl, .refl _, rfl, by simp⟩
  | cons j js ih =>
    intro s h
    obtain ⟨l1, d1⟩ := work_step (t := setBitIndex j s) rfl h
    obtain ⟨b, t2, e2, l2, d2, p2, r2, x2, q2⟩ := slotRead_spec l1
    obtain ⟨l3, d3⟩ := work_step (t := storeBit j b t2) rfl l2
    obtain ⟨bits, t4, e4, l4, d4, n4, p4, r4, x4, s4, q4⟩ := ih l3
    have hp : t2.params = s.params := (d1.trans d2).params
    refine ⟨b :: bits, t4, ?_, l4, (((d1.trans d2).trans d3).trans d4), by simp [n4], p4.trans p2, r4.trans r2,
      .trans ⟨s.x.sh ||| ((BitVec.ofBool b).setWidth 8 <<< j), BitVec.ofNat 3 j, ?_⟩ x4, ?_, ?_⟩
    · unfold recvBits
      rw [bind_ok (modify_ok _ _), bind_ok e2, bind_ok (modify_ok _ _)]
      exact e4
    · show (storeBit j b t2).x = _
      rw [storeBit_x, x2]; rfl
    · rw [s4, storeBit_x, x2]; rfl
    · intro hz
      have hb := q2 hz
      have hbits := q4 (by rw [storeBit_params, hp]; exact hz)
      have hbus : (storeBit j b t2).env.bus = s.env.bus.drop 1 := by
        rw [storeBit_env, d2.bus, setBitIndex_env]; rfl
      rw [hbus] at hbits
      exact (answered_append [b] bits s.env.bus).mpr ⟨hb, hbits⟩

/-- Eight bits in x.SH make the byte they stand for (30_encoding.md R146). -/
theorem shiftIn_byte {bits : List Bool} (h : bits.length = 8) : shiftIn 0 bitIndexes bits = byteOfBits bits := by
  match bits, h with
  | [a, b, c, d, e, f, g, i], _ =>
    revert a b c d e f g i
    decide

/-- Everything RecvByte can do (40_transport.md R174). -/
theorem recvByte_spec {s : State} (h : Live s) :
    ∃ bits t, recvByte s = .ok (byteOfBits bits) t ∧ Live t ∧ Does (readSlots 8) s t ∧ bits.length = 8 ∧
      t.status.presence = s.status.presence ∧ t.status.rxbit = s.status.rxbit ∧ ByteRegsOnly s.x t.x ∧
      (s.params.tRs ≠ 0 → answered s.env.bus bits) := by
  obtain ⟨l1, d1⟩ := work_step (t := loadShift 0 s) rfl h
  obtain ⟨bits, t2, e2, l2, d2, n2, p2, r2, x2, s2, q2⟩ := recvBits_spec bitIndexes l1
  refine ⟨bits, t2, ?_, l2, d1.trans d2, n2, p2, r2, .trans ⟨0, s.x.bit, rfl⟩ x2, q2⟩
  unfold recvByte
  rw [bind_ok (modify_ok _ _), bind_ok e2, bind_ok (get_ok _), pure_ok, s2]
  exact congrArg (fun v => EStateM.Result.ok v t2) (shiftIn_byte n2)

/-! ### Commands -/

/-- The acceptance cycle up to its end: a command is running (60_exceptions.md R321). -/
theorem accept_live {s : State} (h : s.calm = true) : Live (accept s) := by
  refine ⟨rfl, h, ?_⟩
  intro i u hu
  exact openCycle_supOk s i u hu

/-- The command's first tick is the first one strictly after its acceptance cycle (40_transport.md R177). -/
theorem accept_startTick (s : State) : (accept s).now + 1 = s.startTick := by
  rw [accept_now, openCycle_now]
  unfold State.startTick
  split <;> simp [BitVec.add_assoc]

end Sys2Proof.Machine
end

