-- ==== Sys2Proof/Laws/Command.lean ====
section
/-! SUPPORT. A command from its acceptance to its completion: `command_begins`, `finish_spec` and `command_spec` say
once what surrounds every command's pseudocode, so that a result of one command is its pseudocode's own lemma put
between them. -/

namespace Sys2Proof.Machine

theorem Untouched.of_keeps {s t : State} (h : Keeps s t) : Untouched s t :=
  ⟨h.params, h.rxdata, h.crc, h.session, h.alarm, h.count, h.enumstat,
    fun q => ⟨(h.quiet q).1, (h.quiet q).2.1, (h.quiet q).2.2.1, (h.quiet q).2.2.2.1, (h.quiet q).2.2.2.2.2⟩, h.cevt⟩

theorem Supervised.of_keeps {s t : State} (h : Keeps s t) : Supervised s t := ⟨h.rows, h.noEvent, h.event⟩

theorem Untouched.refl (s : State) : Untouched s s := .of_keeps (.refl s)

theorem Untouched.trans {a b c : State} (h : Untouched a b) (k : Untouched b c) : Untouched a c := by
  refine ⟨k.params.trans h.params, k.rxdata.trans h.rxdata, k.crc.trans h.crc, k.session.trans h.session,
    k.alarm.trans h.alarm, k.count.trans h.count, k.enumstat.trans h.enumstat, ?_, ?_⟩
  · intro q
    obtain ⟨q', h1, h2, h3, h4⟩ := h.quiet q
    obtain ⟨q'', k1, k2, k3, k4⟩ := k.quiet q'
    exact ⟨q'', k1.trans h1, k2.trans h2, k3.trans h3, k4.trans h4⟩
  · intro q hc
    exact k.cevt (h.quiet q).1 (h.cevt q hc)

theorem Supervised.trans {a b c : State} (h : Supervised a b) (k : Supervised b c) (hc : b.count = a.count)
    (hq : a.quiet → b.quiet) (hcevt : b.quiet → b.status.cevt = true → c.status.cevt = true) : Supervised a c := by
  refine ⟨?_, ?_, ?_⟩
  · intro i
    have := k.rows i
    rw [validRow_congr hc] at this
    exact (h.rows i).trans this
  · intro q hn
    rw [k.noEvent (hq q), h.noEvent q hn]
    intro i hv
    rw [validRow_congr hc] at hv
    rw [((h.rows i).held (.inl (hn i hv))).1]
    exact hn i hv
  · intro q i hv hs hn
    by_cases hb : b.table[i].cstate = .started
    · exact k.event (hq q) i (by rw [validRow_congr hc]; exact hv) hb hn
    · exact hcevt (hq q) (h.event q i hv hs hb)

/-- The table and CEVT are all that `Supervised` speaks of, with the validity of the rows and the host's silence. -/
theorem Supervised.congr {s t s' t' : State} (h : Supervised s t) (hs : s'.table = s.table) (ht : t'.table = t.table)
    (hc : s'.count = s.count) (he : s'.status.cevt = s.status.cevt) (he' : t'.status.cevt = t.status.cevt)
    (hq : s'.quiet → s.quiet) : Supervised s' t' := by
  refine ⟨?_, ?_, ?_⟩
  · intro i
    rw [hs, ht, validRow_congr hc]
    exact h.rows i
  · intro q hn
    rw [he', he]
    apply h.noEvent (hq q)
    intro i hv
    have := hn i (by rw [validRow_congr hc]; exact hv)
    rwa [hs] at this
  · intro q i hv hs' hn
    rw [he']
    rw [hs] at hs'
    rw [ht] at hn
    exact h.event (hq q) i (by rw [← validRow_congr hc]; exact hv) hs' hn

/-- The same with RXDATA set on both sides. -/
theorem Untouched.setRxdata {s t : State} (h : Untouched s t) (v : Byte) :
    Untouched { s with rxdata := v } { t with rxdata := v } :=
  ⟨h.params, rfl, h.crc, h.session, h.alarm, h.count, h.enumstat, h.quiet, h.cevt⟩

/-- The same with CRC.ACC set on both sides. -/
theorem Untouched.setCrc {s t : State} (h : Untouched s t) (v : Byte) :
    Untouched { s with crc := v } { t with crc := v } :=
  ⟨h.params, h.rxdata, rfl, h.session, h.alarm, h.count, h.enumstat, h.quiet, h.cevt⟩

/-- The same with the session state set on both sides. -/
theorem Untouched.setSession {s t : State} (h : Untouched s t) (v : Session) :
    Untouched { s with session := v } { t with session := v } :=
  ⟨h.params, h.rxdata, h.crc, rfl, h.alarm, h.count, h.enumstat, h.quiet, h.cevt⟩

/-- The line between `s` and `t`: exactly the slots `slots` with no gap (20_memory.md R115, 40_transport.md R175). -/
structure OnLine (slots : List Slot) (s t : State) : Prop where
  params : t.params = s.params
  wave : t.env.wave = waveAfter s.now (phasesOf s.params slots) s.env.wave
  now : t.now = s.now + BitVec.ofNat 32 (slotTicks s.params slots)
  bus : t.env.bus = s.env.bus.drop (sampleCount slots)

theorem Does.onLine {slots : List Slot} {s t : State} (d : Does slots s t) : OnLine slots s t :=
  ⟨d.params, d.wave, d.now, d.bus⟩

theorem OnLine.still {s t : State} (hp : t.params = s.params) (hw : t.env.wave = s.env.wave) (hn : t.now = s.now)
    (hb : t.env.bus = s.env.bus) : OnLine [] s t :=
  ⟨hp, hw, by simp [hn, slotTicks, phasesOf, phaseTicks], by simp [hb, sampleCount]⟩

theorem OnLine.trans {a b : List Slot} {s t u : State} (h : OnLine a s t) (g : OnLine b t u) : OnLine (a ++ b) s u := by
  refine ⟨g.params.trans h.params, ?_, ?_, ?_⟩
  · rw [g.wave, h.wave, h.now, h.params, phasesOf_append, waveAfter_append]; rfl
  · rw [g.now, h.now, h.params, slotTicks_append, BitVec.ofNat_add, BitVec.add_assoc]
  · rw [g.bus, h.bus, List.drop_drop, sampleCount_append]

/-- The start of a command at t_s (40_transport.md R177): from `s`, in which its CMD write is due, to `t`. -/
structure Begun (s t : State) : Prop where
  live : Live t
  untouched : Untouched s t
  supervised : Supervised s t
  now : t.now = s.startTick
  presence : t.status.presence = s.status.presence
  rxbit : t.status.rxbit = s.status.rxbit
  x : t.x = s.startWork
  bus : t.env.bus = s.env.bus
  wave : t.env.wave = s.env.wave

/-- What a command answers, from what its pseudocode ends in: its finish cycle, the block reset that cut it short, or
the access that is refused. -/
def landed : EStateM.Result Cut State Code → Host.Outcome State Fault Refusal
  | .ok code u => .next (closeCycle (complete code u))
  | .error .reset u => .next u
  | .error (.bad a) _ => refuseAccess a

/-- A command starts at the first tick strictly after its acceptance cycle, with ALARM latched (60_exceptions.md R321,
40_transport.md R177). -/
theorem command_starts {s : State} (h : s.calm = true) :
    ∃ t, nextTick (accept s) = .ok () t ∧ Begun s t ∧ ∀ body : Engine Code, runCommand body s = landed (body t) := by
  obtain ⟨t, ht, hl, hp, hn⟩ := nextTick_spec (accept_live h)
  refine ⟨t, ht, ⟨hl, ?_, ?_, ?_, hp.presence, hp.rxbit, hp.x, hp.bus, hp.wave⟩, ?_⟩
  · have h1 : Untouched s (accept s) := by
      have := Untouched.of_keeps (openCycle_passes s).toKeeps
      exact ⟨rfl, rfl, rfl, rfl, rfl, rfl, rfl, this.quiet, this.cevt⟩
    exact h1.trans (.of_keeps hp.toKeeps)
  · have h1 : Supervised s (accept s) := by
      have := Supervised.of_keeps (openCycle_passes s).toKeeps
      exact ⟨this.rows, this.noEvent, this.event⟩
    exact h1.trans (.of_keeps hp.toKeeps) rfl (fun q => q) (fun q => hp.cevt q)
  · rw [hn, accept_startTick]
  · intro body
    unfold runCommand
    rw [bind_ok ht]
    cases body t with
    | ok code u => rfl
    | error c u => cases c <;> rfl

theorem command_begins {s : State} (h : s.calm = true) :
    ∃ t, Begun s t ∧ ∀ body : Engine Code, runCommand body s = landed (body t) := by
  obtain ⟨t, -, b, r⟩ := command_starts h
  exact ⟨t, b, r⟩

/-- The finish cycle (60_exceptions.md R322): from the end `s` of the pseudocode to the end `t` of the cycle. -/
structure Finished (code : Code) (s t : State) : Prop where
  busy : t.status.busy = false
  done : t.status.done = true
  err : t.status.err = code
  seq : t.seq = none
  ph : t.ph = .idle
  pad : t.pad = false
  untouched : Untouched s t
  supervised : Supervised s t
  closed : Closed t
  now : t.now = s.now
  presence : t.status.presence = s.status.presence
  rxbit : t.status.rxbit = s.status.rxbit
  x : t.x = s.x
  bus : t.env.bus = s.env.bus
  wave : t.env.wave = s.env.wave
  table : ∀ i : Fin 16, t.table[i] = s.table[i].settle
  cevtStays : s.status.cevt = true → t.status.cevt = true

theorem finish_spec {s : State} (h : Live s) (code : Code) : Finished code s (closeCycle (complete code s)) := by
  have hs : SupOk (complete code s) := fun i u hu => h.sup i u hu
  obtain ⟨p, cl, -, hn, -⟩ := closeCycle_spec hs
  have h1 : Untouched s (complete code s) :=
    ⟨rfl, rfl, rfl, rfl, rfl, rfl, rfl, fun q => ⟨q, rfl, rfl, rfl, rfl⟩, fun _ h => h⟩
  have h2 : Supervised s (complete code s) :=
    ⟨fun _ => .refl _ _, fun _ _ => rfl, fun _ _ _ hs hn => absurd hs hn⟩
  obtain ⟨r, n, he, -⟩ := settleRead_eq (settleSupervisor (complete code s))
  refine ⟨p.busy, ?_, p.err, p.seq, p.ph, p.pad, h1.trans (.of_keeps p.toKeeps),
    h2.trans (.of_keeps p.toKeeps) rfl (fun q => q) (fun q => p.cevt q), cl, hn, p.presence, p.rxbit, p.x, p.bus,
    p.wave, ?_, ?_⟩
  · unfold closeCycle; rw [he]; rfl
  · intro i
    unfold closeCycle
    rw [he]
    show (settleSupervisor (complete code s)).table[i] = _
    rw [settleSupervisor_table, mapTable_get]
    rfl
  · intro hc
    unfold closeCycle
    rw [he]
    show (settleSupervisor (complete code s)).status.cevt = true
    rw [settleSupervisor_status]
    show ((complete code s).status.cevt || _) = true
    rw [show (complete code s).status.cevt = s.status.cevt from rfl, hc]
    rfl

/-- A command whose pseudocode runs from `t` to `u` with the slots `slots` on the line. -/
theorem command_spec {s t u : State} {body : Engine Code} {code : Code} {slots : List Slot} (b : Begun s t)
    (r : runCommand body s = landed (body t))
    (e : body t = .ok code u) (l : Live u) (o : OnLine slots t u) :
    ∃ v, runCommand body s = .next v ∧ Ended s v code slots ∧ Finished code u v := by
  have f := finish_spec l code
  refine ⟨_, by rw [r, e]; rfl, ⟨f.busy, f.done, f.err, f.seq, f.ph, f.pad, ?_, ?_, ?_⟩, f⟩
  · rw [f.now, o.now, b.now, b.untouched.params]
  · rw [f.wave, o.wave, b.now, b.untouched.params, b.wave]
  · rw [f.bus, o.bus, b.bus]

/-- A command whose pseudocode only uses the line and working registers: `Does` says all of it. -/
theorem command_of_does {s t u : State} {body : Engine Code} {code : Code} {slots : List Slot} (b : Begun s t)
    (r : runCommand body s = landed (body t))
    (e : body t = .ok code u) (l : Live u) (d : Does slots t u) :
    ∃ v, runCommand body s = .next v ∧ Ended s v code slots ∧ Untouched s v ∧ Supervised s v ∧ Finished code u v := by
  obtain ⟨v, h1, h2, h3⟩ := command_spec b r e l d.onLine
  have hu := b.untouched.trans (.of_keeps d.toKeeps)
  refine ⟨v, h1, h2, hu.trans h3.untouched, ?_, h3⟩
  have hs : Supervised s u := b.supervised.trans (.of_keeps d.toKeeps) b.untouched.count
    (fun q => (b.untouched.quiet q).1) d.cevt
  exact hs.trans h3.supervised hu.count (fun q => (hu.quiet q).1) h3.untouched.cevt

end Sys2Proof.Machine
end

