-- ==== Sys2Proof/Laws/Cut.lean ====
section
/-! SUPPORT. A command either runs to its end or is cut, by a block reset (60_exceptions.md R329, 70_reset_and_hazards.md
R351) or by an access that is refused (20_memory.md R101): `Good` says so of a procedure of the engine, and every
procedure is good. -/

namespace Sys2Proof.Machine

/-- A state in the middle of a command. -/
def Running (s : State) : Prop := s.status.busy = true

/-- The end of a cycle leaves BUSY, the parameters and the host's acts alone. -/
theorem closeCycle_frame (s : State) : (closeCycle s).status.busy = s.status.busy ∧
    (closeCycle s).params = s.params ∧ (closeCycle s).env.host = s.env.host := by
  obtain ⟨r, n, h, -⟩ := settleRead_eq (settleSupervisor s)
  unfold closeCycle
  rw [h]
  exact ⟨rfl, rfl, rfl⟩

/-- An access while a command runs leaves them alone too. -/
theorem takeAccess_frame (a : Access) {s : State} (hb : s.status.busy = true) :
    (takeAccess a s).status.busy = true ∧ (takeAccess a s).params = s.params ∧ (takeAccess a s).env.host = s.env.host := by
  cases a with
  | read off size => exact ⟨hb, rfl, rfl⟩
  | write off size v =>
    obtain ⟨st, c, b, he, h1, -⟩ := hostWrite_busy (s := s) off v hb
    rw [show takeAccess (.write off size v) s = _ from he]
    exact ⟨h1, rfl, rfl⟩

/-- The host's acts in `t` are a rest of those in `s`: all of them are acts of `s`, but for the cycles before them. -/
def ActsOf (s t : State) : Prop := ∀ e ∈ t.env.host, ∃ e' ∈ s.env.host, e'.act = e.act

theorem ActsOf.of_host {s t : State} (h : t.env.host = s.env.host) : ActsOf s t := fun e he => ⟨e, h ▸ he, rfl⟩

theorem ActsOf.trans {s t u : State} (h : ActsOf s t) (g : ActsOf t u) : ActsOf s u := fun e he =>
  let ⟨e', h1, h2⟩ := g e he
  let ⟨e'', h3, h4⟩ := h e' h1
  ⟨e'', h3, h4.trans h2⟩

theorem ActsOf.calm {s t : State} (h : ActsOf s t) (hs : s.calm = true) : t.calm = true := by
  unfold State.calm at *
  rw [List.all_eq_true] at *
  intro e he
  obtain ⟨e', h1, h2⟩ := h e he
  rw [← h2]
  exact hs e' h1

/-- What cuts a procedure begun in `s` is among the host's acts: a block reset, which lands in the state after reset,
or an access that is not defined. -/
def CutBy (s : State) : Cut → State → Prop
  | .reset, t => (∃ e ∈ s.env.host, e.act = .reset) ∧ ∃ u, t = blockReset u ∧ u.params = s.params
  | .bad a, _ => (∃ e ∈ s.env.host, e.act = .access a) ∧ a.defined = false

theorem CutBy.mono {s t : State} (h : ActsOf s t) (hp : t.params = s.params) {c : Cut} {u : State} (hc : CutBy t c u) :
    CutBy s c u := by
  cases c with
  | reset =>
    obtain ⟨⟨e, h1, h2⟩, v, h3, h4⟩ := hc
    obtain ⟨e', h5, h6⟩ := h e h1
    exact ⟨⟨e', h5, h6.trans h2⟩, v, h3, h4.trans hp⟩
  | bad a =>
    obtain ⟨⟨e, h1, h2⟩, h3⟩ := hc
    obtain ⟨e', h5, h6⟩ := h e h1
    exact ⟨⟨e', h5, h6.trans h2⟩, h3⟩

/-- A calm host cuts nothing. -/
theorem CutBy.not_calm {s t : State} {c : Cut} (h : CutBy s c t) : s.calm = false := by
  rw [Bool.eq_false_iff]
  intro hs
  unfold State.calm at hs
  rw [List.all_eq_true] at hs
  cases c with
  | reset =>
    obtain ⟨⟨e, h1, h2⟩, -⟩ := h
    have := hs e h1
    rw [h2] at this
    cases this
  | bad a =>
    obtain ⟨⟨e, h1, h2⟩, h3⟩ := h
    have := hs e h1
    rw [h2] at this
    rw [show HostAct.calm (.access a) = a.defined from rfl, h3] at this
    cases this

/-- A procedure begun in `s` ends with the command still running, or is cut by an act of the host. -/
def EndsWell {α : Type} (s : State) : EStateM.Result Cut State α → Prop
  | .ok _ t => Running t ∧ t.params = s.params ∧ ActsOf s t
  | .error c t => CutBy s c t

/-- So it ends whatever the environment and the host do. -/
def Good {α : Type} (m : Engine α) : Prop := ∀ s, Running s → EndsWell s (m s)

theorem good_pure {α : Type} (a : α) : Good (pure a) := fun _ h => ⟨h, rfl, .of_host rfl⟩

theorem good_get : Good (get : Engine State) := fun _ h => ⟨h, rfl, .of_host rfl⟩

/-- What a procedure comes to that begins where another has ended. -/
theorem EndsWell.after {β : Type} {s t : State} (hp : t.params = s.params) (h : ActsOf s t)
    {r : EStateM.Result Cut State β} (hr : EndsWell t r) : EndsWell s r := by
  cases r with
  | ok b u => exact ⟨hr.1, hr.2.1.trans hp, h.trans hr.2.2⟩
  | error c u => exact CutBy.mono h hp hr

theorem good_bind {α β : Type} {m : Engine α} {f : α → Engine β} (h : Good m) (g : ∀ a, Good (f a)) :
    Good (m >>= f) := by
  intro s hs
  have h1 := h s hs
  cases hm : m s with
  | ok a t =>
    rw [hm] at h1
    obtain ⟨h2, h3, h4⟩ := h1
    rw [bind_ok hm]
    exact .after h3 h4 (g a t h2)
  | error e t =>
    rw [hm] at h1
    rw [bind_error hm]
    exact h1

theorem good_ite {α : Type} {c : Prop} [Decidable c] {m n : Engine α} (h : Good m) (g : Good n) :
    Good (if c then m else n) := by
  split
  · exact h
  · exact g

/-- A zero-time change that leaves BUSY, the parameters and the host's acts alone. -/
theorem good_modify {f : State → State} (h : ∀ s, (f s).status.busy = s.status.busy ∧ (f s).params = s.params ∧
    (f s).env.host = s.env.host) : Good (modify f : Engine Unit) := by
  intro s hs
  obtain ⟨h1, h2, h3⟩ := h s
  exact ⟨h1.trans hs, h2, .of_host h3⟩

/-! ### Time -/

/-- The time to the next tick. -/
theorem toTick_good (h : List HostEvent) : ∀ (s : State), s.env.host = h → Running s → EndsWell s (toTick h s) := by
  induction h with
  | nil => exact fun s hh hb => ⟨hb, rfl, .of_host rfl⟩
  | cons e es ih =>
    intro s hh hb
    have rest : ∀ t : State, t.env.host = es → ActsOf s t := fun t ht e' he' =>
      ⟨e', by rw [hh]; exact List.mem_cons_of_mem _ (ht ▸ he'), rfl⟩
    unfold toTick
    split
    · refine ⟨hb, rfl, ?_⟩
      intro e' he'
      rw [openCycle_env] at he'
      rcases List.mem_cons.mp he' with rfl | he'
      · exact ⟨e, by rw [hh]; exact List.mem_cons_self, rfl⟩
      · exact ⟨e', by rw [hh]; exact List.mem_cons_of_mem _ he', rfl⟩
    · split
      · rename_i hact
        exact ⟨⟨e, by rw [hh]; exact List.mem_cons_self, hact⟩, _, rfl, rfl⟩
      · rename_i a hact
        split
        · obtain ⟨tb, tp, th⟩ := takeAccess_frame a (s := openCycle ((s.passCycles e.gap).withHost es)) hb
          split
          · exact ⟨tb, tp, rest _ th⟩
          · obtain ⟨cb, cp, ch⟩ := closeCycle_frame (takeAccess a (openCycle ((s.passCycles e.gap).withHost es)))
            exact .after (s := s) (cp.trans tp) (rest _ (ch.trans th)) (ih (closeCycle _) (ch.trans th) (cb.trans tb))
        · rename_i hd
          exact ⟨⟨e, by rw [hh]; exact List.mem_cons_self, hact⟩, Bool.eq_false_iff.mpr hd⟩

theorem nextTick_good : Good nextTick := by
  intro s hs
  obtain ⟨cb, cp, ch⟩ := closeCycle_frame s
  exact .after cp (.of_host ch) (toTick_good _ (closeCycle s) rfl (cb.trans hs))

theorem ticks_good (n : Nat) : Good (ticks n) := by
  induction n with
  | zero => exact good_pure ()
  | succ n ih => exact good_bind nextTick_good fun _ => ih

/-! ### The procedures of the engine -/

theorem drive_good (ph : Phase) (dur : Params → Nat) : Good (drive ph dur) := by
  intro s hs
  unfold drive
  split
  · exact ⟨hs, rfl, .of_host rfl⟩
  · exact .after rfl (.of_host rfl) (ticks_good _ (enterPhase ph (dur s.params) s) hs)

theorem sample_good : Good sample := by
  intro s hs
  refine ⟨?_, by simp, .of_host (by simp)⟩
  show s.takeLevel.status.busy = true
  rw [takeLevel_status]
  exact hs

theorem slotReset_good : Good slotReset :=
  good_bind (drive_good _ _) fun _ => good_bind (drive_good _ _) fun _ => good_bind sample_good fun _ =>
    good_bind (good_modify fun _ => ⟨rfl, rfl, rfl⟩) fun _ => good_bind (drive_good _ _) fun _ => good_pure _

theorem slotWrite_good (b : Bool) : Good (slotWrite b) := good_bind (drive_good _ _) fun _ => drive_good _ _

theorem slotReadWith_good {f : Bool → State → State} (hf : ∀ b s, (f b s).status.busy = s.status.busy ∧
    (f b s).params = s.params ∧ (f b s).env.host = s.env.host) :
    Good (slotReadWith f) :=
  good_bind (drive_good _ _) fun _ => good_bind (drive_good _ _) fun _ => good_bind sample_good fun b =>
    good_bind (good_modify (hf b)) fun _ => good_bind (drive_good _ _) fun _ => good_pure _

theorem slotRead_good : Good slotRead := slotReadWith_good fun _ _ => ⟨rfl, rfl, rfl⟩

theorem sendBits_good (v : Byte) (js : List Nat) : Good (sendBits v js) := by
  induction js with
  | nil => exact good_pure ()
  | cons j js ih =>
    exact good_bind (good_modify fun _ => ⟨rfl, rfl, rfl⟩) fun _ => good_bind (slotWrite_good _) fun _ => ih

theorem sendByte_good (v : Byte) : Good (sendByte v) :=
  good_bind (good_modify fun _ => ⟨rfl, rfl, rfl⟩) fun _ => sendBits_good v _

theorem sendBytes_good (vs : List Byte) : Good (sendBytes vs) := by
  induction vs with
  | nil => exact good_pure ()
  | cons v vs ih => exact good_bind (sendByte_good v) fun _ => ih

theorem recvBits_good (js : List Nat) : Good (recvBits js) := by
  induction js with
  | nil => exact good_pure ()
  | cons j js ih =>
    exact good_bind (good_modify fun _ => ⟨rfl, rfl, rfl⟩) fun _ => good_bind slotRead_good fun _ =>
      good_bind (good_modify fun _ => ⟨rfl, rfl, rfl⟩) fun _ => ih

theorem recvByte_good : Good recvByte :=
  good_bind (good_modify fun _ => ⟨rfl, rfl, rfl⟩) fun _ => good_bind (recvBits_good _) fun _ =>
    good_bind good_get fun _ => good_pure _

theorem recvFrame_good (ks : List (Fin 9)) : Good (recvFrame ks) := by
  induction ks with
  | nil => exact good_pure ()
  | cons k ks ih =>
    exact good_bind recvByte_good fun _ => good_bind (good_modify fun _ => ⟨rfl, rfl, rfl⟩) fun _ => ih

theorem readFrame_good : Good readFrame := good_bind (sendByte_good _) fun _ => recvFrame_good _

theorem select_good (sel : Bool) (idx : BitVec 4) : Good (select sel idx) :=
  good_bind good_get fun _ => sendBytes_good _

theorem checkFrame_good : Good checkFrame :=
  good_bind (good_modify fun _ => ⟨rfl, rfl, rfl⟩) fun _ => good_bind good_get fun _ => good_pure _

theorem choose_eq (k : Nat) (s : State) : ∃ x, choose k s = { s with x := x } := by
  unfold choose
  split
  · exact ⟨_, rfl⟩
  · exact ⟨_, rfl⟩

theorem searchFrom_good (n : Nat) : ∀ k, Good (searchFrom n k) := by
  induction n with
  | zero => exact fun _ => good_pure true
  | succ n ih =>
    intro k
    refine good_bind slotRead_good fun _ => good_bind slotRead_good fun _ =>
      good_bind (good_modify fun _ => ⟨rfl, rfl, rfl⟩) fun _ => good_ite (good_pure _) ?_
    refine good_bind (good_modify fun s => ?_) fun _ => good_bind good_get fun _ => good_bind (slotWrite_good _) fun _ =>
      good_bind (good_modify fun _ => ⟨rfl, rfl, rfl⟩) fun _ => ih (k + 1)
    obtain ⟨x, hx⟩ := choose_eq k s
    rw [hx]
    exact ⟨rfl, rfl, rfl⟩

theorem endSearch_good : Good endSearch :=
  good_bind (good_modify fun _ => ⟨rfl, rfl, rfl⟩) fun _ => good_bind good_get fun _ =>
    good_ite (good_bind (good_modify fun _ => ⟨rfl, rfl, rfl⟩) fun _ => good_pure _)
      (good_bind (good_modify fun _ => ⟨rfl, rfl, rfl⟩) fun _ => good_pure _)

theorem searchStep_good : Good searchStep :=
  good_bind good_get fun _ => good_ite (good_pure _) <| good_bind slotReset_good fun _ =>
    good_ite (good_bind (good_modify fun _ => ⟨rfl, rfl, rfl⟩) fun _ => good_pure _) <|
      good_bind (sendByte_good _) fun _ => good_bind (good_modify fun _ => ⟨rfl, rfl, rfl⟩) fun _ =>
        good_bind (searchFrom_good 64 1) fun _ =>
          good_ite (good_bind (good_modify fun _ => ⟨rfl, rfl, rfl⟩) fun _ => good_pure _) endSearch_good

theorem enumDevices_good (n : Nat) : Good (enumDevices n) := by
  induction n with
  | zero => exact good_pure _
  | succ n ih =>
    exact good_bind searchStep_good fun _ => good_ite (good_pure _) <|
      good_bind (good_modify fun _ => ⟨rfl, rfl, rfl⟩) fun _ => good_bind good_get fun _ =>
        good_ite (good_pure _) ih

theorem enumPasses_good (n : Nat) : ∀ lastErr, Good (enumPasses n lastErr) := by
  induction n with
  | zero =>
    intro lastErr
    exact good_bind (good_modify fun _ => ⟨rfl, rfl, rfl⟩) fun _ => good_bind good_get fun _ =>
      good_bind (enumDevices_good _) fun _ => good_ite (good_bind (good_modify fun _ => ⟨rfl, rfl, rfl⟩) fun _ => good_pure _)
        (good_bind (good_modify fun _ => ⟨rfl, rfl, rfl⟩) fun _ => good_pure _)
  | succ n ih =>
    intro lastErr
    exact good_bind (good_modify fun _ => ⟨rfl, rfl, rfl⟩) fun _ => good_bind good_get fun _ =>
      good_bind (enumDevices_good _) fun _ => good_ite (good_bind (good_modify fun _ => ⟨rfl, rfl, rfl⟩) fun _ => good_pure _)
        (ih _)

theorem convertBody_good (sel : Bool) (idx : BitVec 4) : Good (convertBody sel idx) :=
  good_bind good_get fun _ => good_ite (good_pure _) <| good_bind slotReset_good fun _ => good_ite (good_pure _) <|
    good_bind (select_good _ _) fun _ => good_bind (sendByte_good _) fun _ =>
      good_bind (good_modify fun _ => ⟨rfl, rfl, rfl⟩) fun _ => good_pure _

theorem convPollBody_good : Good convPollBody :=
  good_bind (slotReadWith_good fun _ _ => ⟨rfl, rfl, rfl⟩) fun _ =>
    good_ite (good_bind (good_modify fun _ => ⟨rfl, rfl, rfl⟩) fun _ => good_pure _) (good_pure _)

theorem readTempBody_good (sel : Bool) (idx : BitVec 4) : Good (readTempBody sel idx) :=
  good_bind good_get fun _ => good_ite (good_pure _) <| good_ite (good_pure _) <| good_bind slotReset_good fun _ =>
    good_ite (good_pure _) <| good_bind (select_good _ _) fun _ => good_bind readFrame_good fun _ =>
      good_bind checkFrame_good fun _ => good_ite (good_pure _) <|
        good_bind (good_modify fun _ => ⟨rfl, rfl, rfl⟩) fun _ => good_pure _

theorem configureBody_good (sel : Bool) (idx res : BitVec 4) : Good (configureBody sel idx res) := by
  unfold configureBody
  cases resolutionOf res with
  | none => exact good_pure _
  | some r =>
    exact good_bind good_get fun _ => good_ite (good_pure _) <| good_bind slotReset_good fun _ => good_ite (good_pure _) <|
      good_bind (select_good _ _) fun _ => good_bind readFrame_good fun _ => good_bind checkFrame_good fun _ =>
        good_ite (good_pure _) <| good_bind (good_modify fun _ => ⟨rfl, rfl, rfl⟩) fun _ =>
          good_bind slotReset_good fun _ => good_ite (good_pure _) <| good_bind (select_good _ _) fun _ =>
            good_bind good_get fun _ => good_bind (sendBytes_good _) fun _ => good_bind slotReset_good fun _ =>
              good_ite (good_pure _) <| good_bind (select_good _ _) fun _ => good_bind (sendByte_good _) fun _ =>
                good_bind (drive_good _ _) fun _ => good_bind (good_modify fun _ => ⟨rfl, rfl, rfl⟩) fun _ => good_pure _

/-! ### Commands -/

/-- The pseudocode of each command. -/
def bodyOf : Instr → Engine Code
  | .nop => nopBody
  | .reset => resetBody
  | .writeBit data => writeBitBody data
  | .readBit => readBitBody
  | .writeByte data => writeByteBody data
  | .readByte => readByteBody
  | .crcClear => crcClearBody
  | .crcByte data => crcByteBody data
  | .searchClear => searchClearBody
  | .searchNext => searchNextBody
  | .searchFirst => searchFirstBody
  | .enumerate => enumerateBody
  | .convert sel idx => convertBody sel idx
  | .convPoll => convPollBody
  | .readTemp sel idx => readTempBody sel idx
  | .configure sel idx res => configureBody sel idx res

/-- Every command is its pseudocode between acceptance and completion. -/
theorem exec_eq (i : Instr) (s : State) : exec i s = runCommand (bodyOf i) s := by
  cases i <;> rfl

theorem bodyOf_good (i : Instr) : Good (bodyOf i) := by
  cases i with
  | nop => exact good_pure _
  | reset => exact good_bind slotReset_good fun _ => good_pure _
  | writeBit data => exact good_bind (slotWrite_good _) fun _ => good_pure _
  | readBit => exact good_bind (slotReadWith_good fun _ _ => ⟨rfl, rfl, rfl⟩) fun _ => good_pure _
  | writeByte data => exact good_bind (sendByte_good _) fun _ => good_pure _
  | readByte =>
    exact good_bind recvByte_good fun _ => good_bind (good_modify fun _ => ⟨rfl, rfl, rfl⟩) fun _ => good_pure _
  | crcClear => exact good_bind (good_modify fun _ => ⟨rfl, rfl, rfl⟩) fun _ => good_pure _
  | crcByte data => exact good_bind (good_modify fun _ => ⟨rfl, rfl, rfl⟩) fun _ => good_pure _
  | searchClear => exact good_bind (good_modify fun _ => ⟨rfl, rfl, rfl⟩) fun _ => good_pure _
  | searchNext => exact searchStep_good
  | searchFirst => exact good_bind (good_modify fun _ => ⟨rfl, rfl, rfl⟩) fun _ => searchStep_good
  | enumerate =>
    exact good_bind (good_modify fun _ => ⟨rfl, rfl, rfl⟩) fun _ => good_bind good_get fun _ => enumPasses_good _ _
  | convert sel idx => exact convertBody_good sel idx
  | convPoll => exact convPollBody_good
  | readTemp sel idx => exact readTempBody_good sel idx
  | configure sel idx res => exact configureBody_good sel idx res

/-- Everything a command can come to: its completion, the block reset that cuts it, or the access that is refused. -/
theorem runCommand_ends {body : Engine Code} (hg : Good body) (s : State) :
    (∃ code t, runCommand body s = .next (closeCycle (complete code t)) ∧ t.params = s.params) ∨
      (∃ t, runCommand body s = .next t ∧ CutBy s .reset t) ∨
      ∃ a, runCommand body s = refuseAccess a ∧ CutBy s (.bad a) s := by
  have h : EndsWell s ((nextTick >>= fun _ => body) (accept s)) :=
    .after rfl (.of_host rfl) (good_bind nextTick_good (fun _ => hg) (accept s) rfl)
  unfold runCommand
  cases hr : (nextTick >>= fun _ => body) (accept s) with
  | ok code t =>
    rw [hr] at h
    exact .inl ⟨code, t, rfl, h.2.1⟩
  | error c t =>
    rw [hr] at h
    cases c with
    | reset => exact .inr (.inl ⟨t, rfl, h⟩)
    | bad a => exact .inr (.inr ⟨a, rfl, h⟩)

end Sys2Proof.Machine
end

