-- ==== Sys2Proof/Laws/Decode.lean ====
section
/-! SUPPORT. The command word bit by bit: which bits each field holds, and that an assembled word's fields are the
operands it was assembled from (30_encoding.md R130). -/

namespace Sys2Proof

/-- Words with the same bits are the same. -/
theorem word_eq_iff {n : Nat} (a b : BitVec n) : a = b ↔ ∀ i, i < n → a.getLsbD i = b.getLsbD i :=
  ⟨fun h _ _ => h ▸ rfl, fun h => BitVec.eq_of_getLsbD_eq fun i hi => h i hi⟩

/-- The reserved bits of the command word, one by one (30_encoding.md R136). -/
theorem reservedSet_iff (w : Word) : reservedSet w = true ↔ Machine.reservedBitSet w := by
  unfold reservedSet Machine.reservedBitSet
  rw [bne_iff_ne, ne_eq, word_eq_iff]
  constructor
  · intro h
    by_contra hc
    simp only [not_or, Bool.not_eq_true] at hc
    apply h
    intro i hi
    interval_cases i <;> simp_all
  · rintro h hc
    have h5 := hc 5 (by decide)
    have h6 := hc 6 (by decide)
    have h7 := hc 7 (by decide)
    have h17 := hc 17 (by decide)
    have h18 := hc 18 (by decide)
    have h19 := hc 19 (by decide)
    have h28 := hc 28 (by decide)
    have h29 := hc 29 (by decide)
    have h30 := hc 30 (by decide)
    have h31 := hc 31 (by decide)
    clear hc
    rcases h with h | h | h | h | h | h | h | h | h | h <;> simp_all

/-- A word's defined bits under a mask, field by field. -/
theorem and_assemble (w : Word) (op : BitVec 5) (data : Byte) (sel : Bool) (idx res : BitVec 4) :
    w &&& assemble op data sel idx res =
      assemble (opField w &&& op) (dataField w &&& data) (selField w && sel) (idxField w &&& idx) (resField w &&& res) := by
  rw [word_eq_iff]
  intro i hi
  unfold assemble opField dataField selField idxField resField
  interval_cases i <;> simp

theorem opField_assemble (op : BitVec 5) (data : Byte) (sel : Bool) (idx res : BitVec 4) :
    opField (assemble op data sel idx res) = op := by
  rw [word_eq_iff]
  intro i hi
  unfold assemble opField
  interval_cases i <;> simp

theorem dataField_assemble (op : BitVec 5) (data : Byte) (sel : Bool) (idx res : BitVec 4) :
    dataField (assemble op data sel idx res) = data := by
  rw [word_eq_iff]
  intro i hi
  unfold assemble dataField
  interval_cases i <;> simp

theorem selField_assemble (op : BitVec 5) (data : Byte) (sel : Bool) (idx res : BitVec 4) :
    selField (assemble op data sel idx res) = sel := by
  unfold assemble selField
  simp

theorem idxField_assemble (op : BitVec 5) (data : Byte) (sel : Bool) (idx res : BitVec 4) :
    idxField (assemble op data sel idx res) = idx := by
  rw [word_eq_iff]
  intro i hi
  unfold assemble idxField
  interval_cases i <;> simp

theorem resField_assemble (op : BitVec 5) (data : Byte) (sel : Bool) (idx res : BitVec 4) :
    resField (assemble op data sel idx res) = res := by
  rw [word_eq_iff]
  intro i hi
  unfold assemble resField
  interval_cases i <;> simp

/-- Assembled words are equal exactly if their fields are. -/
theorem assemble_inj (op op' : BitVec 5) (data data' : Byte) (sel sel' : Bool) (idx idx' res res' : BitVec 4) :
    assemble op data sel idx res = assemble op' data' sel' idx' res' ↔
      op = op' ∧ data = data' ∧ sel = sel' ∧ idx = idx' ∧ res = res' := by
  constructor
  · intro h
    refine ⟨?_, ?_, ?_, ?_, ?_⟩
    · rw [← opField_assemble op data sel idx res, h, opField_assemble]
    · rw [← dataField_assemble op data sel idx res, h, dataField_assemble]
    · rw [← selField_assemble op data sel idx res, h, selField_assemble]
    · rw [← idxField_assemble op data sel idx res, h, idxField_assemble]
    · rw [← resField_assemble op data sel idx res, h, resField_assemble]
  · rintro ⟨rfl, rfl, rfl, rfl, rfl⟩
    rfl

/-- The fields of `w` are those of the command `i`, as its operation reads them (30_encoding.md R131 to R135). -/
def HasFields (w : Word) : Instr → Prop
  | .nop => opField w = 0
  | .reset => opField w = 1
  | .writeBit d => opField w = 2 ∧ dataField w &&& 1 = d
  | .readBit => opField w = 3
  | .writeByte d => opField w = 4 ∧ dataField w = d
  | .readByte => opField w = 5
  | .crcClear => opField w = 6
  | .crcByte d => opField w = 7 ∧ dataField w = d
  | .searchClear => opField w = 8
  | .searchNext => opField w = 9
  | .searchFirst => opField w = 10
  | .enumerate => opField w = 11
  | .convert s i => opField w = 16 ∧ selField w = s ∧ idxWhenSel w = i
  | .convPoll => opField w = 17
  | .readTemp s i => opField w = 18 ∧ selField w = s ∧ idxField w = i
  | .configure s i r => opField w = 19 ∧ selField w = s ∧ idxWhenSel w = i ∧ resField w = r

/-- The decoder answers with the command whose fields the word has. -/
theorem decodeOp_iff (w : Word) (i : Instr) : decodeOp w = .command i ↔ HasFields w i := by
  have hop : ∀ k : BitVec 5, opField w = k ↔ (opField w).toNat = k.toNat := fun k => BitVec.toNat_inj.symm
  unfold decodeOp
  cases i <;> simp only [HasFields, hop] <;> split <;> simp_all

/-- A word under a mask, field by field. -/
theorem and_mask {m : Word} (w : Word) (op : BitVec 5) (data : Byte) (sel : Bool) (idx res : BitVec 4)
    (h : m = assemble op data sel idx res) :
    w &&& m = assemble (opField w &&& op) (dataField w &&& data) (selField w && sel) (idxField w &&& idx)
      (resField w &&& res) := by
  rw [h, and_assemble]

/-- The bits an operation reads are those of a command's encoding exactly if the fields are its own. -/
theorem readBits_iff (w : Word) {i : Instr} (hi : i.wellFormed = true) :
    w &&& Machine.readBits i = encode i ↔ HasFields w i := by
  have h5 : ∀ a : BitVec 5, a &&& 0x1F#5 = a := by decide
  have h8 : ∀ a : BitVec 8, a &&& 0xFF#8 = a := by decide
  have h4 : ∀ a : BitVec 4, a &&& 0xF#4 = a := by decide
  cases i with
  | writeBit d =>
    simp [HasFields, Machine.readBits, encode, Instr.opcode, and_mask (m := 0x11F#32) w 31#5 1#8 false 0#4 0#4 (by decide),
      assemble_inj, h5]
  | writeByte d =>
    simp [HasFields, Machine.readBits, encode, Instr.opcode, and_mask (m := 0xFF1F#32) w 31#5 255#8 false 0#4 0#4 (by decide),
      assemble_inj, h5, h8]
  | crcByte d =>
    simp [HasFields, Machine.readBits, encode, Instr.opcode, and_mask (m := 0xFF1F#32) w 31#5 255#8 false 0#4 0#4 (by decide),
      assemble_inj, h5, h8]
  | convert s i =>
    cases s
    · have : i = 0 := by simpa [Instr.wellFormed] using hi
      subst this
      simp only [HasFields, Machine.readBits, encode, Instr.opcode, idxWhenSel]
      cases hs : selField w <;>
        simp [and_mask (m := 0x1001F#32) w 31#5 0#8 true 0#4 0#4 (by decide), assemble_inj, h5, hs]
    · simp only [HasFields, Machine.readBits, encode, Instr.opcode, idxWhenSel]
      cases hs : selField w <;>
        simp [and_mask (m := 0xF1001F#32) w 31#5 0#8 true 15#4 0#4 (by decide), assemble_inj, h5, h4, hs]
  | readTemp s i =>
    simp [HasFields, Machine.readBits, encode, Instr.opcode,
      and_mask (m := 0xF1001F#32) w 31#5 0#8 true 15#4 0#4 (by decide), assemble_inj, h5, h4]
  | configure s i r =>
    cases s
    · have : i = 0 := by simpa [Instr.wellFormed] using hi
      subst this
      simp only [HasFields, Machine.readBits, encode, Instr.opcode, idxWhenSel]
      cases hs : selField w <;>
        simp [and_mask (m := 0xF01001F#32) w 31#5 0#8 true 0#4 15#4 (by decide), assemble_inj, h5, h4, hs]
    · simp only [HasFields, Machine.readBits, encode, Instr.opcode, idxWhenSel]
      cases hs : selField w <;>
        simp [and_mask (m := 0xFF1001F#32) w 31#5 0#8 true 15#4 15#4 (by decide), assemble_inj, h5, h4, hs]
  | _ =>
    simp [HasFields, Machine.readBits, encode, Instr.opcode, and_mask (m := 0x1F#32) w 31#5 0#8 false 0#4 0#4 (by decide),
      assemble_inj, h5]

end Sys2Proof
end

