-- ==== Sys2Proof/Laws/Invariant.lean ====
section
/-! SUPPORT. The invariant of the block in the middle of a command: `Mid` is the part of `State.Inv` that holds at
every moment, and every procedure of the engine keeps it. -/

namespace Sys2Proof.Machine

/-- The part of `State.Inv` that holds in the middle of a command too. -/
structure Mid (s : State) : Prop where
  legal : s.params.Legal
  prescInRange : s.presc < s.params.cycPerUs
  countLegal : s.count.toNat ≤ s.params.maxDevices
  ldInRange : s.session.ld.toNat ≤ 64
  lfdInRange : s.session.lfd.toNat ≤ 8
  lastDevice : s.session.ldf = true → s.session.ld = 0
  identValid : romValid s.session.rombuf = true
  passesInRange : s.enumstat.passes.toNat ≤ s.params.enumRetries
  timedOutInvalid : ∀ i : Fin 16, s.table[i].cstate = .timedOut → s.table[i].tvalid = false

theorem State.Inv.mid {s : State} (h : s.Inv) : Mid s :=
  ⟨h.legal, h.prescInRange, h.countLegal, h.ldInRange, h.lfdInRange, h.lastDevice, h.identValid, h.passesInRange,
    h.timedOutInvalid⟩

/-- A change outside what `Mid` speaks of. -/
theorem Mid.of_eq {s t : State} (h : Mid s) (h1 : t.params = s.params) (h2 : t.presc = s.presc) (h3 : t.count = s.count)
    (h4 : t.session = s.session) (h5 : t.enumstat = s.enumstat)
    (h6 : ∀ i : Fin 16, t.table[i].cstate = s.table[i].cstate ∧ t.table[i].tvalid = s.table[i].tvalid) : Mid t := by
  refine ⟨?_, ?_, ?_, ?_, ?_, ?_, ?_, ?_, ?_⟩
  · rw [h1]; exact h.legal
  · rw [h1, h2]; exact h.prescInRange
  · rw [h1, h3]; exact h.countLegal
  · rw [h4]; exact h.ldInRange
  · rw [h4]; exact h.lfdInRange
  · rw [h4]; exact h.lastDevice
  · rw [h4]; exact h.identValid
  · rw [h1, h5]; exact h.passesInRange
  · intro i
    rw [(h6 i).1, (h6 i).2]
    exact h.timedOutInvalid i

/-- The session state after SessionClear. -/
theorem Mid.setSession {s : State} (h : Mid s) {se : Session} (h1 : se.ld.toNat ≤ 64) (h2 : se.lfd.toNat ≤ 8)
    (h3 : se.ldf = true → se.ld = 0) (h4 : romValid se.rombuf = true) : Mid { s with session := se } :=
  ⟨h.legal, h.prescInRange, h.countLegal, h1, h2, h3, h4, h.passesInRange, h.timedOutInvalid⟩

theorem romValid_zero : romValid 0 = true := by decide +kernel

theorem Mid.clear {s : State} (h : Mid s) : Mid (clearSession s) :=
  h.setSession (by decide) (by decide) (fun _ => rfl) romValid_zero

/-! ### Clock cycles -/

theorem closeCycle_mid {s : State} (h : Mid s) : Mid (closeCycle s) := by
  obtain ⟨r, n, he, -⟩ := settleRead_eq (settleSupervisor s)
  unfold closeCycle
  rw [he]
  refine ⟨h.legal, h.prescInRange, h.countLegal, h.ldInRange, h.lfdInRange, h.lastDevice, h.identValid,
    h.passesInRange, ?_⟩
  intro i
  show (settleSupervisor s).table[i].cstate = _ → (settleSupervisor s).table[i].tvalid = _
  rw [settleSupervisor_table, mapTable_get]
  unfold Entry.settle
  cases hs : s.table[i].sup with
  | none => exact h.timedOutInvalid i
  | some u =>
    intro hu
    exact if_pos hu

theorem openCycle_mid {s : State} (hl : s.params.Legal) (h : s.presc < s.params.cycPerUs → Mid s)
    (hp : s.presc < s.params.cycPerUs) : Mid (openCycle s) := by
  have hm := h hp
  refine ⟨hl, ?_, hm.countLegal, hm.ldInRange, hm.lfdInRange, hm.lastDevice, hm.identValid, hm.passesInRange, ?_⟩
  · rw [openCycle_presc, openCycle_params]
    by_cases ht : s.isTick = true
    · rw [if_pos ht]
      exact hl.1
    · rw [if_neg ht]
      rw [isTick_iff] at ht
      omega
  · intro i
    rw [openCycle_table, mapTable_get]
    exact hm.timedOutInvalid i

theorem passCycles_mid {s : State} (h : Mid s) {n : Nat} (hn : n ≤ s.cyclesToTick) : Mid (s.passCycles n) := by
  refine ⟨h.legal, ?_, h.countLegal, h.ldInRange, h.lfdInRange, h.lastDevice, h.identValid, h.passesInRange,
    h.timedOutInvalid⟩
  rw [passCycles_presc, passCycles_params]
  unfold State.cyclesToTick at hn
  have := h.prescInRange
  omega

theorem clampCount_le (m : Nat) (v : Word) : (clampCount m v).toNat ≤ m := by
  unfold clampCount
  rw [BitVec.toNat_ofNat]
  have := (v.extractLsb' 0 5).isLt
  have h1 : min (v.extractLsb' 0 5).toNat m ≤ m := Nat.min_le_right _ _
  exact Nat.le_trans (Nat.mod_le _ _) h1

theorem hostWrite_mid {s : State} (h : Mid s) (off : Offset) (v : Word) : Mid (hostWrite off v s) := by
  unfold hostWrite
  split
  · exact h
  · rename_i r _
    unfold writeReg
    split
    · exact h.of_eq rfl rfl rfl rfl rfl fun _ => ⟨rfl, rfl⟩
    · have hrow : ∀ (i : Fin 16) (f : Entry → Entry), (∀ e, (f e).cstate = e.cstate ∧ (f e).tvalid = e.tvalid) →
          Mid (s.setEntry i f) := by
        intro i f hf
        refine h.of_eq rfl rfl rfl rfl rfl ?_
        intro j
        show (s.table.set i (f s.table[i]))[j].cstate = _ ∧ (s.table.set i (f s.table[i]))[j].tvalid = _
        rw [set_get]
        split
        · rename_i hj
          subst hj
          exact hf _
        · exact ⟨rfl, rfl⟩
      cases r with
      | tblRomLo i => exact hrow i (fun e => { e with rom := withLoWord e.rom v }) fun _ => ⟨rfl, rfl⟩
      | tblRomHi i => exact hrow i (fun e => { e with rom := withHiWord e.rom v }) fun _ => ⟨rfl, rfl⟩
      | devcnt =>
        exact ⟨h.legal, h.prescInRange, clampCount_le _ _, h.ldInRange, h.lfdInRange, h.lastDevice, h.identValid,
          h.passesInRange, h.timedOutInvalid⟩
      | _ => exact h.of_eq rfl rfl rfl rfl rfl fun _ => ⟨rfl, rfl⟩

/-- A host write leaves the engine's working registers, the session state, the parameters and ENUMSTAT alone. -/
theorem hostWrite_engine (off : Offset) (v : Word) (s : State) :
    (hostWrite off v s).x = s.x ∧ (hostWrite off v s).session = s.session ∧ (hostWrite off v s).params = s.params ∧
      (hostWrite off v s).env = s.env := by
  unfold hostWrite
  split
  · exact ⟨rfl, rfl, rfl, rfl⟩
  · rename_i r _
    unfold writeReg
    split
    · exact ⟨rfl, rfl, rfl, rfl⟩
    · cases r <;> exact ⟨rfl, rfl, rfl, rfl⟩

theorem takeAccess_mid {s : State} (h : Mid s) (a : Access) : Mid (takeAccess a s) := by
  cases a with
  | read off size => exact h.of_eq rfl rfl rfl rfl rfl fun _ => ⟨rfl, rfl⟩
  | write off size v => exact hostWrite_mid h off v

/-! ### What time leaves alone -/

/-- What the passing of time keeps: `Mid`, the parameters, the working registers and the session state. -/
structure Passing (s t : State) : Prop where
  mid : Mid t
  params : t.params = s.params
  x : t.x = s.x
  session : t.session = s.session

theorem toTick_passing (h : List HostEvent) : ∀ (s : State), Mid s → ∀ (a : Unit) (t : State),
    toTick h s = .ok a t → Passing s t := by
  have tick : ∀ s : State, Mid s → Mid (openCycle (s.passCycles s.cyclesToTick)) := by
    intro s h
    have := passCycles_mid h (Nat.le_refl _)
    exact openCycle_mid h.legal (fun _ => this) this.prescInRange
  induction h with
  | nil =>
    intro s hm a t ht
    cases ht
    exact ⟨tick s hm, rfl, rfl, rfl⟩
  | cons e es ih =>
    intro s hm a t ht
    unfold toTick at ht
    split at ht
    · cases ht
      exact ⟨(tick s hm).of_eq rfl rfl rfl rfl rfl fun _ => ⟨rfl, rfl⟩, rfl, rfl, rfl⟩
    · rename_i hgap
      split at ht
      · cases ht
      · rename_i act _
        split at ht
        · have hp := passCycles_mid hm (Nat.le_of_not_lt hgap)
          have ho : Mid (openCycle ((s.passCycles e.gap).withHost es)) := by
            have hw : Mid ((s.passCycles e.gap).withHost es) :=
              hp.of_eq rfl rfl rfl rfl rfl fun _ => ⟨rfl, rfl⟩
            exact openCycle_mid hm.legal (fun _ => hw) hw.prescInRange
          have ha := takeAccess_mid ho act
          have hx : (takeAccess act (openCycle ((s.passCycles e.gap).withHost es))).params = s.params ∧
              (takeAccess act (openCycle ((s.passCycles e.gap).withHost es))).x = s.x ∧
              (takeAccess act (openCycle ((s.passCycles e.gap).withHost es))).session = s.session := by
            cases act with
            | read off size => exact ⟨rfl, rfl, rfl⟩
            | write off size v =>
              obtain ⟨h1, h2, h3, -⟩ := hostWrite_engine off v (openCycle ((s.passCycles e.gap).withHost es))
              exact ⟨h3, h1, h2⟩
          split at ht
          · cases ht
            exact ⟨ha, hx.1, hx.2.1, hx.2.2⟩
          · have hcl : (closeCycle (takeAccess act (openCycle ((s.passCycles e.gap).withHost es)))).params = s.params ∧
                (closeCycle (takeAccess act (openCycle ((s.passCycles e.gap).withHost es)))).x = s.x ∧
                (closeCycle (takeAccess act (openCycle ((s.passCycles e.gap).withHost es)))).session = s.session := by
              obtain ⟨r, n, he, -⟩ := settleRead_eq (settleSupervisor (takeAccess act (openCycle ((s.passCycles e.gap).withHost es))))
              unfold closeCycle
              rw [he]
              exact hx
            have := ih _ (closeCycle_mid ha) a t ht
            exact ⟨this.mid, this.params.trans hcl.1, this.x.trans hcl.2.1, this.session.trans hcl.2.2⟩
        · cases ht

theorem nextTick_passing {s : State} (h : Mid s) {a : Unit} {t : State} (ht : nextTick s = .ok a t) : Passing s t := by
  have := toTick_passing _ (closeCycle s) (closeCycle_mid h) a t ht
  obtain ⟨r, n, he, -⟩ := settleRead_eq (settleSupervisor s)
  have hcl : (closeCycle s).params = s.params ∧ (closeCycle s).x = s.x ∧ (closeCycle s).session = s.session := by
    unfold closeCycle
    rw [he]
    exact ⟨rfl, rfl, rfl⟩
  exact ⟨this.mid, this.params.trans hcl.1, this.x.trans hcl.2.1, this.session.trans hcl.2.2⟩

/-! ### Triples -/

/-- From a state with `P` the procedure, where it is not cut, answers with `Q`. -/
def Triple {α : Type} (P : State → Prop) (m : Engine α) (Q : α → State → Prop) : Prop :=
  ∀ s, P s → ∀ a t, m s = .ok a t → Q a t

theorem triple_pure {α : Type} {P : State → Prop} {a : α} {Q : α → State → Prop} (h : ∀ s, P s → Q a s) :
    Triple P (pure a) Q := by
  intro s hs b t ht
  cases ht
  exact h s hs

theorem triple_get {P : State → Prop} {Q : State → State → Prop} (h : ∀ s, P s → Q s s) :
    Triple P (get : Engine State) Q := by
  intro s hs b t ht
  cases ht
  exact h s hs

theorem triple_modify {P : State → Prop} {f : State → State} {Q : Unit → State → Prop} (h : ∀ s, P s → Q () (f s)) :
    Triple P (modify f : Engine Unit) Q := by
  intro s hs b t ht
  cases ht
  exact h s hs

theorem triple_bind {α β : Type} {P : State → Prop} {m : Engine α} {R : α → State → Prop} {f : α → Engine β}
    {Q : β → State → Prop} (h : Triple P m R) (g : ∀ a, Triple (R a) (f a) Q) : Triple P (m >>= f) Q := by
  intro s hs b u hu
  cases hm : m s with
  | ok a t =>
    rw [bind_ok hm] at hu
    exact g a t (h s hs a t hm) b u hu
  | error e t =>
    rw [bind_error hm] at hu
    cases hu

theorem triple_ite {α : Type} {c : Prop} [Decidable c] {P : State → Prop} {m n : Engine α} {Q : α → State → Prop}
    (h : c → Triple P m Q) (g : ¬c → Triple P n Q) : Triple P (if c then m else n) Q := by
  split
  · exact h ‹_›
  · exact g ‹_›

theorem Triple.weaken {α : Type} {P P' : State → Prop} {m : Engine α} {Q Q' : α → State → Prop} (h : Triple P m Q)
    (hp : ∀ s, P' s → P s) (hq : ∀ a s, Q a s → Q' a s) : Triple P' m Q' :=
  fun s hs a t ht => hq a t (h s (hp s hs) a t ht)

/-- `Mid` with the parameters `p` and a condition on the registers that only the enumeration engine writes. -/
def Tracked (p : Params) (R : BitVec 7 → BitVec 4 → BitVec 8 → BitVec 5 → Session → Prop) (s : State) : Prop :=
  s.params = p ∧ Mid s ∧ R s.x.lastzero s.x.lfdw s.x.pass s.x.k s.session

/-- What only the line, the frame registers and the passing of time touch leaves `P` as it is. -/
structure Stable (P : State → Prop) : Prop where
  tick : Triple P nextTick fun _ => P
  enter : ∀ s ph n, P s → P (enterPhase ph n s)
  level : ∀ s, P s → P s.takeLevel
  work : ∀ (s : State) (pr rb : Bool) (sh : Byte) (bit : BitVec 3) (pos : BitVec 7) (idb cmb dir : Bool) (newrom : Ident)
    (sp : Vector Byte 9) (c : Byte), P s → P { s with
      status := { s.status with presence := pr, rxbit := rb }
      x := { s.x with sh := sh, bit := bit, pos := pos, idb := idb, cmb := cmb, dir := dir, newrom := newrom, sp := sp, c := c } }

theorem tracked_stable (p : Params) (R : BitVec 7 → BitVec 4 → BitVec 8 → BitVec 5 → Session → Prop) :
    Stable (Tracked p R) := by
  refine ⟨?_, ?_, ?_, ?_⟩
  · rintro s ⟨h1, h2, h3⟩ a t ht
    have := nextTick_passing h2 ht
    refine ⟨this.params.trans h1, this.mid, ?_⟩
    rw [this.x, this.session]
    exact h3
  · intro s ph n hs
    exact ⟨hs.1, hs.2.1.of_eq rfl rfl rfl rfl rfl fun _ => ⟨rfl, rfl⟩, hs.2.2⟩
  · intro s hs
    refine ⟨by rw [takeLevel_params]; exact hs.1, ?_, by rw [takeLevel_x, takeLevel_session]; exact hs.2.2⟩
    exact hs.2.1.of_eq (by simp) (by simp) (by simp) (by simp) (by simp) fun _ => by rw [takeLevel_table]; exact ⟨rfl, rfl⟩
  · intro s _ _ _ _ _ _ _ _ _ _ _ hs
    exact ⟨hs.1, hs.2.1.of_eq rfl rfl rfl rfl rfl fun _ => ⟨rfl, rfl⟩, hs.2.2⟩

theorem Stable.and {P Q : State → Prop} (h : Stable P) (g : Stable Q) : Stable fun s => P s ∧ Q s :=
  ⟨fun s hs a t ht => ⟨h.tick s hs.1 a t ht, g.tick s hs.2 a t ht⟩, fun s ph n hs => ⟨h.enter s ph n hs.1, g.enter s ph n hs.2⟩,
    fun s hs => ⟨h.level s hs.1, g.level s hs.2⟩,
    fun s a b c d e f i j k l m hs => ⟨h.work s a b c d e f i j k l m hs.1, g.work s a b c d e f i j k l m hs.2⟩⟩

section
variable {P : State → Prop}

theorem ticks_keeps (h : Stable P) (n : Nat) : Triple P (ticks n) fun _ => P := by
  induction n with
  | zero => exact triple_pure fun _ h => h
  | succ n ih => exact triple_bind h.tick fun _ => ih

/-- A zero-time change of the registers that the line and the frames use. -/
theorem modify_keeps (h : Stable P) {f : State → State} (hf : ∀ s, ∃ pr rb sh bit pos idb cmb dir newrom sp c,
    f s = { s with
      status := { s.status with presence := pr, rxbit := rb }
      x := { s.x with sh := sh, bit := bit, pos := pos, idb := idb, cmb := cmb, dir := dir, newrom := newrom, sp := sp, c := c } }) :
    Triple P (modify f : Engine Unit) fun _ => P := by
  apply triple_modify
  intro s hs
  obtain ⟨pr, rb, sh, bit, pos, idb, cmb, dir, newrom, sp, c, he⟩ := hf s
  rw [he]
  exact h.work s _ _ _ _ _ _ _ _ _ _ _ hs

theorem drive_keeps (h : Stable P) (ph : Phase) (dur : Params → Nat) : Triple P (drive ph dur) fun _ => P := by
  intro s hs a t ht
  unfold drive at ht
  split at ht
  · cases ht
    exact hs
  · exact ticks_keeps h _ (enterPhase ph (dur s.params) s) (h.enter s ph _ hs) a t ht

theorem sample_keeps (h : Stable P) : Triple P sample fun _ => P := by
  intro s hs a t ht
  cases ht
  exact h.level s hs

theorem slotReset_keeps (h : Stable P) : Triple (P) slotReset fun _ => P :=
  triple_bind (drive_keeps h _ _) fun _ => triple_bind (drive_keeps h _ _) fun _ => triple_bind (sample_keeps h) fun _ =>
    triple_bind (modify_keeps h fun s => ⟨_, s.status.rxbit, _, _, _, _, _, _, _, _, _, rfl⟩) fun _ =>
      triple_bind (drive_keeps h _ _) fun _ => triple_pure fun _ hs => hs

theorem slotWrite_keeps (h : Stable P) (b : Bool) : Triple (P) (slotWrite b) fun _ => P :=
  triple_bind (drive_keeps h _ _) fun _ => drive_keeps h _ _

theorem slotReadWith_keeps (h : Stable P) {f : Bool → State → State} (hf : ∀ b s, ∃ rb, f b s = { s with status := { s.status with rxbit := rb } }) :
    Triple (P) (slotReadWith f) fun _ => P :=
  triple_bind (drive_keeps h _ _) fun _ => triple_bind (drive_keeps h _ _) fun _ => triple_bind (sample_keeps h) fun b =>
    triple_bind (modify_keeps h fun s => by
      obtain ⟨rb, he⟩ := hf b s
      exact ⟨s.status.presence, rb, _, _, _, _, _, _, _, _, _, he⟩) fun _ =>
      triple_bind (drive_keeps h _ _) fun _ => triple_pure fun _ hs => hs

theorem slotRead_keeps (h : Stable P) : Triple (P) slotRead fun _ => P := slotReadWith_keeps h fun _ s => ⟨s.status.rxbit, rfl⟩

theorem sendBits_keeps (h : Stable P) (v : Byte) (js : List Nat) : Triple (P) (sendBits v js) fun _ => P := by
  induction js with
  | nil => exact triple_pure fun _ hs => hs
  | cons j js ih =>
    exact triple_bind (modify_keeps h fun s => ⟨s.status.presence, s.status.rxbit, _, _, _, _, _, _, _, _, _, rfl⟩) fun _ =>
      triple_bind (slotWrite_keeps h _) fun _ => ih

theorem sendByte_keeps (h : Stable P) (v : Byte) : Triple (P) (sendByte v) fun _ => P :=
  triple_bind (modify_keeps h fun s => ⟨s.status.presence, s.status.rxbit, _, _, _, _, _, _, _, _, _, rfl⟩) fun _ => sendBits_keeps h v _

theorem sendBytes_keeps (h : Stable P) (vs : List Byte) : Triple (P) (sendBytes vs) fun _ => P := by
  induction vs with
  | nil => exact triple_pure fun _ hs => hs
  | cons v vs ih => exact triple_bind (sendByte_keeps h v) fun _ => ih

theorem recvBits_keeps (h : Stable P) (js : List Nat) : Triple (P) (recvBits js) fun _ => P := by
  induction js with
  | nil => exact triple_pure fun _ hs => hs
  | cons j js ih =>
    exact triple_bind (modify_keeps h fun s => ⟨s.status.presence, s.status.rxbit, _, _, _, _, _, _, _, _, _, rfl⟩) fun _ =>
      triple_bind (slotRead_keeps h) fun _ =>
        triple_bind (modify_keeps h fun s => ⟨s.status.presence, s.status.rxbit, _, _, _, _, _, _, _, _, _, rfl⟩) fun _ => ih

theorem recvByte_keeps (h : Stable P) : Triple (P) recvByte fun _ => P :=
  triple_bind (modify_keeps h fun s => ⟨s.status.presence, s.status.rxbit, _, _, _, _, _, _, _, _, _, rfl⟩) fun _ =>
    triple_bind (recvBits_keeps h _) fun _ => triple_bind (R := fun _ => P) (triple_get fun _ hs => hs) fun _ =>
      triple_pure fun _ hs => hs

theorem recvFrame_keeps (h : Stable P) (ks : List (Fin 9)) : Triple (P) (recvFrame ks) fun _ => P := by
  induction ks with
  | nil => exact triple_pure fun _ hs => hs
  | cons k ks ih =>
    exact triple_bind (recvByte_keeps h) fun _ =>
      triple_bind (modify_keeps h fun s => ⟨s.status.presence, s.status.rxbit, _, _, _, _, _, _, _, _, _, rfl⟩) fun _ => ih

theorem readFrame_keeps (h : Stable P) : Triple (P) readFrame fun _ => P :=
  triple_bind (sendByte_keeps h _) fun _ => recvFrame_keeps h _

theorem select_keeps (h : Stable P) (sel : Bool) (idx : BitVec 4) : Triple (P) (select sel idx) fun _ => P :=
  triple_bind (R := fun _ => P) (triple_get fun _ hs => hs) fun _ => sendBytes_keeps h _

theorem checkFrame_keeps (h : Stable P) : Triple (P) checkFrame fun _ => P :=
  triple_bind (modify_keeps h fun s => ⟨s.status.presence, s.status.rxbit, _, _, _, _, _, _, _, _, _, rfl⟩) fun _ =>
    triple_bind (R := fun _ => P) (triple_get fun _ hs => hs) fun _ => triple_pure fun _ hs => hs

end

/-! ### The enumeration engine -/

/-- The session state is in its ranges and no device has been the last yet. -/
def openSession (x : BitVec 8) (k : BitVec 5) : BitVec 7 → BitVec 4 → BitVec 8 → BitVec 5 → Session → Prop :=
  fun _ _ pass k' se => se.ldf = false ∧ pass = x ∧ k' = k

/-- In the middle of a search step: LASTZERO and LFDW are in their ranges too. -/
def inSearch (x : BitVec 8) (k : BitVec 5) : BitVec 7 → BitVec 4 → BitVec 8 → BitVec 5 → Session → Prop :=
  fun lz lf pass k' se => lz.toNat ≤ 64 ∧ lf.toNat ≤ 8 ∧ se.ldf = false ∧ pass = x ∧ k' = k

/-- After a search step the counters of ENUMERATE are as before it. -/
def counters (x : BitVec 8) (k : BitVec 5) : BitVec 7 → BitVec 4 → BitVec 8 → BitVec 5 → Session → Prop :=
  fun _ _ pass k' _ => pass = x ∧ k' = k

theorem choose_inSearch {p : Params} {pass : BitVec 8} {kk : BitVec 5} {k : Nat} (hk : k ≤ 64) {s : State}
    (h : Tracked p (inSearch pass kk) s) : Tracked p (inSearch pass kk) (choose k s) := by
  obtain ⟨h1, h2, h3, h4, h5, h6, h7⟩ := h
  unfold choose
  split
  · refine ⟨h1, h2.of_eq rfl rfl rfl rfl rfl fun _ => ⟨rfl, rfl⟩, ?_, ?_, h5, h6, h7⟩
    · show (BitVec.ofNat 7 k).toNat ≤ 64
      rw [BitVec.toNat_ofNat]
      omega
    · show (if k ≤ 8 then BitVec.ofNat 4 k else s.x.lfdw).toNat ≤ 8
      split
      · rw [BitVec.toNat_ofNat]
        omega
      · exact h4
  · exact ⟨h1, h2.of_eq rfl rfl rfl rfl rfl fun _ => ⟨rfl, rfl⟩, h3, h4, h5, h6, h7⟩

theorem searchFrom_keeps {p : Params} {pass : BitVec 8} {kk : BitVec 5} (n : Nat) : ∀ k, k + n ≤ 65 →
    Triple (Tracked p (inSearch pass kk)) (searchFrom n k) fun _ => Tracked p (inSearch pass kk) := by
  induction n with
  | zero => exact fun _ _ => triple_pure fun _ h => h
  | succ n ih =>
    intro k hk
    refine triple_bind (slotRead_keeps (tracked_stable _ _)) fun _ => triple_bind (slotRead_keeps (tracked_stable _ _)) fun _ =>
      triple_bind (modify_keeps (tracked_stable _ _) fun s => ⟨s.status.presence, s.status.rxbit, _, _, _, _, _, _, _, _, _, rfl⟩) fun _ =>
        triple_ite (fun _ => triple_pure fun _ h => h) fun _ => ?_
    refine triple_bind (triple_modify (Q := fun _ => Tracked p (inSearch pass kk)) fun s h => choose_inSearch (by omega) h)
      fun _ => triple_bind (R := fun _ => Tracked p (inSearch pass kk)) (triple_get fun _ h => h) fun _ =>
        triple_bind (slotWrite_keeps (tracked_stable _ _) _) fun _ => ?_
    exact triple_bind (modify_keeps (tracked_stable _ _) fun s => ⟨s.status.presence, s.status.rxbit, _, _, _, _, _, _, _, _, _, rfl⟩) fun _ =>
      ih (k + 1) (by omega)

theorem clearSession_tracked {p : Params} {pass : BitVec 8} {kk : BitVec 5} {s : State} (h1 : s.params = p) (h2 : Mid s)
    (h3 : s.x.pass = pass) (h4 : s.x.k = kk) : Tracked p (openSession pass kk) (clearSession s) :=
  ⟨h1, h2.clear, rfl, h3, h4⟩

theorem endSearch_keeps {p : Params} {pass : BitVec 8} {kk : BitVec 5} :
    Triple (Tracked p (inSearch pass kk)) endSearch fun _ => Tracked p (counters pass kk) := by
  refine triple_bind (modify_keeps (tracked_stable _ _) fun s => ⟨s.status.presence, s.status.rxbit, _, _, _, _, _, _, _, _, _, rfl⟩) fun _ => ?_
  intro s hs a t ht
  obtain ⟨h1, h2, h3, h4, h5, h6, h7⟩ := hs
  change (if romValid s.x.newrom then (do modify commitSearch; pure .ok : Engine Code)
    else (do modify clearSession; pure .crcMismatch : Engine Code)) s = _ at ht
  split at ht
  · rename_i hv
    cases ht
    refine ⟨h1, ?_, h6, h7⟩
    refine h2.setSession h3 h4 ?_ hv
    intro hl
    change (s.session.ldf || s.x.lastzero == 0) = true at hl
    rw [h5, Bool.false_or] at hl
    exact beq_iff_eq.mp hl
  · cases ht
    exact ⟨h1, h2.clear, h6, h7⟩

/-- A search step keeps `Mid` and the counters of ENUMERATE. -/
theorem searchStep_keeps {p : Params} {pass : BitVec 8} {kk : BitVec 5} :
    Triple (Tracked p (counters pass kk)) searchStep fun _ => Tracked p (counters pass kk) := by
  intro s hs a t ht
  unfold searchStep at ht
  rw [bind_ok (get_ok _)] at ht
  split at ht
  · cases ht
    exact hs
  · rename_i hl
    rw [Bool.not_eq_true] at hl
    have hclear : ∀ s, Tracked p (openSession pass kk) s → Tracked p (counters pass kk) (clearSession s) :=
      fun s h => ⟨h.1, h.2.1.clear, h.2.2.2.1, h.2.2.2.2⟩
    have hclear' : ∀ s, Tracked p (inSearch pass kk) s → Tracked p (counters pass kk) (clearSession s) :=
      fun s h => ⟨h.1, h.2.1.clear, h.2.2.2.2.2.1, h.2.2.2.2.2.2⟩
    have tr : Triple (Tracked p (openSession pass kk)) (do
        let present ← slotReset
        if !present then
          modify clearSession
          pure .busAbsent
        else
          sendByte searchRomByte
          modify beginSearch
          let found ← searchFrom 64 1
          if !found then
            modify clearSession
            pure .collision
          else
            endSearch : Engine Code) fun _ => Tracked p (counters pass kk) := by
      refine triple_bind (slotReset_keeps (tracked_stable _ _)) fun _ => triple_ite (fun _ => ?_) fun _ => ?_
      · exact triple_bind (triple_modify (Q := fun _ => Tracked p (counters pass kk)) hclear) fun _ =>
          triple_pure fun _ h => h
      · refine triple_bind (sendByte_keeps (tracked_stable _ _) _) fun _ => triple_bind
          (triple_modify (Q := fun _ => Tracked p (inSearch pass kk)) fun s h => ?_) fun _ =>
            triple_bind (searchFrom_keeps 64 1 (by omega)) fun _ => triple_ite (fun _ => ?_) fun _ => endSearch_keeps
        · exact ⟨h.1, h.2.1.of_eq rfl rfl rfl rfl rfl fun _ => ⟨rfl, rfl⟩, by show (0 : BitVec 7).toNat ≤ 64; decide,
            h.2.1.lfdInRange, h.2.2.1, h.2.2.2.1, h.2.2.2.2⟩
        · exact triple_bind (triple_modify (Q := fun _ => Tracked p (counters pass kk)) hclear') fun _ =>
            triple_pure fun _ h => h
    exact tr s ⟨hs.1, hs.2.1, hl, hs.2.2.1, hs.2.2.2⟩ a t ht

theorem storeRow_keeps {p : Params} {pass : BitVec 8} {kk : BitVec 5} {s : State} (h : Tracked p (counters pass kk) s) :
    Tracked p (counters pass (kk + 1)) (storeRow s) := by
  have hm := h.2.1
  refine ⟨h.1, ⟨hm.legal, hm.prescInRange, hm.countLegal, hm.ldInRange, hm.lfdInRange, hm.lastDevice, hm.identValid,
    hm.passesInRange, ?_⟩, h.2.2.1, ?_⟩
  · intro i
    have ht : (storeRow s).table[i] = if i = rowOf (s.x.k.setWidth 4) then freshEntry s.session.rombuf else s.table[i] := by
      show (s.table.set (rowOf (s.x.k.setWidth 4)) _)[i] = _
      rw [set_get]
    rw [ht]
    split
    · intro hc
      cases hc
    · exact hm.timedOutInvalid i
  · show s.x.k + 1 = kk + 1
    rw [h.2.2.2]

theorem enumDevices_keeps {p : Params} {pass : BitVec 8} (n : Nat) : ∀ kk : BitVec 5, kk.toNat + n ≤ 16 →
    Triple (Tracked p (counters pass kk)) (enumDevices n) fun _ t =>
      ∃ k' : BitVec 5, k'.toNat ≤ kk.toNat + n ∧ Tracked p (counters pass k') t := by
  induction n with
  | zero => exact fun kk _ => triple_pure fun _ h => ⟨kk, Nat.le_refl _, h⟩
  | succ n ih =>
    intro kk hk
    refine triple_bind searchStep_keeps fun _ => triple_ite (fun _ => triple_pure fun _ h => ⟨kk, by omega, h⟩) fun _ => ?_
    refine triple_bind (triple_modify (Q := fun _ => Tracked p (counters pass (kk + 1))) fun s h => storeRow_keeps h) fun _ =>
      triple_bind (R := fun _ => Tracked p (counters pass (kk + 1))) (triple_get fun _ h => h) fun _ => ?_
    have hk1 : (kk + 1).toNat = kk.toNat + 1 := by
      rw [BitVec.toNat_add]
      exact Nat.mod_eq_of_lt (by simp; omega)
    refine triple_ite (fun _ => triple_pure fun _ h => ⟨kk + 1, by omega, h⟩) fun _ => ?_
    refine (ih (kk + 1) (by omega)).weaken (fun _ h => h) ?_
    rintro a s ⟨k', h1, h2⟩
    exact ⟨k', by omega, h2⟩

/-- `Mid` at the parameters `p`. -/
def MidAt (p : Params) (s : State) : Prop := s.params = p ∧ Mid s

theorem commitEnum_mid {p : Params} {s : State} {c : BitVec 5} {e : Code} {tr : Bool} (h : MidAt p s)
    (hc : c.toNat ≤ p.maxDevices) (hp : s.x.pass.toNat ≤ p.enumRetries) : MidAt p (commitEnum c e tr s) := by
  obtain ⟨h1, hm⟩ := h
  refine ⟨h1, hm.legal, hm.prescInRange, ?_, hm.ldInRange, hm.lfdInRange, hm.lastDevice, hm.identValid, ?_,
    hm.timedOutInvalid⟩
  · show c.toNat ≤ s.params.maxDevices
    rw [h1]
    exact hc
  · show s.x.pass.toNat ≤ s.params.enumRetries
    rw [h1]
    exact hp

/-- One pass of ENUMERATE up to the end of its devices. -/
theorem pass_keeps {p : Params} {pass : BitVec 8} :
    Triple (fun s => MidAt p s ∧ s.x.pass = pass) (do
      modify beginPass
      let s ← get
      enumDevices s.params.maxDevices : Engine (Code × Bool)) fun _ t =>
        ∃ k' : BitVec 5, k'.toNat ≤ p.maxDevices ∧ Tracked p (counters (pass + 1) k') t := by
  rintro s ⟨⟨h1, hm⟩, h2⟩ a t ht
  rw [bind_ok (modify_ok _ _), bind_ok (get_ok _)] at ht
  have hb : Tracked p (counters (pass + 1) 0) (beginPass s) := by
    refine ⟨h1, ?_, ?_, rfl⟩
    · exact Mid.clear (hm.of_eq rfl rfl rfl rfl rfl fun _ => ⟨rfl, rfl⟩)
    · show s.x.pass + 1 = pass + 1
      rw [h2]
  have hmax : (beginPass s).params.maxDevices = p.maxDevices := by
    show s.params.maxDevices = _
    rw [h1]
  have h16 : p.maxDevices ≤ 16 := by
    have := hm.legal
    rw [h1] at this
    exact this.2.2.2.2.2.2.2.2.2.2.2.1.2
  rw [hmax] at ht
  obtain ⟨k', h3, h4⟩ := enumDevices_keeps p.maxDevices 0 (by simpa using h16) _ hb a t ht
  exact ⟨k', by simpa using h3, h4⟩

theorem enumPasses_keeps {p : Params} (n : Nat) : ∀ (pass : BitVec 8) (lastErr : Code),
    pass.toNat + n + 1 ≤ p.enumRetries →
    Triple (fun s => MidAt p s ∧ s.x.pass = pass) (enumPasses n lastErr) fun _ t => MidAt p t := by
  have done : ∀ (pass : BitVec 8) (k' c : BitVec 5) (e : Code) (tr : Bool) (t : State), k'.toNat ≤ p.maxDevices →
      c.toNat ≤ k'.toNat → (pass + 1).toNat ≤ p.enumRetries → Tracked p (counters (pass + 1) k') t →
      MidAt p (commitEnum c e tr t) := by
    intro pass k' c e tr t h1 h2 h3 h4
    exact commitEnum_mid ⟨h4.1, h4.2.1⟩ (Nat.le_trans h2 h1) (by rw [h4.2.2.1]; exact h3)
  induction n with
  | zero =>
    intro pass lastErr hn s hs a t ht
    have hpass : (pass + 1).toNat ≤ pass.toNat + 1 := by
      rw [BitVec.toNat_add]
      exact Nat.mod_le _ _
    unfold enumPasses at ht
    rw [bind_ok (modify_ok _ _), bind_ok (get_ok _)] at ht
    have hp := pass_keeps s hs
    rw [bind_ok (modify_ok _ _), bind_ok (get_ok _)] at hp
    cases hd : enumDevices (beginPass s).params.maxDevices (beginPass s) with
    | error e u =>
      rw [bind_error hd] at ht
      cases ht
    | ok r u =>
      rw [bind_ok hd] at ht
      obtain ⟨k', h1, h2⟩ := hp r u hd
      obtain ⟨code, tr⟩ := r
      dsimp only at ht
      split at ht
      · cases ht
        exact done pass k' u.x.k _ _ u h1 (by rw [h2.2.2.2]) (by omega) h2
      · cases ht
        exact done pass k' 0 _ _ u h1 (Nat.zero_le _) (by omega) h2
  | succ n ih =>
    intro pass lastErr hn s hs a t ht
    have hpass : (pass + 1).toNat ≤ pass.toNat + 1 := by
      rw [BitVec.toNat_add]
      exact Nat.mod_le _ _
    unfold enumPasses at ht
    rw [bind_ok (modify_ok _ _), bind_ok (get_ok _)] at ht
    have hp := pass_keeps s hs
    rw [bind_ok (modify_ok _ _), bind_ok (get_ok _)] at hp
    cases hd : enumDevices (beginPass s).params.maxDevices (beginPass s) with
    | error e u =>
      rw [bind_error hd] at ht
      cases ht
    | ok r u =>
      rw [bind_ok hd] at ht
      obtain ⟨k', h1, h2⟩ := hp r u hd
      obtain ⟨code, tr⟩ := r
      dsimp only at ht
      split at ht
      · cases ht
        exact done pass k' u.x.k _ _ u h1 (by rw [h2.2.2.2]) (by omega) h2
      · exact ih (pass + 1) code (by omega) u ⟨⟨h2.1, h2.2.1⟩, h2.2.2.1⟩ a t ht

/-! ### Every command's pseudocode -/

/-- A procedure keeps `Mid` and the parameters. -/
abbrev MidKept (m : Engine Code) : Prop := ∀ p, Triple (MidAt p) m fun _ t => MidAt p t

/-- No condition on the registers of the enumeration engine. -/
def anyRegs : BitVec 7 → BitVec 4 → BitVec 8 → BitVec 5 → Session → Prop := fun _ _ _ _ _ => True

theorem MidAt.tracked {p : Params} {s : State} : MidAt p s ↔ Tracked p anyRegs s :=
  ⟨fun h => ⟨h.1, h.2, trivial⟩, fun h => ⟨h.1, h.2.1⟩⟩

theorem midKept_of_tracked {m : Engine Code} (h : ∀ p, Triple (Tracked p anyRegs) m fun _ => Tracked p anyRegs) :
    MidKept m :=
  fun p => (h p).weaken (fun _ hs => MidAt.tracked.mp hs) (fun _ _ hs => MidAt.tracked.mpr hs)

/-- A change of table rows that leaves no timed-out row with a valid reading. -/
theorem modify_table {p : Params} {f : State → State}
    (h : ∀ s, Mid s → (f s).params = s.params ∧ (f s).presc = s.presc ∧ (f s).count = s.count ∧
      (f s).session = s.session ∧ (f s).enumstat = s.enumstat ∧
      ∀ i : Fin 16, (f s).table[i].cstate = .timedOut → (f s).table[i].tvalid = false) :
    Triple (Tracked p anyRegs) (modify f : Engine Unit) fun _ => Tracked p anyRegs := by
  apply triple_modify
  rintro s ⟨h1, hm, -⟩
  obtain ⟨e1, e2, e3, e4, e5, e6⟩ := h s hm
  refine ⟨e1.trans h1, ⟨?_, ?_, ?_, ?_, ?_, ?_, ?_, ?_, e6⟩, trivial⟩
  · rw [e1]; exact hm.legal
  · rw [e1, e2]; exact hm.prescInRange
  · rw [e1, e3]; exact hm.countLegal
  · rw [e4]; exact hm.ldInRange
  · rw [e4]; exact hm.lfdInRange
  · rw [e4]; exact hm.lastDevice
  · rw [e4]; exact hm.identValid
  · rw [e1, e5]; exact hm.passesInRange

theorem nopBody_mid : MidKept nopBody := fun _ => triple_pure fun _ h => h

theorem resetBody_mid : MidKept resetBody :=
  midKept_of_tracked fun _ => triple_bind (slotReset_keeps (tracked_stable _ _)) fun _ => triple_pure fun _ h => h

theorem writeBitBody_mid (data : Byte) : MidKept (writeBitBody data) :=
  midKept_of_tracked fun _ => triple_bind (slotWrite_keeps (tracked_stable _ _) _) fun _ => triple_pure fun _ h => h

theorem readBitBody_mid : MidKept readBitBody :=
  midKept_of_tracked fun _ => triple_bind (slotReadWith_keeps (tracked_stable _ _) fun _ _ => ⟨_, rfl⟩) fun _ => triple_pure fun _ h => h

theorem writeByteBody_mid (data : Byte) : MidKept (writeByteBody data) :=
  midKept_of_tracked fun _ => triple_bind (sendByte_keeps (tracked_stable _ _) _) fun _ => triple_pure fun _ h => h

theorem readByteBody_mid : MidKept readByteBody :=
  midKept_of_tracked fun _ => triple_bind (recvByte_keeps (tracked_stable _ _)) fun v =>
    triple_bind (triple_modify (f := setRxdata v) (Q := fun _ => Tracked _ anyRegs) fun _ h =>
      ⟨h.1, h.2.1.of_eq rfl rfl rfl rfl rfl fun _ => ⟨rfl, rfl⟩, trivial⟩) fun _ => triple_pure fun _ h => h

theorem crcClearBody_mid : MidKept crcClearBody := fun p =>
  triple_bind (triple_modify (Q := fun _ => MidAt p) fun _ h =>
    ⟨h.1, h.2.of_eq rfl rfl rfl rfl rfl fun _ => ⟨rfl, rfl⟩⟩) fun _ => triple_pure fun _ h => h

theorem crcByteBody_mid (data : Byte) : MidKept (crcByteBody data) := fun p =>
  triple_bind (triple_modify (Q := fun _ => MidAt p) fun _ h =>
    ⟨h.1, h.2.of_eq rfl rfl rfl rfl rfl fun _ => ⟨rfl, rfl⟩⟩) fun _ => triple_pure fun _ h => h

theorem searchClearBody_mid : MidKept searchClearBody := fun p =>
  triple_bind (triple_modify (Q := fun _ => MidAt p) fun _ h => ⟨h.1, h.2.clear⟩) fun _ => triple_pure fun _ h => h

theorem searchStep_mid : MidKept searchStep := by
  rintro p s ⟨h1, h2⟩ a t ht
  have := searchStep_keeps s (p := p) (pass := s.x.pass) (kk := s.x.k) ⟨h1, h2, rfl, rfl⟩ a t ht
  exact ⟨this.1, this.2.1⟩

theorem searchFirstBody_mid : MidKept searchFirstBody := fun p =>
  triple_bind (triple_modify (Q := fun _ => MidAt p) fun _ h => ⟨h.1, h.2.clear⟩) fun _ => searchStep_mid p

theorem enumerateBody_mid : MidKept enumerateBody := by
  rintro p s ⟨h1, h2⟩ a t ht
  unfold enumerateBody at ht
  rw [bind_ok (modify_ok _ _), bind_ok (get_ok _)] at ht
  have hl := h2.legal
  rw [h1] at hl
  have he := hl.2.2.2.2.2.2.2.2.2.2.2.2
  have hr : s.params.enumRetries = p.enumRetries := by rw [h1]
  let s0 : State := { s with x := { s.x with pass := 0 } }
  have hs0 : MidAt p s0 ∧ s0.x.pass = 0 :=
    ⟨⟨h1, h2.of_eq rfl rfl rfl rfl rfl fun _ => ⟨rfl, rfl⟩⟩, rfl⟩
  refine enumPasses_keeps (p := p) (s.params.enumRetries - 1) 0 .ok ?_ s0 hs0 a t ht
  · rw [hr]
    show 0 + (p.enumRetries - 1) + 1 ≤ p.enumRetries
    omega

theorem convertBody_mid (sel : Bool) (idx : BitVec 4) : MidKept (convertBody sel idx) := by
  refine midKept_of_tracked fun p => triple_bind (R := fun _ => Tracked p anyRegs) (triple_get fun _ h => h) fun _ =>
    triple_ite (fun _ => triple_pure fun _ h => h) fun _ => triple_bind (slotReset_keeps (tracked_stable _ _)) fun _ =>
      triple_ite (fun _ => triple_pure fun _ h => h) fun _ => triple_bind (select_keeps (tracked_stable _ _) _ _) fun _ =>
        triple_bind (sendByte_keeps (tracked_stable _ _) _) fun _ => triple_bind (modify_table fun s hm => ⟨rfl, rfl, rfl, rfl, rfl, ?_⟩) fun _ =>
          triple_pure fun _ h => h
  intro i
  rw [startTargets_table, mapTable_get]
  split
  · intro hc
    cases hc
  · exact hm.timedOutInvalid i

theorem convPollBody_mid : MidKept convPollBody := by
  refine midKept_of_tracked fun p => triple_bind (slotReadWith_keeps (tracked_stable _ _) fun _ _ => ⟨_, rfl⟩) fun _ =>
    triple_ite (fun _ => triple_bind (modify_table fun s hm => ⟨rfl, rfl, rfl, rfl, rfl, ?_⟩) fun _ =>
      triple_pure fun _ h => h) fun _ => triple_pure fun _ h => h
  intro i
  rw [pollReady_table, mapTable_get]
  split
  · intro hc
    cases hc
  · exact hm.timedOutInvalid i

/-- Row `i` is Ready, and only started rows have a pending step. -/
structure ReadyRow (i : Fin 16) (s : State) : Prop where
  running : Running s
  sup : SupOk s
  ready : s.table[i].cstate = .ready

theorem closeCycle_ready {i : Fin 16} {s : State} (h : ReadyRow i s) : ReadyRow i (closeCycle s) := by
  obtain ⟨cp, cc, -, -, -⟩ := closeCycle_spec h.sup
  refine ⟨cp.busy.trans h.running, cc.supOk, ?_⟩
  rw [((cp.rows i).held (.inl (by rw [h.ready]; decide))).1]
  exact h.ready

theorem openCycle_ready {i : Fin 16} {s : State} (h : ReadyRow i s) : ReadyRow i (openCycle s) := by
  refine ⟨h.running, openCycle_supOk s, ?_⟩
  rw [openCycle_table, mapTable_get]
  exact h.ready

theorem toTick_ready {i : Fin 16} (h : List HostEvent) : ∀ (s : State), ReadyRow i s → ∀ (a : Unit) (t : State),
    toTick h s = .ok a t → ReadyRow i t := by
  have move : ∀ (s : State) (n : Nat), ReadyRow i s → ReadyRow i (s.passCycles n) :=
    fun s n hr => ⟨hr.running, hr.sup, hr.ready⟩
  have hosts : ∀ (s : State) (l : List HostEvent), ReadyRow i s → ReadyRow i (s.withHost l) :=
    fun s l hr => ⟨hr.running, hr.sup, hr.ready⟩
  induction h with
  | nil =>
    intro s hr a t ht
    cases ht
    exact openCycle_ready (move s _ hr)
  | cons e es ih =>
    intro s hr a t ht
    unfold toTick at ht
    split at ht
    · cases ht
      exact openCycle_ready (hosts _ _ (move s _ hr))
    · split at ht
      · cases ht
      · rename_i act _
        split at ht
        · have ho := openCycle_ready (hosts _ es (move s e.gap hr))
          have ha : ReadyRow i (takeAccess act (openCycle ((s.passCycles e.gap).withHost es))) := by
            obtain ⟨-, tsup, -, -⟩ := takeAccess_busy (a := act) ho.running ho.sup
            refine ⟨(takeAccess_frame act ho.running).1, tsup, ?_⟩
            cases act with
            | read off size => exact ho.ready
            | write off size v =>
              obtain ⟨st, c, b, he, -⟩ := hostWrite_busy off v ho.running
              show (hostWrite off v _).table[i].cstate = _
              rw [he]
              exact ho.ready
          split at ht
          · cases ht
            exact ha
          · exact ih _ (closeCycle_ready ha) a t ht
        · cases ht

theorem readyRow_stable (i : Fin 16) : Stable (ReadyRow i) := by
  refine ⟨?_, ?_, ?_, ?_⟩
  · exact fun s hs a t ht => toTick_ready _ _ (closeCycle_ready hs) a t ht
  · exact fun s _ _ hs => ⟨hs.running, hs.sup, hs.ready⟩
  · intro s hs
    refine ⟨?_, ?_, ?_⟩
    · show s.takeLevel.status.busy = true
      rw [takeLevel_status]
      exact hs.running
    · intro j u hu
      rw [takeLevel_table] at hu ⊢
      rw [validRow_congr (s := s) (by simp)]
      exact hs.sup j u hu
    · rw [takeLevel_table]
      exact hs.ready
  · exact fun s _ _ _ _ _ _ _ _ _ _ _ hs => ⟨hs.running, hs.sup, hs.ready⟩

theorem readTempBody_mid (sel : Bool) (idx : BitVec 4) (p : Params) :
    Triple (fun s => MidAt p s ∧ Running s ∧ SupOk s) (readTempBody sel idx) fun _ t => MidAt p t := by
  rintro s ⟨hm, hr, hs⟩ a t ht
  unfold readTempBody at ht
  rw [bind_ok (get_ok _)] at ht
  split at ht
  · cases ht
    exact hm
  · split at ht
    · cases ht
      exact hm
    · rename_i hc
      have hready : s.table[rowOf idx].cstate = .ready := by simpa using hc
      have st : Stable fun s => Tracked p anyRegs s ∧ ReadyRow (rowOf idx) s :=
        (tracked_stable p anyRegs).and (readyRow_stable (rowOf idx))
      have tr : Triple (fun s => Tracked p anyRegs s ∧ ReadyRow (rowOf idx) s) (do
          let present ← slotReset
          if !present then
            pure .busAbsent
          else
            select sel idx
            readFrame
            let good ← checkFrame
            if !good then
              pure .crcMismatch
            else
              modify (storeReading idx)
              pure .ok : Engine Code) fun _ t => Tracked p anyRegs t := by
        refine triple_bind (slotReset_keeps st) fun _ => triple_ite (fun _ => triple_pure fun _ h => h.1) fun _ =>
          triple_bind (select_keeps st _ _) fun _ => triple_bind (readFrame_keeps st) fun _ =>
            triple_bind (checkFrame_keeps st) fun _ => triple_ite (fun _ => triple_pure fun _ h => h.1) fun _ =>
              triple_bind (triple_modify (Q := fun _ => Tracked p anyRegs) ?_) fun _ => triple_pure fun _ h => h
        rintro u ⟨⟨h1, h2, -⟩, h3⟩
        refine ⟨h1, ⟨h2.legal, h2.prescInRange, h2.countLegal, h2.ldInRange, h2.lfdInRange, h2.lastDevice, h2.identValid,
          h2.passesInRange, ?_⟩, trivial⟩
        intro i
        show (u.table.set (rowOf idx) _)[i].cstate = _ → (u.table.set (rowOf idx) _)[i].tvalid = _
        rw [set_get]
        split
        · intro hto
          change u.table[rowOf idx].cstate = _ at hto
          rw [h3.ready] at hto
          cases hto
        · exact h2.timedOutInvalid i
      exact MidAt.tracked.mpr (tr s ⟨MidAt.tracked.mp hm, hr, hs, hready⟩ a t ht)

theorem configureBody_mid (sel : Bool) (idx res : BitVec 4) : MidKept (configureBody sel idx res) := by
  unfold configureBody
  cases resolutionOf res with
  | none => exact fun _ => triple_pure fun _ h => h
  | some r =>
    refine midKept_of_tracked fun p => triple_bind (R := fun _ => Tracked p anyRegs) (triple_get fun _ h => h) fun _ =>
      triple_ite (fun _ => triple_pure fun _ h => h) fun _ => triple_bind (slotReset_keeps (tracked_stable _ _)) fun _ =>
        triple_ite (fun _ => triple_pure fun _ h => h) fun _ => triple_bind (select_keeps (tracked_stable _ _) _ _) fun _ =>
          triple_bind (readFrame_keeps (tracked_stable _ _)) fun _ => triple_bind (checkFrame_keeps (tracked_stable _ _)) fun _ =>
            triple_ite (fun _ => triple_pure fun _ h => h) fun _ =>
              triple_bind (modify_keeps (tracked_stable _ _) fun s => ⟨s.status.presence, s.status.rxbit, _, _, _, _, _, _, _, _, _, rfl⟩) fun _ => ?_
    refine triple_bind (slotReset_keeps (tracked_stable _ _)) fun _ => triple_ite (fun _ => triple_pure fun _ h => h) fun _ =>
      triple_bind (select_keeps (tracked_stable _ _) _ _) fun _ => triple_bind (R := fun _ => Tracked p anyRegs) (triple_get fun _ h => h)
        fun _ => triple_bind (sendBytes_keeps (tracked_stable _ _) _) fun _ => triple_bind (slotReset_keeps (tracked_stable _ _)) fun _ =>
          triple_ite (fun _ => triple_pure fun _ h => h) fun _ => triple_bind (select_keeps (tracked_stable _ _) _ _) fun _ =>
            triple_bind (sendByte_keeps (tracked_stable _ _) _) fun _ => triple_bind (drive_keeps (tracked_stable _ _) _ _) fun _ =>
              triple_bind (modify_table fun s hm => ⟨rfl, rfl, rfl, rfl, rfl, ?_⟩) fun _ => triple_pure fun _ h => h
    intro i
    rw [setTargetsRes_table, mapTable_get]
    split
    · exact hm.timedOutInvalid i
    · exact hm.timedOutInvalid i

/-! ### Whole commands and steps -/

/-- The finish cycle of a command restores the whole invariant. -/
theorem finish_inv {s : State} (h : Mid s) (code : Code) : (closeCycle (complete code s)).Inv := by
  have hm : Mid (closeCycle (complete code s)) :=
    closeCycle_mid (h.of_eq rfl rfl rfl rfl rfl fun _ => ⟨rfl, rfl⟩)
  obtain ⟨r, n, he, -⟩ := settleRead_eq (settleSupervisor (complete code s))
  have hf : (closeCycle (complete code s)).status.busy = false ∧ (closeCycle (complete code s)).seq = none ∧
      (closeCycle (complete code s)).ph = .idle ∧ (closeCycle (complete code s)).pad = false ∧
      (closeCycle (complete code s)).env.pend = none ∧
      ∀ i : Fin 16, (closeCycle (complete code s)).table[i].sup = none := by
    unfold closeCycle
    rw [he]
    refine ⟨rfl, rfl, rfl, rfl, rfl, ?_⟩
    intro i
    show (settleSupervisor (complete code s)).table[i].sup = none
    rw [settleSupervisor_table, mapTable_get]
    exact settle_sup _
  exact ⟨hm.legal, hf.1, hf.2.1, hf.2.2.1, hf.2.2.2.1, hf.2.2.2.2.1, hf.2.2.2.2.2, hm.prescInRange, hm.countLegal,
    hm.ldInRange, hm.lfdInRange, hm.lastDevice, hm.identValid, hm.passesInRange, hm.timedOutInvalid⟩

/-- A block reset establishes the invariant, at any legal parameters (10_state.md R78). -/
theorem blockReset_inv {s : State} (h : s.params.Legal) : (blockReset s).Inv := by
  refine ⟨h, rfl, rfl, rfl, rfl, rfl, ?_, ?_, Nat.zero_le _, (by decide : (0 : BitVec 7).toNat ≤ 64),
    (by decide : (0 : BitVec 4).toNat ≤ 8), fun _ => rfl, romValid_zero, Nat.zero_le _, ?_⟩
  · apply fin16_cases
    exact ⟨rfl, rfl, rfl, rfl, rfl, rfl, rfl, rfl, rfl, rfl, rfl, rfl, rfl, rfl, rfl, rfl⟩
  · exact h.1
  · apply fin16_cases
    exact ⟨nofun, nofun, nofun, nofun, nofun, nofun, nofun, nofun, nofun, nofun, nofun, nofun, nofun, nofun, nofun, nofun⟩

theorem accept_mid {s : State} (h : Mid s) : Mid (accept s) :=
  (openCycle_mid h.legal (fun _ => h) h.prescInRange).of_eq rfl rfl rfl rfl rfl fun _ => ⟨rfl, rfl⟩

/-- The start tick of a command. -/
theorem begin_mid {s : State} (h : Mid s) :
    Triple (fun u => u = accept s) nextTick fun _ t => MidAt s.params t ∧ Running t ∧ SupOk t := by
  rintro u rfl a t ht
  have hp := nextTick_passing (accept_mid h) ht
  have hg := nextTick_good (accept s) rfl
  rw [ht] at hg
  refine ⟨⟨hp.params, hp.mid⟩, hg.1, ?_⟩
  have hs : ∀ (l : List HostEvent) (s : State), Running s → SupOk s → ∀ a t, toTick l s = .ok a t → SupOk t := by
    intro l
    induction l with
    | nil =>
      intro s _ _ a t ht
      cases ht
      exact openCycle_supOk _
    | cons e es ih =>
      intro s hb hs a t ht
      unfold toTick at ht
      split at ht
      · cases ht
        exact openCycle_supOk _
      · split at ht
        · cases ht
        · rename_i act _
          split at ht
          · obtain ⟨-, tsup, -, -⟩ := takeAccess_busy (a := act) (s := openCycle ((s.passCycles e.gap).withHost es)) hb
              (openCycle_supOk _)
            split at ht
            · cases ht
              exact tsup
            · refine ih _ ?_ (closeCycle_spec tsup).2.1.supOk a t ht
              show (closeCycle _).status.busy = true
              rw [(closeCycle_frame _).1]
              exact (takeAccess_frame act (s := openCycle ((s.passCycles e.gap).withHost es)) hb).1
          · cases ht
  have hso : SupOk (accept s) := fun i u hu => openCycle_supOk s i u hu
  refine hs _ (closeCycle (accept s)) ?_ (closeCycle_spec hso).2.1.supOk a t ht
  show (closeCycle _).status.busy = true
  rw [(closeCycle_frame _).1]
  rfl

/-- A whole command keeps the invariant. -/
theorem runCommand_inv {body : Engine Code} (hg : Good body) {s t : State} (h : Mid s)
    (hb : Triple (fun u => MidAt s.params u ∧ Running u ∧ SupOk u) body fun _ t => MidAt s.params t)
    (ht : runCommand body s = .next t) : t.Inv := by
  have hm := triple_bind (begin_mid h) (fun _ => hb) (accept s) rfl
  have hgood := good_bind nextTick_good (fun _ => hg) (accept s) rfl
  unfold runCommand at ht
  cases hr : (nextTick >>= fun _ => body) (accept s) with
  | ok code u =>
    rw [hr] at ht
    cases ht
    exact finish_inv (hm code u hr).2 code
  | error c u =>
    rw [hr] at ht hgood
    cases c with
    | reset =>
      cases ht
      obtain ⟨-, v, h1, h2⟩ := hgood
      rw [h1]
      exact blockReset_inv (by rw [h2]; exact h.legal)
    | bad a => cases ht

end Sys2Proof.Machine
end

