-- ==== Sys2Proof/Laws/Host.lean ====
section
/-! SUPPORT. The host port between commands: which register stands where, what a taken write leaves, and what a step
is in a cycle with an access (10_state.md R43 to R62, 20_memory.md R101 to R106). -/

namespace Sys2Proof.Machine

theorem defined_iff (a : Access) : a.defined = true ↔ a.size = 4 ∧ a.off.toNat % 4 = 0 := by
  have h : ∀ o : Offset, o &&& 3#9 = 0#9 ↔ o.toNat % 4 = 0 := by decide +kernel
  unfold Access.defined
  rw [Bool.and_eq_true, beq_iff_eq, beq_iff_eq, h]

/-- What is due where the host's next act is an access in the next cycle. -/
theorem due_of_accessNext {s : State} {a : Access} {rest : List HostEvent} (h : s.accessNext a rest) :
    s.due = if a.defined then (match commandWord a with
      | some w => if s.status.busy then .access a else .command w
      | none => .access a) else .bad a :=
  (congrArg (fun l => (s.withHost l).due) h).trans rfl

/-- The offset of a table row's register (R43). -/
theorem regAt_row {m : Nat} {i : Fin 16} (hi : i.val < m) {k : Nat} (hk : k = 0 ∨ k = 4 ∨ k = 8 ∨ k = 12) :
    regAt m (BitVec.ofNat 9 (0x100 + k + 16 * i.val)) = rowRegAt i k := by
  have h : ∀ i : Fin 16, ∀ k ∈ [0, 4, 8, 12], (BitVec.ofNat 9 (0x100 + k + 16 * i.val)).getLsbD 8 = true ∧
      rowOf ((BitVec.ofNat 9 (0x100 + k + 16 * i.val)).extractLsb' 4 4) = i ∧
      ((BitVec.ofNat 9 (0x100 + k + 16 * i.val)).extractLsb' 0 4).toNat = k := by decide +kernel
  obtain ⟨h1, h2, h3⟩ := h i k (by simp; omega)
  unfold regAt
  rw [h1, if_pos rfl, h2, h3]
  simp [hi]

/-- The two words of an identifier, written one at a time (R56). -/
theorem romWords (r : Ident) (v : Word) : (withLoWord r v).extractLsb' 0 32 = v ∧
    (withLoWord r v).extractLsb' 32 32 = r.extractLsb' 32 32 ∧ (withHiWord r v).extractLsb' 32 32 = v ∧
    (withHiWord r v).extractLsb' 0 32 = r.extractLsb' 0 32 := by
  unfold withLoWord withHiWord hiWord loWord
  have app : ∀ (a b : Word) (k : Nat), BitVec.getLsbD (w := 64) (a ++ b) k = if k < 32 then b.getLsbD k else a.getLsbD (k - 32) :=
    fun a b k => (BitVec.getLsbD_append (x := a) (y := b) (i := k)).trans (by cases hk : decide (k < 32) <;> simp_all)
  refine ⟨?_, ?_, ?_, ?_⟩ <;>
    (apply BitVec.eq_of_getLsbD_eq; intro i hi; rw [BitVec.getLsbD_extractLsb', app]; simp [hi])

/-- Everything a host write to one register can do while no command runs (R43 to R60). -/
theorem hostWrite_cases {s : State} {off : Offset} {v : Word} (hb : s.status.busy = false) (ha : off.toNat % 4 = 0) :
    (hostWrite off v s = s ∧ (∀ o ∈ [0x004#9, 0x008#9, 0x010#9, 0x020#9, 0x024#9, 0x02C#9], off ≠ o) ∧
      ∀ i : Fin 16, i.val < s.params.maxDevices →
        off ≠ BitVec.ofNat 9 (0x100 + 16 * i.val) ∧ off ≠ BitVec.ofNat 9 (0x104 + 16 * i.val)) ∨
    (off = 0x004#9 ∧ hostWrite off v s = { s with status := s.status.clearWritten v }) ∨
    (off = 0x008#9 ∧ hostWrite off v s = { s with ctrl := Ctrl.ofWord v }) ∨
    (off = 0x010#9 ∧ hostWrite off v s = { s with crc := v.extractLsb' 0 8 }) ∨
    (off = 0x020#9 ∧ hostWrite off v s = { s with budget := v.extractLsb' 0 22 }) ∨
    (off = 0x024#9 ∧ hostWrite off v s = { s with alarm := v }) ∨
    (off = 0x02C#9 ∧ hostWrite off v s = { s with count := clampCount s.params.maxDevices v }) ∨
    ∃ i : Fin 16, i.val < s.params.maxDevices ∧
      ((off = BitVec.ofNat 9 (0x100 + 16 * i.val) ∧
          hostWrite off v s = s.setEntry i fun e => { e with rom := withLoWord e.rom v }) ∨
        (off = BitVec.ofNat 9 (0x104 + 16 * i.val) ∧
          hostWrite off v s = s.setEntry i fun e => { e with rom := withHiWord e.rom v })) := by
  have hrow : ∀ o : Offset, o.getLsbD 8 = true → o.toNat % 4 = 0 →
      (∀ i : Fin 16, (o = BitVec.ofNat 9 (0x100 + 16 * i.val) ↔ rowOf (o.extractLsb' 4 4) = i ∧ (o.extractLsb' 0 4).toNat = 0) ∧
        (o = BitVec.ofNat 9 (0x104 + 16 * i.val) ↔ rowOf (o.extractLsb' 4 4) = i ∧ (o.extractLsb' 0 4).toNat = 4)) ∧
      (∀ p ∈ [0x004#9, 0x008#9, 0x010#9, 0x020#9, 0x024#9, 0x02C#9], o ≠ p) ∧
      ((o.extractLsb' 0 4).toNat = 0 ∨ (o.extractLsb' 0 4).toNat = 4 ∨ (o.extractLsb' 0 4).toNat = 8 ∨
        (o.extractLsb' 0 4).toNat = 12) := by decide +kernel
  have hlow : ∀ o : Offset, o.getLsbD 8 = false → o.toNat % 4 = 0 →
      (∀ i : Fin 16, o ≠ BitVec.ofNat 9 (0x100 + 16 * i.val) ∧ o ≠ BitVec.ofNat 9 (0x104 + 16 * i.val)) ∧
      (o = 0x004#9 ∨ o = 0x008#9 ∨ o = 0x010#9 ∨ o = 0x020#9 ∨ o = 0x024#9 ∨ o = 0x02C#9 ∨
        ((∀ p ∈ [0x004#9, 0x008#9, 0x010#9, 0x020#9, 0x024#9, 0x02C#9], o ≠ p) ∧
          lowRegAt o.toNat ∈ [none, some .cmd, some .rxdata, some .search, some .romLo, some .romHi, some .now,
            some .enumstat])) := by decide +kernel
  cases h8 : off.getLsbD 8 with
  | true =>
    obtain ⟨h1, h2, h3⟩ := hrow off h8 ha
    have hr : regAt s.params.maxDevices off = if (rowOf (off.extractLsb' 4 4)).val < s.params.maxDevices then
        rowRegAt (rowOf (off.extractLsb' 4 4)) (off.extractLsb' 0 4).toNat else none := by
      unfold regAt
      rw [if_pos h8]
    unfold hostWrite
    rw [hr]
    by_cases hm : (rowOf (off.extractLsb' 4 4)).val < s.params.maxDevices
    · rw [if_pos hm]
      rcases h3 with h3 | h3 | h3 | h3
      · rw [h3]
        exact .inr (.inr (.inr (.inr (.inr (.inr (.inr ⟨_, hm, .inl ⟨(h1 _).1.mpr ⟨rfl, h3⟩, by
          simp [rowRegAt, writeReg, hb, writeTaken]⟩⟩))))))
      · rw [h3]
        exact .inr (.inr (.inr (.inr (.inr (.inr (.inr ⟨_, hm, .inr ⟨(h1 _).2.mpr ⟨rfl, h3⟩, by
          simp [rowRegAt, writeReg, hb, writeTaken]⟩⟩))))))
      · rw [h3]
        refine .inl ⟨by simp [rowRegAt, writeReg, hb, writeTaken], h2, fun i _ => ⟨?_, ?_⟩⟩
        · rw [ne_eq, (h1 i).1, h3]
          omega
        · rw [ne_eq, (h1 i).2, h3]
          omega
      · rw [h3]
        refine .inl ⟨by simp [rowRegAt, writeReg, hb, writeTaken], h2, fun i _ => ⟨?_, ?_⟩⟩
        · rw [ne_eq, (h1 i).1, h3]
          omega
        · rw [ne_eq, (h1 i).2, h3]
          omega
    · rw [if_neg hm]
      refine .inl ⟨rfl, h2, fun i hi => ⟨?_, ?_⟩⟩
      · rw [ne_eq, (h1 i).1]
        rintro ⟨rfl, -⟩
        exact hm hi
      · rw [ne_eq, (h1 i).2]
        rintro ⟨rfl, -⟩
        exact hm hi
  | false =>
    obtain ⟨h1, h2⟩ := hlow off h8 ha
    rcases h2 with rfl | rfl | rfl | rfl | rfl | rfl | ⟨h2, h3⟩
    · exact .inr (.inl ⟨rfl, by simp [hostWrite, regAt, lowRegAt, writeReg, hb, writeTaken]⟩)
    · exact .inr (.inr (.inl ⟨rfl, by simp [hostWrite, regAt, lowRegAt, writeReg, hb, writeTaken]⟩))
    · exact .inr (.inr (.inr (.inl ⟨rfl, by simp [hostWrite, regAt, lowRegAt, writeReg, hb, writeTaken]⟩)))
    · exact .inr (.inr (.inr (.inr (.inl ⟨rfl, by simp [hostWrite, regAt, lowRegAt, writeReg, hb, writeTaken]⟩))))
    · exact .inr (.inr (.inr (.inr (.inr (.inl ⟨rfl, by simp [hostWrite, regAt, lowRegAt, writeReg, hb, writeTaken]⟩)))))
    · exact .inr (.inr (.inr (.inr (.inr (.inr (.inl ⟨rfl, by
        simp [hostWrite, regAt, lowRegAt, writeReg, hb, writeTaken]⟩))))))
    · refine .inl ⟨?_, h2, fun i _ => h1 i⟩
      have hr : regAt s.params.maxDevices off = lowRegAt off.toNat := by
        unfold regAt
        rw [h8]
        rfl
      unfold hostWrite
      rw [hr]
      simp only [List.mem_cons, List.not_mem_nil, or_false] at h3
      rcases h3 with h3 | h3 | h3 | h3 | h3 | h3 | h3 | h3 <;> rw [h3] <;> simp [writeReg, hb, writeTaken]

/-- The end of a cycle, as a state. -/
theorem closeCycle_eq (s : State) : ∃ (r : List (Offset × Word)) (n : Nat),
    closeCycle s = { settleSupervisor s with env := { s.env with pend := none, reads := r, draws := n } } ∧
      (s.env.pend = none → r = s.env.reads ∧ n = s.env.draws) := by
  obtain ⟨r, n, h, hq⟩ := settleRead_eq (settleSupervisor s)
  exact ⟨r, n, h, hq⟩

/-- A step in whose cycle the host writes a register while no command runs. -/
theorem step_write {s : State} {off : Offset} {v : Word} {rest : List HostEvent}
    (h : s.accessNext (.write off 4 v) rest) (ha : off.toNat % 4 = 0) (h0 : off ≠ 0) :
    step s = .next (closeCycle (hostWrite off v (openCycle (s.withHost rest)))) := by
  have hd : s.due = .access (.write off 4 v) := by
    rw [due_of_accessNext h, if_pos ((defined_iff (.write off 4 v)).mpr ⟨rfl, ha⟩)]
    unfold commandWord
    simp only [if_neg h0]
  have ht : s.env.host.tail = rest := by
    unfold State.accessNext at h
    rw [h]
    rfl
  unfold step
  rw [hd]
  simp only [accessCycle, ht]
  rfl

/-- A step in whose cycle the host reads a register. -/
theorem step_read {s : State} {off : Offset} {rest : List HostEvent} (h : s.accessNext (.read off 4) rest)
    (ha : off.toNat % 4 = 0) :
    step s = .next (closeCycle (takeAccess (.read off 4) (openCycle (s.withHost rest)))) := by
  have hd : s.due = .access (.read off 4) := by
    rw [due_of_accessNext h, if_pos ((defined_iff (.read off 4)).mpr ⟨rfl, ha⟩)]
    rfl
  have ht : s.env.host.tail = rest := by
    unfold State.accessNext at h
    rw [h]
    rfl
  unfold step
  rw [hd]
  simp only [accessCycle, ht]

/-- A step in whose cycle the host does nothing. -/
theorem step_quiet {s : State} (h : s.env.host = []) : step s = .next (closeCycle (openCycle s)) := by
  have hd : s.due = .quiet := by
    unfold State.due
    rw [h]
  have hw : s.withHost (afterQuiet s.env.host) = s := by
    unfold State.withHost
    rw [h]
    cases s
    rename_i env
    cases env
    simp_all [afterQuiet]
  unfold step
  rw [hd]
  simp only [quietCycle, hw]

/-! ### One cycle without an act -/

/-- An entry sets CEVT in a cycle exactly if the supervisor takes it out of ConversionStarted (43_sensor.md R271). -/
theorem supEvent_openCycle (s : State) (i : Fin 16) : (openCycle s).table[i].supEvent = s.leavesStarted i := by
  rw [openCycle_table, mapTable_get]
  unfold State.leavesStarted Entry.supEvent State.supStepAt supStep
  cases s.isTick
  · rfl
  · cases s.validRow i
    · rfl
    · by_cases h : s.table[i].cstate = .started
      · simp only [if_true, h]
        rfl
      · have : (s.table[i].cstate == .started) = false := beq_false_of_ne h
        simp only [if_true, if_neg h, this]
        rfl

/-- ELAPSED counts one more tick, saturating at 2^32 − 1 (10_state.md R59). -/
theorem nextElapsed_toNat (e : BitVec 32) : (nextElapsed e).toNat = min (e.toNat + 1) (2 ^ 32 - 1) := by
  unfold nextElapsed
  split
  · subst e
    rfl
  · rename_i h
    have hne : e.toNat ≠ 2 ^ 32 - 1 := by
      intro hc
      apply h
      apply BitVec.eq_of_toNat_eq
      rw [hc]
      rfl
    have := e.isLt
    rw [BitVec.toNat_add]
    show (e.toNat + 1) % 2 ^ 32 = _
    omega

/-- What a cycle's supervisor step leaves of an entry the engine does not write (43_sensor.md R271). -/
theorem settle_tick (s : State) (i : Fin 16) :
    ({ s.table[i] with sup := if s.isTick then s.supStepAt i s.table[i] else none } : Entry).settle =
      (let e := s.table[i]
       let n := min (e.elapsed.toNat + 1) (2 ^ 32 - 1)
       let ready := e.res.duration * s.params.convUnitUs ≤ n
       let out := s.budget ≠ 0 ∧ s.budget.toNat * s.params.convUnitUs ≤ n
       if s.isTick = true ∧ i.val < s.count.toNat ∧ e.cstate = .started then
         { e with
           elapsed := BitVec.ofNat 32 n
           cstate := if ready then .ready else if out then .timedOut else .started
           tvalid := if ¬ready ∧ out then false else e.tvalid
           sup := none }
       else { e with sup := none }) := by
  simp only
  by_cases h : s.isTick = true ∧ i.val < s.count.toNat ∧ s.table[i].cstate = .started
  · rw [if_pos h]
    have hv : s.validRow i = true := decide_eq_true h.2.1
    have hstep : (if s.isTick then s.supStepAt i s.table[i] else none) =
        some ⟨nextElapsed s.table[i].elapsed,
          supervisedState s.params.convUnitUs s.budget s.table[i].res (nextElapsed s.table[i].elapsed)⟩ := by
      unfold State.supStepAt supStep
      rw [if_pos h.1, if_pos hv, if_pos h.2.2]
    have hn : nextElapsed s.table[i].elapsed = BitVec.ofNat 32 (min (s.table[i].elapsed.toNat + 1) (2 ^ 32 - 1)) := by
      apply BitVec.eq_of_toNat_eq
      rw [nextElapsed_toNat, BitVec.toNat_ofNat, Nat.mod_eq_of_lt]
      omega
    rw [hstep]
    unfold Entry.settle supervisedState
    simp only [nextElapsed_toNat]
    rw [hn]
    generalize min (s.table[i].elapsed.toNat + 1) (2 ^ 32 - 1) = n
    by_cases h1 : s.table[i].res.duration * s.params.convUnitUs ≤ n <;>
      by_cases h2 : s.budget = 0 <;> by_cases h3 : s.budget.toNat * s.params.convUnitUs ≤ n <;>
      simp only [h1, h2, h3, if_true, if_false, not_true, not_false_eq_true, and_true, and_false, false_and,
        reduceCtorEq, ne_eq]
  · rw [if_neg h]
    have hstep : (if s.isTick then s.supStepAt i s.table[i] else none) = none := by
      unfold State.supStepAt supStep State.validRow
      by_cases h1 : s.isTick = true <;> by_cases h2 : i.val < s.count.toNat <;>
        by_cases h3 : s.table[i].cstate = .started <;> simp_all
    rw [hstep]
    exact settle_of_none rfl

/-- Everything a cycle in which the host has nothing coming can do. -/
structure Idled (s t : State) : Prop where
  host : t.env.host = []
  params : t.params = s.params
  presc : t.presc = (s.presc + 1) % s.params.cycPerUs
  now : t.now = s.now + BitVec.ofNat 32 ((s.presc + 1) / s.params.cycPerUs)
  rxdata : t.rxdata = s.rxdata
  crc : t.crc = s.crc
  session : t.session = s.session
  budget : t.budget = s.budget
  alarm : t.alarm = s.alarm
  count : t.count = s.count
  enumstat : t.enumstat = s.enumstat
  ctrl : t.ctrl = s.ctrl
  pad : t.pad = s.pad
  wave : t.env.wave = s.env.wave
  table : ∀ i : Fin 16, t.table[i] =
    ({ s.table[i] with sup := if s.isTick then s.supStepAt i s.table[i] else none } : Entry).settle
  cevt : t.status.cevt = true ↔ s.status.cevt = true ∨ ∃ i : Fin 16, s.leavesStarted i = true

theorem step_idle {s : State} (h : s.env.host = []) (hp : s.presc < s.params.cycPerUs) :
    ∃ t, step s = .next t ∧ Idled s t := by
  obtain ⟨r, n, h1, -⟩ := closeCycle_eq (openCycle s)
  have htick : s.isTick = true ↔ s.presc + 1 = s.params.cycPerUs := by
    rw [isTick_iff]
    omega
  refine ⟨_, step_quiet h, ?_⟩
  rw [h1]
  refine ⟨h, rfl, ?_, ?_, rfl, rfl, rfl, rfl, rfl, rfl, rfl, rfl, rfl, rfl, ?_, ?_⟩
  · show (if s.isTick then 0 else s.presc + 1) = _
    by_cases ht : s.isTick = true
    · rw [if_pos ht, htick.mp ht, Nat.mod_self]
    · rw [if_neg ht, Nat.mod_eq_of_lt]
      rw [htick] at ht
      omega
  · show (if s.isTick then s.now + 1 else s.now) = _
    by_cases ht : s.isTick = true
    · rw [if_pos ht, htick.mp ht, Nat.div_self (by omega)]
      rfl
    · rw [if_neg ht, Nat.div_eq_of_lt]
      · simp
      · rw [htick] at ht
        omega
  · intro i
    show (settleSupervisor (openCycle s)).table[i] = _
    rw [settleSupervisor_table, mapTable_get, openCycle_table, mapTable_get]
  · show (s.status.cevt || anyRow (fun _ e => e.supEvent) (openCycle s).table) = true ↔ _
    rw [Bool.or_eq_true, anyRow_iff]
    simp only [supEvent_openCycle]

/-- One cycle of a prescaler and the cycles after it. -/
theorem presc_succ {c p : Nat} (n : Nat) (hp : p < c) :
    (p + (n + 1)) / c = (p + 1) / c + ((p + 1) % c + n) / c ∧ (p + (n + 1)) % c = ((p + 1) % c + n) % c := by
  have h := Nat.div_add_mod (p + 1) c
  have h1 : p + (n + 1) = c * ((p + 1) / c) + ((p + 1) % c + n) := by omega
  constructor
  · rw [h1, Nat.mul_add_div (by omega)]
  · rw [h1, Nat.mul_add_mod]

end Sys2Proof.Machine
end

