-- ==== Sys2Proof/Laws/Lockstep.lean ====
section
/-! SUPPORT. A command beside the same command alone: until the host's next act is due the two run in lockstep, so one
run without acts says when an act comes and what it meets (10_state.md R61, 70_reset_and_hazards.md R351, 20_memory.md
R101). `Lock` says so of a procedure of the engine, and every procedure has it. -/

namespace Sys2Proof.Machine

/-- A write that is dropped with OVR while BUSY = 1 (10_state.md R61). -/
def LockedWrite (p : Params) (b : Access) : Prop :=
  b.defined = true ∧ ∃ off size v r, b = .write off size v ∧ regAt p.maxDevices off = some r ∧ r.locked = true

/-- `v` is where a block reset cuts a run from `s` that would have ended in `t`; `rest` is what the host does next. -/
def CutShort (s t : State) (rest : List HostEvent) (v : State) : Prop :=
  v.params = s.params ∧ v.env.host = rest ∧ (∃ k, v.env.bus = s.env.bus.drop k) ∧
    ∃ w, v.env.wave = w ++ s.env.wave ∧ w ++ s.env.wave <:+ t.env.wave

/-- What a procedure that ends alone in `t` with the answer `a` comes to where the host's act `act` is due in it. -/
def Meets {α : Type} (s : State) (a : α) (t : State) (act : HostAct) (rest : List HostEvent)
    (r : EStateM.Result Cut State α) : Prop :=
  match act with
  | .reset => ∃ v, r = .error .reset (blockReset v) ∧ CutShort s t rest v
  | .access b => (b.defined = false → ∃ v, r = .error (.bad b) v) ∧
    (LockedWrite s.params b → rest = [] → r = .ok a t.setOvr)

/-- The procedure `m` ends alone in `t` after `c` clock cycles, with the stretches `w` put on the line; an act of the
host that comes later finds it ended, and one that comes before meets it. -/
structure LockAt {α : Type} (m : Engine α) (s : State) (a : α) (t : State) (w : List Seg) (c : Nat) : Prop where
  ends : m s = .ok a t
  params : t.params = s.params
  bus : ∃ k, t.env.bus = s.env.bus.drop k
  wave : t.env.wave = w ++ s.env.wave
  later : ∀ g act rest, c ≤ g → m (s.withHost (⟨g, act⟩ :: rest)) = .ok a (t.withHost (⟨g - c, act⟩ :: rest))
  meets : ∀ g act rest, g < c → Meets s a t act rest (m (s.withHost (⟨g, act⟩ :: rest)))

theorem CutShort.mono {s t u : State} {rest : List HostEvent} {v : State} (h : CutShort s t rest v)
    (hw : t.env.wave <:+ u.env.wave) : CutShort s u rest v :=
  let ⟨h1, h2, h3, w, h4, h5⟩ := h
  ⟨h1, h2, h3, w, h4, h5.trans hw⟩

theorem CutShort.after {r s t : State} {rest : List HostEvent} {v : State} (h : CutShort s t rest v)
    (hp : s.params = r.params) (hb : ∃ k, s.env.bus = r.env.bus.drop k) {w : List Seg}
    (hw : s.env.wave = w ++ r.env.wave) : CutShort r t rest v := by
  obtain ⟨h1, h2, ⟨k, h3⟩, w', h4, h5⟩ := h
  obtain ⟨k', hb⟩ := hb
  refine ⟨h1.trans hp, h2, ⟨k' + k, by rw [h3, hb, List.drop_drop]⟩, w' ++ w, ?_, ?_⟩
  · rw [h4, hw, List.append_assoc]
  · rw [List.append_assoc, ← hw]
    exact h5

theorem LockAt.bind {α β : Type} {m : Engine α} {f : α → Engine β} {s t u : State} {a : α} {b : β} {w w' : List Seg}
    {c c' : Nat} (h : LockAt m s a t w c) (k : LockAt (f a) t b u w' c') (o : f a t.setOvr = .ok b u.setOvr) :
    LockAt (m >>= f) s b u (w' ++ w) (c + c') := by
  obtain ⟨k1, hk1⟩ := h.bus
  obtain ⟨k2, hk2⟩ := k.bus
  refine ⟨(bind_ok h.ends).trans k.ends, k.params.trans h.params, ⟨k1 + k2, by rw [hk2, hk1, List.drop_drop]⟩, ?_, ?_, ?_⟩
  · rw [k.wave, h.wave, List.append_assoc]
  · intro g act rest hg
    rw [bind_ok (h.later g act rest (by omega)), k.later _ _ _ (by omega), Nat.sub_sub]
  · intro g act rest hg
    by_cases hc : g < c
    · have hm := h.meets g act rest hc
      cases act with
      | reset =>
        obtain ⟨v, h1, h2⟩ := hm
        exact ⟨v, bind_error h1, h2.mono ⟨w', k.wave.symm⟩⟩
      | access b' =>
        refine ⟨fun hd => ?_, fun hl hr => ?_⟩
        · obtain ⟨v, hv⟩ := hm.1 hd
          exact ⟨v, bind_error hv⟩
        · rw [bind_ok (hm.2 hl hr)]
          exact o
    · rw [bind_ok (h.later g act rest (by omega))]
      have hm := k.meets (g - c) act rest (by omega)
      cases act with
      | reset =>
        obtain ⟨v, h1, h2⟩ := hm
        exact ⟨v, h1, h2.after h.params h.bus h.wave⟩
      | access b' => exact ⟨hm.1, fun hl hr => hm.2 (by rw [h.params]; exact hl) hr⟩

/-- The same procedure under another name. -/
theorem LockAt.congr {α : Type} {m n : Engine α} {s t : State} {a : α} {w : List Seg} {c : Nat} (h : LockAt n s a t w c)
    (e : m s = n s) (e' : ∀ l, m (s.withHost l) = n (s.withHost l)) : LockAt m s a t w c :=
  ⟨e.trans h.ends, h.params, h.bus, h.wave, fun g act rest hg => (e' _).trans (h.later g act rest hg),
    fun g act rest hg => by rw [e']; exact h.meets g act rest hg⟩

/-- A procedure that takes no time and looks at nothing of the host's acts. -/
theorem LockAt.still {α : Type} {m : Engine α} {s t : State} {a : α} (h : m s = .ok a t) (hp : t.params = s.params)
    (hb : ∃ k, t.env.bus = s.env.bus.drop k) (hw : t.env.wave = s.env.wave)
    (hh : ∀ l, m (s.withHost l) = .ok a (t.withHost l)) : LockAt m s a t [] 0 :=
  ⟨h, hp, hb, hw, fun _ _ _ _ => hh _, fun g _ _ hg => absurd hg (Nat.not_lt_zero g)⟩

/-! ### One tick -/

/-- A host read answers the same whatever the host does next. -/
theorem hostRead_withHost (off : Offset) (s : State) (l : List HostEvent) :
    hostRead off (s.withHost l) = (hostRead off s).withHost l := by
  unfold hostRead
  rw [show (s.withHost l).readsUnspecified off = s.readsUnspecified off from rfl]
  cases s.readsUnspecified off <;> rfl

/-- So is the end of a clock cycle. -/
theorem closeCycle_withHost (s : State) (l : List HostEvent) : closeCycle (s.withHost l) = (closeCycle s).withHost l := by
  unfold closeCycle settleRead
  show (match s.env.pend with | none => _ | some off => _) = State.withHost (match s.env.pend with | none => _ | some off => _) l
  cases s.env.pend with
  | none => rfl
  | some off =>
    exact hostRead_withHost off
      { settleSupervisor s with env := { (settleSupervisor s).env with pend := none } } l

/-- Where no read waits, it is the same whether or not OVR is set. -/
theorem closeCycle_setOvr {s : State} (h : s.env.pend = none) : closeCycle s.setOvr = (closeCycle s).setOvr := by
  unfold closeCycle settleRead
  show (match s.env.pend with | none => _ | some off => _) = State.setOvr (match s.env.pend with | none => _ | some off => _)
  rw [h]
  rfl

/-- A clock cycle without a tick, an act and a step of the supervisor. -/
theorem cycle_still {s : State} (h : Closed s) (ht : s.isTick = false) : closeCycle (openCycle s) = s.passCycles 1 := by
  have htab : (settleSupervisor (openCycle s)).table = s.table := by
    apply table_ext
    intro i
    rw [settleSupervisor_table, mapTable_get, openCycle_table, mapTable_get, ht]
    have : ({ s.table[i] with sup := none } : Entry) = s.table[i] := by rw [← h.2 i]
    exact (congrArg Entry.settle this).trans (settle_of_none (h.2 i))
  have hev : anyRow (fun _ e => e.supEvent) (openCycle s).table = false := by
    apply anyRow_eq_false
    intro i
    rw [openCycle_table, mapTable_get, ht]
    rfl
  have hst : (settleSupervisor (openCycle s)).status = s.status := by
    rw [settleSupervisor_status, hev]
    show { s.status with cevt := s.status.cevt || false } = s.status
    rw [Bool.or_false]
  have hp : (settleSupervisor (openCycle s)).env.pend = none := h.1
  have hc : closeCycle (openCycle s) = settleSupervisor (openCycle s) := by
    unfold closeCycle settleRead
    rw [hp]
  rw [hc]
  have he : settleSupervisor (openCycle s) = { openCycle s with
      table := (settleSupervisor (openCycle s)).table, status := (settleSupervisor (openCycle s)).status } := rfl
  rw [he, htab, hst]
  unfold openCycle State.passCycles
  simp only [ht, Bool.false_eq_true, if_false, Bool.false_and]

/-- The time to the next tick. -/
theorem toTick_lock {s : State} (hb : s.status.busy = true) (h : Closed s) (g : Nat) (act : HostAct)
    (rest : List HostEvent) :
    let t := openCycle (s.passCycles s.cyclesToTick)
    (s.cyclesToTick < g → toTick (⟨g, act⟩ :: rest) (s.withHost (⟨g, act⟩ :: rest)) =
      .ok () (t.withHost (⟨g - (s.cyclesToTick + 1), act⟩ :: rest))) ∧
    (g ≤ s.cyclesToTick → match act with
      | .reset => toTick (⟨g, act⟩ :: rest) (s.withHost (⟨g, act⟩ :: rest)) = .error .reset (blockReset (s.withHost rest))
      | .access b => (b.defined = false → ∃ v, toTick (⟨g, act⟩ :: rest) (s.withHost (⟨g, act⟩ :: rest)) = .error (.bad b) v) ∧
        (LockedWrite s.params b → s.env.host = [] → rest = [] →
          toTick (⟨g, act⟩ :: rest) (s.withHost (⟨g, act⟩ :: rest)) = .ok () t.setOvr)) := by
  refine ⟨fun hg => if_pos hg, fun hg => ?_⟩
  have hn : ¬ (s.withHost (⟨g, act⟩ :: rest)).cyclesToTick < g := by
    show ¬ s.cyclesToTick < g
    omega
  cases act with
  | reset => exact (if_neg hn).trans rfl
  | access b =>
    refine ⟨fun hd => ?_, fun hl hh hr => ?_⟩
    · exact ⟨_, (if_neg hn).trans (if_neg (c := b.defined = true) (by rw [hd]; exact Bool.false_ne_true))⟩
    · obtain ⟨hd, off, size, v, r, rfl, hr1, hr2⟩ := hl
      subst hr
      have hw : ∀ u : State, u.status.busy = true → u.params = s.params → takeAccess (.write off size v) u = u.setOvr := by
        intro u hu hp
        show hostWrite off v u = _
        unfold hostWrite
        rw [hp, hr1]
        show writeReg r v u = _
        unfold writeReg
        rw [hu, hr2]
        rfl
      refine (if_neg hn).trans ?_
      show (if (Access.write off size v).defined = true then _ else _) = _
      rw [if_pos hd]
      have e1 : ((s.withHost [⟨g, .access (.write off size v)⟩]).passCycles g).withHost [] = s.passCycles g := by
        have : s.withHost [] = s := by rw [← hh]; rfl
        exact congrArg (fun u => State.passCycles u g) this
      show (if g = s.cyclesToTick then _ else _) = _
      simp only [e1]
      rw [hw (openCycle (s.passCycles g)) hb rfl]
      split
      · rename_i heq
        rw [heq]
      · rename_i hne
        have hc : Closed (s.passCycles g) := h
        have ht : (s.passCycles g).isTick = false := not_isTick_passCycles (by omega)
        rw [closeCycle_setOvr (s := openCycle (s.passCycles g)) h.1, cycle_still hc ht]
        show EStateM.Result.ok () (openCycle _) = _
        congr 1
        have : (((s.passCycles g).passCycles 1).setOvr.passCycles ((s.passCycles g).passCycles 1).setOvr.cyclesToTick) =
            (s.passCycles s.cyclesToTick).setOvr := by
          unfold State.passCycles State.setOvr State.cyclesToTick
          simp only
          congr 1
          unfold State.cyclesToTick at hne hg
          omega
        rw [this]
        rfl

/-- A state in the middle of a command whose host has nothing coming, in a tick's cycle. -/
structure Still (s : State) : Prop where
  busy : s.status.busy = true
  host : s.env.host = []
  pend : s.env.pend = none
  presc : s.presc = 0
  ticking : 1 ≤ s.params.cycPerUs

theorem withHost_nil {s : State} (h : s.env.host = []) : s.withHost [] = s := by
  rw [← h]
  rfl

/-- The end of a clock cycle leaves what `Closed` asks for. -/
theorem closeCycle_closed (s : State) : Closed (closeCycle s) := by
  obtain ⟨r, n, he, -⟩ := settleRead_eq (settleSupervisor s)
  unfold closeCycle
  rw [he]
  refine ⟨rfl, fun i => ?_⟩
  show (settleSupervisor s).table[i].sup = none
  rw [settleSupervisor_table, mapTable_get]
  exact settle_sup _

/-- What the end of a clock cycle leaves of the model's own record and of the clock. -/
theorem closeCycle_env (s : State) : (closeCycle s).env.bus = s.env.bus ∧ (closeCycle s).env.wave = s.env.wave ∧
    (closeCycle s).presc = s.presc := by
  obtain ⟨r, n, he, -⟩ := settleRead_eq (settleSupervisor s)
  unfold closeCycle
  rw [he]
  exact ⟨rfl, rfl, rfl⟩

/-- One tick, from any clock cycle of a command. -/
theorem nextTick_lock {s : State} (hb : s.status.busy = true) (hh : s.env.host = []) (hc : s.presc < s.params.cycPerUs) :
    ∃ t, Still t ∧ LockAt nextTick s () t [] (s.params.cycPerUs - s.presc) := by
  obtain ⟨cb, cp, ch⟩ := closeCycle_frame s
  obtain ⟨eb, ew, ep⟩ := closeCycle_env s
  have hcl := closeCycle_closed s
  have htk : (closeCycle s).cyclesToTick + 1 = s.params.cycPerUs - s.presc := by
    unfold State.cyclesToTick
    rw [cp, ep]
    omega
  have hw : ∀ l, nextTick (s.withHost l) = toTick l ((closeCycle s).withHost l) := by
    intro l
    unfold nextTick
    rw [closeCycle_withHost]
    rfl
  have hs : nextTick s = .ok () (openCycle ((closeCycle s).passCycles (closeCycle s).cyclesToTick)) := by
    unfold nextTick
    rw [ch, hh]
    rfl
  refine ⟨openCycle ((closeCycle s).passCycles (closeCycle s).cyclesToTick), ⟨cb.trans hb, ch.trans hh, hcl.1, ?_, ?_⟩,
    hs, cp, ⟨0, eb⟩, ew, ?_, ?_⟩
  · rw [openCycle_presc, isTick_passCycles, if_pos rfl]
  · show 1 ≤ (closeCycle s).params.cycPerUs
    rw [cp]
    omega
  · intro g act rest hg
    rw [hw, (toTick_lock (cb.trans hb) hcl g act rest).1 (by omega), htk]
  · intro g act rest hg
    have h2 := (toTick_lock (cb.trans hb) hcl g act rest).2 (by omega)
    rw [hw]
    cases act with
    | reset => exact ⟨_, h2, cp, rfl, ⟨0, eb⟩, [], ew, ⟨[], ew.symm⟩⟩
    | access b => exact ⟨h2.1, fun hl hr => h2.2 (by rw [cp]; exact hl) (ch.trans hh) hr⟩

/-! ### Procedures -/

theorem waveTicks_append (a b : List Seg) : waveTicks (a ++ b) = waveTicks a + waveTicks b := by
  induction a with
  | nil => simp [waveTicks]
  | cons g a ih => simp [waveTicks, ih, Nat.add_assoc]

/-- A procedure of the engine that runs in lockstep with itself, and does the same whether or not OVR is set. Its clock
cycles are those of the phases it puts on the line. -/
def Lock {α : Type} (m : Engine α) : Prop := ∀ (s : State) (a : α) (t : State), Still s → m s = .ok a t →
  Still t ∧ m s.setOvr = .ok a t.setOvr ∧ ∃ w, LockAt m s a t w (s.params.cycPerUs * waveTicks w)

theorem Still.setOvr {s : State} (h : Still s) : Still s.setOvr := ⟨h.busy, h.host, h.pend, h.presc, h.ticking⟩

theorem lock_bind {α β : Type} {m : Engine α} {f : α → Engine β} (h : Lock m) (k : ∀ a, Lock (f a)) :
    Lock (m >>= f) := by
  intro s b u hs hm
  cases hr : m s with
  | error e v =>
    rw [bind_error hr] at hm
    cases hm
  | ok a t =>
    rw [bind_ok hr] at hm
    obtain ⟨h1, h2, w, h3⟩ := h s a t hs hr
    obtain ⟨k1, k2, w', k3⟩ := k a t b u h1 hm
    refine ⟨k1, (bind_ok h2).trans k2, w' ++ w, ?_⟩
    have := h3.bind k3 k2
    rw [h3.params, ← Nat.mul_add, Nat.add_comm, ← waveTicks_append] at this
    exact this

theorem lock_pure {α : Type} (a : α) : Lock (pure a : Engine α) := by
  intro s b t hs hm
  cases hm
  exact ⟨hs, rfl, [], .still rfl rfl ⟨0, rfl⟩ rfl fun _ => rfl⟩

theorem lock_ite {α : Type} {c : Prop} [Decidable c] {m n : Engine α} (h : Lock m) (g : Lock n) :
    Lock (if c then m else n) := by
  split
  · exact h
  · exact g

/-- A zero-time change that looks at nothing of the host's acts and of OVR. -/
structure Apart (f : State → State) : Prop where
  withHost : ∀ s l, f (s.withHost l) = (f s).withHost l
  setOvr : ∀ s, f s.setOvr = (f s).setOvr
  frame : ∀ s, (f s).status.busy = s.status.busy ∧ (f s).params = s.params ∧ (f s).presc = s.presc ∧
    (f s).env.host = s.env.host ∧ (f s).env.pend = s.env.pend ∧ (f s).env.bus = s.env.bus

theorem Apart.still {f : State → State} (h : Apart f) {s : State} (hs : Still s) : Still (f s) := by
  obtain ⟨h1, h2, h3, h4, h5, -⟩ := h.frame s
  exact ⟨h1.trans hs.busy, h4.trans hs.host, h5.trans hs.pend, h3.trans hs.presc, h2 ▸ hs.ticking⟩

theorem lock_modify {f : State → State} (h : Apart f) (hw : ∀ s, (f s).env.wave = s.env.wave) :
    Lock (modify f : Engine Unit) := by
  intro s a t hs hm
  cases hm
  obtain ⟨-, h2, -, -, -, h6⟩ := h.frame s
  refine ⟨h.still hs, ?_, [], .still rfl h2 ⟨0, h6⟩ (hw s) fun l => ?_⟩
  · show EStateM.Result.ok () (f s.setOvr) = _
    rw [h.setOvr]
  · show EStateM.Result.ok () (f (s.withHost l)) = _
    rw [h.withHost]

/-- A look at the state that sees nothing of the host's acts and of OVR. -/
theorem lock_get {β : Type} {f : State → Engine β} (hh : ∀ s l, f (s.withHost l) = f s) (ho : ∀ s, f s.setOvr = f s)
    (k : ∀ s, Lock (f s)) : Lock (get >>= f) := by
  intro s b u hs hm
  obtain ⟨k1, k2, w, k3⟩ := k s s b u hs hm
  refine ⟨k1, ?_, w, k3.congr rfl fun l => ?_⟩
  · show f s.setOvr s.setOvr = _
    rw [ho]
    exact k2
  · show f (s.withHost l) (s.withHost l) = _
    rw [hh]

theorem nextTick_setOvr {s t : State} (hs : Still s) (h : nextTick s = .ok () t) : nextTick s.setOvr = .ok () t.setOvr := by
  obtain ⟨-, -, ch⟩ := closeCycle_frame s
  unfold nextTick at *
  rw [closeCycle_setOvr hs.pend]
  rw [ch, hs.host] at h
  cases h
  show toTick (closeCycle s).env.host _ = _
  rw [ch, hs.host]
  rfl

/-- Ticks pass: `n` times CYC_PER_US clock cycles. -/
theorem ticks_lock (n : Nat) : ∀ s t : State, Still s → ticks n s = .ok () t →
    Still t ∧ ticks n s.setOvr = .ok () t.setOvr ∧ LockAt (ticks n) s () t [] (s.params.cycPerUs * n) := by
  induction n with
  | zero =>
    intro s t hs hm
    cases hm
    exact ⟨hs, rfl, .still rfl rfl ⟨0, rfl⟩ rfl fun _ => rfl⟩
  | succ n ih =>
    intro s t hs hm
    obtain ⟨u, h1, h2⟩ := nextTick_lock hs.busy hs.host (by rw [hs.presc]; exact hs.ticking)
    have hm' : (nextTick >>= fun _ => ticks n) s = .ok () t := hm
    rw [bind_ok h2.ends] at hm'
    obtain ⟨k1, k2, k3⟩ := ih u t h1 hm'
    refine ⟨k1, (bind_ok (nextTick_setOvr hs h2.ends)).trans k2, ?_⟩
    have hb := h2.bind (f := fun _ => ticks n) k3 k2
    rw [h2.params, hs.presc, Nat.sub_zero, Nat.add_comm, ← Nat.mul_succ] at hb
    exact hb

theorem drive_lock (ph : Phase) (dur : Params → Nat) : Lock (drive ph dur) := by
  intro s a t hs hm
  by_cases h0 : dur s.params = 0
  · have e : ∀ u : State, u.params = s.params → drive ph dur u = .ok () u := fun u hu => if_pos (by rw [hu]; exact h0)
    rw [e s rfl] at hm
    cases hm
    exact ⟨hs, e _ rfl, [], .still (e s rfl) rfl ⟨0, rfl⟩ rfl fun l => e _ rfl⟩
  · have e : ∀ u : State, u.params = s.params →
        drive ph dur u = (modify (enterPhase ph (dur s.params)) >>= fun _ => ticks (dur s.params)) u := by
      intro u hu
      refine (if_neg (by rw [hu]; exact h0)).trans ?_
      rw [hu]
      rfl
    have hs' : Still (enterPhase ph (dur s.params) s) := ⟨hs.busy, hs.host, hs.pend, hs.presc, hs.ticking⟩
    have hm' : ticks (dur s.params) (enterPhase ph (dur s.params) s) = .ok () t := (e s rfl).symm.trans hm
    obtain ⟨k1, k2, k3⟩ := ticks_lock _ _ t hs' hm'
    have h1 : LockAt (modify (enterPhase ph (dur s.params)) : Engine Unit) s () (enterPhase ph (dur s.params) s)
        [⟨ph, s.now, dur s.params⟩] 0 :=
      ⟨rfl, rfl, ⟨0, rfl⟩, rfl, fun _ _ _ _ => rfl, fun g _ _ hg => absurd hg (Nat.not_lt_zero g)⟩
    refine ⟨k1, (e s.setOvr rfl).trans k2, [⟨ph, s.now, dur s.params⟩], ?_⟩
    have := h1.bind (f := fun _ => ticks (dur s.params)) k3 k2
    rw [Nat.zero_add] at this
    exact this.congr (e s rfl) fun l => e _ rfl

theorem sample_lock : Lock sample := by
  intro s a t hs hm
  have hw : ∀ l, (s.withHost l).takeLevel = s.takeLevel.withHost l := by
    intro l
    unfold State.takeLevel
    show (match s.env.bus with | _ :: bs => _ | [] => _) = State.withHost (match s.env.bus with | _ :: bs => _ | [] => _) l
    cases s.env.bus <;> rfl
  have ho : s.setOvr.takeLevel = s.takeLevel.setOvr := by
    unfold State.takeLevel
    show (match s.env.bus with | _ :: bs => _ | [] => _) = State.setOvr (match s.env.bus with | _ :: bs => _ | [] => _)
    cases s.env.bus <;> rfl
  have hf : (s.takeLevel).status = s.status ∧ s.takeLevel.params = s.params ∧ s.takeLevel.presc = s.presc ∧
      s.takeLevel.env.host = s.env.host ∧ s.takeLevel.env.pend = s.env.pend ∧ s.takeLevel.env.wave = s.env.wave ∧
      ∃ k, s.takeLevel.env.bus = s.env.bus.drop k := by
    unfold State.takeLevel
    split
    · rename_i b bs h
      exact ⟨rfl, rfl, rfl, rfl, rfl, rfl, 1, by rw [h]; rfl⟩
    · exact ⟨rfl, rfl, rfl, rfl, rfl, rfl, 0, rfl⟩
  obtain ⟨f1, f2, f3, f4, f5, f6, f7⟩ := hf
  cases hm
  refine ⟨⟨f1 ▸ hs.busy, f4.trans hs.host, f5.trans hs.pend, f3.trans hs.presc, f2 ▸ hs.ticking⟩, ?_, [],
    .still rfl f2 f7 f6 fun l => ?_⟩
  · show EStateM.Result.ok _ s.setOvr.takeLevel = _
    rw [ho]
    rfl
  · show EStateM.Result.ok _ (s.withHost l).takeLevel = _
    rw [hw]
    rfl

/-- A change that touches no input of the host, no record and no bit OVR. -/
theorem apart {f : State → State} (h1 : ∀ s l, f (s.withHost l) = (f s).withHost l) (h2 : ∀ s, f s.setOvr = (f s).setOvr)
    (h3 : ∀ s, (f s).status.busy = s.status.busy ∧ (f s).params = s.params ∧ (f s).presc = s.presc ∧
      (f s).env = s.env) : Lock (modify f : Engine Unit) :=
  lock_modify ⟨h1, h2, fun s => by obtain ⟨a, b, c, d⟩ := h3 s; exact ⟨a, b, c, by rw [d], by rw [d], by rw [d]⟩⟩
    fun s => by rw [(h3 s).2.2.2]

theorem slotReset_lock : Lock slotReset :=
  lock_bind (drive_lock _ _) fun _ => lock_bind (drive_lock _ _) fun _ => lock_bind sample_lock fun _ =>
    lock_bind (apart (fun _ _ => rfl) (fun _ => rfl) fun _ => ⟨rfl, rfl, rfl, rfl⟩) fun _ =>
      lock_bind (drive_lock _ _) fun _ => lock_pure _

theorem slotWrite_lock (b : Bool) : Lock (slotWrite b) := lock_bind (drive_lock _ _) fun _ => drive_lock _ _

theorem slotReadWith_lock {f : Bool → State → State} (hf : ∀ b, Lock (modify (f b) : Engine Unit)) :
    Lock (slotReadWith f) :=
  lock_bind (drive_lock _ _) fun _ => lock_bind (drive_lock _ _) fun _ => lock_bind sample_lock fun b =>
    lock_bind (hf b) fun _ => lock_bind (drive_lock _ _) fun _ => lock_pure _

theorem slotRead_lock : Lock slotRead :=
  slotReadWith_lock fun _ => apart (fun _ _ => rfl) (fun _ => rfl) fun _ => ⟨rfl, rfl, rfl, rfl⟩

theorem readBit_lock : Lock (slotReadWith setRxbit) :=
  slotReadWith_lock fun _ => apart (fun _ _ => rfl) (fun _ => rfl) fun _ => ⟨rfl, rfl, rfl, rfl⟩

theorem sendBits_lock (v : Byte) (js : List Nat) : Lock (sendBits v js) := by
  induction js with
  | nil => exact lock_pure ()
  | cons j js ih =>
    exact lock_bind (apart (fun _ _ => rfl) (fun _ => rfl) fun _ => ⟨rfl, rfl, rfl, rfl⟩) fun _ =>
      lock_bind (slotWrite_lock _) fun _ => ih

theorem sendByte_lock (v : Byte) : Lock (sendByte v) :=
  lock_bind (apart (fun _ _ => rfl) (fun _ => rfl) fun _ => ⟨rfl, rfl, rfl, rfl⟩) fun _ => sendBits_lock v _

theorem sendBytes_lock (vs : List Byte) : Lock (sendBytes vs) := by
  induction vs with
  | nil => exact lock_pure ()
  | cons v vs ih => exact lock_bind (sendByte_lock v) fun _ => ih

theorem recvBits_lock (js : List Nat) : Lock (recvBits js) := by
  induction js with
  | nil => exact lock_pure ()
  | cons j js ih =>
    exact lock_bind (apart (fun _ _ => rfl) (fun _ => rfl) fun _ => ⟨rfl, rfl, rfl, rfl⟩) fun _ =>
      lock_bind slotRead_lock fun _ =>
        lock_bind (apart (fun _ _ => rfl) (fun _ => rfl) fun _ => ⟨rfl, rfl, rfl, rfl⟩) fun _ => ih

theorem recvByte_lock : Lock recvByte :=
  lock_bind (apart (fun _ _ => rfl) (fun _ => rfl) fun _ => ⟨rfl, rfl, rfl, rfl⟩) fun _ =>
    lock_bind (recvBits_lock _) fun _ => lock_get (fun _ _ => rfl) (fun _ => rfl) fun _ => lock_pure _

theorem recvFrame_lock (ks : List (Fin 9)) : Lock (recvFrame ks) := by
  induction ks with
  | nil => exact lock_pure ()
  | cons k ks ih =>
    exact lock_bind recvByte_lock fun _ =>
      lock_bind (apart (fun _ _ => rfl) (fun _ => rfl) fun _ => ⟨rfl, rfl, rfl, rfl⟩) fun _ => ih

theorem readFrame_lock : Lock readFrame := lock_bind (sendByte_lock _) fun _ => recvFrame_lock _

theorem select_lock (sel : Bool) (idx : BitVec 4) : Lock (select sel idx) :=
  lock_get (fun _ _ => rfl) (fun _ => rfl) fun _ => sendBytes_lock _

theorem checkFrame_lock : Lock checkFrame :=
  lock_bind (apart (fun _ _ => rfl) (fun _ => rfl) fun _ => ⟨rfl, rfl, rfl, rfl⟩) fun _ =>
    lock_get (fun _ _ => rfl) (fun _ => rfl) fun _ => lock_pure _

theorem choose_lock (k : Nat) : Lock (modify (choose k) : Engine Unit) := by
  refine apart (fun s l => ?_) (fun s => ?_) fun s => ?_
  · show (if tookZero (noteDirection k s) then _ else _) = State.withHost (if tookZero (noteDirection k s) then _ else _) l
    split <;> rfl
  · show (if tookZero (noteDirection k s) then _ else _) = State.setOvr (if tookZero (noteDirection k s) then _ else _)
    split <;> rfl
  · obtain ⟨x, hx⟩ := choose_eq k s
    rw [hx]
    exact ⟨rfl, rfl, rfl, rfl⟩

theorem searchFrom_lock (n : Nat) : ∀ k, Lock (searchFrom n k) := by
  induction n with
  | zero => exact fun _ => lock_pure true
  | succ n ih =>
    intro k
    exact lock_bind slotRead_lock fun _ => lock_bind slotRead_lock fun _ =>
      lock_bind (apart (fun _ _ => rfl) (fun _ => rfl) fun _ => ⟨rfl, rfl, rfl, rfl⟩) fun _ => lock_ite (lock_pure _) <|
        lock_bind (choose_lock k) fun _ => lock_get (fun _ _ => rfl) (fun _ => rfl) fun _ =>
          lock_bind (slotWrite_lock _) fun _ =>
            lock_bind (apart (fun _ _ => rfl) (fun _ => rfl) fun _ => ⟨rfl, rfl, rfl, rfl⟩) fun _ => ih (k + 1)

theorem clearSession_lock : Lock (modify clearSession : Engine Unit) :=
  apart (fun _ _ => rfl) (fun _ => rfl) fun _ => ⟨rfl, rfl, rfl, rfl⟩

theorem endSearch_lock : Lock endSearch :=
  lock_bind (apart (fun _ _ => rfl) (fun _ => rfl) fun _ => ⟨rfl, rfl, rfl, rfl⟩) fun _ =>
    lock_get (fun _ _ => rfl) (fun _ => rfl) fun _ =>
      lock_ite (lock_bind (apart (fun _ _ => rfl) (fun _ => rfl) fun _ => ⟨rfl, rfl, rfl, rfl⟩) fun _ => lock_pure _)
        (lock_bind clearSession_lock fun _ => lock_pure _)

theorem searchStep_lock : Lock searchStep :=
  lock_get (fun _ _ => rfl) (fun _ => rfl) fun _ => lock_ite (lock_pure _) <| lock_bind slotReset_lock fun _ =>
    lock_ite (lock_bind clearSession_lock fun _ => lock_pure _) <|
      lock_bind (sendByte_lock _) fun _ =>
        lock_bind (apart (fun _ _ => rfl) (fun _ => rfl) fun _ => ⟨rfl, rfl, rfl, rfl⟩) fun _ =>
          lock_bind (searchFrom_lock 64 1) fun _ =>
            lock_ite (lock_bind clearSession_lock fun _ => lock_pure _) endSearch_lock

theorem enumDevices_lock (n : Nat) : Lock (enumDevices n) := by
  induction n with
  | zero => exact lock_pure _
  | succ n ih =>
    exact lock_bind searchStep_lock fun _ => lock_ite (lock_pure _) <|
      lock_bind (apart (fun _ _ => rfl) (fun _ => rfl) fun _ => ⟨rfl, rfl, rfl, rfl⟩) fun _ =>
        lock_get (fun _ _ => rfl) (fun _ => rfl) fun _ => lock_ite (lock_pure _) ih

theorem commitEnum_lock (count : State → BitVec 5) (err : Code) (trunc : Bool)
    (h1 : ∀ s l, count (s.withHost l) = count s) (h2 : ∀ s, count s.setOvr = count s) :
    Lock (modify (fun s => commitEnum (count s) err trunc s) : Engine Unit) :=
  apart (fun s l => by show commitEnum (count (s.withHost l)) err trunc (s.withHost l) = _; rw [h1]; rfl)
    (fun s => by show commitEnum (count s.setOvr) err trunc s.setOvr = _; rw [h2]; rfl) fun _ => ⟨rfl, rfl, rfl, rfl⟩

theorem enumPasses_lock (n : Nat) : ∀ lastErr, Lock (enumPasses n lastErr) := by
  have start : Lock (modify beginPass : Engine Unit) :=
    apart (fun _ _ => rfl) (fun _ => rfl) fun _ => ⟨rfl, rfl, rfl, rfl⟩
  induction n with
  | zero =>
    intro lastErr
    exact lock_bind start fun _ => lock_get (fun _ _ => rfl) (fun _ => rfl) fun _ =>
      lock_bind (enumDevices_lock _) fun _ =>
        lock_ite (lock_bind (commitEnum_lock _ _ _ (fun _ _ => rfl) fun _ => rfl) fun _ => lock_pure _)
          (lock_bind (commitEnum_lock (fun _ => 0) _ _ (fun _ _ => rfl) fun _ => rfl) fun _ => lock_pure _)
  | succ n ih =>
    intro lastErr
    exact lock_bind start fun _ => lock_get (fun _ _ => rfl) (fun _ => rfl) fun _ =>
      lock_bind (enumDevices_lock _) fun _ =>
        lock_ite (lock_bind (commitEnum_lock _ _ _ (fun _ _ => rfl) fun _ => rfl) fun _ => lock_pure _) (ih _)

theorem startTargets_lock (sel : Bool) (idx : BitVec 4) : Lock (modify (startTargets sel idx) : Engine Unit) :=
  apart (fun _ _ => rfl) (fun _ => rfl) fun _ => ⟨rfl, rfl, rfl, rfl⟩

theorem convertBody_lock (sel : Bool) (idx : BitVec 4) : Lock (convertBody sel idx) :=
  lock_get (fun _ _ => rfl) (fun _ => rfl) fun _ => lock_ite (lock_pure _) <| lock_bind slotReset_lock fun _ =>
    lock_ite (lock_pure _) <| lock_bind (select_lock _ _) fun _ => lock_bind (sendByte_lock _) fun _ =>
      lock_bind (startTargets_lock sel idx) fun _ => lock_pure _

theorem convPollBody_lock : Lock convPollBody :=
  lock_bind readBit_lock fun _ =>
    lock_ite (lock_bind (apart (fun _ _ => rfl) (fun _ => rfl) fun _ => ⟨rfl, rfl, rfl, rfl⟩) fun _ => lock_pure _)
      (lock_pure _)

theorem readTempBody_lock (sel : Bool) (idx : BitVec 4) : Lock (readTempBody sel idx) :=
  lock_get (fun _ _ => rfl) (fun _ => rfl) fun _ => lock_ite (lock_pure _) <| lock_ite (lock_pure _) <|
    lock_bind slotReset_lock fun _ => lock_ite (lock_pure _) <| lock_bind (select_lock _ _) fun _ =>
      lock_bind readFrame_lock fun _ => lock_bind checkFrame_lock fun _ => lock_ite (lock_pure _) <|
        lock_bind (apart (fun _ _ => rfl) (fun _ => rfl) fun _ => ⟨rfl, rfl, rfl, rfl⟩) fun _ => lock_pure _

theorem configureCommit_lock (sel : Bool) (idx : BitVec 4) (r : Resolution) : Lock (configureCommit sel idx r) :=
  lock_bind slotReset_lock fun _ => lock_ite (lock_pure _) <| lock_bind (select_lock _ _) fun _ =>
    lock_bind (sendByte_lock _) fun _ => lock_bind (drive_lock _ _) fun _ =>
      lock_bind (apart (fun _ _ => rfl) (fun _ => rfl) fun _ => ⟨rfl, rfl, rfl, rfl⟩) fun _ => lock_pure _

theorem configureWrite_lock (sel : Bool) (idx : BitVec 4) (r : Resolution) : Lock (configureWrite sel idx r) :=
  lock_bind (apart (fun _ _ => rfl) (fun _ => rfl) fun _ => ⟨rfl, rfl, rfl, rfl⟩) fun _ =>
    lock_bind slotReset_lock fun _ => lock_ite (lock_pure _) <| lock_bind (select_lock _ _) fun _ =>
      lock_get (fun _ _ => rfl) (fun _ => rfl) fun _ => lock_bind (sendBytes_lock _) fun _ =>
        configureCommit_lock sel idx r

theorem configureRead_lock (sel : Bool) (idx : BitVec 4) (r : Resolution) : Lock (configureRead sel idx r) :=
  lock_bind slotReset_lock fun _ => lock_ite (lock_pure _) <| lock_bind (select_lock _ _) fun _ =>
    lock_bind readFrame_lock fun _ => lock_bind checkFrame_lock fun _ => lock_ite (lock_pure _)
      (configureWrite_lock sel idx r)

theorem configureBody_lock (sel : Bool) (idx res : BitVec 4) : Lock (configureBody sel idx res) := by
  unfold configureBody
  cases resolutionOf res with
  | none => exact lock_pure _
  | some r =>
    exact lock_get (fun _ _ => rfl) (fun _ => rfl) fun _ => lock_ite (lock_pure _) (configureRead_lock sel idx r)

theorem bodyOf_lock (i : Instr) : Lock (bodyOf i) := by
  cases i with
  | nop => exact lock_pure _
  | reset => exact lock_bind slotReset_lock fun _ => lock_pure _
  | writeBit data => exact lock_bind (slotWrite_lock _) fun _ => lock_pure _
  | readBit => exact lock_bind readBit_lock fun _ => lock_pure _
  | writeByte data => exact lock_bind (sendByte_lock _) fun _ => lock_pure _
  | readByte =>
    exact lock_bind recvByte_lock fun _ =>
      lock_bind (apart (fun _ _ => rfl) (fun _ => rfl) fun _ => ⟨rfl, rfl, rfl, rfl⟩) fun _ => lock_pure _
  | crcClear =>
    exact lock_bind (apart (fun _ _ => rfl) (fun _ => rfl) fun _ => ⟨rfl, rfl, rfl, rfl⟩) fun _ => lock_pure _
  | crcByte data =>
    exact lock_bind (apart (fun _ _ => rfl) (fun _ => rfl) fun _ => ⟨rfl, rfl, rfl, rfl⟩) fun _ => lock_pure _
  | searchClear => exact lock_bind clearSession_lock fun _ => lock_pure _
  | searchNext => exact searchStep_lock
  | searchFirst => exact lock_bind clearSession_lock fun _ => searchStep_lock
  | enumerate =>
    exact lock_bind (apart (fun _ _ => rfl) (fun _ => rfl) fun _ => ⟨rfl, rfl, rfl, rfl⟩) fun _ =>
      lock_get (fun _ _ => rfl) (fun _ => rfl) fun _ => enumPasses_lock _ _
  | convert sel idx => exact convertBody_lock sel idx
  | convPoll => exact convPollBody_lock
  | readTemp sel idx => exact readTempBody_lock sel idx
  | configure sel idx res => exact configureBody_lock sel idx res

/-! ### Commands -/

/-- Everything the host's next act can do to a command that ends alone in `u`. -/
theorem exec_lock {i : Instr} {s u : State} (hc : 1 ≤ s.params.cycPerUs) (he : exec i s.alone = .next u) (g : Nat)
    (rest : List HostEvent) :
    (∀ act, s.cyclesTo u ≤ g →
      exec i (s.withHost (⟨g, act⟩ :: rest)) = .next (u.withHost (⟨g - s.cyclesTo u, act⟩ :: rest))) ∧
    (g < s.cyclesTo u →
      (∃ v, exec i (s.withHost (⟨g, .reset⟩ :: rest)) = .next (blockReset v) ∧ CutShort s u rest v) ∧
      ∀ b : Access, (b.defined = false → exec i (s.withHost (⟨g, .access b⟩ :: rest)) = refuseAccess b) ∧
        (LockedWrite s.params b → rest = [] → exec i (s.withHost (⟨g, .access b⟩ :: rest)) = .next u.setOvr)) := by
  have hp : (accept s.alone).presc < s.params.cycPerUs := by
    show (if s.alone.isTick then 0 else s.alone.presc + 1) < _
    split
    · omega
    · rename_i h
      rw [isTick_iff] at h
      exact Nat.lt_of_not_le h
  obtain ⟨t, h1, h2⟩ := nextTick_lock (s := accept s.alone) rfl rfl hp
  rw [exec_eq] at he
  cases hb : bodyOf i t with
  | error c v =>
    exfalso
    have hgood := bodyOf_good i t h1.busy
    rw [hb] at hgood
    have hcalm : t.calm = true := by
      unfold State.calm
      rw [h1.host]
      rfl
    rw [CutBy.not_calm hgood] at hcalm
    cases hcalm
  | ok code v =>
    obtain ⟨k1, k2, w, k3⟩ := bodyOf_lock i t code v h1 hb
    have hall := h2.bind (f := fun _ => bodyOf i) k3 k2
    rw [List.append_nil, h2.params] at hall
    have hu : u = closeCycle (complete code v) := by
      unfold runCommand at he
      rw [hall.ends] at he
      cases he
      rfl
    have huw : u.env.wave = v.env.wave := by
      rw [hu, (closeCycle_env _).2.1]
      rfl
    have hcyc : s.cyclesTo u = (accept s.alone).params.cycPerUs - (accept s.alone).presc +
        (accept s.alone).params.cycPerUs * waveTicks w := by
      have : u.env.wave = w ++ s.env.wave := huw.trans hall.wave
      unfold State.cyclesTo
      rw [this, List.length_append, Nat.add_sub_cancel, List.take_left]
      rfl
    have ha : ∀ l, accept (s.withHost l) = (accept s.alone).withHost l := fun _ => rfl
    refine ⟨fun act hg => ?_, fun hg => ⟨?_, fun b => ⟨fun hd => ?_, fun hl hr => ?_⟩⟩⟩
    · rw [exec_eq]
      unfold runCommand
      rw [ha, hall.later g act rest (by rw [← hcyc]; exact hg), ← hcyc, hu]
      show Host.Outcome.next (closeCycle ((complete code v).withHost _)) = _
      rw [closeCycle_withHost]
    · obtain ⟨x, e, c⟩ := hall.meets g .reset rest (by rw [← hcyc]; exact hg)
      refine ⟨x, ?_, ?_⟩
      · rw [exec_eq]
        unfold runCommand
        rw [ha, e]
      · exact CutShort.mono c ⟨[], huw.symm⟩
    · obtain ⟨x, e⟩ := (hall.meets g (.access b) rest (by rw [← hcyc]; exact hg)).1 hd
      rw [exec_eq]
      unfold runCommand
      rw [ha, e]
    · have e := (hall.meets g (.access b) rest (by rw [← hcyc]; exact hg)).2 hl hr
      rw [exec_eq]
      unfold runCommand
      rw [ha, e, hu]
      show Host.Outcome.next (closeCycle (complete code v).setOvr) = _
      rw [closeCycle_setOvr (s := complete code v) k1.pend]

end Sys2Proof.Machine
end

