-- ==== Sys2Proof/Laws/Rows.lean ====
section
/-! SUPPORT. The device table while a command runs and the host leaves the block alone: the supervisor steps every row
once a tick, whatever the engine does on the line (43_sensor.md R271). `Rows s n t` says it of a state `t` reached from
the command's acceptance in `s`. -/

namespace Sys2Proof.Machine

theorem duration_eq (r : Resolution) : r.duration = 100 * 2 ^ (r.toNat - 9) := by cases r <;> rfl

theorem supervisedRow_add (s : State) (i : Fin 16) (m : Nat) : ∀ (n : Nat) (e : Entry),
    s.supervisedRow i (m + n) e = s.supervisedRow i n (s.supervisedRow i m e) := by
  induction m with
  | zero =>
    intro n e
    rw [Nat.zero_add]
    rfl
  | succ m ih =>
    intro n e
    rw [show m + 1 + n = (m + n) + 1 from by omega]
    exact ih n _

/-- One supervised tick of a row, as `settle_tick` gives it. -/
theorem supervisedRow_one (s : State) (i : Fin 16) (e : Entry) : s.supervisedRow i 1 e =
    (let n := min (e.elapsed.toNat + 1) (2 ^ 32 - 1)
     let ready := e.res.duration * s.params.convUnitUs ≤ n
     let out := s.budget ≠ 0 ∧ s.budget.toNat * s.params.convUnitUs ≤ n
     if i.val < s.count.toNat ∧ e.cstate = .started then
       { e with
         elapsed := BitVec.ofNat 32 n
         cstate := if ready then .ready else if out then .timedOut else .started
         tvalid := if ¬ready ∧ out then false else e.tvalid
         sup := none }
     else { e with sup := none }) := by
  show (if i.val < s.count.toNat then tickPseudocode s.params.convUnitUs s.budget.toNat e else { e with sup := none }) = _
  have hb : s.budget.toNat ≠ 0 ↔ s.budget ≠ 0 := by
    refine not_congr ⟨fun h => BitVec.eq_of_toNat_eq h, fun h => by rw [h]; rfl⟩
  unfold tickPseudocode
  simp only [duration_eq, hb]
  generalize min (e.elapsed.toNat + 1) (2 ^ 32 - 1) = n
  by_cases hc : i.val < s.count.toNat <;> by_cases hs : e.cstate = .started <;>
    by_cases h1 : 100 * 2 ^ (e.res.toNat - 9) * s.params.convUnitUs ≤ n <;>
    by_cases h2 : s.budget = 0 <;> by_cases h3 : s.budget.toNat * s.params.convUnitUs ≤ n <;>
    simp only [hc, hs, h1, h2, h3, if_true, if_false, and_true, and_false, false_and, not_true,
      not_false_eq_true, ne_eq]

theorem supervisedRow_one_sup (s : State) (i : Fin 16) (e : Entry) : (s.supervisedRow i 1 e).sup = none := by
  rw [supervisedRow_one]
  simp only
  split <;> rfl

/-- An entry that is not in ConversionStarted stays out of it. -/
theorem supervisedRow_one_held (s : State) (i : Fin 16) (e : Entry) (h : e.cstate ≠ .started) :
    (s.supervisedRow i 1 e).cstate = e.cstate := by
  rw [supervisedRow_one]
  simp only [h, and_false, if_false]

/-- A cycle's supervisor step of a row, landed. -/
theorem settle_openCycle {s r : State} (hc : r.count = s.count) (hb : r.budget = s.budget) (hp : r.params = s.params)
    (i : Fin 16) : (openCycle r).table[i].settle =
      if r.isTick then s.supervisedRow i 1 r.table[i] else { r.table[i] with sup := none } := by
  rw [openCycle_table, mapTable_get, settle_tick, supervisedRow_one, hc, hb, hp]
  by_cases ht : r.isTick = true
  · rw [if_pos ht]
    simp only [ht, true_and]
  · rw [if_neg ht]
    simp only [ht]
    rfl

/-- `n` supervised ticks have landed in `t`, and in the cycle now running one more is on its way: the rows, CEVT, and
what the supervisor goes by. -/
structure Rows (s : State) (n : Nat) (t : State) : Prop where
  params : t.params = s.params
  count : t.count = s.count
  budget : t.budget = s.budget
  quiet : t.quiet
  landed : ∀ i : Fin 16, ({ t.table[i] with sup := none } : Entry) = { s.supervisedRow i n s.table[i] with sup := none }
  coming : ∀ i : Fin 16, t.table[i].settle = s.supervisedRow i (n + 1) s.table[i]
  sup : SupOk t
  cevt : t.status.cevt = true ↔ s.status.cevt = true ∨ ∃ i : Fin 16, i.val < s.count.toNat ∧
    s.table[i].cstate = .started ∧ (s.supervisedRow i n s.table[i]).cstate ≠ .started

theorem Rows.cstate {s t : State} {n : Nat} (h : Rows s n t) (i : Fin 16) :
    t.table[i].cstate = (s.supervisedRow i n s.table[i]).cstate := by
  have := congrArg (fun e : Entry => e.cstate) (h.landed i)
  exact this

/-- A change of nothing that `Rows` speaks of. -/
theorem Rows.of_eq {s t u : State} {n : Nat} (h : Rows s n t) (h1 : u.params = t.params) (h2 : u.count = t.count)
    (h3 : u.budget = t.budget) (h4 : u.env.host = t.env.host ∧ u.env.pend = t.env.pend) (h5 : u.table = t.table)
    (h6 : u.status.cevt = t.status.cevt) : Rows s n u := by
  refine ⟨h1.trans h.params, h2.trans h.count, h3.trans h.budget, ⟨h4.1.trans h.quiet.1, h4.2.trans h.quiet.2⟩, ?_, ?_, ?_, ?_⟩
  · rw [h5]; exact h.landed
  · rw [h5]; exact h.coming
  · intro i u hu
    rw [h5] at hu ⊢
    rw [validRow_congr h2]
    exact h.sup i u hu
  · rw [h6]; exact h.cevt

/-- An entry sets CEVT exactly if its pending step takes it out of ConversionStarted. -/
theorem supEvent_iff {s : State} (h : SupOk s) (i : Fin 16) : s.table[i].supEvent = true ↔
    s.table[i].cstate = .started ∧ s.table[i].settle.cstate ≠ .started := by
  cases hs : s.table[i].sup with
  | none =>
    rw [supEvent_of_none hs, settle_of_none hs]
    simp
  | some u =>
    have hc : s.table[i].settle.cstate = u.next := by unfold Entry.settle; rw [hs]
    unfold Entry.supEvent
    rw [hs, hc]
    show (u.next != CState.started) = true ↔ _
    rw [bne_iff_ne, and_iff_right (h i u hs).2.1]

/-- What the end of a cycle makes of CEVT. -/
theorem closeCycle_cevt {s : State} (h : SupOk s) : (closeCycle s).status.cevt = true ↔
    s.status.cevt = true ∨ ∃ i : Fin 16, s.table[i].cstate = .started ∧ s.table[i].settle.cstate ≠ .started := by
  obtain ⟨r, n, he, -⟩ := settleRead_eq (settleSupervisor s)
  unfold closeCycle
  rw [he]
  show (settleSupervisor s).status.cevt = true ↔ _
  rw [settleSupervisor_status]
  show (s.status.cevt || anyRow (fun _ e => e.supEvent) s.table) = true ↔ _
  rw [Bool.or_eq_true, anyRow_iff]
  exact or_congr_right (exists_congr fun i => supEvent_iff h i)

theorem closeCycle_table (s : State) (i : Fin 16) : (closeCycle s).table[i] = s.table[i].settle := by
  obtain ⟨r, n, he, -⟩ := settleRead_eq (settleSupervisor s)
  unfold closeCycle
  rw [he]
  show (settleSupervisor s).table[i] = _
  rw [settleSupervisor_table, mapTable_get]

/-- Whether a row ever leaves ConversionStarted in a tick more. -/
theorem left_succ (s : State) (i : Fin 16) (n : Nat) :
    (i.val < s.count.toNat ∧ s.table[i].cstate = .started ∧ (s.supervisedRow i (n + 1) s.table[i]).cstate ≠ .started) ↔
      (i.val < s.count.toNat ∧ s.table[i].cstate = .started ∧ (s.supervisedRow i n s.table[i]).cstate ≠ .started) ∨
        (i.val < s.count.toNat ∧ s.table[i].cstate = .started ∧ (s.supervisedRow i n s.table[i]).cstate = .started ∧
          (s.supervisedRow i (n + 1) s.table[i]).cstate ≠ .started) := by
  rw [supervisedRow_add]
  have hh := supervisedRow_one_held s i (s.supervisedRow i n s.table[i])
  generalize s.supervisedRow i n s.table[i] = e at *
  by_cases h : e.cstate = .started
  · simp only [h, ne_eq, not_true, and_false, true_and, false_or]
  · rw [hh h]
    simp only [h, ne_eq, not_false_eq_true, false_and, and_false, or_false]

/-- A row not in ConversionStarted at first is never there. -/
theorem supervisedRow_held (s : State) (i : Fin 16) (n : Nat) (e : Entry) (h : e.cstate ≠ .started) :
    (s.supervisedRow i n e).cstate = e.cstate := by
  induction n with
  | zero => rfl
  | succ n ih => rw [supervisedRow_add, supervisedRow_one_held s i _ (by rw [ih]; exact h), ih]

/-- A row that does not exist for commands is never stepped. -/
theorem supervisedRow_invalid (s : State) (i : Fin 16) (n : Nat) (e : Entry) (h : ¬ i.val < s.count.toNat) :
    (s.supervisedRow i n e).cstate = e.cstate := by
  induction n with
  | zero => rfl
  | succ n ih =>
    rw [supervisedRow_add, supervisedRow_one]
    simp only [h, false_and, if_false]
    exact ih

/-- CEVT at the end of a cycle, in the terms of `Rows`. -/
theorem Rows.closeCevt {s t : State} {n : Nat} (h : Rows s n t) : (closeCycle t).status.cevt = true ↔
    s.status.cevt = true ∨ ∃ i : Fin 16, i.val < s.count.toNat ∧ s.table[i].cstate = .started ∧
      (s.supervisedRow i (n + 1) s.table[i]).cstate ≠ .started := by
  rw [closeCycle_cevt h.sup, h.cevt, or_assoc]
  refine or_congr_right ?_
  rw [← exists_or]
  refine exists_congr fun i => ?_
  rw [left_succ, h.cstate, h.coming]
  refine or_congr_right ⟨fun hh => ?_, fun hh => hh.2.2⟩
  have hs : s.table[i].cstate = .started := by
    by_contra hne
    exact hne ((supervisedRow_held s i n _ hne).symm.trans hh.1)
  have hv : i.val < s.count.toNat := by
    by_contra hne
    exact hh.2 ((supervisedRow_invalid s i (n + 1) _ hne).trans hs)
  exact ⟨hv, hs, hh⟩

/-- A triple from one state whose run is known. -/
theorem run_ok {α : Type} {m : EStateM.Result Cut State α} {a : α} {t : State} {Q : α → State → Prop}
    (e : m = .ok a t) (h : Q a t) : ∀ b u, m = .ok b u → Q b u := by
  rintro b u rfl
  cases e
  exact h

/-- A tick passes. -/
theorem nextTick_rows (s : State) (n : Nat) : Triple (Rows s n) nextTick fun _ => Rows s (n + 1) := by
  intro t h
  obtain ⟨cb, cp, ch⟩ := closeCycle_frame t
  obtain ⟨p, cl, -, -, -⟩ := closeCycle_spec h.sup
  have hq := p.quiet h.quiet
  have e : nextTick t = .ok () (openCycle ((closeCycle t).passCycles (closeCycle t).cyclesToTick)) := by
    unfold nextTick
    rw [ch, h.quiet.1]
    rfl
  have hcl : ∀ i : Fin 16, (closeCycle t).table[i] = s.supervisedRow i (n + 1) s.table[i] := fun i =>
    (closeCycle_table t i).trans (h.coming i)
  refine run_ok e ?_
  refine ⟨p.params.trans h.params, p.count.trans h.count, hq.2.2.1.trans h.budget, hq.1, ?_, ?_, openCycle_supOk _, h.closeCevt⟩
  · intro i
    rw [openCycle_table, mapTable_get]
    exact congrArg (fun e : Entry => { e with sup := none }) (hcl i)
  · intro i
    rw [settle_openCycle (s := s) (r := (closeCycle t).passCycles _) (p.count.trans h.count) (hq.2.2.1.trans h.budget) (p.params.trans h.params),
      isTick_passCycles, if_pos rfl, supervisedRow_add s i (n + 1)]
    exact congrArg (s.supervisedRow i 1) (hcl i)

theorem ticks_rows (s : State) (k : Nat) : ∀ n, Triple (Rows s n) (ticks k) fun _ => Rows s (n + k) := by
  induction k with
  | zero => exact fun n => triple_pure fun _ h => h
  | succ k ih =>
    intro n
    have := triple_bind (nextTick_rows s n) fun _ => ih (n + 1)
    rw [show n + 1 + k = n + (k + 1) from by omega] at this
    exact this

theorem drive_rows (s : State) (ph : Phase) (dur : Params → Nat) (n : Nat) :
    Triple (Rows s n) (drive ph dur) fun _ => Rows s (n + dur s.params) := by
  intro t h
  unfold drive
  rw [h.params]
  split
  · rename_i h0
    rw [h0]
    exact run_ok rfl h
  · exact ticks_rows s _ n (enterPhase ph (dur s.params) t) (h.of_eq rfl rfl rfl ⟨rfl, rfl⟩ rfl rfl)

theorem sample_rows (s : State) (n : Nat) : Triple (Rows s n) sample fun _ => Rows s n := by
  rintro t h _ _ e
  cases e
  exact h.of_eq (by simp) (by simp) (by simp) ⟨by simp, by simp⟩ (by simp) (by simp)

theorem modify_rows (s : State) (n : Nat) {f : State → State} (hf : ∀ t, (f t).params = t.params ∧
    (f t).count = t.count ∧ (f t).budget = t.budget ∧ (f t).env = t.env ∧ (f t).table = t.table ∧
    (f t).status.cevt = t.status.cevt) : Triple (Rows s n) (modify f : Engine Unit) fun _ => Rows s n := by
  rintro t h _ _ e
  cases e
  obtain ⟨h1, h2, h3, h4, h5, h6⟩ := hf t
  exact h.of_eq h1 h2 h3 ⟨by rw [h4], by rw [h4]⟩ h5 h6

theorem slotReset_rows (s : State) (n : Nat) :
    Triple (Rows s n) slotReset fun _ => Rows s (n + slotTicks s.params [.reset]) := by
  have h := triple_bind (drive_rows s .rstLow Params.tRstl n) fun _ => triple_bind (drive_rows s .rstPds Params.tPds _)
    fun _ => triple_bind (sample_rows s _) fun b => triple_bind
      (modify_rows s _ (f := setPresence !b) fun _ => ⟨rfl, rfl, rfl, rfl, rfl, rfl⟩) fun _ =>
        triple_bind (drive_rows s .rstRec Params.tRstRec _) fun _ =>
          (triple_pure (a := !b) (Q := fun _ => Rows s (n + s.params.tRstl + s.params.tPds + s.params.tRstRec))
            fun _ h => h)
  have e : slotTicks s.params [.reset] = s.params.tRstl + s.params.tPds + s.params.tRstRec := by
    simp [slotTicks, phasesOf, Slot.phases, phaseTicks]
    omega
  rw [e, ← Nat.add_assoc, ← Nat.add_assoc]
  exact h

theorem slotReadRx_rows (s : State) (n : Nat) :
    Triple (Rows s n) (slotReadWith setRxbit) fun _ => Rows s (n + slotTicks s.params [.read]) := by
  have h := triple_bind (drive_rows s .rLow Params.tRl n) fun _ => triple_bind (drive_rows s .rSmp Params.tRs _)
    fun _ => triple_bind (sample_rows s _) fun b => triple_bind
      (modify_rows s _ (f := setRxbit b) fun _ => ⟨rfl, rfl, rfl, rfl, rfl, rfl⟩) fun _ =>
        triple_bind (drive_rows s .rRec (fun p => p.tRslot - p.tRl - p.tRs) _) fun _ =>
          (triple_pure (a := b) (Q := fun _ => Rows s (n + s.params.tRl + s.params.tRs +
            (s.params.tRslot - s.params.tRl - s.params.tRs))) fun _ h => h)
  have e : slotTicks s.params [.read] = s.params.tRl + s.params.tRs + (s.params.tRslot - s.params.tRl - s.params.tRs) := by
    simp [slotTicks, phasesOf, Slot.phases, phaseTicks]
    omega
  rw [e, ← Nat.add_assoc, ← Nat.add_assoc]
  exact h

/-- The rows at t_s: those of the acceptance cycle's end. -/
theorem start_rows {s : State} (h : s.quiet) : Triple (fun t => t = accept s) nextTick fun _ => Rows s s.ticksBefore := by
  rintro _ rfl
  obtain ⟨cb, cp, ch⟩ := closeCycle_frame (accept s)
  have hsup : SupOk (accept s) := openCycle_supOk s
  obtain ⟨p, cl, -, -, -⟩ := closeCycle_spec hsup
  have hq := p.quiet h
  have e : nextTick (accept s) = .ok () (openCycle ((closeCycle (accept s)).passCycles (closeCycle (accept s)).cyclesToTick)) := by
    unfold nextTick
    rw [ch, show (accept s).env.host = [] from h.1]
    rfl
  have hset : ∀ i : Fin 16, ({ (accept s).table[i].settle with sup := none } : Entry) =
      { s.supervisedRow i s.ticksBefore s.table[i] with sup := none } := by
    intro i
    show ({ (openCycle s).table[i].settle with sup := none } : Entry) = _
    rw [settle_openCycle rfl rfl rfl]
    unfold State.ticksBefore
    by_cases ht : s.isTick = true
    · rw [if_pos ht, if_pos ht]
    · rw [if_neg ht, if_neg ht]
      rfl
  have hcl : ∀ i : Fin 16, (closeCycle (accept s)).table[i] = (accept s).table[i].settle := closeCycle_table _
  have hone : ∀ (i : Fin 16) (a b : Entry), ({ a with sup := none } : Entry) = { b with sup := none } →
      s.supervisedRow i 1 a = s.supervisedRow i 1 b := by
    intro i a b hab
    have hx : ∀ e : Entry, s.supervisedRow i 1 e = s.supervisedRow i 1 { e with sup := none } := by
      intro e
      rw [supervisedRow_one, supervisedRow_one]
    rw [hx a, hx b, hab]
  refine run_ok e ?_
  refine ⟨p.params, p.count, hq.2.2.1, hq.1, ?_, ?_, openCycle_supOk _, ?_⟩
  · intro i
    rw [openCycle_table, mapTable_get]
    refine Eq.trans ?_ (hset i)
    exact congrArg (fun e : Entry => { e with sup := none }) (hcl i)
  · intro i
    rw [settle_openCycle (s := s) (r := (closeCycle (accept s)).passCycles _) p.count hq.2.2.1 p.params, isTick_passCycles, if_pos rfl, supervisedRow_add s i s.ticksBefore]
    refine hone i _ _ (Eq.trans ?_ (hset i))
    exact congrArg (fun e : Entry => { e with sup := none }) (hcl i)
  · show (closeCycle (accept s)).status.cevt = true ↔ _
    rw [closeCycle_cevt hsup]
    refine or_congr Iff.rfl (exists_congr fun i => ?_)
    have h1 : (accept s).table[i].cstate = s.table[i].cstate := by
      show (openCycle s).table[i].cstate = _
      rw [openCycle_table, mapTable_get]
    have h2 : (accept s).table[i].settle.cstate = (s.supervisedRow i s.ticksBefore s.table[i]).cstate := by
      have := congrArg (fun e : Entry => e.cstate) (hset i)
      exact this
    rw [h1, h2]
    refine ⟨fun hh => ⟨?_, hh⟩, fun hh => hh.2⟩
    by_contra hne
    exact hh.2 ((supervisedRow_invalid s i _ _ hne).trans hh.1)

/-- An access while a command runs leaves the device table alone (10_state.md R61). -/
theorem takeAccess_table (a : Access) {s : State} (hb : s.status.busy = true) : (takeAccess a s).table = s.table := by
  cases a with
  | read off size => rfl
  | write off size v =>
    obtain ⟨st, c, b, he, -⟩ := hostWrite_busy (s := s) off v hb
    rw [show takeAccess (.write off size v) s = _ from he]

/-- The rows in a tick's cycle are those at the end of the cycle before the time to it began, whatever the host does. -/
theorem toTick_table (h : List HostEvent) : ∀ (s t : State), s.status.busy = true → (∀ i : Fin 16, s.table[i].sup = none) →
    toTick h s = .ok () t → ∀ i : Fin 16, ({ t.table[i] with sup := none } : Entry) = s.table[i] := by
  have opened : ∀ (s u : State), (∀ i : Fin 16, s.table[i].sup = none) → u.table = s.table →
      ∀ i : Fin 16, ({ (openCycle u).table[i] with sup := none } : Entry) = s.table[i] := by
    intro s u hs hu i
    rw [openCycle_table, mapTable_get, hu]
    have : ({ s.table[i] with sup := none } : Entry) = s.table[i] := by rw [← hs i]
    exact this
  induction h with
  | nil =>
    intro s t _ hs ht
    cases ht
    exact opened s _ hs rfl
  | cons e es ih =>
    intro s t hb hs ht
    unfold toTick at ht
    split at ht
    · cases ht
      exact opened s _ hs rfl
    · split at ht
      · cases ht
      · rename_i a _
        split at ht
        · have hta := takeAccess_table a (s := openCycle ((s.passCycles e.gap).withHost es)) hb
          simp only at ht
          split at ht
          · cases ht
            rw [hta]
            exact opened s _ hs rfl
          · rename_i hlt hne
            obtain ⟨tb, -, -⟩ := takeAccess_frame a (s := openCycle ((s.passCycles e.gap).withHost es)) hb
            have hrow : ∀ i : Fin 16,
                (closeCycle (takeAccess a (openCycle ((s.passCycles e.gap).withHost es)))).table[i] = s.table[i] := by
              intro i
              have hnt : ((s.passCycles e.gap).withHost es).isTick = false :=
                (isTick_withHost _ es).trans (not_isTick_passCycles (s := s) (n := e.gap) (by omega))
              rw [closeCycle_table, hta, settle_openCycle (s := s) (r := (s.passCycles e.gap).withHost es) rfl rfl rfl, hnt]
              have : ({ s.table[i] with sup := none } : Entry) = s.table[i] := by rw [← hs i]
              exact this
            intro i
            refine (ih _ t ?_ (fun j => ?_) ht i).trans (hrow i)
            · rw [(closeCycle_frame _).1]
              exact tb
            · rw [hrow]
              exact hs j
        · cases ht

/-- The rows at t_s, whatever the host does: those of the acceptance cycle's end. -/
theorem start_table {s t : State} (h : nextTick (accept s) = .ok () t) (i : Fin 16) :
    ({ t.table[i] with sup := none } : Entry) =
      if s.isTick then s.supervisedRow i 1 s.table[i] else { s.table[i] with sup := none } := by
  have hcl : ∀ j : Fin 16, (closeCycle (accept s)).table[j] = (openCycle s).table[j].settle := closeCycle_table (accept s)
  have := toTick_table _ (closeCycle (accept s)) t (by rw [(closeCycle_frame _).1]; rfl)
    (fun j => by rw [hcl]; exact settle_sup _) h i
  rw [this, hcl, settle_openCycle (s := s) (r := s) rfl rfl rfl]

end Sys2Proof.Machine
end

