-- ==== Sys2Proof/Laws/Cycle.lean ====
section
/-! SUPPORT. What one clock cycle leaves: the pad and the phase while a command runs, and the status, the clock and the
rows where a host write lands between commands. -/

namespace Sys2Proof.Machine

/-! ### The pad and the phase -/

/-- An access taken while a command runs leaves the pad and the phase. -/
theorem takeAccess_pin (a : Access) {s : State} (hb : s.status.busy = true) :
    (takeAccess a s).pad = s.pad ∧ (takeAccess a s).ph = s.ph := by
  cases a with
  | read off size => exact ⟨rfl, rfl⟩
  | write off size v =>
    obtain ⟨st, c, b, he, -⟩ := hostWrite_busy (s := s) off v hb
    rw [show takeAccess (.write off size v) s = _ from he]
    exact ⟨rfl, rfl⟩

/-- The end of a clock cycle leaves the pad and the phase. -/
theorem closeCycle_pin (s : State) : (closeCycle s).pad = s.pad ∧ (closeCycle s).ph = s.ph := by
  obtain ⟨r, n, he, -⟩ := settleRead_eq (settleSupervisor s)
  unfold closeCycle
  rw [he]
  exact ⟨rfl, rfl⟩

/-- Waiting for the next tick leaves the pad and the phase. -/
theorem toTick_pin (h : List HostEvent) : ∀ (s t : State), s.status.busy = true →
    toTick h s = .ok () t → t.pad = s.pad ∧ t.ph = s.ph := by
  induction h with
  | nil => intro s t hb ht; cases ht; exact ⟨rfl, rfl⟩
  | cons e es ih =>
    intro s t hb ht
    unfold toTick at ht
    split at ht
    · cases ht; exact ⟨rfl, rfl⟩
    · split at ht
      · cases ht
      · rename_i a _
        split at ht
        · have h1 := takeAccess_pin a (s := openCycle ((s.passCycles e.gap).withHost es)) hb
          simp only at ht
          split at ht
          · cases ht; exact h1
          · obtain ⟨tb, -, -⟩ := takeAccess_frame a (s := openCycle ((s.passCycles e.gap).withHost es)) hb
            have h2 := closeCycle_pin (takeAccess a (openCycle ((s.passCycles e.gap).withHost es)))
            have h3 := ih _ t (by rw [(closeCycle_frame _).1]; exact tb) ht
            exact ⟨h3.1.trans (h2.1.trans h1.1), h3.2.trans (h2.2.trans h1.2)⟩
        · cases ht

/-- Any number of ticks in which nothing cuts the command leaves the pad and the phase. -/
theorem ticks_pin (k : Nat) : ∀ (s t : State), s.status.busy = true →
    ticks k s = .ok () t → t.pad = s.pad ∧ t.ph = s.ph := by
  induction k with
  | zero => intro s t _ h; cases h; exact ⟨rfl, rfl⟩
  | succ k ih =>
    intro s t hb h
    have h' : (nextTick >>= fun _ => ticks k) s = .ok () t := h
    cases hn : nextTick s with
    | error c u => rw [bind_error hn] at h'; cases h'
    | ok a u =>
      rw [bind_ok hn] at h'
      have hg := nextTick_good s hb
      rw [hn] at hg
      have h1 := ih u t hg.1 h'
      have h2 := toTick_pin _ _ u (by rw [(closeCycle_frame s).1]; exact hb) hn
      have h3 := closeCycle_pin s
      exact ⟨h1.1.trans (h2.1.trans h3.1), h1.2.trans (h2.2.trans h3.2)⟩

/-- The phases in which the master drives the line low (10_state.md R73). -/
theorem drivesLow_iff (ph : Phase) : ph.drivesLow = true ↔ ph = .rstLow ∨ ph = .wLow ∨ ph = .rLow := by
  cases ph <;> decide

/-! ### A host write between commands -/

/-- Two entries agree but for ROM, TEMP and RES. -/
def SameRow (e e' : Entry) : Prop :=
  e'.cstate = e.cstate ∧ e'.tvalid = e.tvalid ∧ e'.elapsed = e.elapsed ∧ e'.sup = e.sup

/-- What a host write with BUSY = 0 leaves of STATUS, NOW, the environment and the rows (10_state.md R45). -/
theorem hostWrite_frame {o : State} {off : Offset} {v : Word} (hb : o.status.busy = false) (ha : off.toNat % 4 = 0) :
    let u := hostWrite off v o
    u.status.done = (o.status.done && !(off == 0x004 && v.getLsbD 1)) ∧
      u.status.ovr = (o.status.ovr && !(off == 0x004 && v.getLsbD 2)) ∧
      u.status.cevt = (o.status.cevt && !(off == 0x004 && v.getLsbD 5)) ∧
      u.status.busy = o.status.busy ∧ u.status.presence = o.status.presence ∧ u.status.rxbit = o.status.rxbit ∧
      u.status.err = o.status.err ∧ u.now = o.now ∧ u.env = o.env ∧ ∀ i : Fin 16, SameRow o.table[i] u.table[i] := by
  have rf : ∀ i : Fin 16, SameRow o.table[i] o.table[i] := fun i => ⟨rfl, rfl, rfl, rfl⟩
  have hrow : ∀ j : Fin 16, (BitVec.ofNat 9 (0x100 + 16 * j.val) == (0x004 : Offset)) = false ∧
      (BitVec.ofNat 9 (0x104 + 16 * j.val) == (0x004 : Offset)) = false := by decide +kernel
  rcases hostWrite_cases (s := o) (v := v) hb ha with ⟨e, n1, n2⟩ | ⟨rfl, e⟩ | ⟨rfl, e⟩ | ⟨rfl, e⟩ | ⟨rfl, e⟩ |
    ⟨rfl, e⟩ | ⟨rfl, e⟩ | ⟨j, hj, ⟨rfl, e⟩ | ⟨rfl, e⟩⟩
  · have : (off == (0x004 : Offset)) = false := beq_false_of_ne (n1 _ (by simp))
    show _ ∧ _
    rw [e, this]
    simp [- Fin.getElem_fin]
    exact rf
  · show _ ∧ _; rw [e]; exact ⟨rfl, rfl, rfl, rfl, rfl, rfl, rfl, rfl, rfl, rf⟩
  · show _ ∧ _; rw [e]; simp [- Fin.getElem_fin]; exact rf
  · show _ ∧ _; rw [e]; simp [- Fin.getElem_fin]; exact rf
  · show _ ∧ _; rw [e]; simp [- Fin.getElem_fin]; exact rf
  · show _ ∧ _; rw [e]; simp [- Fin.getElem_fin]; exact rf
  · show _ ∧ _; rw [e]; simp [- Fin.getElem_fin]; exact rf
  · show _ ∧ _; rw [e, (hrow j).1]
    refine ⟨(Bool.and_true _).symm, (Bool.and_true _).symm, (Bool.and_true _).symm, rfl, rfl, rfl, rfl, rfl, rfl,
      fun i => ?_⟩
    show SameRow _ (o.table.set j _)[i]
    rw [set_get]; split
    · subst i; exact ⟨rfl, rfl, rfl, rfl⟩
    · exact rf i
  · show _ ∧ _; rw [e, (hrow j).2]
    refine ⟨(Bool.and_true _).symm, (Bool.and_true _).symm, (Bool.and_true _).symm, rfl, rfl, rfl, rfl, rfl, rfl,
      fun i => ?_⟩
    show SameRow _ (o.table.set j _)[i]
    rw [set_get]; split
    · subst i; exact ⟨rfl, rfl, rfl, rfl⟩
    · exact rf i

/-- Entries that agree so agree so after the supervisor's step, and cause the same event. -/
theorem SameRow.settle {e e' : Entry} (h : SameRow e e') :
    SameRow e.settle e'.settle ∧ e'.supEvent = e.supEvent := by
  obtain ⟨h1, h2, h3, h4⟩ := h
  unfold Entry.settle Entry.supEvent
  cases hs : e.sup with
  | none => rw [hs] at h4; rw [h4]; exact ⟨⟨h1, h2, h3, by simp only [h4, hs]⟩, rfl⟩
  | some u => rw [hs] at h4; rw [h4]; exact ⟨⟨rfl, by simp only [h2], rfl, rfl⟩, rfl⟩

/-! ### The supervisor's step of a cycle -/

/-- The supervisor takes a row out of ConversionStarted exactly if its step of the cycle does. -/
theorem leavesStarted_iff (s : State) (i : Fin 16) : s.leavesStarted i = true ↔
    i.val < s.count.toNat ∧ s.table[i].cstate = .started ∧
    ((if s.isTick then s.supervisedRow i 1 s.table[i] else { s.table[i] with sup := none }) : Entry).cstate ≠
      .started := by
  rw [← supEvent_openCycle, supEvent_iff (openCycle_supOk s), settle_openCycle (s := s) (r := s) rfl rfl rfl]
  have : (openCycle s).table[i].cstate = s.table[i].cstate := by rw [openCycle_table, mapTable_get]
  rw [this]
  refine ⟨fun h => ⟨?_, h⟩, fun h => h.2⟩
  by_contra hn
  apply h.2
  by_cases ht : s.isTick = true
  · rw [if_pos ht, supervisedRow_invalid s i 1 _ hn]; exact h.1
  · rw [if_neg ht]; exact h.1

/-- The supervisor's steps depend on the parameters, the budget and COUNT alone. -/
theorem supervisedRow_congr {s t : State} (h1 : t.params = s.params) (h2 : t.budget = s.budget) (h3 : t.count = s.count)
    (i : Fin 16) (n : Nat) : ∀ e, t.supervisedRow i n e = s.supervisedRow i n e := by
  induction n with
  | zero => intro e; rfl
  | succ n ih => intro e; unfold State.supervisedRow; rw [ih, h1, h2, h3]

end Sys2Proof.Machine
end

