-- ==== Sys2Proof/Laws/Search.lean ====
section
/-! SUPPORT. What the search step does (42_enumeration.md R233): identifier bits, one search position, the positions
in a row on a bus of devices, and the five ways a search step ends. -/

namespace Sys2Proof.Machine

/-! ### Identifier bits -/

/-- Search position `k` is bit k − 1 of the identifier (42_enumeration.md R232). -/
theorem romBit_eq (rom : Ident) (k : Nat) : romBit rom k = rom.getLsbD (k - 1) := by
  unfold romBit romByte
  rw [BitVec.getLsbD_extractLsb']
  have h : (k - 1) % 8 < 8 := Nat.mod_lt _ (by decide)
  simp [h, Nat.div_add_mod]

theorem romBit_setRomBit (rom : Ident) (b : Bool) {k j : Nat} (hk : 1 ≤ k) (hj : 1 ≤ j) (hj' : j ≤ 64) :
    romBit (setRomBit rom k b) j = if j = k then b else romBit rom j := by
  rw [romBit_eq, romBit_eq]
  have h1 : (1#64 <<< (k - 1)).getLsbD (j - 1) = decide (j = k) := by
    rw [BitVec.getLsbD_shiftLeft]
    have : (1#64).getLsbD (j - 1 - (k - 1)) = decide (j - 1 - (k - 1) = 0) := by
      cases h : j - 1 - (k - 1) with
      | zero => rfl
      | succ n => simp [BitVec.getLsbD_one]
    rw [this]
    have h64 : decide (j - 1 < 64) = true := decide_eq_true (by omega)
    rw [h64]
    by_cases hjk : j = k
    · subst hjk; simp
    · simp only [hjk, decide_false]
      by_cases hlt : j - 1 < k - 1
      · simp [hlt]
      · have : j - 1 - (k - 1) ≠ 0 := by omega
        simp [this]
  unfold setRomBit
  have h64 : j - 1 < 64 := by omega
  cases b
  · simp only [Bool.false_eq_true, if_false, BitVec.getLsbD_and, BitVec.getLsbD_not, h1, h64, decide_true, Bool.true_and]
    by_cases hjk : j = k <;> simp [hjk]
  · simp only [if_true, BitVec.getLsbD_or, h1]
    by_cases hjk : j = k <;> simp [hjk]

/-- Identifiers with the same bits are the same. -/
theorem rom_ext {a b : Ident} (h : ∀ j, 1 ≤ j → j ≤ 64 → romBit a j = romBit b j) : a = b := by
  apply BitVec.eq_of_getLsbD_eq
  intro i hi
  have := h (i + 1) (by omega) (by omega)
  rwa [romBit_eq, romBit_eq] at this

theorem agreeBefore_iff (k : Nat) (a b : Ident) :
    agreeBefore k a b = true ↔ ∀ j, 1 ≤ j → j < k → romBit a j = romBit b j := by
  unfold agreeBefore
  rw [List.all_eq_true]
  constructor
  · intro h j h1 h2
    have := h (j - 1) (by rw [List.mem_range]; omega)
    rw [show j - 1 + 1 = j by omega] at this
    simpa using this
  · intro h j hj
    rw [List.mem_range] at hj
    simpa using h (j + 1) (by omega) (by omega)

theorem mem_respond {ds : List Ident} {d a : Ident} {k : Nat} :
    a ∈ respond ds d k ↔ a ∈ ds ∧ ∀ j, 1 ≤ j → j < k → romBit a j = romBit d j := by
  unfold respond
  rw [List.mem_filter, agreeBefore_iff]

/-- The two bits a bus answers at a position of the path to one of its devices (42_enumeration.md R234). -/
theorem wired_cases {ds : List Ident} {d : Ident} (hd : d ∈ ds) (k : Nat) :
    (wiredBit ds d k && wiredComplement ds d k) = false ∧
      ((wiredBit ds d k != wiredComplement ds d k) = true → wiredBit ds d k = romBit d k) ∧
      (wiredBit ds d k == wiredComplement ds d k) = splits ds d k := by
  have hm : d ∈ respond ds d k := mem_respond.mpr ⟨hd, fun _ _ _ => rfl⟩
  have h1 : wiredBit ds d k = true → romBit d k = true := by
    intro h
    exact List.all_eq_true.mp h d hm
  have h2 : wiredComplement ds d k = true → romBit d k = false := by
    intro h
    simpa using List.all_eq_true.mp h d hm
  unfold splits
  cases hb : wiredBit ds d k <;> cases hc : wiredComplement ds d k <;> simp_all

theorem lastZeroFrom_le (ds : List Ident) (d : Ident) (n : Nat) : ∀ (k z : Nat), z < k →
    lastZeroFrom ds d n k z < k + n := by
  induction n with
  | zero => intro k z h; exact h
  | succ n ih =>
    intro k z h
    unfold lastZeroFrom
    have : (if (splits ds d k && !romBit d k) = true then k else z) < k + 1 := by split <;> omega
    have := ih (k + 1) _ this
    omega

/-! ### The working registers of a search -/

theorem ByteRegsOnly.search {x y : Work} (h : ByteRegsOnly x y) : SearchRegsOnly x y := by
  obtain ⟨a, b, rfl⟩ := h
  exact ⟨a, b, _, _, _, _, _, _, _, _, rfl⟩

theorem SearchRegsOnly.refl (x : Work) : SearchRegsOnly x x := (ByteRegsOnly.refl x).search

theorem SearchRegsOnly.trans {x y z : Work} (h : SearchRegsOnly x y) (g : SearchRegsOnly y z) : SearchRegsOnly x z := by
  obtain ⟨_, _, _, _, _, _, _, _, _, _, rfl⟩ := h
  obtain ⟨a, b, c, d, e, f, i, j, k, l, rfl⟩ := g
  exact ⟨a, b, c, d, e, f, i, j, k, l, rfl⟩

/-- A position at which the bus of `ds` answers and `d` follows the search direction: steps 3 to 6 (R233). -/
theorem position_spec {ds : List Ident} {d : Ident} {s : State} {k : Nat} (hd : d ∈ ds)
    (hf : splits ds d k = true → romBit d k =
      if k < s.session.ld.toNat then romBit s.session.rombuf k else decide (k = s.session.ld.toNat)) :
    let t := choose k (noteBits k (wiredBit ds d k) (wiredComplement ds d k) s)
    (∃ x, t = { s with x := x }) ∧ SearchRegsOnly s.x t.x ∧ t.x.dir = romBit d k ∧ t.x.newrom = s.x.newrom ∧
      t.x.lastzero = (if splits ds d k && !romBit d k then BitVec.ofNat 7 k else s.x.lastzero) ∧
      t.x.lfdw = (if splits ds d k && !romBit d k && decide (k ≤ 8) then BitVec.ofNat 4 k else s.x.lfdw) := by
  obtain ⟨-, h2, h3⟩ := wired_cases hd k
  have hdir : direction s.session k (wiredBit ds d k) (wiredComplement ds d k) = romBit d k := by
    unfold direction
    split
    · rename_i h; exact h2 h
    · rename_i h
      have hs : splits ds d k = true := by
        rw [← h3]; simpa using h
      rw [hf hs]
      unfold discrepancyDirection
      split
      · rfl
      · cases hk : decide (k = s.session.ld.toNat) <;> simp_all
  simp only
  unfold choose
  have hz : tookZero (noteDirection k (noteBits k (wiredBit ds d k) (wiredComplement ds d k) s)) =
      (splits ds d k && !romBit d k) := by
    show ((wiredBit ds d k == wiredComplement ds d k) && !direction s.session k (wiredBit ds d k) (wiredComplement ds d k)) = _
    rw [h3, hdir]
  rw [hz]
  by_cases hc : (splits ds d k && !romBit d k) = true
  · rw [if_pos hc, hc]
    refine ⟨⟨_, rfl⟩, ⟨_, _, _, _, _, _, _, _, _, _, rfl⟩, hdir, rfl, rfl, ?_⟩
    show (if k ≤ 8 then BitVec.ofNat 4 k else s.x.lfdw) = _
    by_cases h8 : k ≤ 8 <;> simp [h8]
  · rw [if_neg hc]
    rw [Bool.not_eq_true] at hc
    rw [hc]
    exact ⟨⟨_, rfl⟩, ⟨_, _, _, _, _, _, _, _, _, _, rfl⟩, hdir, rfl, rfl, rfl⟩

/-- `n` search positions from `k` on, on the bus `ds`, on the way to `d`. -/
theorem searchFrom_spec {ds : List Ident} {d : Ident} {se : Session} (hd : d ∈ ds) (m : Nat) (n : Nat) :
    ∀ {s : State} (k z y : Nat) (rest : List Bool), Live s → s.params.tRs ≠ 0 → s.session = se → 1 ≤ k → k + n ≤ 65 →
      (∀ j, k ≤ j → j < k + n → splits ds d j = true → romBit d j =
        if j < se.ld.toNat then romBit se.rombuf j else decide (j = se.ld.toNat)) →
      s.env.bus = searchBits ds d n k ++ rest → s.x.lastzero = BitVec.ofNat 7 z → s.x.lfdw = BitVec.ofNat 4 y →
      ∃ t, searchFrom (n + m) k s = searchFrom m (k + n) t ∧ Live t ∧ Does (positionSlots d n k) s t ∧
        t.status.presence = s.status.presence ∧ t.status.rxbit = s.status.rxbit ∧ SearchRegsOnly s.x t.x ∧
        (∀ j, 1 ≤ j → j ≤ 64 → romBit t.x.newrom j = if k ≤ j ∧ j < k + n then romBit d j else romBit s.x.newrom j) ∧
        t.x.lastzero = BitVec.ofNat 7 (lastZeroFrom ds d n k z) ∧
        t.x.lfdw = BitVec.ofNat 4 (lastZeroFrom ds d (min n (9 - k)) k y) := by
  induction n with
  | zero =>
    intro s k z y rest h _ _ _ _ _ _ hz hy
    refine ⟨s, by simp, h, Does.still (.refl s) rfl rfl rfl, rfl, rfl, .refl _, ?_, hz, ?_⟩
    · intro j _ _
      rw [if_neg (by omega)]
    · simpa [lastZeroFrom] using hy
  | succ n ih =>
    intro s k z y rest h hrs hse hk hkn hf hbus hz hy
    obtain ⟨b1, t1, e1, l1, d1, p1, r1, x1, q1⟩ := slotRead_spec h
    have hp1 : t1.params = s.params := d1.params
    obtain ⟨b2, t2, e2, l2, d2, p2, r2, x2, q2⟩ := slotRead_spec l1
    have hp2 : t2.params = s.params := d2.params.trans hp1
    have hb1 : b1 = wiredBit ds d k := by
      have := q1 hrs
      rw [hbus] at this
      exact this.1.symm
    have hb2 : b2 = wiredComplement ds d k := by
      have := q2 (by rw [hp1]; exact hrs)
      rw [d1.bus, hbus] at this
      exact this.1.symm
    subst hb1 hb2
    have hse2 : t2.session = se := (d2.session.trans d1.session).trans hse
    obtain ⟨⟨x3, hx3⟩, w3, hdir, hnew, hlz, hlf⟩ := position_spec (s := t2) (k := k) hd (by
      rw [hse2]; exact hf k (Nat.le_refl k) (by omega))
    obtain ⟨l3, d3⟩ := work_step hx3 l2
    obtain ⟨t4, e4, l4, d4, p4, r4, x4⟩ := slotWrite_spec l3 (romBit d k)
    have hx5 : storeDirection k t4 = { t4 with x := { t4.x with newrom := setRomBit t4.x.newrom k t4.x.dir } } := rfl
    obtain ⟨l5, d5⟩ := work_step hx5 l4
    have D := (((d1.trans d2).trans d3).trans d4).trans d5
    have hs5 : (storeDirection k t4).session = se := D.session.trans hse
    have hp5 : (storeDirection k t4).params = s.params := D.params
    have hbus5 : (storeDirection k t4).env.bus = searchBits ds d n (k + 1) ++ rest := by
      rw [D.bus, hbus]; rfl
    have hxs : t2.x = s.x := x2.trans x1
    rw [hxs] at hlz hlf hnew w3
    have hlz5 : (storeDirection k t4).x.lastzero =
        BitVec.ofNat 7 (if splits ds d k && !romBit d k then k else z) := by
      show t4.x.lastzero = _
      rw [x4, hlz, hz]
      split <;> rfl
    have hlf5 : (storeDirection k t4).x.lfdw =
        BitVec.ofNat 4 (if splits ds d k && !romBit d k && decide (k ≤ 8) then k else y) := by
      show t4.x.lfdw = _
      rw [x4, hlf, hy]
      split <;> rfl
    obtain ⟨t6, e6, l6, d6, p6, r6, w6, n6, z6, y6⟩ := ih (s := storeDirection k t4) (k + 1) _ _ rest l5
      (by rw [hp5]; exact hrs) hs5 (by omega) (by omega)
      (fun j h1 h2 => hf j (by omega) (by omega)) hbus5 hlz5 hlf5
    refine ⟨t6, ?_, l6, D.trans d6, ?_, ?_, ?_, ?_, ?_, ?_⟩
    · rw [show n + 1 + m = (n + m) + 1 by omega]
      show (do
        let idb ← slotRead
        let cmb ← slotRead
        modify (noteBits k idb cmb)
        if idb && cmb then pure false
        else
          modify (choose k)
          let s ← get
          slotWrite s.x.dir
          modify (storeDirection k)
          searchFrom (n + m) (k + 1) : Engine Bool) s = _
      rw [bind_ok e1, bind_ok e2, bind_ok (modify_ok _ _), (wired_cases hd k).1, if_neg (by decide),
        bind_ok (modify_ok _ _), bind_ok (get_ok _), hdir, bind_ok e4, bind_ok (modify_ok _ _), e6,
        show k + 1 + n = k + (n + 1) by omega]
    · rw [p6]
      show t4.status.presence = _
      rw [p4, hx3]
      exact p2.trans p1
    · rw [r6]
      show t4.status.rxbit = _
      rw [r4, hx3]
      exact r2.trans r1
    · refine w3.trans (.trans ?_ w6)
      rw [← x4]
      exact ⟨_, _, _, _, _, _, _, _, _, _, rfl⟩
    · intro j h1 h2
      rw [n6 j h1 h2]
      show (if k + 1 ≤ j ∧ j < k + 1 + n then romBit d j else romBit (setRomBit t4.x.newrom k t4.x.dir) j) = _
      rw [romBit_setRomBit _ _ hk h1 h2, x4, hdir, hnew]
      by_cases hj : j = k
      · subst hj
        simp
      · by_cases hj2 : k ≤ j ∧ j < k + (n + 1)
        · rw [if_pos (by omega), if_pos hj2]
        · rw [if_neg (by omega), if_neg hj, if_neg hj2]
    · rw [z6]; rfl
    · rw [y6]
      by_cases h8 : k ≤ 8
      · rw [show min (n + 1) (9 - k) = min n (9 - (k + 1)) + 1 by omega]
        show _ = BitVec.ofNat 4 (lastZeroFrom ds d (min n (9 - (k + 1))) (k + 1) _)
        simp [h8]
      · rw [show min (n + 1) (9 - k) = 0 by omega, show min n (9 - (k + 1)) = 0 by omega]
        simp [lastZeroFrom, h8]

theorem searchBits_length (ds : List Ident) (d : Ident) (n : Nat) : ∀ k, (searchBits ds d n k).length = 2 * n := by
  induction n with
  | zero => intro k; rfl
  | succ n ih => intro k; simp only [searchBits, List.length_cons, ih]; omega

theorem sampleCount_positionSlots (d : Ident) (n : Nat) : ∀ k, sampleCount (positionSlots d n k) = 2 * n := by
  induction n with
  | zero => intro k; rfl
  | succ n ih => intro k; simp only [positionSlots, sampleCount, Slot.samples, ih]; omega

theorem sampleCount_searchSlots (d : Ident) : sampleCount (searchSlots d) = 129 := by
  unfold searchSlots
  rw [sampleCount_append, sampleCount_positionSlots]
  rfl

/-! ### The search step -/

/-- A search step from `s` to `t` (42_enumeration.md R233): its slots, the session state it leaves, and the presence of
its reset slot. -/
structure Searched (slots : List Slot) (se : Session) (p : Bool) (s t : State) : Prop where
  live : Live t
  does : Does slots s { t with session := s.session }
  session : t.session = se
  presence : t.status.presence = p
  rxbit : t.status.rxbit = s.status.rxbit
  x : SearchRegsOnly s.x t.x

theorem Live.setSession {s : State} (h : Live s) (se : Session) : Live { s with session := se } :=
  h.of_eq rfl rfl rfl rfl

theorem Does.clearSession {slots : List Slot} {s t : State} (d : Does slots s t) :
    Does slots s { clearSession t with session := s.session } := by
  have : ({ Sys2Proof.Machine.clearSession t with session := s.session } : State) = t := by
    rw [← d.session]
    rfl
  rw [this]
  exact d

/-- A finished pass: nothing happens (42_enumeration.md R241). -/
theorem searchStep_complete {s : State} (hl : s.session.ldf = true) : searchStep s = .ok .complete s := by
  unfold searchStep
  rw [bind_ok (get_ok _), if_pos hl]
  rfl

/-- The reset slot of a search step, with the answer the bus gives. -/
theorem searchStep_reset {s : State} (h : Live s) (hp : s.params.tPds ≠ 0) (hl : s.session.ldf = false) (a : Bool)
    (rest : List Bool) (hb : s.env.bus = a :: rest) :
    ∃ t, Live t ∧ Does [.reset] s t ∧ t.status.presence = !a ∧ t.status.rxbit = s.status.rxbit ∧ t.x = s.x ∧
      searchStep s = (if a then .ok .busAbsent (clearSession t) else (do
        sendByte searchRomByte
        modify beginSearch
        let found ← searchFrom 64 1
        if !found then
          modify clearSession
          pure .collision
        else
          endSearch : Engine Code) t) := by
  obtain ⟨b, t, e, l, d, p, r, x, q⟩ := slotReset_spec h
  have hba : b = !a := by
    have := q hp
    rw [hb] at this
    have h1 : a = !b := this.1
    rw [h1, Bool.not_not]
  subst hba
  refine ⟨t, l, d, p, r, x, ?_⟩
  unfold searchStep
  rw [bind_ok (get_ok _), if_neg (by rw [hl]; decide), bind_ok e]
  cases a <;> rfl

/-- No presence (42_enumeration.md R233). -/
theorem searchStep_absent {s : State} (h : Live s) (hp : s.params.tPds ≠ 0) (hl : s.session.ldf = false)
    (rest : List Bool) (hb : s.env.bus = true :: rest) :
    ∃ t, searchStep s = .ok .busAbsent t ∧ Searched [.reset] .clear false s t := by
  obtain ⟨t, l, d, p, r, x, e⟩ := searchStep_reset h hp hl true rest hb
  exact ⟨clearSession t, by rw [e, if_pos rfl], l.setSession _, d.clearSession, rfl, p, r, x ▸ .refl _⟩

/-- A search step up to the end of its first `n` positions, on the bus `ds`, on the way to `d`. -/
theorem searchStep_follows {ds : List Ident} {d : Ident} {s : State} {n : Nat} (hn : n ≤ 64) (h : Live s)
    (hp : s.params.tPds ≠ 0) (hr : s.params.tRs ≠ 0) (hl : s.session.ldf = false) (hf : FollowsTo n ds s.session d)
    (rest : List Bool) (hb : s.env.bus = false :: searchBits ds d n 1 ++ rest) :
    ∃ t, Live t ∧ Does (searchHead ++ positionSlots d n 1) s t ∧ t.status.presence = true ∧
      t.status.rxbit = s.status.rxbit ∧ SearchRegsOnly s.x t.x ∧
      (∀ j, 1 ≤ j → j ≤ n → romBit t.x.newrom j = romBit d j) ∧
      t.x.lastzero = BitVec.ofNat 7 (lastZeroFrom ds d n 1 0) ∧
      t.x.lfdw = BitVec.ofNat 4 (lastZeroFrom ds d (min n 8) 1 s.session.lfd.toNat) ∧
      searchStep s = (do
        let found ← searchFrom (64 - n) (n + 1)
        if !found then
          modify clearSession
          pure .collision
        else
          endSearch : Engine Code) t := by
  obtain ⟨t1, l1, d1, p1, r1, x1, e1⟩ := searchStep_reset h hp hl false _ hb
  obtain ⟨t2, e2, l2, d2, p2, r2, x2⟩ := sendByte_spec l1 searchRomByte
  obtain ⟨l3, d3⟩ := work_step (t := beginSearch t2) rfl l2
  have D := (d1.trans d2).trans d3
  have hse : (beginSearch t2).session = s.session := D.session
  have hbus : (beginSearch t2).env.bus = searchBits ds d n 1 ++ rest := by
    rw [D.bus, hb]
    rfl
  have hlfd : (beginSearch t2).x.lfdw = BitVec.ofNat 4 s.session.lfd.toNat := by
    show t2.session.lfd = _
    rw [show t2.session = s.session from hse, BitVec.ofNat_toNat, BitVec.setWidth_eq]
  obtain ⟨t4, e4, l4, d4, p4, r4, x4, n4, z4, y4⟩ := searchFrom_spec hf.1 (64 - n) n (s := beginSearch t2) 1 0 _ rest l3
    (by rw [show (beginSearch t2).params = s.params from D.params]; exact hr) hse (Nat.le_refl 1) (by omega)
    (fun j h1 h2 => hf.2 j h1 (by omega)) hbus rfl hlfd
  refine ⟨t4, l4, D.trans d4, ?_, ?_, ?_, ?_, z4, y4, ?_⟩
  · rw [p4]; exact p2.trans p1
  · rw [r4]; exact r2.trans r1
  · refine .trans ?_ x4
    rw [x1] at x2
    refine x2.search.trans ⟨t2.x.sh, t2.x.bit, t2.x.pos, 0, t2.session.lfd, t2.x.idb, t2.x.cmb, t2.x.dir,
      t2.session.rombuf, t2.x.c, ?_⟩
    rfl
  · intro j h1 h2
    rw [n4 j h1 (by omega), if_pos (by omega)]
  · rw [e1, if_neg (by decide), bind_ok e2, bind_ok (modify_ok _ _)]
    rw [show (64 : Nat) = n + (64 - n) by omega]
    show EStateM.bind (searchFrom (n + (64 - n)) 1) _ (beginSearch t2) = EStateM.bind _ _ t4
    unfold EStateM.bind
    rw [e4, show n + (64 - n) - n = 64 - n by omega, Nat.add_comm 1 n]

/-- Both bits read as 1 at position n + 1: a protocol error (42_enumeration.md R235). -/
theorem searchStep_collision {ds : List Ident} {d : Ident} {s : State} {n : Nat} (hn : n < 64) (h : Live s)
    (hp : s.params.tPds ≠ 0) (hr : s.params.tRs ≠ 0) (hl : s.session.ldf = false) (hf : FollowsTo n ds s.session d)
    (rest : List Bool) (hb : s.env.bus = false :: searchBits ds d n 1 ++ true :: true :: rest) :
    ∃ t, searchStep s = .ok .collision t ∧
      Searched (searchHead ++ positionSlots d n 1 ++ [.read, .read]) .clear true s t := by
  obtain ⟨t1, l1, d1, p1, r1, x1, -, -, -, e1⟩ := searchStep_follows (by omega) h hp hr hl hf _ hb
  have hp1 : t1.params = s.params := d1.params
  have hcount : sampleCount (searchHead ++ positionSlots d n 1) = 1 + 2 * n := by
    rw [sampleCount_append, sampleCount_positionSlots]
    rfl
  have hbus1 : t1.env.bus = true :: true :: rest := by
    rw [d1.bus, hb, hcount, List.drop_append_of_le_length (by simp only [List.length_cons, searchBits_length]; omega)]
    rw [List.drop_eq_nil_of_le (by simp only [List.length_cons, searchBits_length]; omega)]
    rfl
  obtain ⟨b2, t2, e2, l2, d2, p2, r2, x2, q2⟩ := slotRead_spec l1
  obtain ⟨b3, t3, e3, l3, d3, p3, r3, x3, q3⟩ := slotRead_spec l2
  have hb2 : b2 = true := by
    have := q2 (by rw [hp1]; exact hr)
    rw [hbus1] at this
    exact this.1.symm
  have hb3 : b3 = true := by
    have := q3 (by rw [d2.params, hp1]; exact hr)
    rw [d2.bus, hbus1] at this
    exact this.1.symm
  subst hb2 hb3
  obtain ⟨l4, d4⟩ := work_step (t := noteBits (n + 1) true true t3) rfl l3
  have D := ((d1.trans d2).trans d3).trans d4
  refine ⟨clearSession (noteBits (n + 1) true true t3), ?_, l4.setSession _, ?_, rfl, ?_, ?_, ?_⟩
  · rw [e1, show 64 - n = (63 - n) + 1 by omega]
    have : searchFrom (63 - n + 1) (n + 1) t1 = .ok false (noteBits (n + 1) true true t3) := by
      unfold searchFrom
      rw [bind_ok e2, bind_ok e3, bind_ok (modify_ok _ _)]
      rfl
    rw [bind_ok this]
    rfl
  · exact (D.cast (by simp)).clearSession
  · exact (p3.trans p2).trans p1
  · exact (r3.trans r2).trans r1
  · refine x1.trans ?_
    show SearchRegsOnly t1.x (noteBits (n + 1) true true t3).x
    have : t3.x = t1.x := x3.trans x2
    refine ⟨t1.x.sh, t1.x.bit, BitVec.ofNat 7 (n + 1), t1.x.lastzero, t1.x.lfdw, true, true, t1.x.dir, t1.x.newrom, t1.x.c, ?_⟩
    show { t3.x with pos := BitVec.ofNat 7 (n + 1), idb := true, cmb := true } = _
    rw [this]

/-- All 64 positions lead to `d`: its CRC decides (42_enumeration.md R239). -/
theorem searchStep_found {ds : List Ident} {d : Ident} {s : State} (h : Live s) (hp : s.params.tPds ≠ 0)
    (hr : s.params.tRs ≠ 0) (hl : s.session.ldf = false) (hf : FollowsTo 64 ds s.session d)
    (rest : List Bool) (hb : s.env.bus = false :: searchBits ds d 64 1 ++ rest) :
    ∃ t, searchStep s = .ok (if romValid d then .ok else .crcMismatch) t ∧
      Searched (searchSlots d) (if romValid d then afterFound ds s.session d else .clear) true s t := by
  obtain ⟨t1, l1, d1, p1, r1, x1, n1, z1, y1, e1⟩ := searchStep_follows (Nat.le_refl 64) h hp hr hl hf rest hb
  have hnew : t1.x.newrom = d := rom_ext n1
  obtain ⟨l2, d2⟩ := work_step (t := setWorkCrc (crc8 (romBody t1.x.newrom)) t1) rfl l1
  have D : Does (searchSlots d) s (setWorkCrc (crc8 (romBody t1.x.newrom)) t1) := (d1.trans d2).cast (by simp [searchSlots])
  have hx : SearchRegsOnly s.x (setWorkCrc (crc8 (romBody t1.x.newrom)) t1).x :=
    x1.trans ⟨_, _, _, _, _, _, _, _, _, _, rfl⟩
  have e2 : searchStep s = endSearch t1 := by
    rw [e1]
    rfl
  have hlz := lastZeroFrom_le ds d 64 1 0 (by omega)
  by_cases hv : romValid d = true
  · rw [if_pos hv, if_pos hv]
    refine ⟨commitSearch (setWorkCrc (crc8 (romBody t1.x.newrom)) t1), ?_, l2.setSession _, ?_, ?_, p1, r1, hx⟩
    · rw [e2]
      unfold endSearch
      rw [bind_ok (modify_ok _ _), bind_ok (get_ok _)]
      rw [show (setWorkCrc (crc8 (romBody t1.x.newrom)) t1).x.newrom = d from hnew, if_pos hv]
      rfl
    · have : ({ commitSearch (setWorkCrc (crc8 (romBody t1.x.newrom)) t1) with session := s.session } : State) =
          setWorkCrc (crc8 (romBody t1.x.newrom)) t1 := by
        rw [← D.session]
        rfl
      rw [this]
      exact D
    · show Session.mk t1.x.lastzero t1.x.lfdw (t1.session.ldf || t1.x.lastzero == 0) t1.x.newrom = _
      rw [hnew, z1, y1, show t1.session = s.session from d1.session, hl]
      unfold afterFound
      congr 1
      rw [Bool.false_or, Bool.eq_iff_iff, beq_iff_eq, beq_iff_eq]
      constructor
      · intro h0
        have := congrArg BitVec.toNat h0
        rw [BitVec.toNat_ofNat, Nat.mod_eq_of_lt (by omega)] at this
        exact this
      · intro h0
        rw [h0]
        rfl
  · rw [if_neg hv, if_neg hv]
    refine ⟨clearSession (setWorkCrc (crc8 (romBody t1.x.newrom)) t1), ?_, l2.setSession _, D.clearSession, rfl, p1, r1, hx⟩
    rw [e2]
    unfold endSearch
    rw [bind_ok (modify_ok _ _), bind_ok (get_ok _)]
    rw [show (setWorkCrc (crc8 (romBody t1.x.newrom)) t1).x.newrom = d from hnew, if_neg hv]
    rfl

/-- A command whose pseudocode is a search step. -/
theorem command_of_search {s t u : State} {body : Engine Code} {code : Code} {slots : List Slot} {se : Session} {p : Bool}
    (b : Begun s t) (r : runCommand body s = landed (body t)) (e : body t = .ok code u) (h : Searched slots se p t u) :
    ∃ v, runCommand body s = .next v ∧ Ended s v code slots ∧ v.session = se ∧ v.status.presence = p ∧
      Untouched s { v with session := s.session } ∧ Supervised s v ∧ v.status.rxbit = s.status.rxbit ∧
      SearchRegsOnly s.startWork v.x := by
  obtain ⟨v, e1, en, f⟩ := command_spec b r e h.live ⟨h.does.params, h.does.wave, h.does.now, h.does.bus⟩
  refine ⟨v, e1, en, f.untouched.session.trans h.session, f.presence.trans h.presence, ?_, ?_,
    f.rxbit.trans (h.rxbit.trans b.rxbit), ?_⟩
  · have h1 : Untouched s { u with session := t.session } := b.untouched.trans (.of_keeps h.does.toKeeps)
    exact (h1.setSession s.session).trans (f.untouched.setSession s.session)
  · have h1 : Supervised s { u with session := t.session } := b.supervised.trans (.of_keeps h.does.toKeeps)
      b.untouched.count (fun q => (b.untouched.quiet q).1) h.does.cevt
    exact h1.trans (f.supervised.congr rfl rfl rfl rfl rfl (fun q => q)) (h.does.count.trans b.untouched.count)
      (fun q => (h.does.quiet (b.untouched.quiet q).1).1) f.untouched.cevt
  · rw [f.x, ← b.x]
    exact h.x

/-- Legal parameters leave time between the release and the presence sample (00_scope.md R13). -/
theorem tPds_ne_zero {p : Params} (h : p.Legal) : p.tPds ≠ 0 := by
  have := h.2.2.1
  omega

end Sys2Proof.Machine
end

