-- ==== Sys2Proof/Laws/Discovery.lean ====
section
/-! SUPPORT. The order of discovery (42_enumeration.md R251): on a bus whose devices are listed in ascending order,
the search step from a clear session goes to the first one, and each later step to the next. -/

namespace Sys2Proof.Machine

theorem comesBefore.irrefl (a : Ident) : ¬ comesBefore a a := by
  rintro ⟨k, -, -, -, h0, h1⟩
  rw [h0] at h1
  cases h1

/-- The position at which two identifiers in order first differ decides a third one's place between them. -/
theorem comesBefore.trans {a b c : Ident} (h : comesBefore a b) (g : comesBefore b c) : comesBefore a c := by
  obtain ⟨k, k1, k64, ka, k0, kb⟩ := h
  obtain ⟨l, l1, l64, la, l0, lb⟩ := g
  by_cases hkl : k < l
  · exact ⟨k, k1, k64, fun j h1 h2 => (ka j h1 h2).trans (la j h1 (by omega)), k0, (la k k1 hkl).symm.trans kb⟩
  · have hne : l ≠ k := by
      rintro rfl
      rw [kb] at l0
      cases l0
    exact ⟨l, l1, l64, fun j h1 h2 => (ka j h1 (by omega)).trans (la j h1 h2), (ka l l1 (by omega)).trans l0, lb⟩

theorem comesBefore.asymm {a b : Ident} (h : comesBefore a b) : ¬ comesBefore b a :=
  fun g => comesBefore.irrefl a (h.trans g)

/-- A discrepancy on the path to `d`: some responding device has the other bit. -/
theorem splits_other {ds : List Ident} {d : Ident} {k : Nat} (h : splits ds d k = true) (b : Bool) :
    ∃ a ∈ ds, (∀ j, 1 ≤ j → j < k → romBit a j = romBit d j) ∧ romBit a k = b := by
  unfold splits wiredBit wiredComplement at h
  simp only [Bool.and_eq_true, Bool.not_eq_true', List.all_eq_false] at h
  obtain ⟨⟨a, ha, ha'⟩, ⟨c, hc, hc'⟩⟩ := h
  cases b
  · exact ⟨a, (mem_respond.mp ha).1, (mem_respond.mp ha).2, by simpa using ha'⟩
  · exact ⟨c, (mem_respond.mp hc).1, (mem_respond.mp hc).2, by simpa using hc'⟩

/-- A device that leaves the path at a position makes it a discrepancy. -/
theorem splits_of_other {ds : List Ident} {d a : Ident} {k : Nat} (hd : d ∈ ds) (ha : a ∈ ds)
    (h : ∀ j, 1 ≤ j → j < k → romBit a j = romBit d j) (hk : romBit a k ≠ romBit d k) : splits ds d k = true := by
  have hm : d ∈ respond ds d k := mem_respond.mpr ⟨hd, fun _ _ _ => rfl⟩
  have ha' : a ∈ respond ds d k := mem_respond.mpr ⟨ha, h⟩
  unfold splits wiredBit wiredComplement
  simp only [Bool.and_eq_true, Bool.not_eq_true', List.all_eq_false]
  cases hb : romBit d k with
  | false =>
    rw [hb] at hk
    exact ⟨⟨d, hm, by simp [hb]⟩, ⟨a, ha', by simpa using hk⟩⟩
  | true =>
    rw [hb] at hk
    exact ⟨⟨a, ha', by simpa using hk⟩, ⟨d, hm, by simp [hb]⟩⟩

theorem lastZeroFrom_ge (ds : List Ident) (d : Ident) (n : Nat) : ∀ (k z : Nat), z < k →
    (z ≤ lastZeroFrom ds d n k z) ∧
    (∀ j, k ≤ j → j < k + n → splits ds d j = true → romBit d j = false → j ≤ lastZeroFrom ds d n k z) := by
  induction n with
  | zero =>
    intro k z h
    exact ⟨Nat.le_refl z, fun j h1 h2 => by omega⟩
  | succ n ih =>
    intro k z h
    unfold lastZeroFrom
    have hlt : (if (splits ds d k && !romBit d k) = true then k else z) < k + 1 := by split <;> omega
    obtain ⟨i1, i2⟩ := ih (k + 1) _ hlt
    refine ⟨Nat.le_trans (by split <;> omega) i1, ?_⟩
    intro j h1 h2 hs hb
    by_cases hj : j = k
    · subst hj
      have hc : (splits ds d j && !romBit d j) = true := by simp [hs, hb]
      have := i1
      rw [if_pos hc] at this ⊢
      exact this
    · exact i2 j (by omega) (by omega) hs hb

theorem lastZeroFrom_mem (ds : List Ident) (d : Ident) (n : Nat) : ∀ (k z : Nat),
    lastZeroFrom ds d n k z = z ∨ (k ≤ lastZeroFrom ds d n k z ∧ lastZeroFrom ds d n k z < k + n ∧
      splits ds d (lastZeroFrom ds d n k z) = true ∧ romBit d (lastZeroFrom ds d n k z) = false) := by
  induction n with
  | zero => intro k z; exact .inl rfl
  | succ n ih =>
    intro k z
    unfold lastZeroFrom
    by_cases hc : (splits ds d k && !romBit d k) = true
    · rw [if_pos hc]
      rcases ih (k + 1) k with h | ⟨h1, h2, h3, h4⟩
      · right
        rw [h]
        simp only [Bool.and_eq_true, Bool.not_eq_true'] at hc
        exact ⟨Nat.le_refl k, by omega, hc.1, hc.2⟩
      · exact .inr ⟨by omega, by omega, h3, h4⟩
    · rw [if_neg hc]
      rcases ih (k + 1) z with h | ⟨h1, h2, h3, h4⟩
      · exact .inl h
      · exact .inr ⟨by omega, by omega, h3, h4⟩

/-- From a clear session the search goes to the first device. -/
theorem follows_first {d : Ident} {rest : List Ident} (h : (d :: rest).Pairwise comesBefore) :
    FollowsTo 64 (d :: rest) .clear d := by
  refine ⟨List.mem_cons_self, ?_⟩
  intro k h1 h2 hs
  have h0 : (Session.clear.ld).toNat = 0 := rfl
  rw [h0, if_neg (by omega), decide_eq_false (by omega)]
  by_contra hb
  rw [Bool.not_eq_false] at hb
  obtain ⟨a, ha, hj, h0⟩ := splits_other hs false
  have hlt : comesBefore a d := ⟨k, h1, h2, hj, h0, hb⟩
  rcases List.mem_cons.mp ha with rfl | hr
  · exact comesBefore.irrefl _ hlt
  · exact comesBefore.asymm hlt ((List.pairwise_cons.mp h).1 a hr)

/-- The last device has no discrepancy at which it takes 0: LDF is set after it. -/
theorem lastZero_last {pre : List Ident} {d : Ident} (h : (pre ++ [d]).Pairwise comesBefore) :
    lastZeroFrom (pre ++ [d]) d 64 1 0 = 0 := by
  rcases lastZeroFrom_mem (pre ++ [d]) d 64 1 0 with hz | ⟨h1, h2, hs, hb⟩
  · exact hz
  · obtain ⟨a, ha, hj, h1'⟩ := splits_other hs true
    have hlt : comesBefore d a := ⟨_, h1, by omega, fun j a b => (hj j a b).symm, hb, h1'⟩
    rcases List.mem_append.mp ha with hp | hd
    · exact absurd ((List.pairwise_append.mp h).2.2 a hp d (by simp)) (comesBefore.asymm hlt)
    · rw [List.mem_singleton.mp hd] at hlt
      exact absurd hlt (comesBefore.irrefl d)

/-- After one device the search goes to the next one, which is not yet the end of the pass. -/
theorem follows_next {pre post : List Ident} {c d : Ident} (se : Session)
    (h : (pre ++ c :: d :: post).Pairwise comesBefore) :
    lastZeroFrom (pre ++ c :: d :: post) c 64 1 0 ≠ 0 ∧
      FollowsTo 64 (pre ++ c :: d :: post) (afterFound (pre ++ c :: d :: post) se c) d := by
  have hc : c ∈ pre ++ c :: d :: post := by simp
  have hd : d ∈ pre ++ c :: d :: post := by simp
  -- nothing of the bus lies strictly between `c` and `d`
  have hgap : ∀ a ∈ pre ++ c :: d :: post, comesBefore c a → ¬ comesBefore a d := by
    intro a ha hca had
    obtain ⟨-, h2, h3⟩ := List.pairwise_append.mp h
    rcases List.mem_append.mp ha with hp | hr
    · exact comesBefore.asymm hca (h3 a hp c (by simp))
    · rcases List.mem_cons.mp hr with rfl | hr
      · exact comesBefore.irrefl _ hca
      · rcases List.mem_cons.mp hr with rfl | hr
        · exact comesBefore.irrefl _ had
        · exact comesBefore.asymm had ((List.pairwise_cons.mp (List.pairwise_cons.mp h2).2).1 a hr)
  have hcd : comesBefore c d := by
    have := (List.pairwise_append.mp h).2.1
    exact (List.pairwise_cons.mp this).1 d (by simp)
  generalize hds : pre ++ c :: d :: post = ds at *
  obtain ⟨p, p1, p64, pj, pc, pd⟩ := hcd
  have hsp : splits ds c p = true :=
    splits_of_other hc hd (fun j a b => (pj j a b).symm) (by rw [pc, pd]; decide)
  have hz : lastZeroFrom ds c 64 1 0 = p := by
    have hge := (lastZeroFrom_ge ds c 64 1 0 (by omega)).2 p p1 (by omega) hsp pc
    rcases lastZeroFrom_mem ds c 64 1 0 with hz | ⟨h1, h2, hs, hb⟩
    · omega
    · by_contra hne
      have hlt : p < lastZeroFrom ds c 64 1 0 := by omega
      obtain ⟨a, ha, hj, h1'⟩ := splits_other hs true
      apply hgap a ha
      · exact ⟨_, h1, by omega, fun j x y => (hj j x y).symm, hb, h1'⟩
      · exact ⟨p, p1, p64, fun j x y => (hj j x (by omega)).trans (pj j x y), (hj p p1 hlt).trans pc, pd⟩
  refine ⟨by omega, hd, ?_⟩
  intro k h1 h2 hs
  have hld : (afterFound ds se c).ld.toNat = p := by
    show (BitVec.ofNat 7 (lastZeroFrom ds c 64 1 0)).toNat = p
    rw [hz, BitVec.toNat_ofNat, Nat.mod_eq_of_lt (by omega)]
  rw [hld]
  by_cases hkp : k < p
  · rw [if_pos hkp]
    exact (pj k h1 hkp).symm
  · rw [if_neg hkp]
    by_cases hk : k = p
    · subst hk
      simpa using pd
    · rw [decide_eq_false hk]
      by_contra hb
      rw [Bool.not_eq_false] at hb
      obtain ⟨a, ha, hj, h0⟩ := splits_other hs false
      apply hgap a ha
      · exact ⟨p, p1, p64, fun j x y => (pj j x y).trans (hj j x (by omega)).symm, pc,
          (hj p p1 (by omega)).trans pd⟩
      · exact ⟨k, h1, h2, hj, h0, hb⟩

end Sys2Proof.Machine
end

