-- ==== Sys2Proof/Laws/Enumerate.lean ====
section
/-! SUPPORT. What a pass of ENUMERATE does that finds the devices of the bus in the order of discovery, and the
completion of ENUMERATE (42_enumeration.md R250). -/

namespace Sys2Proof.Machine

/-- A piece of ENUMERATE from `s` to `t`: the line, the registers it leaves alone, and CEVT, which no row in Idle can
set. -/
structure Enumerated (slots : List Slot) (p : Bool) (s t : State) : Prop where
  live : Live t
  line : OnLine slots s t
  untouched : Untouched s { t with session := s.session }
  noEvent : s.quiet → (∀ i : Fin 16, s.validRow i = true → s.table[i].cstate ≠ .started) →
    (∀ i : Fin 16, t.validRow i = true → t.table[i].cstate ≠ .started) ∧ t.status.cevt = s.status.cevt
  presence : t.status.presence = p
  rxbit : t.status.rxbit = s.status.rxbit
  x : EnumRegsOnly s.x t.x

theorem SearchRegsOnly.enum {x y : Work} (h : SearchRegsOnly x y) : EnumRegsOnly x y := ⟨_, _, y, h, rfl⟩

theorem EnumRegsOnly.trans {x y z : Work} (h : EnumRegsOnly x y) (g : EnumRegsOnly y z) : EnumRegsOnly x z := by
  obtain ⟨_, _, _, ⟨_, _, _, _, _, _, _, _, _, _, rfl⟩, rfl⟩ := h
  obtain ⟨p, q, _, ⟨a, b, c, d, e, f, i, j, k, l, rfl⟩, rfl⟩ := g
  exact ⟨p, q, _, ⟨a, b, c, d, e, f, i, j, k, l, rfl⟩, rfl⟩

theorem Untouched.ofSession {s t u : State} (h : Untouched s { t with session := s.session })
    (g : Untouched t { u with session := t.session }) : Untouched s { u with session := s.session } := by
  have := g.setSession s.session
  exact h.trans this

theorem Enumerated.trans {a b : List Slot} {p q : Bool} {s t u : State} (h : Enumerated a p s t)
    (g : Enumerated b q t u) : Enumerated (a ++ b) q s u := by
  refine ⟨g.live, h.line.trans g.line, h.untouched.ofSession g.untouched, ?_, g.presence, g.rxbit.trans h.rxbit,
    h.x.trans g.x⟩
  intro hq hn
  obtain ⟨h1, h2⟩ := h.noEvent hq hn
  obtain ⟨g1, g2⟩ := g.noEvent (h.untouched.quiet hq).1 h1
  exact ⟨g1, g2.trans h2⟩

/-- What a search step leaves of the rest of the block. -/
theorem Searched.enumerated {slots : List Slot} {se : Session} {p : Bool} {s t : State} (h : Searched slots se p s t) :
    Enumerated slots p s t := by
  have hk := h.does.toKeeps
  refine ⟨h.live, ⟨h.does.params, h.does.wave, h.does.now, h.does.bus⟩, .of_keeps hk, ?_, h.presence, h.rxbit, h.x.enum⟩
  intro hq hn
  refine ⟨?_, hk.noEvent hq hn⟩
  intro i hv hs
  have hv' : s.validRow i = true := by rw [← validRow_congr (t := t) hk.count]; exact hv
  have := ((hk.rows i).held (.inl (hn i hv'))).1
  exact hn i hv' (this ▸ hs)

/-- The device table after a pass has written `found` from row `k` on. -/
def rowFrom (s : State) (k : Nat) (found : List Ident) (i : Fin 16) : Entry :=
  if k ≤ i.val ∧ i.val < k + found.length then freshEntry (found.getD (i.val - k) 0) else s.table[i]

theorem rowFrom_in {s : State} {k : Nat} {found : List Ident} {i : Fin 16} (h : k ≤ i.val ∧ i.val < k + found.length) :
    rowFrom s k found i = freshEntry (found.getD (i.val - k) 0) := if_pos h

theorem rowFrom_out {s : State} {k : Nat} {found : List Ident} {i : Fin 16} (h : ¬(k ≤ i.val ∧ i.val < k + found.length)) :
    rowFrom s k found i = s.table[i] := if_neg h

/-- The start of a pass: PASS counts, the session and K are cleared. -/
theorem beginPass_spec {s : State} (h : Live s) : Enumerated [] s.status.presence s (beginPass s) ∧
    (beginPass s).session = .clear ∧ (beginPass s).x.k = 0 ∧ (beginPass s).x.pass = s.x.pass + 1 ∧
    (beginPass s).table = s.table := by
  refine ⟨⟨h.of_eq rfl rfl rfl rfl, OnLine.still rfl rfl rfl rfl, ?_, fun _ hn => ⟨hn, rfl⟩, rfl, rfl,
    ⟨s.x.pass + 1, 0, s.x, .refl _, rfl⟩⟩, rfl, rfl, rfl, rfl⟩
  exact ⟨rfl, rfl, rfl, rfl, rfl, rfl, rfl, fun q => ⟨q, rfl, rfl, rfl, rfl⟩, fun _ h => h⟩

/-- A found device is written to row K. -/
theorem storeRow_spec {s : State} (h : Live s) {k : Nat} (hk : k < 16) (hx : s.x.k = BitVec.ofNat 5 k) :
    Enumerated [] s.status.presence s (storeRow s) ∧ (storeRow s).session = s.session ∧
      (storeRow s).x.k = BitVec.ofNat 5 (k + 1) ∧ (storeRow s).x.pass = s.x.pass ∧
      ∀ i : Fin 16, (storeRow s).table[i] = if i.val = k then freshEntry s.session.rombuf else s.table[i] := by
  have hrow : rowOf (s.x.k.setWidth 4) = ⟨k, hk⟩ := by
    apply Fin.ext
    show (s.x.k.setWidth 4).toNat = k
    rw [hx, BitVec.toNat_setWidth, BitVec.toNat_ofNat]
    omega
  have ht : ∀ i : Fin 16, (storeRow s).table[i] = if i.val = k then freshEntry s.session.rombuf else s.table[i] := by
    intro i
    show (s.table.set (rowOf (s.x.k.setWidth 4)) _)[i] = _
    rw [set_get, hrow]
    by_cases hi : i.val = k
    · rw [if_pos (Fin.ext hi), if_pos hi]
    · rw [if_neg (fun hc => hi (congrArg Fin.val hc)), if_neg hi]
  refine ⟨⟨⟨h.busy, h.calm, ?_⟩, OnLine.still rfl rfl rfl rfl, ?_, ?_, rfl, rfl, ⟨s.x.pass, s.x.k + 1, s.x, .refl _, rfl⟩⟩,
    rfl, ?_, rfl, ht⟩
  · intro i u hu
    rw [ht] at hu ⊢
    by_cases hi : i.val = k
    · rw [if_pos hi] at hu
      cases hu
    · rw [if_neg hi] at hu ⊢
      exact h.sup i u hu
  · exact ⟨rfl, rfl, rfl, rfl, rfl, rfl, rfl, fun q => ⟨q, rfl, rfl, rfl, rfl⟩, fun _ h => h⟩
  · intro _ hn
    refine ⟨?_, rfl⟩
    intro i hv
    rw [ht]
    split
    · exact (by decide : CState.idle ≠ CState.started)
    · exact hn i hv
  · show s.x.k + 1 = _
    rw [hx, BitVec.ofNat_add]
    rfl

/-- One pass over the devices of the bus in the order of discovery, `n + 1` rows of the table being left. -/
theorem enumDevices_spec {ds : List Ident} (hasc : ds.Pairwise comesBefore) (hv : ∀ a ∈ ds, romValid a = true) (n : Nat) :
    ∀ (pre : List Ident) (d : Ident) (post : List Ident) {s : State} (k : Nat) (rest : List Bool),
      ds = pre ++ d :: post → Live s → s.params.tPds ≠ 0 → s.params.tRs ≠ 0 → s.session.ldf = false →
      FollowsTo 64 ds s.session d → s.x.k = BitVec.ofNat 5 k → k + n < 16 →
      s.env.bus = passBits ds (d :: post.take n) ++ rest →
      ∃ t, enumDevices (n + 1) s = .ok (.ok, decide (n < post.length)) t ∧
        Enumerated ((d :: post.take n).flatMap searchSlots) true s t ∧
        t.session = afterPass ds s.session (d :: post.take n) ∧
        t.x.k = BitVec.ofNat 5 (k + (d :: post.take n).length) ∧ t.x.pass = s.x.pass ∧
        ∀ i : Fin 16, RowPasses (s.validRow i) (rowFrom s k (d :: post.take n) i) t.table[i] := by
  induction n with
  | zero =>
    intro pre d post s k rest hds h hp hr hl hf hk hlt hb
    have hmem : d ∈ ds := hf.1
    have hb' : s.env.bus = false :: searchBits ds d 64 1 ++ rest := by simpa [passBits] using hb
    obtain ⟨t1, e1, s1⟩ := searchStep_found h hp hr hl hf rest hb'
    rw [if_pos (hv d hmem)] at e1 s1
    have hk1 : t1.x.k = BitVec.ofNat 5 k ∧ t1.x.pass = s.x.pass := by
      obtain ⟨_, _, _, _, _, _, _, _, _, _, hx⟩ := s1.x
      rw [hx]
      exact ⟨hk, rfl⟩
    obtain ⟨E2, se2, k2, p2, r2⟩ := storeRow_spec s1.live (k := k) (by omega) hk1.1
    refine ⟨storeRow t1, ?_, ?_, ?_, k2, p2.trans hk1.2, ?_⟩
    · unfold enumDevices
      rw [bind_ok e1, if_neg (by decide), bind_ok (modify_ok _ _), bind_ok (get_ok _)]
      have hldf : (storeRow t1).session.ldf = (lastZeroFrom ds d 64 1 0 == 0) := by
        rw [se2, s1.session]
        rfl
      by_cases hpost : post = []
      · subst hpost
        rw [if_pos (by rw [hldf, hds, lastZero_last (by rw [← hds]; exact hasc)]; rfl)]
        rfl
      · obtain ⟨c, post', rfl⟩ := List.exists_cons_of_ne_nil hpost
        have hne := (follows_next (pre := pre) (c := d) (d := c) (post := post') s.session (by rw [← hds]; exact hasc)).1
        rw [← hds] at hne
        rw [if_neg (by rw [hldf]; simpa using hne)]
        have : decide (0 < (c :: post').length) = true := by simp
        rw [this]
        rfl
    · have := s1.enumerated.trans E2
      rw [show t1.status.presence = true from s1.presence] at this
      simpa using this
    · rw [se2, s1.session]
      rfl
    · intro i
      rw [r2]
      unfold rowFrom
      by_cases hi : i.val = k
      · rw [if_pos hi, if_pos (by simp; omega), s1.session]
        have : i.val - k = 0 := by omega
        rw [this]
        exact .refl _ _
      · rw [if_neg hi, if_neg (by simp; omega)]
        exact s1.does.rows i
  | succ n ih =>
    intro pre d post s k rest hds h hp hr hl hf hk hlt hb
    have hmem : d ∈ ds := hf.1
    have hb' : s.env.bus = false :: searchBits ds d 64 1 ++ (passBits ds (post.take (n + 1)) ++ rest) := by
      rw [hb]
      simp [passBits]
    obtain ⟨t1, e1, s1⟩ := searchStep_found h hp hr hl hf _ hb'
    rw [if_pos (hv d hmem)] at e1 s1
    have hk1 : t1.x.k = BitVec.ofNat 5 k ∧ t1.x.pass = s.x.pass := by
      obtain ⟨_, _, _, _, _, _, _, _, _, _, hx⟩ := s1.x
      rw [hx]
      exact ⟨hk, rfl⟩
    obtain ⟨E2, se2, k2, p2, r2⟩ := storeRow_spec s1.live (k := k) (by omega) hk1.1
    have hldf : (storeRow t1).session.ldf = (lastZeroFrom ds d 64 1 0 == 0) := by
      rw [se2, s1.session]
      rfl
    have E := s1.enumerated.trans E2
    rw [show t1.status.presence = true from s1.presence, List.append_nil] at E
    have hrow0 : ∀ i : Fin 16, RowPasses (s.validRow i) (rowFrom s k [d] i) (storeRow t1).table[i] := by
      intro i
      rw [r2]
      unfold rowFrom
      by_cases hi : i.val = k
      · rw [if_pos hi, if_pos (by simp; omega), s1.session]
        have : i.val - k = 0 := by omega
        rw [this]
        exact .refl _ _
      · rw [if_neg hi, if_neg (by simp; omega)]
        exact s1.does.rows i
    by_cases hpost : post = []
    · subst hpost
      refine ⟨storeRow t1, ?_, by simpa using E, ?_, k2, p2.trans hk1.2, hrow0⟩
      · unfold enumDevices
        rw [bind_ok e1, if_neg (by decide), bind_ok (modify_ok _ _), bind_ok (get_ok _),
          if_pos (by rw [hldf, hds, lastZero_last (by rw [← hds]; exact hasc)]; rfl)]
        rfl
      · rw [se2, s1.session]
        rfl
    · obtain ⟨c, post', rfl⟩ := List.exists_cons_of_ne_nil hpost
      obtain ⟨hne, hfn⟩ :=
        follows_next (pre := pre) (c := d) (d := c) (post := post') s.session (by rw [← hds]; exact hasc)
      rw [← hds] at hne hfn
      have hse : (storeRow t1).session = afterFound ds s.session d := by rw [se2, s1.session]
      have hpar : (storeRow t1).params = s.params := E.line.params
      have hbus : (storeRow t1).env.bus = passBits ds (c :: post'.take n) ++ rest := by
        rw [E.line.bus]
        have hlen : sampleCount (searchSlots d) = (false :: searchBits ds d 64 1).length := by
          rw [sampleCount_searchSlots, List.length_cons, searchBits_length]
        rw [hb', hlen]
        simp
      obtain ⟨t3, e3, E3, se3, k3, p3, r3⟩ := ih (pre ++ [d]) c post' (s := storeRow t1) (k + 1) rest
        (by rw [hds]; simp) E.live (by rw [hpar]; exact hp) (by rw [hpar]; exact hr)
        (by rw [hldf]; simpa using hne) (by rw [hse]; exact hfn) k2 (by omega) hbus
      refine ⟨t3, ?_, ?_, ?_, ?_, p3.trans (p2.trans hk1.2), ?_⟩
      · unfold enumDevices
        rw [bind_ok e1, if_neg (by decide), bind_ok (modify_ok _ _), bind_ok (get_ok _),
          if_neg (by rw [hldf]; simpa using hne), e3]
        congr 2
        simp
      · have := E.trans E3
        simpa using this
      · rw [se3, hse]
        rfl
      · rw [k3]
        congr 1
        simp
        omega
      · intro i
        have h3 := r3 i
        rw [validRow_congr (s := s) (t := storeRow t1) E.untouched.count] at h3
        have h0 := hrow0 i
        rw [List.take_succ_cons]
        by_cases hi : k + 1 ≤ i.val ∧ i.val < k + 1 + (c :: post'.take n).length
        · rw [rowFrom_in hi] at h3
          rw [List.length_cons] at hi
          rw [rowFrom_in (by rw [List.length_cons, List.length_cons]; omega),
            show i.val - k = (i.val - (k + 1)) + 1 by omega, List.getD_cons_succ]
          exact h3
        · rw [rowFrom_out hi] at h3
          rw [List.length_cons] at hi
          by_cases hi2 : i.val = k
          · rw [rowFrom_in (by rw [List.length_singleton]; omega)] at h0
            rw [rowFrom_in (by rw [List.length_cons, List.length_cons]; omega)]
            have hz : i.val - k = 0 := by omega
            rw [hz] at h0 ⊢
            exact h0.trans h3
          · rw [rowFrom_out (by rw [List.length_singleton]; omega)] at h0
            rw [rowFrom_out (by rw [List.length_cons, List.length_cons]; omega)]
            exact h0.trans h3

/-- A pass that finds the devices of the bus. -/
theorem enumPasses_found {ds : List Ident} (hasc : ds.Pairwise comesBefore) (hv : ∀ a ∈ ds, romValid a = true)
    (hne : ds ≠ []) {s : State} (h : Live s) (hp : s.params.tPds ≠ 0) (hr : s.params.tRs ≠ 0)
    (hm : s.params.maxDevices ≠ 0) (hm16 : s.params.maxDevices ≤ 16) (n : Nat) (lastErr : Code) (rest : List Bool)
    (hb : s.env.bus = passBits ds (ds.take s.params.maxDevices) ++ rest) :
    ∃ t, Enumerated ((ds.take s.params.maxDevices).flatMap searchSlots) true s t ∧
      t.session = afterPass ds .clear (ds.take s.params.maxDevices) ∧ t.x.pass = s.x.pass + 1 ∧
      t.x.k = BitVec.ofNat 5 (ds.take s.params.maxDevices).length ∧
      (∀ i : Fin 16, RowPasses (s.validRow i) (rowFrom s 0 (ds.take s.params.maxDevices) i) t.table[i]) ∧
      enumPasses n lastErr s =
        .ok .ok (commitEnum t.x.k lastErr (decide (s.params.maxDevices < ds.length)) t) := by
  obtain ⟨E1, se1, k1, p1, t1⟩ := beginPass_spec h
  obtain ⟨m, hm'⟩ := Nat.exists_eq_succ_of_ne_zero hm
  obtain ⟨d, post, rfl⟩ := List.exists_cons_of_ne_nil hne
  rw [hm', Nat.succ_eq_add_one, List.take_succ_cons] at hb ⊢
  obtain ⟨t2, e2, E2, se2, k2, p2, r2⟩ := enumDevices_spec hasc hv m [] d post (s := beginPass s) 0 rest rfl E1.live hp hr
    (by rw [se1]; rfl) (by rw [se1]; exact follows_first hasc) k1 (by omega) hb
  refine ⟨t2, E1.trans E2, ?_, p2.trans p1, ?_, ?_, ?_⟩
  · rw [se2, se1]
  · rw [k2, Nat.zero_add]
  · intro i
    have := r2 i
    unfold rowFrom at this ⊢
    rw [t1] at this
    exact this
  · conv_lhs => unfold enumPasses
    rw [bind_ok (modify_ok _ _), bind_ok (get_ok _)]
    rw [show (beginPass s).params.maxDevices = m + 1 from hm', bind_ok e2]
    show EStateM.Result.ok _ _ = _
    congr 2
    simp

/-- The finish cycle of ENUMERATE, with COUNT and ENUMSTAT written in it (42_enumeration.md R250). -/
structure Committed (code : Code) (c : BitVec 5) (e : Code) (tr : Bool) (s t : State) : Prop where
  busy : t.status.busy = false
  done : t.status.done = true
  err : t.status.err = code
  seq : t.seq = none
  ph : t.ph = .idle
  pad : t.pad = false
  count : t.count = c
  enumstat : t.enumstat = ⟨s.x.pass, e, tr⟩
  session : t.session = s.session
  untouched : Untouched s { t with count := s.count, enumstat := s.enumstat }
  rows : ∀ i : Fin 16, RowPasses (s.validRow i) s.table[i] t.table[i]
  noStep : ∀ i : Fin 16, t.table[i].sup = none
  noEvent : s.quiet → (∀ i : Fin 16, s.validRow i = true → s.table[i].cstate ≠ .started) →
    t.status.cevt = s.status.cevt
  now : t.now = s.now
  presence : t.status.presence = s.status.presence
  rxbit : t.status.rxbit = s.status.rxbit
  x : t.x = s.x
  bus : t.env.bus = s.env.bus
  wave : t.env.wave = s.env.wave

theorem commit_spec {s : State} (h : Live s) (code : Code) (c : BitVec 5) (e : Code) (tr : Bool) :
    Committed code c e tr s (closeCycle (complete code (commitEnum c e tr s))) := by
  have p := settleSupervisor_passes (s := complete code s) h.sup
  obtain ⟨r, n, he, hq⟩ := settleRead_eq (settleSupervisor (complete code (commitEnum c e tr s)))
  have ht : ∀ i : Fin 16, (settleSupervisor (complete code (commitEnum c e tr s))).table[i] =
      (settleSupervisor (complete code s)).table[i] := fun _ => rfl
  have hc : (settleSupervisor (complete code (commitEnum c e tr s))).status =
      (settleSupervisor (complete code s)).status := rfl
  unfold closeCycle
  rw [he]
  refine ⟨rfl, rfl, rfl, rfl, rfl, rfl, rfl, rfl, rfl, ⟨rfl, rfl, rfl, rfl, rfl, rfl, rfl, ?_, ?_⟩, ?_, ?_, ?_, rfl, rfl, rfl,
    rfl, rfl, rfl⟩
  · intro q
    exact ⟨⟨q.1, rfl⟩, rfl, rfl, rfl, (hq q.2).1⟩
  · intro q h1
    exact p.cevt q h1
  · intro i
    exact p.rows i
  · intro i
    show (settleSupervisor (complete code (commitEnum c e tr s))).table[i].sup = none
    rw [settleSupervisor_table, mapTable_get]
    exact settle_sup _
  · intro q h1
    exact p.noEvent q h1

end Sys2Proof.Machine
end

