-- ==== Sys2Proof/Laws/FailedPass.lean ====
section
/-! SUPPORT. The passes of ENUMERATE that fail, with no presence, with a collision or with a wrong CRC, after any number of
devices found (42_enumeration.md R250): `enumPasses_failed` says what one does, `enumPasses_failures` what a run of them
does. -/

namespace Sys2Proof.Machine

theorem sampleCount_found (found : List Ident) : sampleCount (found.flatMap searchSlots) = 129 * found.length := by
  induction found with
  | nil => rfl
  | cons d found ih =>
    rw [List.flatMap_cons, sampleCount_append, sampleCount_searchSlots, ih, List.length_cons]
    omega

theorem passBits_length (ds found : List Ident) : (passBits ds found).length = 129 * found.length := by
  unfold passBits
  induction found with
  | nil => rfl
  | cons d found ih =>
    rw [List.flatMap_cons, List.length_append, List.length_cons, searchBits_length, ih, List.length_cons]
    omega

/-- The counters of ENUMERATE after registers of the search alone have changed. -/
theorem SearchRegsOnly.counters {x y : Work} (h : SearchRegsOnly x y) : y.k = x.k ∧ y.pass = x.pass := by
  obtain ⟨_, _, _, _, _, _, _, _, _, _, rfl⟩ := h
  exact ⟨rfl, rfl⟩

/-- The devices a pass finds before its last search step. -/
theorem enumDevices_finds {ds : List Ident} (found : List Ident) : ∀ {s : State} (k n : Nat) (rest : List Bool),
    FindsAll ds s.session found → Live s → s.params.tPds ≠ 0 → s.params.tRs ≠ 0 → s.session.ldf = false →
    s.x.k = BitVec.ofNat 5 k → k + found.length ≤ 16 → s.env.bus = passBits ds found ++ rest →
    ∃ t, Enumerated (found.flatMap searchSlots) (if found = [] then s.status.presence else true) s t ∧
      t.session = afterPass ds s.session found ∧ t.session.ldf = false ∧
      t.x.k = BitVec.ofNat 5 (k + found.length) ∧ t.x.pass = s.x.pass ∧ t.env.bus = rest ∧
      (∀ i : Fin 16, RowPasses (s.validRow i) (rowFrom s k found i) t.table[i]) ∧
      enumDevices (found.length + n) s = enumDevices n t := by
  induction found with
  | nil =>
    intro s k n rest _ h _ _ hl hk _ hb
    refine ⟨s, ⟨h, .still rfl rfl rfl rfl, .refl s, fun _ hn => ⟨hn, rfl⟩, rfl, rfl, s.x.pass, s.x.k, s.x, .refl _, rfl⟩,
      rfl, hl, hk, rfl, hb, fun i => ?_, by rw [List.length_nil, Nat.zero_add]⟩
    rw [rowFrom_out (by rw [List.length_nil]; omega)]
    exact .refl _ _
  | cons d found ih =>
    intro s k n rest hf h hp hr hl hk hlt hb
    obtain ⟨hfol, hval, hmore, hrest⟩ := hf
    rw [List.length_cons] at hlt
    have hb' : s.env.bus = false :: searchBits ds d 64 1 ++ (passBits ds found ++ rest) := by
      rw [hb]
      simp [passBits]
    obtain ⟨t1, e1, s1⟩ := searchStep_found h hp hr hl hfol _ hb'
    rw [if_pos hval] at e1 s1
    obtain ⟨k1, p1⟩ := s1.x.counters
    obtain ⟨E2, se2, k2, p2, r2⟩ := storeRow_spec s1.live (k := k) (by omega) (k1.trans hk)
    have hse : (storeRow t1).session = afterFound ds s.session d := by rw [se2, s1.session]
    have E := s1.enumerated.trans E2
    rw [show t1.status.presence = true from s1.presence, List.append_nil] at E
    have hpar : (storeRow t1).params = s.params := E.line.params
    have hbus : (storeRow t1).env.bus = passBits ds found ++ rest := by
      rw [E.line.bus, hb', show sampleCount (searchSlots d) = (false :: searchBits ds d 64 1).length from by
        rw [sampleCount_searchSlots, List.length_cons, searchBits_length], List.drop_left]
    obtain ⟨t3, E3, se3, l3, k3, p3, b3, r3, h3⟩ := ih (s := storeRow t1) (k + 1) n rest (by rw [hse]; exact hrest) E.live
      (by rw [hpar]; exact hp) (by rw [hpar]; exact hr) (by rw [hse]; exact hmore) k2 (by omega) hbus
    refine ⟨t3, ?_, ?_, l3, ?_, p3.trans (p2.trans p1), b3, ?_, ?_⟩
    · have := E.trans E3
      rw [show (storeRow t1).status.presence = true from E.presence, ite_self] at this
      rw [if_neg (List.cons_ne_nil d found)]
      exact this
    · rw [se3, hse]
      rfl
    · rw [k3, List.length_cons, Nat.add_assoc, Nat.add_comm 1]
    · intro i
      have h0 : RowPasses (s.validRow i) (if i.val = k then freshEntry d else s.table[i]) (storeRow t1).table[i] := by
        rw [r2, s1.session]
        split
        · exact .refl _ _
        · exact s1.does.rows i
      have h4 := r3 i
      rw [validRow_congr (s := s) (t := storeRow t1) E.untouched.count] at h4
      by_cases hi : k + 1 ≤ i.val ∧ i.val < k + 1 + found.length
      · rw [rowFrom_in hi] at h4
        rw [rowFrom_in (by rw [List.length_cons]; omega), show i.val - k = (i.val - (k + 1)) + 1 by omega,
          List.getD_cons_succ]
        exact h4
      · rw [rowFrom_out hi] at h4
        by_cases hi2 : i.val = k
        · rw [if_pos hi2] at h0
          rw [rowFrom_in (by rw [List.length_cons]; omega), show i.val - k = 0 by omega]
          exact h0.trans h4
        · rw [if_neg hi2] at h0
          rw [rowFrom_out (by rw [List.length_cons]; omega)]
          exact h0.trans h4
    · rw [List.length_cons, show found.length + 1 + n = (found.length + n) + 1 by omega]
      conv_lhs => unfold enumDevices
      rw [bind_ok e1, if_neg (by decide), bind_ok (modify_ok _ _), bind_ok (get_ok _),
        if_neg (by rw [hse, hmore]; exact Bool.false_ne_true), h3]

/-- The search step that ends a failed pass. -/
theorem failure_step {s : State} (h : Live s) (hp : s.params.tPds ≠ 0) (hr : s.params.tRs ≠ 0)
    (hl : s.session.ldf = false) (p : FailedPass) {rows : Nat} (hposs : p.Possible rows)
    (hse : s.session = afterPass p.devices .clear p.found) (rest : List Bool)
    (hb : passBits p.devices p.found ++ s.env.bus = p.bits ++ rest) :
    ∃ t slots, searchStep s = .ok p.code t ∧ p.slots = p.found.flatMap searchSlots ++ slots ∧
      Searched slots .clear (decide (p.failure ≠ .absent)) s t ∧ t.env.bus = rest := by
  obtain ⟨devices, found, failure⟩ := p
  obtain ⟨-, -, hfail⟩ := hposs
  rw [← hse] at hfail
  unfold FailedPass.bits at hb
  rw [List.append_assoc, List.append_cancel_left_eq] at hb
  cases failure with
  | absent =>
    obtain ⟨t, e, S⟩ := searchStep_absent h hp hl rest hb
    refine ⟨t, _, e, rfl, S, ?_⟩
    have := S.does.bus
    rw [hb] at this
    exact this
  | collision d n =>
    obtain ⟨hn, hf⟩ := hfail
    have hb' : s.env.bus = false :: searchBits devices d n 1 ++ true :: true :: rest := by
      rw [hb]
      simp
    obtain ⟨t, e, S⟩ := searchStep_collision hn h hp hr hl hf rest hb'
    refine ⟨t, _, e, rfl, S, ?_⟩
    have hc : sampleCount (searchHead ++ positionSlots d n 1 ++ [.read, .read]) =
        (false :: searchBits devices d n 1 ++ [true, true]).length := by
      rw [sampleCount_append, sampleCount_append, sampleCount_positionSlots, List.length_append, List.length_cons,
        searchBits_length]
      show 1 + 2 * n + 2 = 2 * n + 1 + 2
      omega
    have := S.does.bus
    rw [hb, hc] at this
    exact this.trans List.drop_left
  | wrongCrc d =>
    obtain ⟨hf, hv⟩ := hfail
    have hv' : ¬ romValid d = true := by rw [hv]; exact Bool.false_ne_true
    obtain ⟨t, e, S⟩ := searchStep_found h hp hr hl hf rest hb
    rw [if_neg hv'] at e S
    refine ⟨t, _, e, rfl, S, ?_⟩
    have := S.does.bus
    rw [hb, show sampleCount (searchSlots d) = (false :: searchBits devices d 64 1).length from by
      rw [sampleCount_searchSlots, List.length_cons, searchBits_length]] at this
    exact this.trans List.drop_left

/-- A failed pass, and the passes after it. -/
theorem enumPasses_failed {s : State} (h : Live s) (hp : s.params.tPds ≠ 0) (hr : s.params.tRs ≠ 0) (p : FailedPass)
    (hm : s.params.maxDevices ≤ 16) (hposs : p.Possible s.params.maxDevices) (n : Nat) (lastErr : Code)
    (rest : List Bool) (hb : s.env.bus = p.bits ++ rest) :
    ∃ t, Enumerated p.slots (decide (p.failure ≠ .absent)) s t ∧ t.session = .clear ∧ t.x.pass = s.x.pass + 1 ∧
      (∀ i : Fin 16, RowPasses (s.validRow i) (rowFrom s 0 p.found i) t.table[i]) ∧ t.env.bus = rest ∧
      enumPasses n lastErr s = (match n with
        | 0 => .ok .busAbsent (commitEnum 0 p.code false t)
        | n + 1 => enumPasses n p.code t) := by
  obtain ⟨E1, se1, k1, p1, t1⟩ := beginPass_spec h
  have hlen := hposs.1
  obtain ⟨m, hm'⟩ : ∃ m, s.params.maxDevices = p.found.length + (m + 1) := ⟨s.params.maxDevices - p.found.length - 1, by omega⟩
  have hpre : ∃ tail, p.bits = passBits p.devices p.found ++ tail := ⟨_, rfl⟩
  obtain ⟨tail, htail⟩ := hpre
  have hb1 : (beginPass s).env.bus = passBits p.devices p.found ++ (tail ++ rest) := by
    show s.env.bus = _
    rw [hb, htail, List.append_assoc]
  obtain ⟨t2, E2, se2, l2, k2, p2, b2, r2, h2⟩ := enumDevices_finds p.found (s := beginPass s) 0 (m + 1) (tail ++ rest)
    (by rw [se1]; exact hposs.2.1) E1.live hp hr (by rw [se1]; rfl) k1 (by omega) hb1
  rw [se1] at se2
  have hpar : t2.params = s.params := E2.line.params
  obtain ⟨t3, slots, e3, hs3, S3, b3⟩ := failure_step E2.live (by rw [hpar]; exact hp) (by rw [hpar]; exact hr) l2 p
    hposs se2 rest (by rw [b2, htail, List.append_assoc])
  have hcode : p.code ≠ .ok := by
    unfold FailedPass.code
    cases p.failure <;> exact fun hc => Code.noConfusion hc
  have e4 : enumDevices s.params.maxDevices (beginPass s) = .ok (p.code, false) t3 := by
    rw [hm', h2]
    unfold enumDevices
    rw [bind_ok e3, if_pos (bne_iff_ne.mpr hcode)]
    rfl
  have hx := S3.x.counters
  refine ⟨t3, ?_, S3.session, hx.2.trans (p2.trans p1), ?_, b3, ?_⟩
  · rw [hs3]
    exact (E1.trans E2).trans S3.enumerated
  · intro i
    have h5 := r2 i
    have h6 := S3.does.rows i
    rw [validRow_congr (s := s) (t := beginPass s) rfl] at h5
    rw [validRow_congr (s := s) (t := t2) ((E1.trans E2).untouched.count)] at h6
    have h7 : rowFrom (beginPass s) 0 p.found i = rowFrom s 0 p.found i := by
      unfold rowFrom
      rw [t1]
    rw [h7] at h5
    exact h5.trans h6
  · conv_lhs => unfold enumPasses
    rw [bind_ok (modify_ok _ _), bind_ok (get_ok _),
      show (beginPass s).params.maxDevices = s.params.maxDevices from rfl, bind_ok e4]
    have hne : ¬ (p.code == .ok) = true := by rw [beq_iff_eq]; exact hcode
    cases n with
    | zero => exact congrArg (fun m : Engine Code => m t3) (if_neg hne)
    | succ n => exact congrArg (fun m : Engine Code => m t3) (if_neg hne)

/-- What a run of failed passes makes of an entry, where `r` is what earlier passes left in its row. -/
def Written (v : Bool) (r : Option Ident) (e e' : Entry) : Prop :=
  match r with
  | some d => RowPasses v (freshEntry d) e'
  | none => RowPasses v e e'

theorem Written.step {v : Bool} {r : Option Ident} {e e' e'' : Entry} (h : Written v r e e') (g : RowPasses v e' e'') :
    Written v r e e'' := by
  cases r with
  | none => exact RowPasses.trans h g
  | some d => exact RowPasses.trans h g

/-- Time leaves an entry that ENUMERATE has written as it was written. -/
theorem RowPasses.fresh {v : Bool} {d : Ident} {e : Entry} (h : RowPasses v (freshEntry d) e) (hs : e.sup = none) :
    e = ⟨d, 0, .idle, false, .r12, 0, none⟩ := by
  obtain ⟨hc, ht, he⟩ := h.held (.inl fun hc => CState.noConfusion hc)
  have hrom := h.rom
  have htemp := h.temp
  have hres := h.res
  cases e
  simp only at hc ht he hrom htemp hres hs
  rw [hc, ht, he, hrom, htemp, hres, hs]
  rfl

/-- A run of failed passes, with `m` more and this one to come, which takes the last one's code as LAST_PASS_ERR. -/
theorem enumPasses_failures (passes : List FailedPass) : ∀ (m : Nat) (lastErr : Code) {s : State} (rest : List Bool)
    (e0 : Fin 16 → Entry) (r0 : Fin 16 → Option Ident), Live s →
    s.params.tPds ≠ 0 → s.params.tRs ≠ 0 → s.params.maxDevices ≤ 16 → (∀ p ∈ passes, p.Possible s.params.maxDevices) →
    s.env.bus = passes.flatMap FailedPass.bits ++ rest →
    (∀ i : Fin 16, Written (s.validRow i) (r0 i) (e0 i) s.table[i]) →
    ∃ t q, Enumerated (passes.flatMap FailedPass.slots) q s t ∧ t.x.pass = s.x.pass + BitVec.ofNat 8 passes.length ∧
      t.env.bus = rest ∧
      (∀ i : Fin 16, Written (s.validRow i)
        (passes.foldl (fun r p => match p.found[i.val]? with | some d => some d | none => r) (r0 i)) (e0 i) t.table[i]) ∧
      enumPasses (passes.length + m) lastErr s =
        enumPasses m ((passes.getLast?.map FailedPass.code).getD lastErr) t := by
  induction passes with
  | nil =>
    intro m lastErr s rest e0 r0 h hp hr hm hposs hb hw
    exact ⟨s, s.status.presence, ⟨h, .still rfl rfl rfl rfl, .refl s, fun _ hn => ⟨hn, rfl⟩, rfl, rfl, s.x.pass, s.x.k,
      s.x, .refl _, rfl⟩, by simp, hb, hw, by rw [List.length_nil, Nat.zero_add]; rfl⟩
  | cons p passes ih =>
    intro m lastErr s rest e0 r0 h hp hr hm hposs hb hw
    rw [List.flatMap_cons, List.append_assoc] at hb
    obtain ⟨t1, E1, se1, p1, r1, b1, h1⟩ := enumPasses_failed h hp hr p hm (hposs p List.mem_cons_self)
      (passes.length + m + 1) lastErr _ hb
    have hpar : t1.params = s.params := E1.line.params
    have hv : ∀ i, t1.validRow i = s.validRow i := validRow_congr E1.untouched.count
    obtain ⟨t2, q, E2, p2, b2, w2, h2⟩ := ih m p.code rest e0
      (fun i => match p.found[i.val]? with | some d => some d | none => r0 i) E1.live (by rw [hpar]; exact hp)
      (by rw [hpar]; exact hr) (by rw [hpar]; exact hm)
      (fun x hx => by rw [hpar]; exact hposs x (List.mem_cons_of_mem _ hx)) b1 (fun i => by
        rw [hv]
        have hr1 := r1 i
        by_cases hi : i.val < p.found.length
        · rw [rowFrom_in ⟨Nat.zero_le _, by omega⟩, Nat.sub_zero, List.getD_eq_getElem _ _ hi] at hr1
          rw [List.getElem?_eq_getElem hi]
          exact hr1
        · rw [rowFrom_out (by omega)] at hr1
          rw [List.getElem?_eq_none (by omega)]
          exact (hw i).step hr1)
    refine ⟨t2, q, ?_, ?_, b2, ?_, ?_⟩
    · rw [List.flatMap_cons]
      exact E1.trans E2
    · rw [p2, p1, BitVec.add_assoc, List.length_cons, BitVec.ofNat_add, BitVec.add_comm 1]
      rfl
    · intro i
      have := w2 i
      rw [hv] at this
      exact this
    · rw [List.length_cons, show passes.length + 1 + m = passes.length + m + 1 by omega, h1, List.getLast?_cons]
      refine h2.trans ?_
      cases passes.getLast? <;> rfl

end Sys2Proof.Machine
end

