-- ==== Sys2Proof/Laws/Hidden.lean ====
section
/-! SUPPORT. The session state is out of the host's sight while BUSY = 1 (10_state.md R62): the time to the next tick
is the same whatever the session state holds. -/

namespace Sys2Proof.Machine

/-- A change of the state a procedure ends in, where nothing cuts it. The state in which an access is refused
is no outcome. -/
def mapOk {α : Type} (f : State → State) : EStateM.Result Cut State α → EStateM.Result Cut State α
  | .ok a t => .ok a (f t)
  | .error .reset t => .error .reset t
  | .error (.bad a) t => .error (.bad a) (f t)

/-- A host read answers the same whatever the session state holds. -/
theorem hostRead_session {s : State} (off : Offset) (e : Session) (hb : s.status.busy = true) :
    hostRead off { s with session := e } = { hostRead off s with session := e } := by
  unfold hostRead
  have h1 : ({ s with session := e } : State).readsUnspecified off = s.readsUnspecified off := rfl
  rw [h1]
  cases hr : s.readsUnspecified off
  · have : ({ s with session := e } : State).windowWord off = s.windowWord off := by
      unfold State.readsUnspecified at hr
      cases hreg : regAt s.params.maxDevices off with
      | none => simp only [State.windowWord, hreg]
      | some r =>
        rw [hreg] at hr
        simp only [hb, Bool.true_and] at hr
        simp only [State.windowWord, hreg]
        cases r <;> first | rfl | (exfalso; revert hr; decide)
    rw [this]; rfl
  · rfl

/-- So does the end of a clock cycle. -/
theorem closeCycle_session {s : State} (e : Session) (hb : s.status.busy = true) :
    closeCycle { s with session := e } = { closeCycle s with session := e } := by
  unfold closeCycle
  have : settleSupervisor { s with session := e } = { settleSupervisor s with session := e } := rfl
  rw [this]
  unfold settleRead
  show (match s.env.pend with | none => _ | some off => _) = _
  have h2 : (settleSupervisor s).env.pend = s.env.pend := rfl
  rw [h2]
  cases s.env.pend with
  | none => rfl
  | some off =>
    exact hostRead_session
      (s := { settleSupervisor s with env := { (settleSupervisor s).env with pend := none } }) off e hb

/-- A host write is the same whatever the session state holds. -/
theorem hostWrite_session (s : State) (off : Offset) (v : Word) (e : Session) :
    hostWrite off v { s with session := e } = { hostWrite off v s with session := e } := by
  unfold hostWrite
  show (match regAt s.params.maxDevices off with | none => _ | some off => _) = _
  cases regAt s.params.maxDevices off with
  | none => rfl
  | some r =>
    simp only
    unfold writeReg
    show (if (s.status.busy && r.locked) = true then _ else _) = _
    split
    · rfl
    · cases r <;> rfl

/-- The clock cycles to the next tick are the same whatever the session state holds. -/
theorem toTick_session (h : List HostEvent) (e : Session) : ∀ (s : State), s.status.busy = true →
    toTick h { s with session := e } = mapOk (fun t => { t with session := e }) (toTick h s) := by
  induction h with
  | nil => intro s _; rfl
  | cons x xs ih =>
    intro s hb
    unfold toTick
    show (if s.cyclesToTick < x.gap then _ else _) = mapOk _ (if s.cyclesToTick < x.gap then _ else _)
    split
    · rfl
    · cases x.act with
      | reset => rfl
      | access a =>
        simp only
        split
        · have ht : takeAccess a (openCycle ((({ s with session := e } : State).passCycles x.gap).withHost xs)) = { takeAccess a (openCycle ((s.passCycles x.gap).withHost xs)) with session := e } := by
            cases a with
            | read off size => rfl
            | write off size v => exact hostWrite_session (openCycle ((s.passCycles x.gap).withHost xs)) off v e
          rw [ht]
          show (if x.gap = s.cyclesToTick then _ else _) = mapOk _ (if x.gap = s.cyclesToTick then _ else _)
          have hb2 := (takeAccess_frame a (s := openCycle ((s.passCycles x.gap).withHost xs)) hb).1
          split
          · rfl
          · rw [closeCycle_session e hb2]
            exact ih _ (by rw [(closeCycle_frame _).1]; exact hb2)
        · rfl

/-- A tick that passes while a command runs is the same whatever the session state holds. -/
theorem nextTick_session (s : State) (e : Session) (hb : s.status.busy = true) :
    nextTick { s with session := e } = mapOk (fun t => { t with session := e }) (nextTick s) := by
  unfold nextTick
  rw [closeCycle_session e hb]
  exact toTick_session _ e _ (by rw [(closeCycle_frame _).1]; exact hb)

end Sys2Proof.Machine
end

