-- ==== Sys2Proof/Laws/PerInstr.lean ====
section
/-! SUPPORT. A statement about every command, one lemma per constructor: the word a command is encoded as carries its
OP and no reserved bit (30_encoding.md R130, R131, R136). -/

namespace Sys2Proof

/-- An assembled word has the OP it was assembled from, and no reserved bit. -/
theorem assemble_legal (op : BitVec 5) (data : Byte) (sel : Bool) (idx res : BitVec 4)
    (h : ¬((12 ≤ op.toNat ∧ op.toNat ≤ 15) ∨ 20 ≤ op.toNat)) :
    opField (assemble op data sel idx res) = op ∧ reservedSet (assemble op data sel idx res) = false ∧
      ¬ Machine.reservedOp (assemble op data sel idx res) := by
  refine ⟨opField_assemble op data sel idx res, ?_, ?_⟩
  · rw [Bool.eq_false_iff, ne_eq, reservedSet_iff]
    unfold Machine.reservedBitSet assemble
    simp
  · have hop := congrArg BitVec.toNat (opField_assemble op data sel idx res)
    unfold opField at hop
    rw [BitVec.extractLsb'_toNat, Nat.shiftRight_zero] at hop
    unfold Machine.reservedOp
    rw [hop]
    exact h

end Sys2Proof

namespace Sys2Proof.Laws.EncodeLegal

open Sys2Proof

/-- The encoded word has the command's OP value, no reserved bit set, and is no reserved operation. -/
def Statement (i : Instr) : Prop :=
  opField (encode i) = i.opcode ∧ reservedSet (encode i) = false ∧ ¬ Machine.reservedOp (encode i)

theorem nop : Statement .nop := assemble_legal 0x00 0 false 0 0 (by decide)
theorem reset : Statement .reset := assemble_legal 0x01 0 false 0 0 (by decide)
theorem writeBit (data : Byte) : Statement (.writeBit data) := assemble_legal 0x02 data false 0 0 (by decide)
theorem readBit : Statement .readBit := assemble_legal 0x03 0 false 0 0 (by decide)
theorem writeByte (data : Byte) : Statement (.writeByte data) := assemble_legal 0x04 data false 0 0 (by decide)
theorem readByte : Statement .readByte := assemble_legal 0x05 0 false 0 0 (by decide)
theorem crcClear : Statement .crcClear := assemble_legal 0x06 0 false 0 0 (by decide)
theorem crcByte (data : Byte) : Statement (.crcByte data) := assemble_legal 0x07 data false 0 0 (by decide)
theorem searchClear : Statement .searchClear := assemble_legal 0x08 0 false 0 0 (by decide)
theorem searchNext : Statement .searchNext := assemble_legal 0x09 0 false 0 0 (by decide)
theorem searchFirst : Statement .searchFirst := assemble_legal 0x0A 0 false 0 0 (by decide)
theorem enumerate : Statement .enumerate := assemble_legal 0x0B 0 false 0 0 (by decide)
theorem convert (sel : Bool) (idx : BitVec 4) : Statement (.convert sel idx) := assemble_legal 0x10 0 sel idx 0 (by decide)
theorem convPoll : Statement .convPoll := assemble_legal 0x11 0 false 0 0 (by decide)
theorem readTemp (sel : Bool) (idx : BitVec 4) : Statement (.readTemp sel idx) := assemble_legal 0x12 0 sel idx 0 (by decide)
theorem configure (sel : Bool) (idx res : BitVec 4) : Statement (.configure sel idx res) :=
  assemble_legal 0x13 0 sel idx res (by decide)

end Sys2Proof.Laws.EncodeLegal
end

