-- ==== Sys2Proof/Laws/Sensor.lean ====
section
/-! SUPPORT. What the procedures of the sensor sequencer do (43_sensor.md R274 to R300): selection, frames, and the
three ways a command writes table entries at its end. -/

namespace Sys2Proof.Machine

theorem ByteRegsOnly.frame {x y : Work} (h : ByteRegsOnly x y) : FrameRegsOnly x y := by
  obtain ⟨a, b, rfl⟩ := h
  exact ⟨a, b, _, _, rfl⟩

theorem FrameRegsOnly.refl (x : Work) : FrameRegsOnly x x := (ByteRegsOnly.refl x).frame

theorem FrameRegsOnly.trans {x y z : Work} (h : FrameRegsOnly x y) (g : FrameRegsOnly y z) : FrameRegsOnly x z := by
  obtain ⟨_, _, _, _, rfl⟩ := h
  obtain ⟨a, b, c, d, rfl⟩ := g
  exact ⟨a, b, c, d, rfl⟩

/-! ### Bytes and frames as bits -/

theorem byteBits_byteOfBits {bits : List Bool} (h : bits.length = 8) : byteBits (byteOfBits bits) = bits := by
  match bits, h with
  | [a, b, c, d, e, f, g, i], _ =>
    revert a b c d e f g i
    decide

theorem byteOfBits_byteBits (v : Byte) : byteOfBits (byteBits v) = v := by
  revert v
  decide

theorem length_byteBits (v : Byte) : (byteBits v).length = 8 := rfl

theorem length_bytesBits (vs : List Byte) : (vs.flatMap byteBits).length = 8 * vs.length := by
  induction vs with
  | nil => rfl
  | cons v vs ih =>
    rw [List.flatMap_cons, List.length_append, length_byteBits, ih, List.length_cons]
    omega

theorem length_frameBits (sp : Vector Byte 9) : (frameBits sp).length = 72 := by
  unfold frameBits
  rw [length_bytesBits, Vector.length_toList]

/-- Bytes with the same bits are the same. -/
theorem bytesBits_inj {as bs : List Byte} (hl : as.length = bs.length) (h : as.flatMap byteBits = bs.flatMap byteBits) :
    as = bs := by
  induction as generalizing bs with
  | nil => exact (List.eq_nil_of_length_eq_zero hl.symm).symm
  | cons a as ih =>
    cases bs with
    | nil => simp at hl
    | cons b bs =>
      rw [List.flatMap_cons, List.flatMap_cons] at h
      obtain ⟨h1, h2⟩ := List.append_inj h rfl
      rw [ih (by simpa using hl) h2]
      rw [← byteOfBits_byteBits a, h1, byteOfBits_byteBits]

/-- The frame the listed answers give. -/
theorem frame_listed {sp v : Vector Byte 9} {rest : List Bool} (h : answered (frameBits v ++ rest) (frameBits sp)) :
    sp = v := by
  have := answered_listed (by rw [length_frameBits, length_frameBits]) h
  have h2 := bytesBits_inj (by simp) this
  exact Vector.toList_inj.mp h2

/-! ### Selection -/

/-- The bytes Select sends are those of the table entry (43_sensor.md R274). -/
theorem select_spec {s : State} (h : Live s) (sel : Bool) (idx : BitVec 4) :
    ∃ t, select sel idx s = .ok () t ∧ Live t ∧ Does (bytesSlots (selectBytes sel s.table[rowOf idx].rom)) s t ∧
      t.status.presence = s.status.presence ∧ t.status.rxbit = s.status.rxbit ∧ ByteRegsOnly s.x t.x := by
  unfold select
  rw [bind_ok (get_ok _)]
  exact sendBytes_spec _ h

/-! ### Frames -/

/-- Bytes stored into x.SP one after another. -/
def storeAll (sp : Vector Byte 9) : List (Fin 9) → List Byte → Vector Byte 9
  | k :: ks, v :: vs => storeAll (sp.set k v) ks vs
  | _, _ => sp

theorem recvFrame_spec (ks : List (Fin 9)) : ∀ {s : State}, Live s →
    ∃ vs t, recvFrame ks s = .ok () t ∧ Live t ∧ Does (readSlots (8 * ks.length)) s t ∧ vs.length = ks.length ∧
      t.status.presence = s.status.presence ∧ t.status.rxbit = s.status.rxbit ∧
      (∃ sh bit, t.x = { s.x with sh := sh, bit := bit, sp := storeAll s.x.sp ks vs }) ∧
      (s.params.tRs ≠ 0 → answered s.env.bus (vs.flatMap byteBits)) := by
  induction ks with
  | nil =>
    exact fun {s} h => ⟨[], s, rfl, h, Does.still (.refl s) rfl rfl rfl, rfl, rfl, rfl, ⟨s.x.sh, s.x.bit, rfl⟩, by simp⟩
  | cons k ks ih =>
    intro s h
    obtain ⟨bits, t1, e1, l1, d1, n1, p1, r1, ⟨sh, bit, x1⟩, q1⟩ := recvByte_spec h
    obtain ⟨l2, d2⟩ := work_step (t := storeFrameByte k (byteOfBits bits) t1) rfl l1
    obtain ⟨vs, t3, e3, l3, d3, n3, p3, r3, ⟨sh3, bit3, x3⟩, q3⟩ := ih l2
    have hp : (storeFrameByte k (byteOfBits bits) t1).params = s.params := (d1.trans d2).params
    refine ⟨byteOfBits bits :: vs, t3, ?_, l3, ?_, by simp [n3], p3.trans p1, r3.trans r1, ⟨sh3, bit3, ?_⟩, ?_⟩
    · unfold recvFrame
      rw [bind_ok e1, bind_ok (modify_ok _ _)]
      exact e3
    · refine ((d1.trans d2).trans d3).cast ?_
      unfold readSlots
      rw [List.append_nil, List.replicate_append_replicate, List.length_cons]
      congr 1
      omega
    · rw [x3]
      show { t1.x with sh := sh3, bit := bit3, sp := storeAll (t1.x.sp.set k (byteOfBits bits)) ks vs } = _
      rw [x1]
      rfl
    · intro hz
      rw [List.flatMap_cons, byteBits_byteOfBits n1, answered_append]
      refine ⟨q1 hz, ?_⟩
      have := q3 (by rw [hp]; exact hz)
      rw [(d1.trans d2).bus] at this
      rw [n1]
      exact this

theorem storeAll_nine (sp : Vector Byte 9) {vs : List Byte} (h : vs.length = 9) :
    (storeAll sp [0, 1, 2, 3, 4, 5, 6, 7, 8] vs).toList = vs := by
  match vs, h with
  | [a, b, c, d, e, f, g, i, j], _ =>
    have : storeAll sp [0, 1, 2, 3, 4, 5, 6, 7, 8] [a, b, c, d, e, f, g, i, j] = #v[a, b, c, d, e, f, g, i, j] := by
      apply Vector.ext
      intro n hn
      have : n = 0 ∨ n = 1 ∨ n = 2 ∨ n = 3 ∨ n = 4 ∨ n = 5 ∨ n = 6 ∨ n = 7 ∨ n = 8 := by omega
      rcases this with rfl | rfl | rfl | rfl | rfl | rfl | rfl | rfl | rfl <;>
        simp [storeAll]
    rw [this]
    rfl

/-- The slots of ReadFrame: READ_SCRATCHPAD, 0xBE, and nine bytes read. -/
def readFrameSlots : List Slot := byteSlots 0xBE ++ readSlots 72

/-- Everything ReadFrame can do (43_sensor.md R275). -/
theorem readFrame_spec {s : State} (h : Live s) :
    ∃ t, readFrame s = .ok () t ∧ Live t ∧ Does readFrameSlots s t ∧ t.status.presence = s.status.presence ∧
      t.status.rxbit = s.status.rxbit ∧ (∃ sh bit, t.x = { s.x with sh := sh, bit := bit, sp := t.x.sp }) ∧
      (s.params.tRs ≠ 0 → answered s.env.bus (frameBits t.x.sp)) := by
  obtain ⟨t1, e1, l1, d1, p1, r1, ⟨a, b, x1⟩⟩ := sendByte_spec h readScratchpadByte
  obtain ⟨vs, t2, e2, l2, d2, n2, p2, r2, ⟨sh, bit, x2⟩, q2⟩ := recvFrame_spec [0, 1, 2, 3, 4, 5, 6, 7, 8] l1
  refine ⟨t2, ?_, l2, d1.trans d2, p2.trans p1, r2.trans r1, ⟨sh, bit, ?_⟩, ?_⟩
  · unfold readFrame
    rw [bind_ok e1]
    exact e2
  · rw [x2, x1]
  · intro hz
    have := q2 (by rw [d1.params]; exact hz)
    have hsp : t2.x.sp = storeAll t1.x.sp [0, 1, 2, 3, 4, 5, 6, 7, 8] vs := by rw [x2]
    unfold frameBits
    rw [hsp, storeAll_nine _ n2]
    rw [d1.bus] at this
    simpa using this

/-- The frame check changes x.C only (43_sensor.md R276). -/
theorem checkFrame_spec {s : State} (h : Live s) :
    ∃ t, checkFrame s = .ok (frameValid s.x.sp) t ∧ Live t ∧ Does [] s t ∧ t.status = s.status ∧
      t.x = { s.x with c := crc8 (frameBody s.x.sp) } ∧ t.table = s.table := by
  obtain ⟨l, d⟩ := work_step (t := setWorkCrc (crc8 (frameBody s.x.sp)) s) rfl h
  exact ⟨_, rfl, l, d, rfl, rfl, rfl⟩

/-! ### Entries written at a command's end -/

/-- The rows of a table an engine write has changed, after the supervisor's step of the finish cycle has landed: a
change that takes the pending step away or does not depend on it comes out as if the step had landed first. -/
theorem settle_res_eq (e : Entry) (r : Resolution) : ({ e with res := r } : Entry).settle = { e.settle with res := r } := by
  unfold Entry.settle
  cases h : e.sup <;> simp [h]

theorem settle_start (e : Entry) : e.start.settle = e.start := settle_of_none rfl

/-- The finish tick's own step of an entry, as passing time. -/
theorem Live.settle_passes {s : State} (h : Live s) (i : Fin 16) :
    RowPasses (s.validRow i) s.table[i] s.table[i].settle := Sys2Proof.Machine.settle_passes h.sup i

end Sys2Proof.Machine
end

