-- ==== Sys2Proof/Laws/Writers.lean ====
section
/-! SUPPORT. Which commands write what, over all commands at once: a predicate that time, the line and the registers of
the line leave alone, and that a command's own writes leave alone (`MayWrite`), holds after the command's pseudocode
(`body_keeps`), and so after the command (`exec_keeps`). -/

namespace Sys2Proof.Machine

/-- The writes of a command that `Stable` does not cover leave `P` alone. -/
def MayWrite (P : State → Prop) : Instr → Prop
  | .nop => True
  | .reset => True
  | .writeBit _ => True
  | .readBit => True
  | .writeByte _ => True
  | .readByte => ∀ s v, P s → P (setRxdata v s)
  | .crcClear => ∀ s v, P s → P (setCrc v s)
  | .crcByte _ => ∀ s v, P s → P (setCrc v s)
  | .searchClear => ∀ (s : State) se lz lf, P s → P { s with session := se, x := { s.x with lastzero := lz, lfdw := lf } }
  | .searchNext => ∀ (s : State) se lz lf, P s → P { s with session := se, x := { s.x with lastzero := lz, lfdw := lf } }
  | .searchFirst => ∀ (s : State) se lz lf, P s → P { s with session := se, x := { s.x with lastzero := lz, lfdw := lf } }
  | .enumerate =>
    (∀ (s : State) se lz lf, P s → P { s with session := se, x := { s.x with lastzero := lz, lfdw := lf } }) ∧
    (∀ (s : State) pass k, P s → P { s with x := { s.x with pass := pass, k := k } }) ∧
    (∀ (s : State) i e, P s → P (s.setEntry i fun _ => freshEntry e))
  | .convert sel idx => ∀ s, P s → P (startTargets sel idx s)
  | .convPoll => ∀ s, P s → P (pollReady s)
  | .readTemp _ idx => ∀ s, P s → P (storeReading idx s)
  | .configure sel idx _ => ∀ s r, P s → P (setTargetsRes sel idx r s)

section
variable {P : State → Prop}

/-- A change of the registers of the line and of the search. -/
theorem work_keeps (h : Stable P) {f : State → State} (hf : ∀ s, ∃ pos idb cmb dir newrom c, f s = { s with
    x := { s.x with pos := pos, idb := idb, cmb := cmb, dir := dir, newrom := newrom, c := c } }) :
    Triple P (modify f : Engine Unit) fun _ => P :=
  modify_keeps h fun s => by
    obtain ⟨pos, idb, cmb, dir, newrom, c, he⟩ := hf s
    exact ⟨s.status.presence, s.status.rxbit, s.x.sh, s.x.bit, pos, idb, cmb, dir, newrom, s.x.sp, c, he⟩

theorem choose_keeps (h : Stable P)
    (hs : ∀ (s : State) se lz lf, P s → P { s with session := se, x := { s.x with lastzero := lz, lfdw := lf } }) (k : Nat)
    {s : State} (hp : P s) : P (choose k s) := by
  have hn : P (noteDirection k s) := h.work s s.status.presence s.status.rxbit s.x.sh s.x.bit s.x.pos s.x.idb s.x.cmb _
    s.x.newrom s.x.sp s.x.c hp
  unfold choose
  split
  · exact hs _ (noteDirection k s).session _ _ hn
  · exact hn

theorem searchFrom_keepsAll (h : Stable P)
    (hs : ∀ (s : State) se lz lf, P s → P { s with session := se, x := { s.x with lastzero := lz, lfdw := lf } }) (n : Nat) :
    ∀ k, Triple P (searchFrom n k) fun _ => P := by
  induction n with
  | zero => exact fun _ => triple_pure fun _ h => h
  | succ n ih =>
    intro k
    exact triple_bind (slotRead_keeps h) fun _ => triple_bind (slotRead_keeps h) fun _ =>
      triple_bind (work_keeps h fun s => ⟨_, _, _, _, _, _, rfl⟩) fun _ => triple_ite (fun _ => triple_pure fun _ h => h) fun _ =>
        triple_bind (triple_modify (Q := fun _ => P) fun _ hp => choose_keeps h hs k hp) fun _ =>
          triple_bind (R := fun _ => P) (triple_get fun _ h => h) fun _ => triple_bind (slotWrite_keeps h _) fun _ =>
            triple_bind (work_keeps h fun s => ⟨_, _, _, _, _, _, rfl⟩) fun _ => ih (k + 1)

theorem searchStep_keepsAll (h : Stable P)
    (hs : ∀ (s : State) se lz lf, P s → P { s with session := se, x := { s.x with lastzero := lz, lfdw := lf } }) :
    Triple P searchStep fun _ => P := by
  have clear : Triple P (modify clearSession : Engine Unit) fun _ => P :=
    triple_modify fun s hp => hs s .clear s.x.lastzero s.x.lfdw hp
  refine triple_bind (R := fun _ => P) (triple_get fun _ h => h) fun _ => triple_ite (fun _ => triple_pure fun _ h => h)
    fun _ => triple_bind (slotReset_keeps h) fun _ => triple_ite
      (fun _ => triple_bind clear fun _ => triple_pure fun _ h => h) fun _ => triple_bind (sendByte_keeps h _) fun _ =>
        triple_bind (triple_modify (f := beginSearch) (Q := fun _ => P) fun s hp => ?_) fun _ =>
          triple_bind (searchFrom_keepsAll h hs 64 1) fun _ => triple_ite
            (fun _ => triple_bind clear fun _ => triple_pure fun _ h => h) fun _ => ?_
  · exact hs _ s.session 0 s.session.lfd (h.work s s.status.presence s.status.rxbit s.x.sh s.x.bit s.x.pos s.x.idb s.x.cmb
      s.x.dir s.session.rombuf s.x.sp s.x.c hp)
  · exact triple_bind (work_keeps h fun s => ⟨_, _, _, _, _, _, rfl⟩) fun _ =>
      triple_bind (R := fun _ => P) (triple_get fun _ h => h) fun _ => triple_ite
        (fun _ => triple_bind (triple_modify (Q := fun _ => P) fun s hp => hs s _ s.x.lastzero s.x.lfdw hp) fun _ =>
          triple_pure fun _ h => h)
        (fun _ => triple_bind clear fun _ => triple_pure fun _ h => h)

theorem enumDevices_keepsAll (h : Stable P) (w : MayWrite P .enumerate) (n : Nat) :
    Triple P (enumDevices n) fun _ => P := by
  obtain ⟨hs, hc, hr⟩ := w
  induction n with
  | zero => exact triple_pure fun _ h => h
  | succ n ih =>
    exact triple_bind (searchStep_keepsAll h hs) fun _ => triple_ite (fun _ => triple_pure fun _ h => h) fun _ =>
      triple_bind (triple_modify (f := storeRow) (Q := fun _ => P) fun s hp => hc _ s.x.pass (s.x.k + 1) (hr s _ _ hp))
        fun _ => triple_bind (R := fun _ => P) (triple_get fun _ h => h) fun _ => triple_ite
          (fun _ => triple_pure fun _ h => h) fun _ => ih

/-- What a command's pseudocode ends in: ENUMERATE writes COUNT and ENUMSTAT last (42_enumeration.md R250). -/
def EndsIn (P : State → Prop) (i : Instr) (t : State) : Prop :=
  P t ∨ (i = .enumerate ∧ ∃ c e tr u, P u ∧ t = commitEnum c e tr u)

theorem enumPasses_keepsAll (h : Stable P) (w : MayWrite P .enumerate) (n : Nat) : ∀ lastErr,
    Triple P (enumPasses n lastErr) fun _ t => EndsIn P .enumerate t := by
  have begin' : Triple P (modify beginPass : Engine Unit) fun _ => P := triple_modify fun s hp =>
    w.1 _ .clear s.x.lastzero s.x.lfdw (w.2.1 s (s.x.pass + 1) 0 hp)
  have commit : ∀ (f : State → State), (∀ s, ∃ c e tr, f s = commitEnum c e tr s) → ∀ code : Code,
      Triple P (do modify f; pure code : Engine Code) fun _ t => EndsIn P .enumerate t := by
    intro f hf code s hp a t ht
    cases ht
    obtain ⟨c, e, tr, he⟩ := hf s
    exact .inr ⟨rfl, c, e, tr, s, hp, he⟩
  induction n with
  | zero =>
    intro lastErr
    exact triple_bind begin' fun _ => triple_bind (R := fun _ => P) (triple_get fun _ h => h) fun _ =>
      triple_bind (enumDevices_keepsAll h w _) fun _ => triple_ite (fun _ => commit _ (fun _ => ⟨_, _, _, rfl⟩) _)
        fun _ => commit _ (fun _ => ⟨_, _, _, rfl⟩) _
  | succ n ih =>
    intro lastErr
    exact triple_bind begin' fun _ => triple_bind (R := fun _ => P) (triple_get fun _ h => h) fun _ =>
      triple_bind (enumDevices_keepsAll h w _) fun _ => triple_ite (fun _ => commit _ (fun _ => ⟨_, _, _, rfl⟩) _)
        fun _ => ih _

/-- A frame read or edited. -/
theorem frame_keeps (h : Stable P) (r : Resolution) : Triple P (modify (editFrame r) : Engine Unit) fun _ => P :=
  modify_keeps h fun s => ⟨s.status.presence, s.status.rxbit, _, _, _, _, _, _, _, _, _, rfl⟩

/-- Every command's pseudocode leaves `P` alone. -/
theorem body_keeps (h : Stable P) (i : Instr) (w : MayWrite P i) : Triple P (bodyOf i) fun _ t => EndsIn P i t := by
  have done : ∀ {m : Engine Code}, Triple P m (fun _ => P) → Triple P m fun _ t => EndsIn P i t :=
    fun hm => hm.weaken (fun _ h => h) fun _ _ h => .inl h
  cases i with
  | nop => exact done (triple_pure fun _ h => h)
  | reset => exact done (triple_bind (slotReset_keeps h) fun _ => triple_pure fun _ h => h)
  | writeBit data => exact done (triple_bind (slotWrite_keeps h _) fun _ => triple_pure fun _ h => h)
  | readBit =>
    exact done (triple_bind (slotReadWith_keeps h fun _ _ => ⟨_, rfl⟩) fun _ => triple_pure fun _ h => h)
  | writeByte data => exact done (triple_bind (sendByte_keeps h _) fun _ => triple_pure fun _ h => h)
  | readByte =>
    exact done (triple_bind (recvByte_keeps h) fun v =>
      triple_bind (triple_modify (Q := fun _ => P) fun s hp => w s v hp) fun _ => triple_pure fun _ h => h)
  | crcClear =>
    exact done (triple_bind (triple_modify (Q := fun _ => P) fun s hp => w s 0 hp) fun _ => triple_pure fun _ h => h)
  | crcByte data =>
    exact done (triple_bind (triple_modify (Q := fun _ => P) fun s hp => w s _ hp) fun _ => triple_pure fun _ h => h)
  | searchClear =>
    exact done (triple_bind (triple_modify (Q := fun _ => P) fun s hp => w s .clear s.x.lastzero s.x.lfdw hp) fun _ =>
      triple_pure fun _ h => h)
  | searchNext => exact done (searchStep_keepsAll h w)
  | searchFirst =>
    exact done (triple_bind (triple_modify (Q := fun _ => P) fun s hp => w s .clear s.x.lastzero s.x.lfdw hp) fun _ =>
      searchStep_keepsAll h w)
  | enumerate =>
    exact triple_bind (triple_modify (Q := fun _ => P) fun s hp => w.2.1 s 0 s.x.k hp) fun _ =>
      triple_bind (R := fun _ => P) (triple_get fun _ h => h) fun _ => enumPasses_keepsAll h w _ _
  | convert sel idx =>
    exact done (triple_bind (R := fun _ => P) (triple_get fun _ h => h) fun _ =>
      triple_ite (fun _ => triple_pure fun _ h => h) fun _ => triple_bind (slotReset_keeps h) fun _ =>
        triple_ite (fun _ => triple_pure fun _ h => h) fun _ => triple_bind (select_keeps h _ _) fun _ =>
          triple_bind (sendByte_keeps h _) fun _ => triple_bind (triple_modify (Q := fun _ => P) fun s hp => w s hp)
            fun _ => triple_pure fun _ h => h)
  | convPoll =>
    exact done (triple_bind (slotReadWith_keeps h fun _ _ => ⟨_, rfl⟩) fun _ => triple_ite
      (fun _ => triple_bind (triple_modify (Q := fun _ => P) fun s hp => w s hp) fun _ => triple_pure fun _ h => h)
      fun _ => triple_pure fun _ h => h)
  | readTemp sel idx =>
    exact done (triple_bind (R := fun _ => P) (triple_get fun _ h => h) fun _ =>
      triple_ite (fun _ => triple_pure fun _ h => h) fun _ => triple_ite (fun _ => triple_pure fun _ h => h) fun _ =>
        triple_bind (slotReset_keeps h) fun _ => triple_ite (fun _ => triple_pure fun _ h => h) fun _ =>
          triple_bind (select_keeps h _ _) fun _ => triple_bind (readFrame_keeps h) fun _ =>
            triple_bind (checkFrame_keeps h) fun _ => triple_ite (fun _ => triple_pure fun _ h => h) fun _ =>
              triple_bind (triple_modify (Q := fun _ => P) fun s hp => w s hp) fun _ => triple_pure fun _ h => h)
  | configure sel idx res =>
    show Triple P (configureBody sel idx res) _
    unfold configureBody
    cases resolutionOf res with
    | none => exact done (triple_pure fun _ h => h)
    | some r =>
      refine done (triple_bind (R := fun _ => P) (triple_get fun _ h => h) fun _ => triple_ite
        (fun _ => triple_pure fun _ h => h) fun _ => triple_bind (slotReset_keeps h) fun _ => triple_ite
          (fun _ => triple_pure fun _ h => h) fun _ => triple_bind (select_keeps h _ _) fun _ =>
            triple_bind (readFrame_keeps h) fun _ => triple_bind (checkFrame_keeps h) fun _ => triple_ite
              (fun _ => triple_pure fun _ h => h) fun _ => triple_bind (frame_keeps h r) fun _ => ?_)
      exact triple_bind (slotReset_keeps h) fun _ => triple_ite (fun _ => triple_pure fun _ h => h) fun _ =>
        triple_bind (select_keeps h _ _) fun _ => triple_bind (R := fun _ => P) (triple_get fun _ h => h) fun _ =>
          triple_bind (sendBytes_keeps h _) fun _ => triple_bind (slotReset_keeps h) fun _ => triple_ite
            (fun _ => triple_pure fun _ h => h) fun _ => triple_bind (select_keeps h _ _) fun _ =>
              triple_bind (sendByte_keeps h _) fun _ => triple_bind (drive_keeps h _ _) fun _ =>
                triple_bind (triple_modify (Q := fun _ => P) fun s hp => w s r hp) fun _ => triple_pure fun _ h => h

end

/-! ### Whole commands that nothing cuts -/

/-- A change of table rows that takes pending steps away or leaves their rows' CSTATE alone. -/
theorem Live.rows {s t : State} (h : Live s) (hb : t.status.busy = s.status.busy) (hh : t.env.host = s.env.host)
    (hc : t.count = s.count) (ht : ∀ i : Fin 16, t.table[i].sup = none ∨
      (t.table[i].sup = s.table[i].sup ∧ t.table[i].cstate = s.table[i].cstate)) : Live t := by
  refine ⟨hb.trans h.busy, (calm_of_host hh).trans h.calm, ?_⟩
  intro i u hu
  rcases ht i with hn | ⟨h1, h2⟩
  · rw [hn] at hu
    cases hu
  · rw [h1] at hu
    rw [validRow_congr hc, h2]
    exact h.sup i u hu

theorem Live.startTargets {s : State} (h : Live s) (sel : Bool) (idx : BitVec 4) : Live (startTargets sel idx s) := by
  refine h.rows rfl rfl rfl fun i => ?_
  show (mapTable _ s.table)[i].sup = none ∨ (mapTable _ s.table)[i].sup = _ ∧ (mapTable _ s.table)[i].cstate = _
  rw [mapTable_get]
  split
  · exact .inl rfl
  · exact .inr ⟨rfl, rfl⟩

theorem Live.pollReady {s : State} (h : Live s) : Live (pollReady s) := by
  refine h.rows rfl rfl rfl fun i => ?_
  show (mapTable _ s.table)[i].sup = none ∨ (mapTable _ s.table)[i].sup = _ ∧ (mapTable _ s.table)[i].cstate = _
  rw [mapTable_get]
  split
  · exact .inl rfl
  · exact .inr ⟨rfl, rfl⟩

theorem Live.setTargetsRes {s : State} (h : Live s) (sel : Bool) (idx : BitVec 4) (r : Resolution) :
    Live (setTargetsRes sel idx r s) := by
  refine h.rows rfl rfl rfl fun i => ?_
  show (mapTable _ s.table)[i].sup = none ∨ (mapTable _ s.table)[i].sup = _ ∧ (mapTable _ s.table)[i].cstate = _
  rw [mapTable_get]
  split <;> exact .inr ⟨rfl, rfl⟩

theorem Live.storeReading {s : State} (h : Live s) (idx : BitVec 4) : Live (storeReading idx s) := by
  refine h.rows rfl rfl rfl fun i => ?_
  show (s.table.set _ _)[i].sup = none ∨ (s.table.set _ _)[i].sup = _ ∧ (s.table.set _ _)[i].cstate = _
  rw [set_get]
  split
  · subst i
    exact .inr ⟨rfl, rfl⟩
  · exact .inr ⟨rfl, rfl⟩

theorem Live.freshRow {s : State} (h : Live s) (i : Fin 16) (e : Ident) : Live (s.setEntry i fun _ => freshEntry e) := by
  refine h.rows rfl rfl rfl fun j => ?_
  show (s.table.set _ _)[j].sup = none ∨ (s.table.set _ _)[j].sup = _ ∧ (s.table.set _ _)[j].cstate = _
  rw [set_get]
  split
  · exact .inl rfl
  · exact .inr ⟨rfl, rfl⟩

/-- What a running command leaves alone between its own writes: everything `Keeps` says, and the latched registers. -/
structure Carries (s t : State) : Prop extends Keeps s t where
  cmdw : t.x.cmdw = s.x.cmdw
  alw : t.x.alw = s.x.alw

/-- A predicate that `Carries` respects is stable while a command runs. -/
theorem live_stable {R : State → Prop} (hk : ∀ s t, Live s → Carries s t → R s → R t) : Stable fun s => Live s ∧ R s := by
  refine ⟨?_, ?_, ?_, ?_⟩
  · rintro s ⟨hl, hr⟩ a t ht
    obtain ⟨u, hu, lu, pu, -⟩ := nextTick_spec hl
    rw [hu] at ht
    cases ht
    exact ⟨lu, hk s _ hl ⟨pu.toKeeps, by rw [pu.x], by rw [pu.x]⟩ hr⟩
  · rintro s ph n ⟨hl, hr⟩
    obtain ⟨l, k⟩ := enterPhase_spec hl ph n
    exact ⟨l, hk s _ hl ⟨k, rfl, rfl⟩ hr⟩
  · rintro s ⟨hl, hr⟩
    obtain ⟨b, t, e, l, k, -, -, x, -⟩ := sample_spec hl
    cases e
    exact ⟨l, hk s _ hl ⟨k.toKeeps, by rw [x], by rw [x]⟩ hr⟩
  · rintro s pr rb sh bit pos idb cmb dir newrom sp c ⟨hl, hr⟩
    exact ⟨hl.of_eq rfl rfl rfl rfl, hk s _ hl ⟨keeps_of_work pr rb _ rfl, rfl, rfl⟩ hr⟩

/-- A command that nothing cuts, from its start to its finish cycle. -/
theorem exec_keeps {R : State → Prop} (hk : ∀ s t, Live s → Carries s t → R s → R t) (i : Instr)
    (w : MayWrite (fun s => Live s ∧ R s) i) {s t : State} (hn : s.calm = true) (he : exec i s = .next t)
    (hb : ∀ b, nextTick (accept s) = .ok () b → Begun s b → R b) :
    ∃ code u, t = closeCycle (complete code u) ∧ EndsIn (fun s => Live s ∧ R s) i u := by
  obtain ⟨b, hnt, hbg, hr⟩ := command_starts hn
  rw [exec_eq, hr] at he
  have hg := bodyOf_good i b hbg.live.busy
  cases hc : bodyOf i b with
  | ok code u =>
    rw [hc] at he
    cases he
    exact ⟨code, u, rfl, body_keeps (live_stable hk) i w b ⟨hbg.live, hb b hnt hbg⟩ code u hc⟩
  | error c u =>
    rw [hc] at hg
    have h1 := CutBy.not_calm hg
    rw [hbg.live.calm] at h1
    cases h1

end Sys2Proof.Machine
end

