-- ==== Sys2Proof/Tests/Slice0.lean ====
section
/-! SUPPORT. The model's own tests: command words written out from 30_encoding.md, ill-formed terms, small single steps
whose expected results are the vectors of 95_test_vectors.md, and for every obligation with hypotheses a theorem that
shows them met. The slots of the step tests are scaled down to a few ticks; the durations at the default parameters
are tested by themselves. -/

namespace Sys2Proof.Tests

open Sys2Proof Sys2Proof.Machine

/-! ### Well-formed terms -/

theorem test_wellFormed_refuses_data_bits : (Instr.writeBit 0x02).wellFormed = false := by decide
theorem test_wellFormed_refuses_convert_idx : (Instr.convert false 3).wellFormed = false := by decide
theorem test_wellFormed_refuses_configure_idx : (Instr.configure false 1 9).wellFormed = false := by decide
theorem test_wellFormed_admits_match : (Instr.configure true 1 0).wellFormed = true := by decide

/-! ### Words (30_encoding.md R131, R140; 95_test_vectors.md sections 2 to 6) -/

theorem test_decode_nop : decode 0x00000000 = .command .nop := by decide
theorem test_decode_nop_ignored_fields : decode 0x0F00FF00 = .command .nop := by decide
theorem test_decode_reset : decode 0x00000001 = .command .reset := by decide
theorem test_decode_writeBit : decode 0x00000102 = .command (.writeBit 1) := by decide
theorem test_decode_writeBit_ignored : decode 0x0000FE02 = .command (.writeBit 0) := by decide
theorem test_decode_readBit : decode 0x00000003 = .command .readBit := by decide
theorem test_decode_writeByte : decode 0x0000CC04 = .command (.writeByte 0xCC) := by decide
theorem test_decode_readByte : decode 0x00000005 = .command .readByte := by decide
theorem test_decode_crcClear : decode 0x00000006 = .command .crcClear := by decide
theorem test_decode_crcByte : decode 0x00002907 = .command (.crcByte 0x29) := by decide
theorem test_decode_searchClear : decode 0x00000008 = .command .searchClear := by decide
theorem test_decode_searchNext : decode 0x00000009 = .command .searchNext := by decide
theorem test_decode_searchFirst : decode 0x0000000A = .command .searchFirst := by decide
theorem test_decode_enumerate : decode 0x0000000B = .command .enumerate := by decide
theorem test_decode_convert : decode 0x00210010 = .command (.convert true 2) := by decide
theorem test_decode_convert_all : decode 0x00F00010 = .command (.convert false 0) := by decide
theorem test_decode_convPoll : decode 0x00000011 = .command .convPoll := by decide
theorem test_decode_readTemp : decode 0x00310012 = .command (.readTemp true 3) := by decide
theorem test_decode_configure : decode 0x0A110013 = .command (.configure true 1 10) := by decide
theorem test_decode_reserved_bits : decode 0x000000E0 = .illegal .reservedBits := by decide
theorem test_decode_reserved_bit_28 : decode 0x1000000B = .illegal .reservedBits := by decide
theorem test_decode_reserved_op : decode 0x0000000C = .illegal (.reservedOp 0x0C) := by decide
theorem test_decode_reserved_op_last : decode 0x0000001F = .illegal (.reservedOp 0x1F) := by decide
theorem test_encode_configure : encode (.configure true 1 10) = 0x0A110013 := by decide
theorem test_wordOfBytes : decode (wordOfBytes 0x13 0x00 0x11 0x0A) = .command (.configure true 1 10) := by decide

/-! ### Small blocks -/

/-- The fixture identifiers of 95_test_vectors.md section 0. -/
def d1 : Ident := 0x2900000000000128
def d2 : Ident := 0x7000000000000228
def d3 : Ident := 0x4700000000000328
def d4 : Ident := 0xCC00000000000110
def dBad : Ident := 0x2A00000000000128

/-- Frames V-F4 and V-F5 of 95_test_vectors.md section 5.3. -/
def frameGood : Vector Byte 9 := #v[0x91, 0x01, 0x4B, 0x46, 0x7F, 0xFF, 0x0C, 0x10, 0x70]
def frameBad : Vector Byte 9 := #v[0x90, 0x01, 0x4B, 0x46, 0x7F, 0xFF, 0x0C, 0x10, 0x70]

/-- The default parameters with one clock cycle a tick. -/
def legalParams : Params := { Params.default with cycPerUs := 1, owmBase := 0x1000 }

/-- Slots scaled down to a few ticks, one clock cycle a tick. -/
def tinyParams : Params where
  cycPerUs := 1
  tRstl := 2
  tPds := 1
  tRstRec := 1
  tW1l := 1
  tW0l := 2
  tWslot := 3
  tRl := 1
  tRs := 1
  tRslot := 3
  convUnitUs := 1
  maxDevices := 4
  enumRetries := 2
  tCopyWait := 1
  clkTol := 0
  owmBase := 0x1000

/-- A block after reset with these parameters, answers of the line and acts of the host. -/
def block (p : Params) (bus : List Bool) (host : List HostEvent) : State :=
  { State.reset with params := p, env := { Env.start with bus := bus, host := host } }

/-- The scaled-down block after reset with these answers of the line. -/
def tiny (bus : List Bool) : State := block tinyParams bus []

/-- Slots of one or two ticks, for the long commands. -/
def fast (bus : List Bool) : State :=
  block { tinyParams with tRstl := 1, tRstRec := 0, tW0l := 1, tWslot := 1, tRslot := 2, tCopyWait := 0 } bus []

/-- The block with these entries in its first rows, all of them valid. -/
def withRows (a b : Entry) (s : State) : State :=
  { s with count := 2, table := (tableReset.set 0 a).set 1 b }

/-- An entry with an identifier and a conversion state. -/
def row (rom : Ident) (c : CState) : Entry := { Entry.reset with rom := rom, cstate := c }

/-- What a field of the state a command leaves is. -/
def left {α : Type} (i : Instr) (s : State) (f : State → α) : Option α :=
  match exec i s with
  | .next t => some (f t)
  | .fault _ => none
  | .refused _ => none

/-- What a field of the state a step leaves is. -/
def stepped {α : Type} (s : State) (f : State → α) : Option α :=
  match step s with
  | .next t => some (f t)
  | .fault _ => none
  | .refused _ => none

/-- A command that completes in a state with a property. -/
theorem ran {i : Instr} {s : State} {P : State → Prop} [DecidablePred P]
    (h : left i s (fun t => decide (P t)) = some true) : ∃ t, exec i s = .next t ∧ P t := by
  unfold left at h
  split at h
  · rename_i t ht
    exact ⟨t, ht, of_decide_eq_true (Option.some.inj h)⟩
  · cases h
  · cases h

/-- A command that completes. -/
theorem completes {i : Instr} {s : State} (h : left i s (fun _ => true) = some true) : ∃ t, exec i s = .next t := by
  obtain ⟨t, ht, -⟩ := ran (P := fun _ => True) h
  exact ⟨t, ht⟩

/-- A step that gives a next state. -/
theorem steps {s : State} (h : stepped s (fun _ => true) = some true) : ∃ t, step s = .next t := by
  unfold stepped at h
  split at h
  · exact ⟨_, by assumption⟩
  · cases h
  · cases h

/-- A host write in the next clock cycle. -/
def wr (off : Offset) (v : Word) : HostEvent := ⟨0, .access (.write off 4 v)⟩

/-! ### One step of each command -/

/-- V-T14. -/
theorem test_nop : left .nop (tiny []) (fun t => (t.status.err, t.status.done, t.status.busy, t.env.wave)) =
    some (.ok, true, false, []) := by decide +kernel

/-- V-T1, V-T2. -/
theorem test_reset : left .reset (tiny [false]) (fun t => (t.status.err, t.status.presence)) = some (.ok, true) ∧
    left .reset (tiny [true]) (fun t => (t.status.err, t.status.presence)) = some (.ok, false) := by decide +kernel

/-- V-T5, V-T4: the low time encodes the bit, the slot length does not. The acceptance cycle is a tick (NOW = 1), so
t_s is NOW = 2. -/
theorem test_writeBit :
    left (.writeBit 0) (tiny []) (fun t => t.env.wave) = some [⟨.wRel, 4, 1⟩, ⟨.wLow, 2, 2⟩] ∧
    left (.writeBit 1) (tiny []) (fun t => t.env.wave) = some [⟨.wRel, 3, 2⟩, ⟨.wLow, 2, 1⟩] := by decide +kernel

/-- V-T7, V-T8. -/
theorem test_readBit : left .readBit (tiny [true]) (fun t => t.status.rxbit) = some true ∧
    left .readBit (tiny [false]) (fun t => t.status.rxbit) = some false := by decide +kernel

/-- V-T9: 0xCC is sent as 0,0,1,1,0,0,1,1. -/
theorem test_writeByte :
    left (.writeByte 0xCC) (tiny []) (fun t => t.env.wave.reverse.filterMap fun g =>
      if g.phase = .wLow then some g.ticks else none) = some [2, 2, 1, 1, 2, 2, 1, 1] := by decide +kernel

/-- V-T11. -/
theorem test_readByte :
    left .readByte (tiny [false, false, false, true, false, true, false, false]) (fun t => (t.rxdata, t.status.rxbit)) =
      some (0x28, false) := by decide +kernel

/-- V-C21. -/
theorem test_crcClear : left .crcClear { tiny [] with crc := 0xA2 } (fun t => t.crc) = some 0x00 := by decide +kernel

/-- V-C22, V-C24. -/
theorem test_crcByte : left (.crcByte 0x02) (tiny []) (fun t => t.crc) = some 0xBC ∧
    left (.crcByte 0x29) { tiny [] with crc := 0x29 } (fun t => t.crc) = some 0x00 := by decide +kernel

/-- R240. -/
theorem test_searchClear :
    left .searchClear { tiny [] with session := ⟨9, 4, true, d1⟩ } (fun t => t.session) = some ⟨0, 0, false, 0⟩ := by
  decide +kernel

/-- V-E3, call 1. -/
theorem test_searchNext :
    left .searchNext (tiny (false :: searchBits [d1, d2] d2 64 1)) (fun t => (t.status.err, t.session)) =
      some (.ok, ⟨9, 0, false, d2⟩) := by decide +kernel

/-- V-E2, call 2. -/
theorem test_searchNext_complete :
    left .searchNext { tiny [] with session := ⟨0, 0, true, d1⟩ } (fun t => (t.status.err, t.session, t.env.wave)) =
      some (.complete, ⟨0, 0, true, d1⟩, []) := by decide +kernel

/-- V-E2, call 1, and V-E1. -/
theorem test_searchFirst :
    left .searchFirst { tiny (false :: searchBits [d1] d1 64 1) with session := ⟨9, 4, true, d2⟩ }
      (fun t => (t.status.err, t.session)) = some (.ok, ⟨0, 0, true, d1⟩) ∧
    left .searchFirst (tiny [true]) (fun t => (t.status.err, t.session)) = some (.busAbsent, ⟨0, 0, false, 0⟩) := by
  decide +kernel

/-- Program P2, step 2, and V-E16: four devices and two rows. -/
theorem test_enumerate :
    left .enumerate (fast (passBits [d1] [d1])) (fun t => (t.status.err, t.count, t.table[0].rom, t.enumstat.word,
      t.session.searchWord)) = some (.ok, 1, d1, 0x00000001, 0x00010000) ∧
    left .enumerate { fast (passBits [d4, d2, d1, d3] [d4, d2]) with params := { (fast []).params with maxDevices := 2 } }
      (fun t => (t.count, t.enumstat.word, t.session.searchWord, t.table[0].rom, t.table[1].rom)) =
      some (2, 0x00001001, 0x00000409, d4, d2) := ⟨by decide +kernel, by decide +kernel⟩

/-- R250, an empty bus: ENUM_RETRIES passes of one reset slot each; V-E18 with two
passes, which both read Dbad; and V-E20, one failed pass before a good one. -/
theorem test_enumerate_fails :
    left .enumerate (tiny [true, true]) (fun t => (t.status.err, t.count, t.enumstat.word)) =
      some (.busAbsent, 0, 0x00000102) ∧
    left .enumerate (fast (passBits [dBad] [dBad, dBad]))
      (fun t => (t.status.err, t.count, t.enumstat.word, t.status.presence, t.table[0].rom)) =
      some (.busAbsent, 0, 0x00000302, true, 0) ∧
    left .enumerate (fast (true :: passBits [d1] [d1]))
      (fun t => (t.status.err, t.count, t.enumstat.word, t.session.searchWord, t.table[0].rom)) =
      some (.ok, 1, 0x00000102, 0x00010000, d1) := ⟨by decide +kernel, by decide +kernel, by decide +kernel⟩

/-- V-S14. -/
theorem test_convert :
    left (.convert false 0) (withRows (row d2 .idle) (row d1 .timedOut) (tiny [false]))
      (fun t => (t.status.err, t.table[0].statWord, t.table[1].statWord, t.table[2].statWord)) =
      some (.ok, 0x00000C01, 0x00000C01, 0x00000C00) := by decide +kernel

/-- V-X9. -/
theorem test_convert_absent :
    left (.convert true 0) (withRows (row d2 .idle) (row d1 .idle) (tiny [true]))
      (fun t => (t.status.err, t.table[0].statWord)) = some (.busAbsent, 0x00000C00) := by decide +kernel

/-- V-S7. -/
theorem test_convPoll :
    left .convPoll { withRows { row d1 .started with res := .r9 } (row d2 .timedOut) (tiny [true]) with budget := 0 }
      (fun t => (t.status.rxbit, t.status.cevt, t.table[0].cstate, t.table[1].cstate)) =
      some (true, true, .ready, .timedOut) := by decide +kernel

/-- V-S10, and V-S6: a started entry with a device on the line is refused before any slot. -/
theorem test_readTemp :
    left (.readTemp true 0) (withRows (row d1 .ready) (row d2 .idle) (tiny (false :: frameBits frameGood)))
      (fun t => (t.status.err, t.table[0].temp, t.table[0].statWord)) =
      some (.ok, 0x000009CA, 0x00000C12) ∧
    left (.readTemp true 0) (withRows (row d1 .started) (row d2 .idle) (tiny [false]))
      (fun t => (t.status.err, t.table[0].temp, t.env.bus, t.env.wave)) = some (.convTimeout, 0, [false], []) :=
  ⟨by decide +kernel, by decide +kernel⟩

/-- V-S9. -/
theorem test_readTemp_mismatch :
    left (.readTemp true 0) (withRows { row d1 .ready with temp := 0x000009CA, tvalid := true } (row d2 .idle)
      (tiny (false :: frameBits frameBad))) (fun t => (t.status.err, t.table[0].temp, t.table[0].statWord)) =
      some (.crcMismatch, 0x000009CA, 0x00000C12) := by decide +kernel

/-- V-S19: RES of the only entry, and the bytes written. -/
theorem test_configure :
    left (.configure false 0 12) { fast (false :: frameBits frameGood ++ [false, false]) with
      alarm := 0x004BFFC9, count := 1, table := tableReset.set 0 { row d1 .idle with res := .r9 } }
      (fun t => (t.status.err, t.table[0].statWord, t.x.sp[2], t.x.sp[3], t.x.sp[4])) =
      some (.ok, 0x00000C00, 0x4B, 0xC9, 0x7F) := by decide +kernel

/-- V-X5, V-X6. -/
theorem test_configure_priority :
    left (.configure true 15 8) (withRows (row d2 .idle) (row d1 .idle) (tiny [])) (fun t => t.status.err) =
      some .unsupportedRes ∧
    left (.configure true 15 9) (withRows (row d2 .idle) (row d1 .idle) (tiny [])) (fun t => t.status.err) =
      some .badIndex := by decide +kernel

/-! ### One step with the host's act -/

/-- V-X1: an illegal word is accepted and finishes with ILLEGAL_OP. -/
theorem test_step_illegal : stepped (block tinyParams [] [wr 0 0x000000E0])
    (fun t => (t.status.err, t.status.done, t.x.cmdw)) = some (.illegalOp, true, 0x000000E0) := by decide +kernel

/-- V-X13: a CMD write while a command runs is dropped with OVR set. -/
theorem test_step_overrun : stepped (block tinyParams [true] [wr 0 0x00000001, wr 0 0x00000005])
    (fun t => (t.status.ovr, t.status.err, t.rxdata, t.env.host)) = some (true, .ok, 0x00, []) := by decide +kernel

/-- V-X15. -/
theorem test_step_devcnt : stepped (block legalParams [] [wr 0x02C 0x0000001F]) (fun t => t.count) = some 8 := by
  decide +kernel

/-- V-X16: the write of 1 to DONE drops `irq`. -/
theorem test_step_irq :
    stepped { block tinyParams [] [wr 0x004 0x2] with
      status := { Status.reset with done := true }, ctrl := ⟨true, false⟩ } (fun t => (t.status.done, t.irq)) =
      some (false, false) := by decide +kernel

/-- V-X19. -/
theorem test_step_bad_access : step (block tinyParams [] [⟨0, .access (.read 0x006 2)⟩]) =
    .fault (.badAccess false 0x006 2) := rfl

/-- V-X19's access in the second tick of a RESET: the command is refused there. -/
theorem test_bad_access_in_command : exec .reset (block tinyParams [true] [⟨2, .access (.read 0x006 2)⟩]) =
    .fault (.badAccess false 0x006 2) := rfl

/-- V-X18: a CMD write in the finish cycle of a RESET, the fifth cycle after its acceptance. -/
theorem test_step_overrun_finish : stepped (block tinyParams [true] [wr 0 0x00000001, ⟨4, .access (.write 0 4 0x00000005)⟩])
    (fun t => (t.status.ovr, t.status.err, t.x.cmdw, t.env.host)) = some (true, .ok, 0x00000001, []) := by decide +kernel

/-- V-X20, V-X21. -/
theorem test_step_unmapped : stepped (block tinyParams [] [⟨0, .access (.read 0x040 4)⟩]) (fun t => t.env.reads) =
    some [(0x040, 0x00000000)] := by decide +kernel

/-- V-X22. -/
theorem test_step_w1c :
    stepped { block tinyParams [] [wr 0x004 0xFFFFFFFF] with status := ⟨false, true, true, true, true, true, .crcMismatch⟩ }
      (fun t => t.status) = some ⟨false, false, false, true, true, false, .crcMismatch⟩ := by decide +kernel

/-- V-X23: reset in the middle of RST_LOW. -/
theorem test_step_reset_mid_slot : stepped (block tinyParams [] [wr 0 0x00000001, ⟨1, .reset⟩])
    (fun t => (t.pad, t.status, t.seq)) = some (false, Status.reset, none) := by decide +kernel

/-- V-S17: a host clear of CEVT in the cycle in which the supervisor sets it. -/
theorem test_step_cevt_wins :
    stepped { withRows { row d1 .started with elapsed := 799 } (row d2 .idle)
      (block tinyParams [] [wr 0x004 0x20]) with status := { Status.reset with cevt := true } }
      (fun t => (t.status.cevt, t.table[0].statWord)) = some (true, 0x00000C02) := by decide +kernel

/-- V-S4: a budget shorter than the duration. -/
theorem test_step_timeout :
    stepped { withRows { row d1 .started with elapsed := 499, tvalid := true, temp := 0x9CA } (row d2 .idle) (tiny []) with
      budget := 500 } (fun t => (t.status.cevt, t.table[0].statWord, t.table[0].temp)) =
      some (true, 0x00000C03, 0x9CA) := by decide +kernel

/-- V-S16: an entry above COUNT is frozen. -/
theorem test_step_frozen :
    stepped { withRows (row d1 .idle) { row d2 .started with elapsed := 1000 } (tiny []) with count := 1 }
      (fun t => (t.table[1].elapsed, t.table[1].cstate)) = some (1000, .started) := by decide +kernel

/-! ### Functions and durations -/

/-- V-C6, V-C7, V-C12. -/
theorem test_crc8 : crc8 [0x02, 0x1C, 0xB8, 0x01, 0x00, 0x00, 0x00] = 0xA2 ∧
    crc8 [0x28, 0x01, 0x00, 0x00, 0x00, 0x00, 0x00] = 0x29 ∧ romValid 0 = true ∧ romValid 0x2A00000000000128 = false := by
  decide +kernel

/-- V-F1, V-F3, V-F4, V-F6, and R278's case. -/
theorem test_decodeCenti : decodeCenti 0x50 0x05 0x7F = 8500 ∧ decodeCenti 0x60 0xFF 0x7F = -1000 ∧
    decodeCenti 0x91 0x01 0x7F = 2506 ∧ decodeCenti 0x91 0x01 0x3F = 2500 ∧ decodeCenti 0x5E 0xFF 0x1F = -1000 ∧
    decodeCenti 0x00 0x80 0x7F = -204800 ∧ decodeCenti 0xFF 0x7F 0x7F = 204793 := by decide +kernel

/-- V-E6: what the first twelve positions of the bus of D1 and D2 read. -/
theorem test_searchBits : searchBits [d1, d2] d2 12 1 =
    [false, true, false, true, false, true, true, false, false, true, true, false, false, true, false, true, false, false,
      true, false, false, true, false, true] := by decide +kernel

/-- V-TM2 to V-TM7. -/
theorem test_durations : slotTicks legalParams [.reset] = 960 ∧ slotTicks legalParams [.write true] = 70 ∧
    slotTicks legalParams [.read] = 60 ∧ slotTicks legalParams (byteSlots 0xCC) = 560 ∧
    slotTicks legalParams (readSlots 8) = 480 ∧ slotTicks legalParams (searchSlots d1) = 13680 := by decide +kernel

/-- V-TM8: COLLISION at positions 1, 9 and 64. -/
theorem test_durations_collision :
    slotTicks legalParams (searchHead ++ positionSlots d1 0 1 ++ [.read, .read]) = 1640 ∧
    slotTicks legalParams (searchHead ++ positionSlots d1 8 1 ++ [.read, .read]) = 3160 ∧
    slotTicks legalParams (searchHead ++ positionSlots d1 63 1 ++ [.read, .read]) = 13610 := by decide +kernel

/-! ### The hypotheses of the obligations, met together -/

/-- The block after reset with legal parameters, these answers of the line and these acts of the host. -/
def legal (bus : List Bool) (host : List HostEvent) : State := block legalParams bus host

/-- The same with every row of the table there is, for the boundary of MAX_DEVICES. -/
def legalFull (host : List HostEvent) : State := block { legalParams with maxDevices := 16 } [] host

/-- A legal block in which a command is running. -/
def busy : State := { legalFull [] with status := { Status.reset with busy := true } }

theorem legalParams_legal : legalParams.Legal := by decide

theorem legal_undisturbed (bus : List Bool) : (legal bus []).Undisturbed := ⟨rfl, legalParams_legal, show legalParams.tRs ≠ 0 by decide⟩

/-- Two entries, the first in this state, in a legal block. -/
def twoRows (c : CState) (bus : List Bool) : State := withRows (row d1 c) (row d2 .idle) (legal bus [])

theorem twoRows_undisturbed (c : CState) (bus : List Bool) : (twoRows c bus).Undisturbed :=
  ⟨rfl, legalParams_legal, show legalParams.tRs ≠ 0 by decide⟩

/-- EncodeDecode, DecodeExactly: the widest and the narrowest operands. -/
theorem witness_wellFormed : (Instr.configure true 15 12).wellFormed = true ∧ (Instr.writeBit 1).wellFormed = true ∧
    (Instr.convert false 0).wellFormed = true ∧ decode 0x0CF10013 = .command (.configure true 15 12) := by decide

/-- IllegalWords: every reserved bit at a boundary, and every boundary of the reserved operations. -/
theorem witness_IllegalWords : (∀ w ∈ [0x00000020#32, 0x00000080, 0x00020000, 0x00080000, 0x10000000, 0x80000000],
    (legal [] [wr 0 w]).calm = true ∧ (legal [] [wr 0 w]).due = .command w ∧ reservedBitSet w) ∧
    ∀ w ∈ [0x0000000C#32, 0x0000000F, 0x00000014, 0x0000001F],
      (legal [] [wr 0 w]).calm = true ∧ (legal [] [wr 0 w]).due = .command w ∧ reservedOp w := by
  refine ⟨fun w h => ?_, fun w h => ?_⟩ <;> simp only [List.mem_cons, List.not_mem_nil, or_false] at h
  · unfold reservedBitSet
    rcases h with rfl | rfl | rfl | rfl | rfl | rfl <;> decide
  · unfold reservedOp
    rcases h with rfl | rfl | rfl | rfl <;> decide

theorem witness_StepRunsCommand : (legal [] [wr 0 0x0A110013]).accessNext (.write 0 4 0x0A110013) [] ∧
    (legal [] [wr 0 0x0A110013]).status.busy = false ∧ decode 0x0A110013 = .command (.configure true 1 10) :=
  ⟨rfl, rfl, by decide⟩

/-- AccessContract: an access of another width, one of another alignment, and an aligned 32-bit one at the window's
last word. -/
theorem witness_AccessContract :
    ((legal [] [⟨0, .access (.read 0x004 2)⟩]).accessNext (.read 0x004 2) [] ∧ (Access.read 0x004 2).size ≠ 4) ∧
    ((legal [] [⟨0, .access (.read 0x003 4)⟩]).accessNext (.read 0x003 4) [] ∧
      (Access.read 0x003 4).off.toNat % 4 ≠ 0) ∧
    ((legal [] [⟨0, .access (.read 0x1FC 4)⟩]).accessNext (.read 0x1FC 4) [] ∧
      (Access.read 0x1FC 4).size = 4 ∧ (Access.read 0x1FC 4).off.toNat % 4 = 0) ∧
    ((legal [] [wr 0 1, ⟨0, .access (.read 0x006 2)⟩]).accessNext (.write 0 4 1) [⟨0, .access (.read 0x006 2)⟩] ∧
      (Access.write 0 4 1).size = 4 ∧ (Access.read 0x006 2).size ≠ 4) ∧
    (511 < 512 ∧ 512 ≤ 512 ∧ 0x0FFF < legalParams.owmBase) :=
  ⟨⟨rfl, by decide⟩, ⟨rfl, by decide⟩, ⟨rfl, by decide⟩, ⟨rfl, by decide⟩, by decide⟩

/-- A RESET of scaled-down slots whose host acts once, in the `g`-th cycle after the cycle after acceptance. -/
def resetWith (g : Nat) (act : HostAct) : State := block tinyParams [true] [⟨g, act⟩]

/-- Left alone it takes five clock cycles after its acceptance cycle: the fourth one after the first is its finish
cycle. -/
theorem resetWith_cycles (g : Nat) (act : HostAct) :
    ∃ u, exec .reset (resetWith g act).alone = .next u ∧ (resetWith g act).cyclesTo u = 5 :=
  ran (s := tiny [true]) (P := fun u => (tiny [true]).cyclesTo u = 5) (by decide +kernel)

/-- AccessContract inside a command: the finish cycle and the cycle after it. -/
theorem witness_AccessContract_inside : ∀ g ∈ [4, 5], 1 ≤ (resetWith g (.access (.read 0x006 2))).params.cycPerUs ∧
    (resetWith g (.access (.read 0x006 2))).env.host = ⟨g, .access (.read 0x006 2)⟩ :: [] ∧
    (Access.read 0x006 2).size ≠ 4 ∧
    ∃ u, exec .reset (resetWith g (.access (.read 0x006 2))).alone = .next u ∧
      (resetWith g (.access (.read 0x006 2))).cyclesTo u = 5 :=
  fun _ _ => ⟨Nat.le_refl 1, rfl, by decide, resetWith_cycles _ _⟩

/-- RegisterMap, WriteLocking: the last row there is with MAX_DEVICES = 16, and the edges of the unmapped ranges with
MAX_DEVICES = 8. -/
theorem witness_RegisterMap : (15 : Fin 16).val < (legalFull []).params.maxDevices ∧
    (0x034 ≤ (0x034 : Offset).toNat ∧ (0x0FF : Offset).toNat < 0x100) ∧
    0x100 + 16 * (legal [] []).params.maxDevices ≤ (0x180 : Offset).toNat := by decide

theorem witness_ReservedBits : regAt (legal [] []).params.maxDevices 0x034 = none ∧
    regAt (legal [] []).params.maxDevices 0x180 = none ∧ Reg.ctrl ≠ .cmd ∧ reservedBitSet 0x000000E0 := by
  unfold reservedBitSet
  decide

theorem witness_ByteOrder : (0x1FC : Offset).toNat % 4 = 0 := by decide

theorem witness_WriteLocking : busy.status.busy = true ∧ (15 : Fin 16).val < busy.params.maxDevices := by decide

/-- OverrunDuringCommand: in the cycle after acceptance and in the finish cycle, CMD, DEVCNT and the last word of
TBL_ROM_HI with MAX_DEVICES = 4. -/
theorem witness_OverrunDuringCommand : ∀ g ∈ [0, 4], ∀ off ∈ [0x000#9, 0x02C, 0x134],
    1 ≤ (resetWith g (.access (.write off 4 5))).params.cycPerUs ∧
    (resetWith g (.access (.write off 4 5))).env.host = [⟨g, .access (.write off 4 5)⟩] ∧
    (3 : Fin 16).val < (resetWith g (.access (.write off 4 5))).params.maxDevices ∧
    (0x134 : Offset) = BitVec.ofNat 9 (0x104 + 16 * (3 : Fin 16).val) ∧
    ∃ u, exec .reset (resetWith g (.access (.write off 4 5))).alone = .next u ∧
      (resetWith g (.access (.write off 4 5))).cyclesTo u = 5 :=
  fun _ _ _ _ => ⟨Nat.le_refl 1, rfl, show 3 < 4 by decide, rfl, resetWith_cycles _ _⟩

/-- ReadsWhileBusy: a hidden register and an exact one while BUSY = 1, and any register with BUSY = 0. -/
theorem witness_ReadsWhileBusy : (regAt busy.params.maxDevices 0x1FC = some (.tblStat 15) ∧ busy.status.busy = true ∧
    (Reg.tblStat 15).hiddenWhileBusy = true) ∧ (regAt busy.params.maxDevices 0x024 = some .alarm ∧
    (legalFull []).status.busy = false) := by decide

theorem witness_ReadsChangeNothing : (legal [] [⟨0, .access (.read 0x010 4)⟩]).accessNext (.read 0x010 4) [] ∧
    (0x010 : Offset).toNat % 4 = 0 ∧ (legal [] [⟨0, .access (.read 0x010 4)⟩]).env.pend = none := ⟨rfl, rfl, rfl⟩

/-- A procedure of the engine that is not cut. -/
def uncut (m : Engine Unit) (s : State) : Bool :=
  match m s with
  | .ok _ _ => true
  | .error _ _ => false

theorem uncut_ok {m : Engine Unit} {s : State} (h : uncut m s = true) : ∃ t, m s = .ok () t := by
  unfold uncut at h
  split at h
  · exact ⟨_, by assumption⟩
  · cases h

/-- OutputPins: a phase held for some ticks with BUSY = 1, a phase driven for its duration, and one of duration 0. -/
theorem witness_OutputPins : busy.status.busy = true ∧ (∃ t, ticks 2 (enterPhase .rstLow 5 busy) = .ok () t) ∧
    (∃ t, drive .rRec Params.tRl busy = .ok () t) ∧ Params.tRl busy.params ≠ 0 ∧
    (∃ t, drive .wait Params.tCopyWait busy = .ok () t) ∧ Params.tCopyWait busy.params = 0 :=
  ⟨rfl, uncut_ok (by decide +kernel), uncut_ok (by decide +kernel), show 2 ≠ 0 by decide,
    uncut_ok (by decide +kernel), rfl⟩

/-- HostWrites: an ordinary register, and the last word of TBL_ROM_HI with MAX_DEVICES = 16. -/
theorem witness_HostWrites : ((legal [] [wr 0x02C 0x1F]).accessNext (.write 0x02C 4 0x1F) [] ∧
    (0x02C : Offset).toNat % 4 = 0 ∧ (legal [] [wr 0x02C 0x1F]).status.busy = false ∧ (0x02C : Offset) ≠ 0) ∧
    ((legalFull [wr 0x1F4 1]).accessNext (.write 0x1F4 4 1) [] ∧ (15 : Fin 16).val < (legalFull []).params.maxDevices ∧
      (0x1F4 : Offset) = BitVec.ofNat 9 (0x104 + 16 * 15)) :=
  ⟨⟨rfl, by decide⟩, ⟨rfl, by decide⟩⟩

/-- HostWrites: STATUS, in a cycle that is a tick with a started row. -/
theorem witness_HostWrites_status :
    let s := withRows (row d1 .started) (row d2 .idle) (legal [] [wr 0x004 0x22])
    s.accessNext (.write 0x004 4 0x22) [] ∧ (0x004 : Offset).toNat % 4 = 0 ∧ s.status.busy = false ∧
      (0x004 : Offset) ≠ 0 ∧ s.isTick = true ∧ s.table[(0 : Fin 16)].cstate = .started :=
  ⟨rfl, by decide, rfl, by decide, rfl, rfl⟩

theorem witness_StatusWrite : (legal [] [wr 0x004 0x22]).accessNext (.write 0x004 4 0x22) [] := rfl

/-- StepKeepsInv: a state that meets the invariant, and a step of it that gives a next state. -/
theorem witness_StepKeepsInv : (legal [true] [wr 0 0x00000001]).Inv ∧
    ∃ t, step (legal [true] [wr 0 0x00000001]) = .next t :=
  ⟨⟨by decide, rfl, rfl, rfl, rfl, rfl, by decide, by decide, by decide, by decide, by decide, by decide,
    by decide +kernel, by decide, by decide⟩, steps (by decide +kernel)⟩

theorem witness_ResetCycle : (legal [] [⟨0, .reset⟩]).env.host = ⟨0, .reset⟩ :: [] := rfl

/-- ResetCutsCommand: in the middle of RST_LOW, in the finish cycle, and in the cycle after it. -/
theorem witness_ResetCutsCommand : ∀ g ∈ [1, 4, 5], 1 ≤ (resetWith g .reset).params.cycPerUs ∧
    (resetWith g .reset).env.host = ⟨g, .reset⟩ :: [] ∧
    ∃ u, exec .reset (resetWith g .reset).alone = .next u ∧ (resetWith g .reset).cyclesTo u = 5 :=
  fun _ _ => ⟨Nat.le_refl 1, rfl, resetWith_cycles _ _⟩

/-- IdleClock, also with a started row. -/
theorem witness_IdleClock : (∀ c : CState, (twoRows c []).env.host = [] ∧
    (twoRows c []).presc < (twoRows c []).params.cycPerUs) ∧ ∀ i : Fin 16, (twoRows .started []).table[i].sup = none :=
  ⟨fun _ => ⟨rfl, show 0 < 1 by decide⟩, by decide⟩

/-- The transport and CRC commands, SEARCH_CLEAR and ConfigureRefuses: nothing cuts the command, legal parameters, T_RS
not 0, a quiet host. -/
theorem witness_commands : (legal [] []).calm = true ∧ (legal [] []).params.Legal ∧ (legal [] []).params.tRs ≠ 0 ∧
    (legal [] []).quiet := ⟨rfl, legalParams_legal, by decide, rfl, rfl⟩

/-- The decoding clauses of Nop to SearchClear: each OP value in a legal word, and in one with a reserved bit set. -/
theorem witness_op : ∀ op : Fin 9, (BitVec.ofNat 32 (0x0FF1FF00 + op.val)).extractLsb' 0 5 = BitVec.ofNat 5 op.val ∧
    (BitVec.ofNat 32 (0xF00000E0 + op.val)).extractLsb' 0 5 = BitVec.ofNat 5 op.val := by decide

theorem witness_SearchNextComplete : { legal [] [] with session := ⟨0, 0, true, d1⟩ }.calm = true ∧
    ({ legal [] [] with session := ⟨0, 0, true, d1⟩ } : State).session.ldf = true := ⟨rfl, rfl⟩

theorem witness_SearchNextAbsent : (legal [true] []).Undisturbed ∧ (legal [true] []).session.ldf = false ∧
    (legal [true] []).env.bus = true :: [] := ⟨legal_undisturbed _, rfl, rfl⟩

/-- A search that goes to `d`, checked position by position. -/
theorem followsTo_of {n : Nat} {ds : List Ident} {se : Session} {d : Ident} (h : d ∈ ds)
    (hk : ∀ k : Fin 65, 1 ≤ k.val → k.val ≤ n → splits ds d k.val = true →
      romBit d k.val = if k.val < se.ld.toNat then romBit se.rombuf k.val else decide (k.val = se.ld.toNat))
    (hn : n ≤ 64) : FollowsTo n ds se d :=
  ⟨h, fun k h1 h2 => hk ⟨k, by omega⟩ h1 h2⟩

/-- Two devices, the second step: the direction at LD = 9 is 1. -/
theorem follows_d1 : FollowsTo 64 [d2, d1] ⟨9, 0, false, d2⟩ d1 :=
  followsTo_of (by decide) (by decide +kernel) (Nat.le_refl _)

theorem follows_d2 : FollowsTo 64 [d2, d1] .clear d2 :=
  followsTo_of (by decide) (by decide +kernel) (Nat.le_refl _)

/-- SearchNextFinds, both outcomes: a valid identifier, and Dbad of 95_test_vectors.md section 0. -/
theorem witness_SearchNextFinds :
    (let s := { legal (false :: searchBits [d2, d1] d1 64 1) [] with session := ⟨9, 0, false, d2⟩ }
     s.Undisturbed ∧ s.session.ldf = false ∧ FollowsTo 64 [d2, d1] s.session d1 ∧
       s.env.bus = false :: searchBits [d2, d1] d1 64 1 ++ [] ∧ romValid d1 = true) ∧
    (let s := legal (false :: searchBits [dBad] dBad 64 1) []
     s.Undisturbed ∧ s.session.ldf = false ∧ FollowsTo 64 [dBad] s.session dBad ∧
       s.env.bus = false :: searchBits [dBad] dBad 64 1 ++ [] ∧
       romValid dBad = false) :=
  ⟨⟨⟨rfl, by decide, by decide⟩, rfl, follows_d1, by simp [legal, block], by decide +kernel⟩,
    ⟨legal_undisturbed _, rfl, followsTo_of (by decide) (by decide +kernel) (Nat.le_refl _), by simp [legal, block],
      by decide +kernel⟩⟩

/-- SearchNextCollision: at the first and at the last position. -/
theorem witness_SearchNextCollision : ∀ n ∈ [0, 63],
    let s := legal (false :: searchBits [d2, d1] d2 n 1 ++ true :: true :: []) []
    s.Undisturbed ∧ s.session.ldf = false ∧ n < 64 ∧ FollowsTo n [d2, d1] s.session d2 ∧
      s.env.bus = false :: searchBits [d2, d1] d2 n 1 ++ true :: true :: [] := by
  intro n hn
  have h64 : n < 64 := by
    simp only [List.mem_cons, List.not_mem_nil, or_false] at hn
    omega
  exact ⟨legal_undisturbed _, rfl, h64, ⟨follows_d2.1, fun k h1 h2 => follows_d2.2 k h1 (by omega)⟩, rfl⟩

/-- D2 before D1 (position 9) before D3 (position 10). -/
theorem d2_before_d1 : comesBefore d2 d1 := by
  refine ⟨9, by omega, by omega, fun j h1 h2 => ?_, by decide, by decide⟩
  interval_cases j <;> decide

theorem d1_before_d3 : comesBefore d1 d3 := by
  refine ⟨10, by omega, by omega, fun j h1 h2 => ?_, by decide, by decide⟩
  interval_cases j <;> decide

theorem d2_before_d3 : comesBefore d2 d3 := by
  refine ⟨9, by omega, by omega, fun j h1 h2 => ?_, by decide, by decide⟩
  interval_cases j <;> decide

theorem fixtures_ascend : ([d2, d1, d3] : List Ident).Pairwise comesBefore := by
  simp only [List.pairwise_cons, List.mem_cons, List.not_mem_nil, or_false, forall_eq_or_imp, forall_eq, List.Pairwise.nil,
    and_true, false_implies, implies_true]
  exact ⟨⟨d2_before_d1, d2_before_d3⟩, d1_before_d3⟩

/-- SearchNextAdvances: from D2 to D1 with D3 still to come, and from D1 to D3, the last. -/
theorem witness_SearchNextAdvances :
    (let s := { legal (false :: searchBits [d2, d1, d3] d1 64 1) [] with session := afterFound [d2, d1, d3] .clear d2 }
     s.Undisturbed ∧ (([] : List Ident) ++ d2 :: d1 :: [d3]).Pairwise comesBefore ∧ romValid d1 = true ∧
       s.session = afterFound ([] ++ d2 :: d1 :: [d3]) .clear d2 ∧
       s.env.bus = false :: searchBits ([] ++ d2 :: d1 :: [d3]) d1 64 1 ++ []) ∧
    (let s := { legal (false :: searchBits [d2, d1, d3] d3 64 1) [] with session := afterFound [d2, d1, d3] .clear d1 }
     s.Undisturbed ∧ ([d2] ++ d1 :: d3 :: []).Pairwise comesBefore ∧ romValid d3 = true ∧
       s.session = afterFound ([d2] ++ d1 :: d3 :: []) .clear d1 ∧
       s.env.bus = false :: searchBits ([d2] ++ d1 :: d3 :: []) d3 64 1 ++ []) :=
  ⟨⟨⟨rfl, by decide, by decide⟩, fixtures_ascend, by decide +kernel, rfl, by simp [legal, block]⟩,
    ⟨⟨rfl, by decide, by decide⟩, fixtures_ascend, by decide +kernel, rfl, by simp [legal, block]⟩⟩

/-- SearchFirstFinds: several devices, and one. -/
theorem witness_SearchFirstFinds : ∀ post ∈ [[d1, d3], []],
    let s := legal (false :: searchBits (d2 :: post) d2 64 1) []
    s.Undisturbed ∧ (d2 :: post).Pairwise comesBefore ∧ romValid d2 = true ∧
      s.env.bus = false :: searchBits (d2 :: post) d2 64 1 ++ [] := by
  intro post hp
  refine ⟨legal_undisturbed _, ?_, by decide +kernel, by simp [legal, block]⟩
  simp only [List.mem_cons, List.not_mem_nil, or_false] at hp
  rcases hp with rfl | rfl
  · exact fixtures_ascend
  · simp

/-- LdfPersists: a SEARCH_NEXT, a quiet cycle. -/
theorem witness_LdfPersists : ∀ host ∈ [[wr 0 0x00000009], []],
    let s := { legal [] host with session := ⟨0, 0, true, d1⟩ }
    s.calm = true ∧ s.session.ldf = true ∧ (∃ t, step s = .next t) ∧
      ∀ w, s.due = .command w → decode w ≠ .command .searchClear ∧ decode w ≠ .command .searchFirst ∧
        decode w ≠ .command .enumerate := by
  intro host hh
  simp only [List.mem_cons, List.not_mem_nil, or_false] at hh
  rcases hh with rfl | rfl
  · refine ⟨rfl, rfl, ⟨_, rfl⟩, fun w hw => ?_⟩
    have : Due.command 0x00000009 = Due.command w := hw
    cases this
    decide
  · refine ⟨rfl, rfl, ⟨_, rfl⟩, fun w hw => ?_⟩
    have : Due.quiet = Due.command w := hw
    cases this

theorem fixtures_valid : ∀ d ∈ [d2, d1, d3], romValid d = true := by
  intro d h
  simp only [List.mem_cons, List.not_mem_nil, or_false] at h
  rcases h with rfl | rfl | rfl <;> decide +kernel

/-- Four failed passes: no device; a collision after D2; a wrong CRC; no presence after D2. -/
def fourFailed : List FailedPass :=
  [⟨[], [], .absent⟩, ⟨[d2, d1], [d2], .collision d1 20⟩, ⟨[dBad], [], .wrongCrc dBad⟩, ⟨[d2, d1], [d2], .absent⟩]

/-- Three ways in which the fifth pass fails: at the first and at the last position, and with a wrong CRC. -/
def lastFailed : List FailedPass :=
  [⟨[d2, d1], [], .collision d2 0⟩, ⟨[d2, d1], [], .collision d2 63⟩, ⟨[dBad], [], .wrongCrc dBad⟩, ⟨[], [], .absent⟩]

theorem finds_d2 : FindsAll [d2, d1] .clear [d2] := ⟨follows_d2, by decide +kernel, by decide +kernel, trivial⟩

theorem follows_dBad : FollowsTo 64 [dBad] .clear dBad :=
  followsTo_of (by decide) (by decide +kernel) (Nat.le_refl _)

theorem fourFailed_possible : ∀ p ∈ fourFailed, p.Possible 8 := by
  intro p hp
  simp only [fourFailed, List.mem_cons, List.not_mem_nil, or_false] at hp
  rcases hp with rfl | rfl | rfl | rfl
  · exact ⟨by decide, trivial, trivial⟩
  · exact ⟨by decide, finds_d2, by decide, followsTo_of (by decide) (by decide +kernel) (by omega)⟩
  · exact ⟨by decide, trivial, follows_dBad, by decide +kernel⟩
  · exact ⟨by decide, finds_d2, trivial⟩

theorem lastFailed_possible : ∀ p ∈ lastFailed, p.Possible 8 := by
  intro p hp
  simp only [lastFailed, List.mem_cons, List.not_mem_nil, or_false] at hp
  rcases hp with rfl | rfl | rfl | rfl
  · exact ⟨by decide, trivial, by decide, follows_d2.1, fun k h1 h2 => follows_d2.2 k h1 (by omega)⟩
  · exact ⟨by decide, trivial, by decide, follows_d2.1, fun k h1 h2 => follows_d2.2 k h1 (by omega)⟩
  · exact ⟨by decide, trivial, follows_dBad, by decide +kernel⟩
  · exact ⟨by decide, trivial, trivial⟩

/-- EnumerateFinds: with no failed pass, and after four, the most there can be; after one of each
kind. -/
theorem witness_EnumerateFinds : ∀ passes ∈ [] :: fourFailed :: lastFailed.map (fun p => [p]),
    let s := legal (passes.flatMap FailedPass.bits ++ passBits [d2, d1, d3] ([d2, d1, d3].take 8) ++ []) []
    s.Undisturbed ∧ ([d2, d1, d3] : List Ident) ≠ [] ∧ ([d2, d1, d3] : List Ident).Pairwise comesBefore ∧
      (∀ d ∈ [d2, d1, d3], romValid d = true) ∧ passes.length < s.params.enumRetries ∧
      (∀ p ∈ passes, p.Possible s.params.maxDevices) ∧
      s.env.bus = passes.flatMap FailedPass.bits ++ passBits [d2, d1, d3] ([d2, d1, d3].take s.params.maxDevices) ++ [] := by
  intro passes hp
  refine ⟨legal_undisturbed _, List.cons_ne_nil _ _, fixtures_ascend, fixtures_valid, ?_, fun p h => ?_, rfl⟩
  · show passes.length < 5
    rcases List.mem_cons.mp hp with rfl | hp
    · decide
    rcases List.mem_cons.mp hp with rfl | hp
    · decide
    obtain ⟨q, -, rfl⟩ := List.mem_map.mp hp
    exact (by decide : 1 < 5)
  · rcases List.mem_cons.mp hp with rfl | hp
    · cases h
    rcases List.mem_cons.mp hp with rfl | hp
    · exact fourFailed_possible p h
    obtain ⟨q, hq, rfl⟩ := List.mem_map.mp hp
    rw [List.mem_singleton.mp h]
    exact lastFailed_possible q hq

/-- EnumerateFinds on three devices where the table has two rows, so that TRUNC is set, and where it has three. -/
theorem witness_EnumerateFinds_rows : ∀ m ∈ [2, 3],
    let s := block { legalParams with maxDevices := m } (passBits [d2, d1, d3] ([d2, d1, d3].take m)) []
    s.Undisturbed ∧ 0 < s.params.enumRetries ∧
      s.env.bus = ([] : List FailedPass).flatMap FailedPass.bits ++
        passBits [d2, d1, d3] ([d2, d1, d3].take s.params.maxDevices) ++ [] := by
  intro m hm
  simp only [List.mem_cons, List.not_mem_nil, or_false] at hm
  rcases hm with rfl | rfl <;>
    exact ⟨⟨rfl, by decide, by decide⟩, by decide, by simp [block]⟩

/-- EnumerateFinds: a failed pass that wrote more rows than the devices found after it. -/
theorem witness_EnumerateFinds_above : FailedPass.Possible 8 ⟨[d2, d1, d3], [d2, d1], .absent⟩ ∧
    rowAfter [⟨[d2, d1, d3], [d2, d1], .absent⟩] 1 = some d1 ∧ ([d2] : List Ident).length ≤ 1 :=
  ⟨⟨by decide, ⟨followsTo_of (by decide) (by decide +kernel) (Nat.le_refl _), by decide +kernel, by decide +kernel,
    followsTo_of (by decide) (by decide +kernel) (Nat.le_refl _), by decide +kernel, by decide +kernel, trivial⟩, trivial⟩,
    by decide, by decide⟩

/-- EnumerateAbsent: passes that fail in every way, and each way for the last one. -/
theorem witness_EnumerateAbsent : ∀ last ∈ lastFailed,
    let s := legal ((fourFailed ++ [last]).flatMap FailedPass.bits) []
    s.Undisturbed ∧ (fourFailed ++ [last]).length = s.params.enumRetries ∧
      (∀ p ∈ fourFailed ++ [last], p.Possible s.params.maxDevices) ∧
      s.env.bus = (fourFailed ++ [last]).flatMap FailedPass.bits ++ [] := by
  intro last hl
  refine ⟨legal_undisturbed _, rfl, fun p hp => ?_, (List.append_nil _).symm⟩
  rcases List.mem_append.mp hp with h | h
  · exact fourFailed_possible p h
  · rw [List.mem_singleton.mp h]
    exact lastFailed_possible last hl

/-- ConvertStarts: the three outcomes, the index at its boundary. -/
theorem witness_ConvertStarts : (∀ p : Bool, (twoRows .ready [!p]).calm = true ∧ (twoRows .ready [!p]).params.Legal ∧
    (twoRows .ready [!p]).env.bus = (!p) :: []) ∧ (twoRows .ready []).count.toNat ≤ (2 : BitVec 4).toNat ∧
    ¬ (twoRows .ready []).count.toNat ≤ (1 : BitVec 4).toNat := by decide

/-- ConvPollReady: both levels, a quiet host, no budget and a started row. -/
theorem witness_ConvPollReady : ∀ b : Bool, (twoRows .started [b]).calm = true ∧ (twoRows .started [b]).params.tRs ≠ 0 ∧
    (twoRows .started [b]).env.bus = b :: [] ∧ (twoRows .started [b]).quiet ∧ (twoRows .started [b]).budget = 0 ∧
    (0 : Fin 16).val < (twoRows .started [b]).count.toNat ∧ (twoRows .started [b]).table[(0 : Fin 16)].cstate = .started :=
  fun _ => ⟨rfl, show legalParams.tRs ≠ 0 by decide, rfl, ⟨rfl, rfl⟩, rfl, show 0 < 2 by decide, rfl⟩

/-- ReadTempRefuses, a started entry: in a cycle that is a tick with ELAPSED one tick before its duration and two, and
one before it in a cycle that is no tick. -/
theorem witness_ReadTempRefuses_started :
    let s := fun (c : Nat) (n : BitVec 32) =>
      withRows { row d1 .started with elapsed := n } (row d2 .idle) (block { legalParams with cycPerUs := c } [true] [])
    ((s 1 799999).isTick = true ∧ 100 * 2 ^ ((s 1 799999).table[(0 : Fin 16)].res.toNat - 9) * 1000 ≤ 799999 + 1) ∧
      ((s 1 799998).isTick = true ∧ 799998 + 1 < 100 * 2 ^ ((s 1 799998).table[(0 : Fin 16)].res.toNat - 9) * 1000) ∧
      (s 2 799999).isTick = false ∧ (s 2 799999).params.Legal ∧ (s 1 799999).calm = true := by decide

/-- ReadTempRefuses: every state of the entry, indices on both sides of COUNT, a line on which a device answers and one
with no answer listed, and the line with no presence of the third clause. -/
theorem witness_ReadTempRefuses : (∀ c ∈ [CState.idle, .started, .ready, .timedOut], ∀ bus ∈ [[false], [], [true]],
    (twoRows c bus).calm = true ∧ (twoRows c bus).table[(0 : BitVec 4).toFin].cstate = c ∧
      (0 : BitVec 4).toNat < (twoRows c bus).count.toNat ∧ (twoRows c bus).count.toNat ≤ (2 : BitVec 4).toNat) ∧
    (twoRows .ready [true]).params.Legal ∧ (twoRows .ready [true]).env.bus = true :: [] := by decide

/-- ReadTempReads: a valid frame and one with a wrong CRC. -/
theorem witness_ReadTempReads : (∀ sp ∈ [frameGood, frameBad],
    (twoRows .ready (false :: frameBits sp)).Undisturbed ∧
      (0 : BitVec 4).toNat < (twoRows .ready (false :: frameBits sp)).count.toNat ∧
      (twoRows .ready (false :: frameBits sp)).table[(0 : BitVec 4).toFin].cstate = .ready ∧
      (twoRows .ready (false :: frameBits sp)).env.bus = false :: frameBits sp ++ []) ∧
    frameValid frameGood = true ∧ frameValid frameBad = false :=
  ⟨fun _ _ => ⟨twoRows_undisturbed _ _, show 0 < 2 by decide, rfl, by simp [twoRows, withRows, legal, block]⟩,
    by decide +kernel, by decide +kernel⟩

/-- ConfigureRefuses: the resolutions next to the legal ones, and an index at the boundary. -/
theorem witness_ConfigureRefuses : (twoRows .idle []).calm = true ∧ (8 : BitVec 4).toNat < 9 ∧
    12 < (13 : BitVec 4).toNat ∧ (twoRows .idle []).count.toNat ≤ (2 : BitVec 4).toNat := by decide

/-- ConfigureCommits, with SEL = 1 and with SEL = 0. -/
theorem witness_ConfigureCommits : ∀ sel : Bool,
    let s := twoRows .idle (false :: frameBits frameGood ++ false :: false :: [])
    s.Undisturbed ∧ (12 : BitVec 4).toNat = Resolution.toNat .r12 ∧ (sel = true → (1 : BitVec 4).toNat < s.count.toNat) ∧
      frameValid frameGood = true ∧ s.env.bus = false :: frameBits frameGood ++ false :: false :: [] :=
  fun _ => ⟨twoRows_undisturbed _ _, by decide, fun _ => by decide, by decide +kernel, rfl⟩

/-- ConfigureStops: the answers that stop it at each of its four places. -/
theorem witness_ConfigureStops : (∀ bus, (twoRows .idle bus).Undisturbed ∧ (twoRows .idle bus).env.bus = bus) ∧
    (9 : BitVec 4).toNat = Resolution.toNat .r9 ∧ (0 : BitVec 4).toNat < (twoRows .idle []).count.toNat ∧
    frameValid frameBad = false ∧ frameValid frameGood = true :=
  ⟨fun _ => ⟨twoRows_undisturbed _ _, rfl⟩, by decide, by decide, by decide +kernel, by decide +kernel⟩

/-- DecodeSigns: the smallest and the largest magnitude. -/
theorem witness_DecodeSigns : (0 < (1 : BitVec 16).toNat ∧ (1 : BitVec 16).toNat < 32768) ∧
    (0 < (32767 : BitVec 16).toNat ∧ (32767 : BitVec 16).toNat < 32768) := by decide

theorem witness_SupervisorTick : (twoRows .started []).due = .quiet ∧ (twoRows .started []).isTick = true := by decide

/-- TimedConversion: no budget, and a budget equal to the duration. -/
theorem witness_TimedConversion : ∀ b ∈ [(0 : BitVec 22), 800],
    let s := { twoRows .started [] with budget := b }
    s.env.host = [] ∧ s.presc < s.params.cycPerUs ∧ (0 : Fin 16).val < s.count.toNat ∧ s.table[(0 : Fin 16)].cstate = .started ∧
      s.table[(0 : Fin 16)].elapsed = 0 ∧ 1 ≤ s.params.convUnitUs ∧
      s.table[(0 : Fin 16)].res.duration * s.params.convUnitUs < 2 ^ 32 ∧
      (s.budget = 0 ∨ s.table[(0 : Fin 16)].res.duration ≤ s.budget.toNat) := by
  intro b h
  simp only [List.mem_cons, List.not_mem_nil, or_false] at h
  rcases h with rfl | rfl <;> decide

/-- TimedOutConversion: the shortest budget and the longest one that times out. -/
theorem witness_TimedOutConversion : ∀ b ∈ [(1 : BitVec 22), 799],
    let s := { twoRows .started [] with budget := b }
    s.env.host = [] ∧ s.presc < s.params.cycPerUs ∧ (0 : Fin 16).val < s.count.toNat ∧ s.table[(0 : Fin 16)].cstate = .started ∧
      s.table[(0 : Fin 16)].elapsed = 0 ∧ 1 ≤ s.params.convUnitUs ∧ s.budget ≠ 0 ∧
      s.budget.toNat < s.table[(0 : Fin 16)].res.duration ∧ s.budget.toNat * s.params.convUnitUs < 2 ^ 32 := by
  intro b h
  simp only [List.mem_cons, List.not_mem_nil, or_false] at h
  rcases h with rfl | rfl <;> decide

/-- RegisterWriters: two commands that write no register of the lists but their own. -/
theorem witness_RegisterWriters : (twoRows .started (List.replicate 5 true)).calm = true ∧
    (∃ t, exec .readBit (twoRows .started (List.replicate 5 true)) = .next t) ∧
    ∃ t, exec .enumerate (twoRows .started (List.replicate 5 true)) = .next t :=
  ⟨rfl, completes (by decide +kernel), completes (by decide +kernel)⟩

/-- EntryWriters: a READ_TEMP and a CONFIGURE. -/
theorem witness_EntryWriters : (twoRows .ready [true]).calm = true ∧
    (∃ t, exec (.readTemp true 0) (twoRows .ready [true]) = .next t) ∧
    (∀ sel idx, Instr.readTemp true 0 ≠ .convert sel idx) ∧ Instr.readTemp true 0 ≠ .enumerate ∧
    ∀ sel idx, Instr.configure true 0 9 ≠ .readTemp sel idx :=
  ⟨rfl, completes (by decide +kernel), by decide, by decide, by decide⟩

end Sys2Proof.Tests
end

section
/-! PROOFS. The host port: what a register's offset selects, which writes are dropped, and which reads are exact. -/

namespace Sys2Proof.Machine

/-- A write to a locked register while BUSY = 1 sets OVR and does nothing else (10_state.md R61). -/
theorem hostWrite_locked {s : State} {off : Offset} {r : Reg} (hb : s.status.busy = true)
    (hr : regAt s.params.maxDevices off = some r) (hl : r.locked = true) (v : Word) :
    hostWrite off v s = s.setOvr := by
  simp [hostWrite, writeReg, hr, hb, hl]

/-- A write to a register that is not locked is taken, whatever BUSY is (10_state.md R61). -/
theorem hostWrite_unlocked {s : State} {off : Offset} {r : Reg} (hr : regAt s.params.maxDevices off = some r)
    (hl : r.locked = false) (v : Word) : hostWrite off v s = writeTaken r v s := by
  simp [hostWrite, writeReg, hr, hl]

/-- The registers of R61 below the table are locked. -/
theorem regAt_locked_low (m : Nat) {off : Offset} (h : off = 0x000 ∨ off = 0x010 ∨ off = 0x024 ∨ off = 0x02C) :
    ∃ r, regAt m off = some r ∧ r.locked = true := by
  rcases h with rfl | rfl | rfl | rfl
  · exact ⟨.cmd, rfl, rfl⟩
  · exact ⟨.crc, rfl, rfl⟩
  · exact ⟨.alarm, rfl, rfl⟩
  · exact ⟨.devcnt, rfl, rfl⟩

/-- A read that is not hidden by BUSY = 1 answers exactly the register (10_state.md R62). -/
theorem hostRead_exact {s : State} {off : Offset} {r : Reg} (hr : regAt s.params.maxDevices off = some r)
    (he : s.status.busy = false ∨ r.hiddenWhileBusy = false) : hostRead off s = s.answer off (s.regValue r) := by
  have hu : s.readsUnspecified off = false := by
    rcases he with he | he <;> simp [State.readsUnspecified, hr, he]
  simp [hostRead, hu, State.windowWord, hr]

/-- The registers whose reads are always exact (10_state.md R62; CMD always reads 0, R44). -/
theorem hiddenWhileBusy_eq_false_iff (r : Reg) : r.hiddenWhileBusy = false ↔
    r = .cmd ∨ r = .status ∨ r = .ctrl ∨ r = .timeout ∨ r = .alarm ∨ r = .now := by
  cases r <;> simp [Reg.hiddenWhileBusy]

end Sys2Proof.Machine

open Sys2Proof Sys2Proof.Machine

/-- Settles O11: each offset selects a register whose lock is known. -/
theorem writeLocking : Obligations.WriteLocking := by
  intro s v
  refine ⟨fun hb => ⟨fun off ho => ?_, fun i hi => ⟨?_, ?_⟩⟩, ?_, ?_, ?_⟩
  · obtain ⟨r, hr, hl⟩ := regAt_locked_low s.params.maxDevices ho
    exact hostWrite_locked hb hr hl v
  · exact hostWrite_locked hb (regAt_row hi (k := 0) (.inl rfl)) rfl v
  · exact hostWrite_locked hb (regAt_row hi (k := 4) (.inr (.inl rfl))) rfl v
  · exact hostWrite_unlocked (r := .status) rfl rfl v
  · exact hostWrite_unlocked (r := .ctrl) rfl rfl v
  · exact hostWrite_unlocked (r := .timeout) rfl rfl v

/-- Settles O13: a read is exact unless BUSY = 1 hides its register. -/
theorem readsWhileBusy : Obligations.ReadsWhileBusy := by
  intro s off r hr
  refine ⟨fun _ _ => ?_, fun he => ?_, ?_⟩
  · obtain ⟨v, n, e⟩ := hostRead_eq off s
    exact ⟨v, by rw [e]⟩
  · rw [← hiddenWhileBusy_eq_false_iff] at he
    rw [hostRead_exact hr he, answer_env]
  · rw [← hiddenWhileBusy_eq_false_iff, Bool.not_eq_false]
end

section
/-! PROOFS. LDF, the flag of the last device: a step leaves LDF = 1 unless it runs one of the commands that clear the
session state (10_state.md R77). -/

namespace Sys2Proof.Machine

/-! ### Steps without a command -/

/-- The end of a clock cycle leaves the session state. -/
theorem session_closeCycle (s : State) : (closeCycle s).session = s.session := by
  obtain ⟨_, _, he, -⟩ := closeCycle_eq s
  rw [he, settleSupervisor_session]

/-- A host access leaves the session state. -/
theorem session_takeAccess (a : Access) (s : State) : (takeAccess a s).session = s.session := by
  cases a with
  | read off size => rfl
  | write off size v => exact (hostWrite_engine off v s).2.1

theorem session_quietCycle (s : State) : (quietCycle s).session = s.session := session_closeCycle _

theorem session_accessCycle (a : Access) (s : State) : (accessCycle a s).session = s.session :=
  (session_closeCycle _).trans (session_takeAccess a _)

/-- No block reset is due from a host that cuts nothing. -/
theorem due_ne_reset {s : State} (hc : s.calm = true) : s.due ≠ .reset := by
  intro h
  unfold State.calm at hc
  unfold State.due at h
  cases hh : s.env.host with
  | nil =>
    rw [hh] at h
    cases h
  | cons e es =>
    obtain ⟨gap, act⟩ := e
    rw [hh] at h hc
    cases gap with
    | succ g => cases h
    | zero =>
      cases act with
      | reset => cases hc
      | access a =>
        simp only at h
        split at h
        · split at h
          · split at h <;> cases h
          · cases h
        · cases h

/-- The acts that are left when a command's write is taken cut nothing either. -/
theorem fetchCommand_calm {s : State} (h : s.calm = true) (w : Word) : (fetchCommand w s).calm = true :=
  List.all_eq_true.mpr fun e he => List.all_eq_true.mp h e (List.mem_of_mem_tail he)

/-! ### Commands -/

/-- A command is running that nothing cuts, and the last device has been found. -/
def LastFound (s : State) : Prop := Live s ∧ s.session.ldf = true

theorem lastFound_stable : Stable LastFound := live_stable fun _ _ _ k h => by rw [k.session]; exact h

/-- The commands outside the enumeration engine write no session state. -/
theorem mayWrite_lastFound {i : Instr} (h1 : i ≠ .searchClear) (h2 : i ≠ .searchNext) (h3 : i ≠ .searchFirst)
    (h4 : i ≠ .enumerate) : MayWrite LastFound i := by
  cases i with
  | searchClear => exact absurd rfl h1
  | searchNext => exact absurd rfl h2
  | searchFirst => exact absurd rfl h3
  | enumerate => exact absurd rfl h4
  | readByte => exact fun s v h => ⟨h.1.of_eq rfl rfl rfl rfl, h.2⟩
  | crcClear => exact fun s v h => ⟨h.1.of_eq rfl rfl rfl rfl, h.2⟩
  | crcByte data => exact fun s v h => ⟨h.1.of_eq rfl rfl rfl rfl, h.2⟩
  | convert sel idx => exact fun s h => ⟨h.1.startTargets sel idx, h.2⟩
  | convPoll => exact fun s h => ⟨h.1.pollReady, h.2⟩
  | readTemp sel idx => exact fun s h => ⟨h.1.storeReading idx, h.2⟩
  | configure sel idx res => exact fun s r h => ⟨h.1.setTargetsRes sel idx r, h.2⟩
  | nop | reset | writeBit | readBit | writeByte => trivial

/-- A search step that begins with LDF = 1 does nothing (42_enumeration.md R241). -/
theorem searchStep_lastFound : Triple LastFound searchStep fun _ => LastFound := by
  intro s hs code t ht
  rw [searchStep_complete hs.2] at ht
  cases ht
  exact hs

/-- Only three commands can clear LDF in their pseudocode (10_state.md R77). -/
theorem bodyOf_lastFound {i : Instr} (h1 : i ≠ .searchClear) (h2 : i ≠ .searchFirst) (h3 : i ≠ .enumerate) :
    Triple LastFound (bodyOf i) fun _ => LastFound := by
  by_cases hn : i = .searchNext
  · rw [hn]
    exact searchStep_lastFound
  · refine (body_keeps lastFound_stable i (mayWrite_lastFound h1 hn h2 h3)).weaken (fun _ h => h) fun _ t h => ?_
    rcases h with h | ⟨he, -⟩
    · exact h
    · exact absurd he h3

/-- LDF stays set over a command whose pseudocode keeps it set, where nothing cuts the command. -/
theorem runCommand_ldf {body : Engine Code} (hg : Good body) (hk : Triple LastFound body fun _ => LastFound)
    {s t : State} (hc : s.calm = true) (hl : s.session.ldf = true) (he : runCommand body s = .next t) :
    t.session.ldf = true := by
  obtain ⟨b, hb, hr⟩ := command_begins hc
  have hlast : LastFound b := ⟨hb.live, by rw [hb.untouched.session]; exact hl⟩
  rw [hr] at he
  cases hm : body b with
  | ok code u =>
    rw [hm] at he
    cases he
    rw [session_closeCycle, complete_session]
    exact (hk b hlast code u hm).2
  | error c u =>
    have hcut : CutBy b c u := by
      have := hg b hb.live.busy
      rwa [hm] at this
    exact absurd hb.live.calm (Bool.eq_false_iff.mp hcut.not_calm)

end Sys2Proof.Machine

open Sys2Proof Sys2Proof.Machine

/-- Settles O42, by what is due: a cycle without a command does not touch the session state, a calm host resets nothing,
and of the commands left only SEARCH_NEXT could write LDF, which does nothing when LDF = 1. -/
theorem ldfPersists : Obligations.LdfPersists := by
  intro s t hc hl hs hw
  unfold step at hs
  cases hd : s.due with
  | quiet =>
    rw [hd] at hs
    cases hs
    rw [session_quietCycle]
    exact hl
  | reset => exact absurd hd (due_ne_reset hc)
  | bad a =>
    rw [hd] at hs
    cases hs
  | access a =>
    rw [hd] at hs
    cases hs
    rw [session_accessCycle]
    exact hl
  | command w =>
    obtain ⟨n1, n2, n3⟩ := hw w hd
    have hfc := fetchCommand_calm hc w
    rw [hd] at hs
    cases hi : decode w with
    | command i =>
      simp only [hi, exec_eq] at hs
      simp only [hi, ne_eq, Decoded.command.injEq] at n1 n2 n3
      exact runCommand_ldf (bodyOf_good i) (bodyOf_lastFound n1 n2 n3) hfc hl hs
    | illegal why =>
      simp only [hi, runIllegal] at hs
      exact runCommand_ldf (good_pure _) (triple_pure fun _ h => h) hfc hl hs
end

section
/-! PROOFS. The register window: unmapped offsets, reserved bits, and the order of a register's bytes
(20_memory.md R102, R103). -/

namespace Sys2Proof.Machine

/-! ### Unmapped offsets -/

/-- An unmapped offset shows 0 (20_memory.md R102). -/
theorem windowWord_unmapped {s : State} {off : Offset} (h : regAt s.params.maxDevices off = none) :
    s.windowWord off = 0 := by
  simp [State.windowWord, h]

/-- A read of an unmapped offset answers 0, whatever BUSY is (20_memory.md R102). -/
theorem hostRead_unmapped {s : State} {off : Offset} (h : regAt s.params.maxDevices off = none) :
    hostRead off s = s.answer off 0 := by
  have hu : s.readsUnspecified off = false := by simp [State.readsUnspecified, h]
  simp [hostRead, hu, windowWord_unmapped h]

/-- A write to an unmapped offset changes nothing (20_memory.md R102). -/
theorem hostWrite_unmapped {s : State} {off : Offset} (h : regAt s.params.maxDevices off = none) (v : Word) :
    hostWrite off v s = s := by
  simp [hostWrite, h]

/-! ### Reserved bits of a register's value -/

/-- A word put together of two words without bits outside the mask has none itself. -/
theorem or_and_not_eq_zero {m a b : Word} (ha : a &&& ~~~m = 0) (hb : b &&& ~~~m = 0) : (a ||| b) &&& ~~~m = 0 := by
  rw [BitVec.and_or_distrib_right, ha, hb, BitVec.or_self]

/-- A field lies in the mask, whatever it holds, if the field with every bit set does. -/
theorem field_and_not_eq_zero {m : Word} {w : Nat} (x : BitVec w) (n : Nat)
    (h : (BitVec.allOnes w).setWidth 32 <<< n &&& ~~~m = 0) : x.setWidth 32 <<< n &&& ~~~m = 0 := by
  rw [word_eq_iff] at h ⊢
  intro i hi
  have hbit := h i hi
  simp only [BitVec.getLsbD_and, BitVec.getLsbD_shiftLeft, BitVec.getLsbD_setWidth, BitVec.getLsbD_allOnes] at hbit ⊢
  by_cases hw : i - n < w
  · simp_all
  · simp [BitVec.getLsbD_of_ge x (i - n) (by omega)]

/-- `field_and_not_eq_zero` for a field at bit 0. -/
theorem lowField_and_not_eq_zero {m : Word} {w : Nat} (x : BitVec w)
    (h : (BitVec.allOnes w).setWidth 32 &&& ~~~m = 0) : x.setWidth 32 &&& ~~~m = 0 := by
  simpa using field_and_not_eq_zero x 0 (by simpa using h)

/-- A flag lies in the mask if the mask holds its bit. -/
theorem bitAt_and_not_eq_zero {m : Word} (n : Nat) (b : Bool) (h : bitAt n true &&& ~~~m = 0) :
    bitAt n b &&& ~~~m = 0 :=
  field_and_not_eq_zero (BitVec.ofBool b) n h

/-- STATUS has no bits but its fields' (10_state.md R45). -/
theorem statusWord_reserved (st : Status) : st.word &&& ~~~definedBits .status = 0 :=
  or_and_not_eq_zero (or_and_not_eq_zero (or_and_not_eq_zero (or_and_not_eq_zero (or_and_not_eq_zero (or_and_not_eq_zero
    (bitAt_and_not_eq_zero 0 _ (by decide)) (bitAt_and_not_eq_zero 1 _ (by decide)))
    (bitAt_and_not_eq_zero 2 _ (by decide))) (bitAt_and_not_eq_zero 3 _ (by decide)))
    (bitAt_and_not_eq_zero 4 _ (by decide))) (bitAt_and_not_eq_zero 5 _ (by decide)))
    (field_and_not_eq_zero _ 8 (by decide))

/-- CTRL has no bits but its fields' (10_state.md R46). -/
theorem ctrlWord_reserved (c : Ctrl) : c.word &&& ~~~definedBits .ctrl = 0 :=
  or_and_not_eq_zero (bitAt_and_not_eq_zero 0 _ (by decide)) (bitAt_and_not_eq_zero 1 _ (by decide))

/-- SEARCH has no bits but its fields' (10_state.md R49). -/
theorem searchWord_reserved (se : Session) : se.searchWord &&& ~~~definedBits .search = 0 :=
  or_and_not_eq_zero (or_and_not_eq_zero (lowField_and_not_eq_zero _ (by decide))
    (field_and_not_eq_zero _ 8 (by decide))) (bitAt_and_not_eq_zero 16 _ (by decide))

/-- ENUMSTAT has no bits but its fields' (10_state.md R55). -/
theorem enumstatWord_reserved (e : EnumStat) : e.word &&& ~~~definedBits .enumstat = 0 :=
  or_and_not_eq_zero (or_and_not_eq_zero (lowField_and_not_eq_zero _ (by decide))
    (field_and_not_eq_zero _ 8 (by decide))) (bitAt_and_not_eq_zero 12 _ (by decide))

/-- TBL_STAT has no bits but its fields' (10_state.md R58). -/
theorem statWord_reserved (i : Fin 16) (e : Entry) : e.statWord &&& ~~~definedBits (.tblStat i) = 0 := by
  show e.statWord &&& ~~~0xF13#32 = 0
  have hres : ∀ r : Resolution, BitVec.ofNat 32 r.toNat <<< 8 &&& ~~~0xF13#32 = 0 := by
    intro r
    cases r <;> decide
  exact or_and_not_eq_zero (or_and_not_eq_zero (lowField_and_not_eq_zero _ (by decide))
    (bitAt_and_not_eq_zero 4 _ (by decide))) (hres e.res)

/-- A register with all 32 bits defined has no reserved bit. -/
theorem and_not_allOnes (w : Word) : w &&& ~~~0xFFFFFFFF#32 = 0 := BitVec.and_zero

/-- The reserved bits of every register read 0 (20_memory.md R102). -/
theorem regValue_reserved (s : State) (r : Reg) : s.regValue r &&& ~~~definedBits r = 0 := by
  cases r with
  | cmd => exact BitVec.zero_and
  | status => exact statusWord_reserved s.status
  | ctrl => exact ctrlWord_reserved s.ctrl
  | rxdata => exact lowField_and_not_eq_zero s.rxdata (by decide)
  | crc => exact lowField_and_not_eq_zero s.crc (by decide)
  | search => exact searchWord_reserved s.session
  | timeout => exact lowField_and_not_eq_zero s.budget (by decide)
  | devcnt => exact lowField_and_not_eq_zero s.count (by decide)
  | enumstat => exact enumstatWord_reserved s.enumstat
  | tblStat i => exact statWord_reserved i s.table[i]
  | romLo | romHi | alarm | now | tblRomLo i | tblRomHi i | tblTemp i => exact and_not_allOnes _

/-! ### Reserved bits of a written word -/

/-- A mask with every bit of a field leaves the field. -/
theorem extractLsb'_and_mask {start len : Nat} {m : Word} (v : Word)
    (h : m.extractLsb' start len = BitVec.allOnes len) : (v &&& m).extractLsb' start len = v.extractLsb' start len := by
  rw [BitVec.extractLsb'_and, h, BitVec.and_allOnes]

/-- STATUS takes nothing of a written word but its defined bits (10_state.md R45). -/
theorem clearWritten_and_definedBits (st : Status) (v : Word) :
    st.clearWritten (v &&& definedBits .status) = st.clearWritten v := by
  simp [Status.clearWritten, definedBits]

/-- CTRL takes nothing of a written word but its defined bits (10_state.md R46). -/
theorem ctrlOfWord_and_definedBits (v : Word) : Ctrl.ofWord (v &&& definedBits .ctrl) = Ctrl.ofWord v := by
  simp [Ctrl.ofWord, definedBits]

/-- DEVCNT takes nothing of a written word but its defined bits (10_state.md R54). -/
theorem clampCount_and_definedBits (m : Nat) (v : Word) : clampCount m (v &&& definedBits .devcnt) = clampCount m v := by
  rw [clampCount, extractLsb'_and_mask v (by decide), clampCount]

/-- A taken write does the same with the word's reserved bits cleared (20_memory.md R102). CMD is no exception here:
what its word starts is decided by the decoder. -/
theorem writeTaken_and_definedBits (r : Reg) (v : Word) (s : State) :
    writeTaken r (v &&& definedBits r) s = writeTaken r v s := by
  cases r with
  | status => simp only [writeTaken, clearWritten_and_definedBits]
  | ctrl => simp only [writeTaken, ctrlOfWord_and_definedBits]
  | crc => rw [writeTaken, extractLsb'_and_mask v (by decide), writeTaken]
  | timeout => rw [writeTaken, extractLsb'_and_mask v (by decide), writeTaken]
  | devcnt => simp only [writeTaken, clampCount_and_definedBits]
  | alarm | tblRomLo i | tblRomHi i => exact congrArg (writeTaken _ · s) BitVec.and_allOnes
  | cmd | rxdata | search | romLo | romHi | now | enumstat | tblTemp i | tblStat i => rfl

/-- A write does the same with the word's reserved bits cleared, dropped or taken (20_memory.md R102). -/
theorem writeReg_and_definedBits (r : Reg) (v : Word) (s : State) :
    writeReg r (v &&& definedBits r) s = writeReg r v s := by
  unfold writeReg
  rw [writeTaken_and_definedBits]

/-- A command word with a reserved bit set is illegal (30_encoding.md R136). -/
theorem decode_reservedBitSet {w : Word} (h : reservedBitSet w) : decode w = .illegal .reservedBits :=
  if_pos ((reservedSet_iff w).mpr h)

/-! ### Byte order -/

/-- The offset of the word a byte lies in. -/
theorem wordOffset_toNat (o : Offset) : (o &&& 0x1FC#9).toNat = o.toNat / 4 * 4 := by
  have hshift : o &&& 0x1FC#9 = o >>> 2 <<< 2 := by
    rw [word_eq_iff]
    intro i hi
    interval_cases i <;> simp
  rw [hshift, BitVec.toNat_shiftLeft, BitVec.toNat_ushiftRight, Nat.shiftLeft_eq, Nat.shiftRight_eq_div_pow]
  omega

/-- The byte at an aligned offset + k is bits [8k+7:8k] of the word (20_memory.md R103). -/
theorem windowByte_add (s : State) {off : Offset} (ha : off.toNat % 4 = 0) {k : Nat} (hk : k < 4) :
    s.windowByte (off + BitVec.ofNat 9 k) = (s.windowWord off).extractLsb' (8 * k) 8 := by
  have hsum : (off + BitVec.ofNat 9 k).toNat = off.toNat + k := by
    rw [BitVec.toNat_add, BitVec.toNat_ofNat]
    omega
  have hword : (off + BitVec.ofNat 9 k) &&& 0x1FC#9 = off := by
    apply BitVec.eq_of_toNat_eq
    rw [wordOffset_toNat, hsum]
    omega
  have hbyte : (off + BitVec.ofNat 9 k).toNat % 4 = k := by omega
  rw [State.windowByte, hword, hbyte]

end Sys2Proof.Machine

open Sys2Proof Sys2Proof.Machine

/-- Settles O9, clause by clause: the map has no register there, no field of a register's word lies outside the
defined bits, no write reads a bit outside them, and the decoder tests CMD's reserved bits first. -/
theorem reservedBits : Obligations.ReservedBits := fun s v =>
  ⟨fun _ h => ⟨windowWord_unmapped h, hostRead_unmapped h, hostWrite_unmapped h v⟩, regValue_reserved s,
    fun r _ => (writeReg_and_definedBits r v s).symm, decode_reservedBitSet⟩

/-- Settles O10: an aligned offset + k lies in the word at the offset, for k = 0 to 3. -/
theorem byteOrder : Obligations.ByteOrder := by
  intro s off ha
  refine ⟨?_, windowByte_add s ha (k := 1) (by omega), windowByte_add s ha (k := 2) (by omega),
    windowByte_add s ha (k := 3) (by omega)⟩
  simpa using windowByte_add s ha (k := 0) (by omega)
end

section
/-! PROOFS. The temperature decoder, the operand bytes of CONFIGURE and the supervisor's step of one clock cycle
(43_sensor.md R271, R277, R280, R305). -/

namespace Sys2Proof.Machine

/-! ### Decode -/

/-- A configuration byte's resolution is its bits [6:5] + 9 (43_sensor.md R277). -/
theorem resolutionOfConfig_toNat (b4 : Byte) : (resolutionOfConfig b4).toNat = b4.toNat / 32 % 4 + 9 := by
  have hbits : (b4.extractLsb' 5 2).toNat = b4.toNat / 32 % 4 := by
    rw [BitVec.extractLsb'_toNat, Nat.shiftRight_eq_div_pow]
  have hlt : b4.toNat / 32 % 4 < 4 := Nat.mod_lt _ (by decide)
  unfold resolutionOfConfig
  rw [hbits]
  generalize b4.toNat / 32 % 4 = n at hlt ⊢
  interval_cases n <;> rfl

/-- The sign is applied last to the decoded magnitude, as in the pseudocode (43_sensor.md R277). -/
theorem decodeCenti_eq_pseudocode (b0 b1 b4 : Byte) :
    decodeCenti b0 b1 b4 = (decodePseudocode b0.toNat b1.toNat b4.toNat).1 := by
  simp only [decodeCenti, decodePseudocode, magnitudeCenti, rawMagnitude, resolutionOfConfig_toNat, Nat.cast_add,
    Nat.cast_mul, Nat.cast_ofNat]

/-- The largest positive magnitude decodes to at most 204793, its value at 12 bits (43_sensor.md R277). -/
theorem magnitudeCenti_le {mag : Nat} (h : mag ≤ 32767) (r : Resolution) : magnitudeCenti mag r.toNat ≤ 204793 := by
  cases r <;> simp only [magnitudeCenti, Resolution.toNat] <;> omega

/-- The magnitude of raw 0x8000 has no fraction: 204800 at every resolution (43_sensor.md R277). -/
theorem magnitudeCenti_extreme (r : Resolution) : magnitudeCenti 32768 r.toNat = 204800 := by cases r <;> rfl

/-- Centidegrees lie from raw 0x8000 to raw 0x7FFF at 12 bits (43_sensor.md R277). -/
theorem decodeCenti_range (b0 b1 b4 : Byte) : -204800 ≤ decodeCenti b0 b1 b4 ∧ decodeCenti b0 b1 b4 ≤ 204793 := by
  have hraw : b1.toNat * 256 + b0.toNat < 65536 := by omega
  unfold decodeCenti rawMagnitude
  generalize b1.toNat * 256 + b0.toNat = raw at hraw ⊢
  rcases lt_trichotomy raw 32768 with hpos | rfl | hneg
  · have hle := magnitudeCenti_le (mag := raw) (by omega) (resolutionOfConfig b4)
    simp only [if_neg (Nat.not_le.mpr hpos)]
    omega
  · simp only [le_refl, if_true, Nat.reduceSub, magnitudeCenti_extreme]
    decide
  · have hle := magnitudeCenti_le (mag := 65536 - raw) (by omega) (resolutionOfConfig b4)
    simp only [if_pos hneg.le]
    omega

/-! ### Clamp -/

/-- A clamped threshold fits a signed byte (43_sensor.md R305). -/
theorem clampByte_toInt (v : BitVec 16) : (clampByte v).toInt = min (max v.toInt (-55)) 125 :=
  BitVec.toInt_ofInt_eq_self (by decide) (by omega) (by omega)

/-- A clamped threshold's byte is its value modulo 256 (43_sensor.md R305). -/
theorem clampByte_toNat (v : BitVec 16) : ((clampByte v).toNat : Int) = min (max v.toInt (-55)) 125 % 256 := by
  rw [clampByte, BitVec.toNat_ofInt]
  exact Int.toNat_of_nonneg (Int.emod_nonneg _ (by decide))

/-! ### The supervisor's step -/

/-- A cycle without an act of the host ends in one supervisor step of every row (43_sensor.md R271). -/
theorem quietCycle_table (s : State) (i : Fin 16) : (quietCycle s).table[i] =
    ({ s.table[i] with sup := if s.isTick then s.supStepAt i s.table[i] else none } : Entry).settle := by
  rw [quietCycle, closeCycle_table, openCycle_table, mapTable_get]
  rfl

/-- A cycle without an act of the host sets CEVT exactly if a row leaves ConversionStarted in it (43_sensor.md R271). -/
theorem quietCycle_cevt (s : State) : (quietCycle s).status.cevt = true ↔
    s.status.cevt = true ∨ ∃ i : Fin 16, s.table[i].cstate = .started ∧ (quietCycle s).table[i].cstate ≠ .started := by
  have hold (i : Fin 16) : (openCycle (s.withHost (afterQuiet s.env.host))).table[i].cstate = s.table[i].cstate := by
    rw [openCycle_table, mapTable_get]
    rfl
  unfold quietCycle
  rw [closeCycle_cevt (openCycle_supOk _)]
  simp only [hold, closeCycle_table]
  rfl

/-- Where the host does nothing, a step is a cycle without an act of it. -/
theorem step_of_due_quiet {s : State} (h : s.due = .quiet) : step s = .next (quietCycle s) := by
  unfold step
  rw [h]

end Sys2Proof.Machine

open Sys2Proof Sys2Proof.Machine

/-- Settles O52: the decoder's resolution is the pseudocode's, its value has the same sign and magnitude, and the range
fits 32 signed bits. -/
theorem decodeFrame : Obligations.DecodeFrame := by
  intro b0 b1 b4
  obtain ⟨hlow, hhigh⟩ := decodeCenti_range b0 b1 b4
  exact ⟨decodeCenti_eq_pseudocode b0 b1 b4, resolutionOfConfig_toNat b4, hlow, hhigh,
    BitVec.toInt_ofInt_eq_self (by decide) (by omega) (by omega)⟩

/-- Settles O54: the first equation is the definition, and the rest are four values. -/
theorem cfgByteValues : Obligations.CfgByteValues :=
  ⟨fun r => ⟨rfl, by cases r <;> decide⟩, by decide⟩

/-- Settles O55: the clamped value fits a signed byte; the examples are evaluated. -/
theorem clampThreshold : Obligations.ClampThreshold :=
  ⟨fun v => ⟨clampByte_toInt v, clampByte_toNat v⟩, by decide⟩

/-- Settles O56: the step of every row is `settle_tick`, and CEVT follows from the rows before and after it. -/
theorem supervisorTick : Obligations.SupervisorTick :=
  ⟨fun s h => ⟨quietCycle s, step_of_due_quiet h, fun i => (quietCycle_table s i).trans (settle_tick s i),
    quietCycle_cevt s⟩, by decide⟩
end

section
/-! PROOFS. The command word: encoding, decoding, and what a step with a command word due runs (30_encoding.md R130 to
R139, 60_exceptions.md R321). -/

namespace Sys2Proof

/-- A word that has a command's fields is that command, or is illegal if a reserved bit is set (30_encoding.md R139). -/
theorem decode_of_hasFields {w : Word} {i : Instr} (h : HasFields w i) :
    decode w = if reservedSet w then .illegal .reservedBits else .command i := by
  unfold decode
  rw [(decodeOp_iff w i).mpr h]

/-- A word is a command exactly if no reserved bit is set and it has the command's fields. -/
theorem decode_command_iff (w : Word) (i : Instr) :
    decode w = .command i ↔ reservedSet w = false ∧ HasFields w i := by
  unfold decode
  rw [← decodeOp_iff]
  cases reservedSet w <;> simp

/-- The encoded word of a command has no reserved bit set (30_encoding.md R136). -/
theorem reservedSet_encode (i : Instr) : reservedSet (encode i) = false := by
  cases i with
  | nop => exact Laws.EncodeLegal.nop.2.1
  | reset => exact Laws.EncodeLegal.reset.2.1
  | writeBit data => exact (Laws.EncodeLegal.writeBit data).2.1
  | readBit => exact Laws.EncodeLegal.readBit.2.1
  | writeByte data => exact (Laws.EncodeLegal.writeByte data).2.1
  | readByte => exact Laws.EncodeLegal.readByte.2.1
  | crcClear => exact Laws.EncodeLegal.crcClear.2.1
  | crcByte data => exact (Laws.EncodeLegal.crcByte data).2.1
  | searchClear => exact Laws.EncodeLegal.searchClear.2.1
  | searchNext => exact Laws.EncodeLegal.searchNext.2.1
  | searchFirst => exact Laws.EncodeLegal.searchFirst.2.1
  | enumerate => exact Laws.EncodeLegal.enumerate.2.1
  | convert sel idx => exact (Laws.EncodeLegal.convert sel idx).2.1
  | convPoll => exact Laws.EncodeLegal.convPoll.2.1
  | readTemp sel idx => exact (Laws.EncodeLegal.readTemp sel idx).2.1
  | configure sel idx res => exact (Laws.EncodeLegal.configure sel idx res).2.1

/-- The encoded word of a command in the decoder's form has the command's fields: the fields are those it was assembled
from, and the ones the operation does not read are 0 (30_encoding.md R130). -/
theorem hasFields_encode {i : Instr} (hi : i.wellFormed = true) : HasFields (encode i) i := by
  cases i with
  | writeBit data =>
    have hbit : ∀ d : Byte, d >>> 1 = 0 → d &&& 1 = d := by decide
    exact ⟨opField_assemble .., by
      rw [encode, dataField_assemble]
      exact hbit data (by simpa [Instr.wellFormed] using hi)⟩
  | writeByte data | crcByte data => exact ⟨opField_assemble .., dataField_assemble ..⟩
  | readTemp sel idx => exact ⟨opField_assemble .., selField_assemble .., idxField_assemble ..⟩
  | convert sel idx =>
    refine ⟨opField_assemble .., selField_assemble .., ?_⟩
    rw [encode, idxWhenSel, selField_assemble, idxField_assemble]
    cases sel <;> simp_all [Instr.wellFormed]
  | configure sel idx res =>
    refine ⟨opField_assemble .., selField_assemble .., ?_, resField_assemble ..⟩
    rw [encode, idxWhenSel, selField_assemble, idxField_assemble]
    cases sel <;> simp_all [Instr.wellFormed]
  | nop | reset | readBit | readByte | crcClear | searchClear | searchNext | searchFirst | enumerate | convPoll =>
    exact opField_assemble ..

/-- A word's fields give a command in the one form: the ignored operand bits are 0 (30_encoding.md R132, R134). -/
theorem wellFormed_of_hasFields {w : Word} {i : Instr} (h : HasFields w i) : i.wellFormed = true := by
  cases i with
  | writeBit data =>
    have hbit : ∀ d : Byte, (d &&& 1) >>> 1 = 0 := by decide
    obtain ⟨-, rfl⟩ := h
    exact beq_iff_eq.mpr (hbit _)
  | convert sel idx =>
    obtain ⟨-, rfl, rfl⟩ := h
    unfold Instr.wellFormed idxWhenSel
    cases selField w <;> rfl
  | configure sel idx res =>
    obtain ⟨-, rfl, rfl, -⟩ := h
    unfold Instr.wellFormed idxWhenSel
    cases selField w <;> rfl
  | _ => rfl

/-- A word with a command's fields has its OP. -/
theorem opField_of_hasFields {w : Word} {i : Instr} (h : HasFields w i) : opField w = i.opcode := by
  cases i with
  | writeBit _ | writeByte _ | crcByte _ | convert _ _ | readTemp _ _ | configure _ _ _ => exact h.1
  | nop | reset | readBit | readByte | crcClear | searchClear | searchNext | searchFirst | enumerate | convPoll => exact h

/-- No operation has a reserved OP (30_encoding.md R131, R137). -/
theorem opcode_not_reserved (i : Instr) : i.opcode.toNat < 12 ∨ (15 < i.opcode.toNat ∧ i.opcode.toNat < 20) := by
  cases i <;> simp only [Instr.opcode] <;> decide

/-- A word with a reserved bit set or a reserved OP is illegal (30_encoding.md R136, R137). -/
theorem decode_illegal {w : Word} (h : Machine.reservedBitSet w ∨ Machine.reservedOp w) :
    ∃ why, decode w = .illegal why := by
  cases hd : decode w with
  | illegal why => exact ⟨why, rfl⟩
  | command i =>
    obtain ⟨hres, hfields⟩ := (decode_command_iff w i).mp hd
    rcases h with h | h
    · rw [(reservedSet_iff w).mpr h] at hres
      cases hres
    · have hop : i.opcode.toNat = w.toNat % 32 := by
        rw [← opField_of_hasFields hfields, opField, BitVec.extractLsb'_toNat, Nat.shiftRight_zero]
      have hlegal := opcode_not_reserved i
      unfold Machine.reservedOp at h
      omega

end Sys2Proof

open Sys2Proof Sys2Proof.Machine

/-- Settles O1: the encoded word has no reserved bit and the command's fields. -/
theorem encodeDecode : Obligations.EncodeDecode := fun i hi =>
  (decode_command_iff (encode i) i).mpr ⟨reservedSet_encode i, hasFields_encode hi⟩

/-- Settles O2: a word's bits under the mask of what the operation reads are the encoding's exactly if its fields are the
command's (`readBits_iff`). -/
theorem decodeExactly : Obligations.DecodeExactly := by
  refine ⟨fun w i hi => ?_, fun w i h => wellFormed_of_hasFields ((decode_command_iff w i).mp h).2⟩
  rw [decode_command_iff, readBits_iff w hi, ← reservedSet_iff, Bool.not_eq_true]

/-- Settles O4: each word is decoded. -/
theorem wordsDecode : Obligations.WordsDecode := by
  unfold Obligations.WordsDecode
  decide

/-- Settles O5: a write to CMD with BUSY = 0 is due as a command. -/
theorem stepRunsCommand : Obligations.StepRunsCommand := by
  intro s w i rest h hb hd
  have hdue : s.due = .command w := by
    rw [due_of_accessNext h, if_pos ((defined_iff (.write 0 4 w)).mpr ⟨rfl, rfl⟩)]
    simp only [commandWord, if_true, hb, Bool.false_eq_true, if_false]
  have htail : s.env.host.tail = rest := congrArg List.tail h
  simp only [step, hdue, hd, fetchCommand, htail]
  rfl
end

section
/-! PROOFS. The invariant: a clock cycle without a command, a block reset and every whole command keep it. -/

namespace Sys2Proof.Machine

/-- What holds of the engine between clock cycles: no command runs and the line is released (10_state.md R72 to R74). -/
def Idle (s : State) : Prop := s.status.busy = false ∧ s.seq = none ∧ s.ph = .idle ∧ s.pad = false

theorem State.Inv.idle {s : State} (h : s.Inv) : Idle s := ⟨h.notBusy, h.seqIdle, h.phaseIdle, h.released⟩

/-- A host write does nothing to the engine's state: it starts a command only through `step`. -/
theorem hostWrite_idle {s : State} (h : Idle s) (off : Offset) (v : Word) : Idle (hostWrite off v s) := by
  unfold hostWrite
  split
  · exact h
  · rename_i r _
    unfold writeReg
    split
    · exact h
    · cases r <;> exact h

theorem takeAccess_idle {s : State} (h : Idle s) (a : Access) : Idle (takeAccess a s) := by
  cases a with
  | read off size => exact h
  | write off size v => exact hostWrite_idle h off v

/-- A clock cycle that ends with no command running ends in a state that meets the invariant. -/
theorem closeCycle_inv {s : State} (hm : Mid s) (hi : Idle s) : (closeCycle s).Inv := by
  obtain ⟨hpend, hsup⟩ := closeCycle_closed s
  have hmid := closeCycle_mid hm
  have hidle : Idle (closeCycle s) := by
    obtain ⟨r, n, he, -⟩ := closeCycle_eq s
    rw [he]
    exact hi
  obtain ⟨hbusy, hseq, hph, hpad⟩ := hidle
  exact ⟨hmid.legal, hbusy, hseq, hph, hpad, hpend, hsup, hmid.prescInRange, hmid.countLegal, hmid.ldInRange,
    hmid.lfdInRange, hmid.lastDevice, hmid.identValid, hmid.passesInRange, hmid.timedOutInvalid⟩

/-- The start of a clock cycle, whatever the host will do later. -/
theorem openCycle_withHost_mid {s : State} (h : Mid s) (l : List HostEvent) : Mid (openCycle (s.withHost l)) :=
  openCycle_mid h.legal (fun _ => h.of_eq rfl rfl rfl rfl rfl fun _ => ⟨rfl, rfl⟩) h.prescInRange

/-- A cycle without an act of the host keeps the invariant. -/
theorem quietCycle_inv {s : State} (h : s.Inv) : (quietCycle s).Inv :=
  closeCycle_inv (openCycle_withHost_mid h.mid _) h.idle

/-- A cycle with a host access keeps the invariant. -/
theorem accessCycle_inv {s : State} (h : s.Inv) (a : Access) : (accessCycle a s).Inv :=
  closeCycle_inv (takeAccess_mid (openCycle_withHost_mid h.mid _) a) (takeAccess_idle (s := openCycle (s.withHost s.env.host.tail)) h.idle a)

/-- A procedure that keeps `Mid` keeps it in a running command. -/
theorem MidKept.running {m : Engine Code} (h : MidKept m) (p : Params) :
    Triple (fun u => MidAt p u ∧ Running u ∧ SupOk u) m fun _ t => MidAt p t :=
  (h p).weaken (fun _ hs => hs.1) fun _ _ ht => ht

/-- Every command's pseudocode keeps `Mid`. -/
theorem bodyOf_mid (i : Instr) (p : Params) :
    Triple (fun u => MidAt p u ∧ Running u ∧ SupOk u) (bodyOf i) fun _ t => MidAt p t := by
  cases i with
  | nop => exact nopBody_mid.running p
  | reset => exact resetBody_mid.running p
  | writeBit data => exact (writeBitBody_mid data).running p
  | readBit => exact readBitBody_mid.running p
  | writeByte data => exact (writeByteBody_mid data).running p
  | readByte => exact readByteBody_mid.running p
  | crcClear => exact crcClearBody_mid.running p
  | crcByte data => exact (crcByteBody_mid data).running p
  | searchClear => exact searchClearBody_mid.running p
  | searchNext => exact searchStep_mid.running p
  | searchFirst => exact searchFirstBody_mid.running p
  | enumerate => exact enumerateBody_mid.running p
  | convert sel idx => exact (convertBody_mid sel idx).running p
  | convPoll => exact convPollBody_mid.running p
  | readTemp sel idx => exact readTempBody_mid sel idx p
  | configure sel idx res => exact (configureBody_mid sel idx res).running p

end Sys2Proof.Machine

open Sys2Proof Sys2Proof.Machine

/-- Settles O19: the reset state is what a block reset of it would give, with legal default parameters. -/
theorem resetInv : Obligations.ResetInv := by
  have hlegal : State.reset.params.Legal := by
    refine ⟨Nat.le_add_left 1 _, ?_⟩
    decide
  obtain ⟨h1, h2, h3, h4, h5, h6, h7, h8, h9, h10, h11, h12, h13, h14, h15⟩ := blockReset_inv hlegal
  exact ⟨h1, h2, h3, h4, h5, rfl, h7, h8, h9, h10, h11, h12, h13, h14, h15⟩

/-- Settles O20, by what is due: a cycle without a command keeps the invariant, a block reset establishes it, and a
command keeps `Mid` up to its finish cycle, which restores the rest. -/
theorem stepKeepsInv : Obligations.StepKeepsInv := by
  intro s t h hs
  unfold step at hs
  cases hd : s.due with
  | quiet =>
    rw [hd] at hs
    cases hs
    exact quietCycle_inv h
  | reset =>
    rw [hd] at hs
    cases hs
    exact blockReset_inv (s := s.withHost _) h.legal
  | bad a =>
    rw [hd] at hs
    cases hs
  | access a =>
    rw [hd] at hs
    cases hs
    exact accessCycle_inv h a
  | command w =>
    rw [hd] at hs
    have hmid : Mid (fetchCommand w s) := h.mid.of_eq rfl rfl rfl rfl rfl fun _ => ⟨rfl, rfl⟩
    cases hi : decode w with
    | command i =>
      simp only [hi, exec_eq] at hs
      exact runCommand_inv (bodyOf_good i) hmid (bodyOf_mid i _) hs
    | illegal why =>
      simp only [hi, runIllegal] at hs
      exact runCommand_inv (good_pure _) hmid (triple_pure fun _ hu => hu.1) hs
end

section
/-! PROOFS. The register map and the fields of its registers (10_state.md R43 to R58), and the reset values (R78). -/

namespace Sys2Proof.Machine

/-! ### The map -/

/-- A mapped offset shows its register. -/
theorem windowWord_of_regAt {s : State} {off : Offset} {r : Reg} (h : regAt s.params.maxDevices off = some r) :
    s.windowWord off = s.regValue r := by
  simp [State.windowWord, h]

/-- The offsets of the table's half of the window are those from 0x100 up. -/
theorem getLsbD_eight (off : Offset) : off.getLsbD 8 = decide (256 ≤ off.toNat) := by
  rw [BitVec.getLsbD, Nat.testBit_eq_decide_div_mod_eq]
  have := off.isLt
  exact decide_eq_decide.mpr (by omega)

/-- No register stands between ENUMSTAT and the table (10_state.md R43). -/
theorem lowRegAt_eq_none {n : Nat} (h : 0x034 ≤ n) : lowRegAt n = none := by
  unfold lowRegAt
  split
  case h_14 => rfl
  all_goals omega

theorem regAt_gap (m : Nat) {off : Offset} (h : 0x034 ≤ off.toNat) (h' : off.toNat < 0x100) : regAt m off = none := by
  have h8 : off.getLsbD 8 = false := by
    rw [getLsbD_eight]
    exact decide_eq_false (by omega)
  unfold regAt
  rw [h8]
  exact lowRegAt_eq_none h

/-- No register stands above the rows of the table (10_state.md R43). -/
theorem regAt_above {m : Nat} {off : Offset} (h : 0x100 + 16 * m ≤ off.toNat) : regAt m off = none := by
  have h8 : off.getLsbD 8 = true := by
    rw [getLsbD_eight]
    exact decide_eq_true (by omega)
  have hrow : ¬ (rowOf (off.extractLsb' 4 4)).val < m := by
    show ¬ (off.extractLsb' 4 4).toNat < m
    rw [BitVec.extractLsb'_toNat, Nat.shiftRight_eq_div_pow]
    have := off.isLt
    omega
  simp [regAt, h8, hrow]

/-! ### Fields -/

theorem getLsbD_bitAt {n k : Nat} (b : Bool) (hk : k < 32) : (bitAt n b).getLsbD k = (decide (k = n) && b) := by
  unfold bitAt
  rw [BitVec.getLsbD_shiftLeft, BitVec.getLsbD_setWidth, BitVec.getLsbD_ofBool]
  rcases lt_trichotomy k n with h | rfl | h
  · simp [h, h.ne]
  · simp [hk]
  · simp [h.ne', show ¬ k - n = 0 by omega]

/-- Bit `k` of a field that stands at bit `n`. -/
theorem getLsbD_field {n k w : Nat} (x : BitVec w) (hk : k < 32) :
    (x.setWidth 32 <<< n).getLsbD k = (decide (n ≤ k) && x.getLsbD (k - n)) := by
  rw [BitVec.getLsbD_shiftLeft, BitVec.getLsbD_setWidth]
  by_cases h : k < n
  · simp [h]
  · have h1 : k - n < 32 := by omega
    have h2 : n ≤ k := by omega
    simp [hk, h, h1, h2]

/-- Bit `k` of STATUS (10_state.md R45). -/
theorem getLsbD_statusWord (st : Status) {k : Nat} (hk : k < 32) : st.word.getLsbD k =
    (decide (k = 0) && st.busy || decide (k = 1) && st.done || decide (k = 2) && st.ovr ||
      decide (k = 3) && st.presence || decide (k = 4) && st.rxbit || decide (k = 5) && st.cevt ||
      decide (8 ≤ k) && st.err.bits.getLsbD (k - 8)) := by
  simp only [Status.word, BitVec.getLsbD_or, getLsbD_bitAt _ hk, getLsbD_field _ hk]

/-- Bit `k` of CTRL (10_state.md R46). -/
theorem getLsbD_ctrlWord (c : Ctrl) {k : Nat} (hk : k < 32) :
    c.word.getLsbD k = (decide (k = 0) && c.doneIe || decide (k = 1) && c.cevtIe) := by
  simp only [Ctrl.word, BitVec.getLsbD_or, getLsbD_bitAt _ hk]

/-- Bit `k` of SEARCH (10_state.md R49). -/
theorem getLsbD_searchWord (se : Session) {k : Nat} (hk : k < 32) : se.searchWord.getLsbD k =
    (se.ld.getLsbD k || decide (8 ≤ k) && se.lfd.getLsbD (k - 8) || decide (k = 16) && se.ldf) := by
  simp only [Session.searchWord, BitVec.getLsbD_or, getLsbD_bitAt _ hk, getLsbD_field _ hk, BitVec.getLsbD_setWidth,
    hk, decide_true, Bool.true_and]

/-- Bit `k` of ENUMSTAT (10_state.md R55). -/
theorem getLsbD_enumstatWord (e : EnumStat) {k : Nat} (hk : k < 32) : e.word.getLsbD k =
    (e.passes.getLsbD k || decide (8 ≤ k) && e.lastPassErr.bits.getLsbD (k - 8) || decide (k = 12) && e.trunc) := by
  simp only [EnumStat.word, BitVec.getLsbD_or, getLsbD_bitAt _ hk, getLsbD_field _ hk, BitVec.getLsbD_setWidth,
    hk, decide_true, Bool.true_and]

/-- Bit `k` of TBL_STAT (10_state.md R58). -/
theorem getLsbD_statWord (e : Entry) {k : Nat} (hk : k < 32) : e.statWord.getLsbD k =
    (e.cstate.bits.getLsbD k || decide (k = 4) && e.tvalid ||
      decide (8 ≤ k) && (BitVec.ofNat 4 e.res.toNat).getLsbD (k - 8)) := by
  have hres : BitVec.ofNat 32 e.res.toNat = (BitVec.ofNat 4 e.res.toNat).setWidth 32 := by cases e.res <;> rfl
  simp only [Entry.statWord, hres, BitVec.getLsbD_or, getLsbD_bitAt _ hk, getLsbD_field _ hk, BitVec.getLsbD_setWidth,
    hk, decide_true, Bool.true_and]

/-- A word's field is `x` if its bits are those of `x`. -/
theorem extractLsb'_eq {w : Word} {start len : Nat} {x : BitVec len}
    (h : ∀ i, i < len → w.getLsbD (start + i) = x.getLsbD i) : w.extractLsb' start len = x := by
  apply BitVec.eq_of_getLsbD_eq
  intro i hi
  rw [BitVec.getLsbD_extractLsb', h i hi]
  simp [hi]

/-- The flags of STATUS stand at bits 0 to 5. -/
theorem statusWord_flags (st : Status) : st.word.getLsbD 0 = st.busy ∧ st.word.getLsbD 1 = st.done ∧
    st.word.getLsbD 2 = st.ovr ∧ st.word.getLsbD 3 = st.presence ∧ st.word.getLsbD 4 = st.rxbit ∧
    st.word.getLsbD 5 = st.cevt := by
  refine ⟨?_, ?_, ?_, ?_, ?_, ?_⟩ <;> rw [getLsbD_statusWord st (by decide)] <;> simp

/-- ERR stands at bits 11 to 8 of STATUS. -/
theorem statusWord_err (st : Status) : st.word.extractLsb' 8 4 = st.err.bits :=
  extractLsb'_eq fun i hi => by
    rw [getLsbD_statusWord st (by omega)]
    simp [show ∀ j, j < 8 → 8 + i ≠ j by omega]

/-- LD stands at bits 6 to 0 of SEARCH, and LFD at bits 11 to 8. -/
theorem searchWord_fields (se : Session) :
    se.searchWord.extractLsb' 0 7 = se.ld ∧ se.searchWord.extractLsb' 8 4 = se.lfd := by
  constructor
  · refine extractLsb'_eq fun i hi => ?_
    rw [getLsbD_searchWord se (by omega)]
    simp [show ¬ 8 ≤ i by omega, show i ≠ 16 by omega]
  · refine extractLsb'_eq fun i hi => ?_
    rw [getLsbD_searchWord se (by omega)]
    simp [show 8 + i ≠ 16 by omega, BitVec.getLsbD_of_ge se.ld (8 + i) (by omega)]

/-- PASSES stands at bits 7 to 0 of ENUMSTAT, and LAST_PASS_ERR at bits 11 to 8. -/
theorem enumstatWord_fields (e : EnumStat) :
    e.word.extractLsb' 0 8 = e.passes ∧ e.word.extractLsb' 8 4 = e.lastPassErr.bits := by
  constructor
  · refine extractLsb'_eq fun i hi => ?_
    rw [getLsbD_enumstatWord e (by omega)]
    simp [show ¬ 8 ≤ i by omega, show i ≠ 12 by omega]
  · refine extractLsb'_eq fun i hi => ?_
    rw [getLsbD_enumstatWord e (by omega)]
    simp [show 8 + i ≠ 12 by omega]

/-- CSTATE stands at bits 1 and 0 of TBL_STAT, and RES at bits 11 to 8. -/
theorem statWord_fields (e : Entry) :
    e.statWord.extractLsb' 0 2 = e.cstate.bits ∧ (e.statWord.extractLsb' 8 4).toNat = e.res.toNat := by
  constructor
  · refine extractLsb'_eq fun i hi => ?_
    rw [getLsbD_statWord e (by omega)]
    simp [show ¬ 8 ≤ i by omega, show i ≠ 4 by omega]
  · rw [extractLsb'_eq (x := BitVec.ofNat 4 e.res.toNat) fun i hi => ?_]
    · cases e.res <;> rfl
    · rw [getLsbD_statWord e (by omega)]
      simp [show 8 + i ≠ 4 by omega, BitVec.getLsbD_of_ge e.cstate.bits (8 + i) (by omega)]

end Sys2Proof.Machine

open Sys2Proof Sys2Proof.Machine

/-- Settles O7: each listed offset is mapped to its register, and the other offsets to none. -/
theorem registerMap : Obligations.RegisterMap := by
  intro s
  have hlow (off : Offset) (r : Reg) (h : ∀ m, regAt m off = some r) : s.windowWord off = s.regValue r :=
    windowWord_of_regAt (h _)
  refine ⟨hlow _ .cmd fun _ => rfl, hlow _ .status fun _ => rfl, hlow _ .ctrl fun _ => rfl,
    hlow _ .rxdata fun _ => rfl, hlow _ .crc fun _ => rfl, hlow _ .search fun _ => rfl, hlow _ .romLo fun _ => rfl,
    hlow _ .romHi fun _ => rfl, hlow _ .timeout fun _ => rfl, hlow _ .alarm fun _ => rfl, hlow _ .now fun _ => rfl,
    hlow _ .devcnt fun _ => rfl, hlow _ .enumstat fun _ => rfl, fun i hi => ⟨?_, ?_, ?_, ?_⟩, fun off h h' => ?_,
    fun off h => ?_⟩
  · exact windowWord_of_regAt (regAt_row hi (k := 0) (by omega))
  · exact windowWord_of_regAt (regAt_row hi (k := 4) (by omega))
  · exact windowWord_of_regAt (regAt_row hi (k := 8) (by omega))
  · exact windowWord_of_regAt (regAt_row hi (k := 12) (by omega))
  · exact windowWord_unmapped (regAt_gap _ h h')
  · exact windowWord_unmapped (regAt_above h)

/-- Settles O8: every flag is its register's bit, every field has its register's bits, and the numbers are the
definitions'. -/
theorem fieldPlaces : Obligations.FieldPlaces := by
  refine ⟨fun st => ?_, fun c => ⟨?_, ?_⟩, fun se => ⟨(searchWord_fields se).1, (searchWord_fields se).2, ?_⟩,
    fun e => ⟨(enumstatWord_fields e).1, (enumstatWord_fields e).2, ?_⟩,
    fun e => ⟨(statWord_fields e).1, ?_, (statWord_fields e).2⟩, by decide⟩
  · obtain ⟨h0, h1, h2, h3, h4, h5⟩ := statusWord_flags st
    exact ⟨h0, h1, h2, h3, h4, h5, statusWord_err st⟩
  · rw [getLsbD_ctrlWord c (by decide)]
    simp
  · rw [getLsbD_ctrlWord c (by decide)]
    simp
  · rw [getLsbD_searchWord se (by decide)]
    simp
  · rw [getLsbD_enumstatWord e (by decide)]
    simp
  · rw [getLsbD_statWord e (by decide)]
    simp

/-- Settles O18: the reset state is evaluated. -/
theorem resetValues : Obligations.ResetValues := by
  unfold Obligations.ResetValues
  decide
end

section
/-! PROOFS. One clock cycle with a host access while no command runs, a cycle with `rst_n` low, and the output pins
(10_state.md R45, R54, R73, R75, 20_memory.md R104, 43_sensor.md R273, 70_reset_and_hazards.md R350). -/

namespace Sys2Proof.Machine

/-! ### What a host write leaves of each register -/

/-- The rows' ROM offsets are no offsets of registers below the table. -/
theorem romOffset_ne (i : Fin 16) {o : Offset} (ho : o.toNat < 0x100) :
    BitVec.ofNat 9 (0x100 + 16 * i.val) ≠ o ∧ BitVec.ofNat 9 (0x104 + 16 * i.val) ≠ o := by
  constructor <;>
    · rintro rfl
      rw [BitVec.toNat_ofNat] at ho
      omega

/-- Different words of ROM stand at different offsets (10_state.md R43). -/
theorem romOffset_inj (i j : Fin 16) :
    (BitVec.ofNat 9 (0x100 + 16 * i.val) = BitVec.ofNat 9 (0x100 + 16 * j.val) ↔ i = j) ∧
      (BitVec.ofNat 9 (0x104 + 16 * i.val) = BitVec.ofNat 9 (0x104 + 16 * j.val) ↔ i = j) ∧
      BitVec.ofNat 9 (0x100 + 16 * i.val) ≠ BitVec.ofNat 9 (0x104 + 16 * j.val) := by
  simp only [ne_eq, ← BitVec.toNat_inj, BitVec.toNat_ofNat, Fin.ext_iff]
  omega

/-- DEVCNT is clamped to MAX_DEVICES (10_state.md R54). -/
theorem clampCount_toNat (m : Nat) (v : Word) : (clampCount m v).toNat = min (v.toNat % 32) m := by
  rw [clampCount, BitVec.toNat_ofNat, BitVec.extractLsb'_toNat, Nat.shiftRight_zero]
  omega

/-- What a host write of `v` to `off` in `o` leaves of the registers below the table, STATUS apart: `u` has the write in
the register of the offset and `o`'s value in the others (10_state.md R46 to R54). -/
structure Registers (off : Offset) (v : Word) (o u : State) : Prop where
  ctrl : u.ctrl = if off = 0x008 then ⟨v.getLsbD 0, v.getLsbD 1⟩ else o.ctrl
  crc : u.crc = if off = 0x010 then v.extractLsb' 0 8 else o.crc
  budget : u.budget = if off = 0x020 then v.extractLsb' 0 22 else o.budget
  alarm : u.alarm = if off = 0x024 then v else o.alarm
  count : u.count.toNat = if off = 0x02C then min (v.toNat % 32) o.params.maxDevices else o.count.toNat

/-- A write to no register below the table. -/
theorem Registers.of_other {off : Offset} {v : Word} {o u : State}
    (h : ∀ k ∈ [0x008#9, 0x010#9, 0x020#9, 0x024#9, 0x02C#9], off ≠ k) (h1 : u.ctrl = o.ctrl) (h2 : u.crc = o.crc)
    (h3 : u.budget = o.budget) (h4 : u.alarm = o.alarm) (h5 : u.count = o.count) : Registers off v o u :=
  ⟨h1.trans (if_neg (h _ (by decide))).symm, h2.trans (if_neg (h _ (by decide))).symm,
    h3.trans (if_neg (h _ (by decide))).symm, h4.trans (if_neg (h _ (by decide))).symm,
    (congrArg BitVec.toNat h5).trans (if_neg (h _ (by decide))).symm⟩

theorem hostWrite_registers {o : State} {off : Offset} (v : Word) (hb : o.status.busy = false)
    (ha : off.toNat % 4 = 0) : Registers off v o (hostWrite off v o) := by
  have hlow : ∀ k ∈ [0x008#9, 0x010#9, 0x020#9, 0x024#9, 0x02C#9], k.toNat < 0x100 := by decide
  rcases hostWrite_cases (s := o) (v := v) hb ha with ⟨e, hne, -⟩ | ⟨rfl, e⟩ | ⟨rfl, e⟩ | ⟨rfl, e⟩ | ⟨rfl, e⟩ |
    ⟨rfl, e⟩ | ⟨rfl, e⟩ | ⟨j, -, ⟨rfl, e⟩ | ⟨rfl, e⟩⟩ <;> rw [e]
  · exact .of_other (fun k hk => hne k (List.mem_cons_of_mem _ hk)) rfl rfl rfl rfl rfl
  · exact ⟨rfl, rfl, rfl, rfl, rfl⟩
  · exact ⟨rfl, rfl, rfl, rfl, rfl⟩
  · exact ⟨rfl, rfl, rfl, rfl, rfl⟩
  · exact ⟨rfl, rfl, rfl, rfl, rfl⟩
  · exact ⟨rfl, rfl, rfl, rfl, rfl⟩
  · exact ⟨rfl, rfl, rfl, rfl, clampCount_toNat _ _⟩
  · exact .of_other (fun k hk => (romOffset_ne j (hlow k hk)).1) rfl rfl rfl rfl rfl
  · exact .of_other (fun k hk => (romOffset_ne j (hlow k hk)).2) rfl rfl rfl rfl rfl

/-- What a host write of `v` to `off` leaves of row `i`'s identifier: each word is written at its own offset (10_state.md
R56). -/
structure RomWords (off : Offset) (v : Word) (i : Fin 16) (e e' : Entry) : Prop where
  lo : e'.rom.extractLsb' 0 32 = if off = BitVec.ofNat 9 (0x100 + 16 * i.val) then v else e.rom.extractLsb' 0 32
  hi : e'.rom.extractLsb' 32 32 = if off = BitVec.ofNat 9 (0x104 + 16 * i.val) then v else e.rom.extractLsb' 32 32

/-- A write to no word of the row's ROM. -/
theorem RomWords.of_other {off : Offset} {v : Word} {i : Fin 16} {e : Entry}
    (h : off ≠ BitVec.ofNat 9 (0x100 + 16 * i.val) ∧ off ≠ BitVec.ofNat 9 (0x104 + 16 * i.val)) :
    RomWords off v i e e :=
  ⟨(if_neg h.1).symm, (if_neg h.2).symm⟩

theorem hostWrite_rom {o : State} {off : Offset} (v : Word) (hb : o.status.busy = false) (ha : off.toNat % 4 = 0)
    {i : Fin 16} (hi : i.val < o.params.maxDevices) :
    RomWords off v i o.table[i] (hostWrite off v o).table[i] := by
  have hlow {k : Offset} (hk : k.toNat < 0x100) : RomWords k v i o.table[i] o.table[i] :=
    .of_other ⟨(romOffset_ne i hk).1.symm, (romOffset_ne i hk).2.symm⟩
  rcases hostWrite_cases (s := o) (v := v) hb ha with ⟨e, -, hne⟩ | ⟨rfl, e⟩ | ⟨rfl, e⟩ | ⟨rfl, e⟩ | ⟨rfl, e⟩ |
    ⟨rfl, e⟩ | ⟨rfl, e⟩ | ⟨j, -, ⟨rfl, e⟩ | ⟨rfl, e⟩⟩ <;> rw [e]
  · exact .of_other (hne i hi)
  iterate 6 exact hlow (by decide)
  · obtain ⟨hlo, hhi, -, -⟩ := romWords o.table[i].rom v
    obtain ⟨hinj, -, hne⟩ := romOffset_inj j i
    rw [setEntry_table, set_get]
    split
    · next hij =>
      subst hij
      exact ⟨hlo.trans (if_pos rfl).symm, hhi.trans (if_neg hne).symm⟩
    · next hij => exact .of_other ⟨fun h => hij (hinj.mp h).symm, hne⟩
  · obtain ⟨-, -, hhi, hlo⟩ := romWords o.table[i].rom v
    obtain ⟨-, hinj, -⟩ := romOffset_inj j i
    obtain ⟨-, -, hne⟩ := romOffset_inj i j
    rw [setEntry_table, set_get]
    split
    · next hij =>
      subst hij
      exact ⟨hlo.trans (if_neg hne.symm).symm, hhi.trans (if_pos rfl).symm⟩
    · next hij => exact .of_other ⟨hne.symm, fun h => hij (hinj.mp h).symm⟩

/-- A row's readings are out of the host's reach (10_state.md R57, R58). -/
theorem hostWrite_readings {o : State} {off : Offset} (v : Word) (hb : o.status.busy = false) (ha : off.toNat % 4 = 0)
    (i : Fin 16) :
    (hostWrite off v o).table[i].temp = o.table[i].temp ∧ (hostWrite off v o).table[i].res = o.table[i].res := by
  rcases hostWrite_cases (s := o) (v := v) hb ha with ⟨e, -, -⟩ | ⟨-, e⟩ | ⟨-, e⟩ | ⟨-, e⟩ | ⟨-, e⟩ | ⟨-, e⟩ | ⟨-, e⟩ |
    ⟨j, -, ⟨-, e⟩ | ⟨-, e⟩⟩ <;> rw [e]
  iterate 7 exact ⟨rfl, rfl⟩
  iterate 2
    rw [setEntry_table, set_get]
    split
    · next hij =>
      subst hij
      exact ⟨rfl, rfl⟩
    · exact ⟨rfl, rfl⟩

/-- The engine's own registers are out of the host's reach. -/
theorem hostWrite_hidden (off : Offset) (v : Word) (o : State) :
    (hostWrite off v o).rxdata = o.rxdata ∧ (hostWrite off v o).enumstat = o.enumstat ∧
      (hostWrite off v o).seq = o.seq ∧ (hostWrite off v o).ph = o.ph ∧ (hostWrite off v o).pad = o.pad := by
  unfold hostWrite
  split
  · exact ⟨rfl, rfl, rfl, rfl, rfl⟩
  · rename_i r _
    unfold writeReg
    split
    · exact ⟨rfl, rfl, rfl, rfl, rfl⟩
    · cases r <;> exact ⟨rfl, rfl, rfl, rfl, rfl⟩

/-! ### The end of the cycle -/

/-- What the end of a cycle leaves of CEVT: it is set where a pending step takes its row out of ConversionStarted
(43_sensor.md R271). -/
theorem closeCycle_cevt_supEvent (u : State) :
    (closeCycle u).status.cevt = true ↔ u.status.cevt = true ∨ ∃ i : Fin 16, u.table[i].supEvent = true := by
  obtain ⟨r, n, he, -⟩ := closeCycle_eq u
  rw [he]
  show (u.status.cevt || anyRow (fun _ e => e.supEvent) u.table) = true ↔ _
  rw [Bool.or_eq_true, anyRow_iff]

/-- The supervisor's step of a cycle, as so many ticks of a row. -/
theorem settle_openCycle_withHost (s : State) (l : List HostEvent) (i : Fin 16) :
    let e := (openCycle (s.withHost l)).table[i].settle
    let m := s.supervisedRow i s.ticksBefore s.table[i]
    e.cstate = m.cstate ∧ e.tvalid = m.tvalid ∧ e.elapsed = m.elapsed := by
  simp only
  rw [settle_openCycle (s := s) (r := s.withHost l) rfl rfl rfl, isTick_withHost, State.ticksBefore]
  split <;> exact ⟨rfl, rfl, rfl⟩

/-- NOW counts the tick of a cycle (10_state.md R53). -/
theorem openCycle_now_ticksBefore (s : State) : (openCycle s).now = s.now + BitVec.ofNat 32 s.ticksBefore := by
  rw [openCycle_now, State.ticksBefore]
  cases s.isTick
  · exact (BitVec.add_zero _).symm
  · rfl

end Sys2Proof.Machine

open Sys2Proof Sys2Proof.Machine

/-- Settles O14: the two cycles open alike but for the waiting read and the host's acts, and the answer to the read is
all that its end does beyond the other's. -/
theorem readsChangeNothing : Obligations.ReadsChangeNothing := by
  intro s off rest h ha hp
  obtain ⟨r, n, het, -⟩ := closeCycle_eq (takeAccess (.read off 4) (openCycle (s.withHost rest)))
  obtain ⟨r', n', heu, -⟩ := closeCycle_eq (openCycle (s.withHost []))
  refine ⟨_, _, step_read h ha, step_quiet (s := s.withHost []) rfl, ?_⟩
  rw [het, heu]
  rfl

/-- Settles O15: the write lands on the state of the cycle's start, whose rows hold the supervisor's steps, and the
cycle's end lands those. -/
theorem hostWrites : Obligations.HostWrites := by
  intro s off v rest h ha hb h0
  have hbo : (openCycle (s.withHost rest)).status.busy = false := hb
  obtain ⟨hdone, hovr, hcevt, hbusy, hpres, hrx, herr, hnow, -, hrows⟩ := hostWrite_frame (v := v) hbo ha
  obtain ⟨hctrl, hcrc, hbudget, halarm, hcount⟩ := hostWrite_registers v hbo ha
  obtain ⟨hx, hsession, hparams, -⟩ := hostWrite_engine off v (openCycle (s.withHost rest))
  obtain ⟨hrxdata, henum, hseq, hph, hpad⟩ := hostWrite_hidden off v (openCycle (s.withHost rest))
  have hrow (i : Fin 16) := closeCycle_table (hostWrite off v (openCycle (s.withHost rest))) i
  have hcevt' := closeCycle_cevt_supEvent (hostWrite off v (openCycle (s.withHost rest)))
  obtain ⟨r, n, he, -⟩ := closeCycle_eq (hostWrite off v (openCycle (s.withHost rest)))
  refine ⟨_, step_write h ha h0, ?_⟩
  rw [he] at hrow hcevt' ⊢
  refine ⟨hctrl, hcrc, hbudget, halarm, hcount, hdone, hovr, hcevt'.trans ?_, hbusy.trans hb, hpres, hrx, herr,
    hnow.trans (openCycle_now_ticksBefore (s.withHost rest)), hrxdata, hsession, henum, hparams, hx, hseq, hph, hpad,
    fun i => ?_, fun i => ?_⟩
  · simp only [hcevt, (hrows _).settle.2, supEvent_openCycle]
    refine or_congr ?_ Iff.rfl
    rw [Bool.and_eq_true, Bool.not_eq_true', Bool.eq_false_iff, ne_eq, Bool.and_eq_true, beq_iff_eq]
    rfl
  · obtain ⟨⟨hcs, htv, hel, -⟩, -⟩ := (hrows i).settle
    rw [hrow, hcs, htv, hel]
    exact settle_openCycle_withHost s rest i
  · obtain ⟨htemp, hres⟩ := hostWrite_readings v hbo ha i
    have hold : (openCycle (s.withHost rest)).table[i].rom = s.table[i].rom ∧
        (openCycle (s.withHost rest)).table[i].temp = s.table[i].temp ∧
        (openCycle (s.withHost rest)).table[i].res = s.table[i].res := by
      rw [openCycle_table, mapTable_get]
      exact ⟨rfl, rfl, rfl⟩
    obtain ⟨hrom0, htemp0, hres0⟩ := hold
    rw [hrow, settle_temp, settle_res, settle_rom]
    refine ⟨htemp.trans htemp0, hres.trans hres0, fun hi => ?_⟩
    obtain ⟨hlo, hhi⟩ := hostWrite_rom v hbo ha (i := i) hi
    rw [hrom0] at hlo hhi
    exact ⟨hlo, hhi⟩

/-- Settles O16: STATUS is written whatever BUSY is, before the supervisor's step of the cycle lands. -/
theorem statusWrite : Obligations.StatusWrite := by
  intro s v rest h
  have he : hostWrite 0x004 v (openCycle (s.withHost rest)) =
      { openCycle (s.withHost rest) with status := s.status.clearWritten v } := hostWrite_unlocked (r := .status) rfl rfl v
  have hstep := step_write h (by decide) (by decide)
  rw [he] at hstep
  have hcevt := closeCycle_cevt_supEvent { openCycle (s.withHost rest) with status := s.status.clearWritten v }
  simp only [supEvent_openCycle] at hcevt
  obtain ⟨r, n, hc, -⟩ := closeCycle_eq { openCycle (s.withHost rest) with status := s.status.clearWritten v }
  refine ⟨_, hstep, ?_⟩
  rw [hc] at hcevt ⊢
  refine ⟨rfl, rfl, hcevt.trans (or_congr ?_ Iff.rfl), rfl, rfl, rfl, rfl⟩
  rw [Status.clearWritten, Bool.and_eq_true, Bool.not_eq_true']

/-- Settles O17: time leaves the pad and the phase (`ticks_pin`), and a phase entered takes its level. -/
theorem outputPins : Obligations.OutputPins := by
  have hphase (s t : State) (ph : Phase) (n k : Nat) (hb : s.status.busy = true)
      (ht : ticks k (enterPhase ph n s) = .ok () t) :
      t.ph = ph ∧ (t.pad = true ↔ ph = .rstLow ∨ ph = .wLow ∨ ph = .rLow) := by
    obtain ⟨hpad, hph⟩ := ticks_pin k (enterPhase ph n s) t hb ht
    rw [hpad, hph]
    exact ⟨rfl, drivesLow_iff ph⟩
  refine ⟨fun s => ?_, fun s => rfl, hphase, fun s t ph dur hb ht => ⟨fun h0 => ?_, fun h0 => ?_⟩, fun s code => ?_,
    fun s => rfl, rfl⟩
  · rw [State.irq, Bool.or_eq_true, Bool.and_eq_true, Bool.and_eq_true]
  · rw [drive, if_pos h0] at ht
    cases ht
    rfl
  · rw [drive, if_neg h0] at ht
    exact hphase s t ph _ _ hb ht
  · rw [(closeCycle_pin _).1]
    rfl

/-- Settles O21: the step is a block reset. -/
theorem resetCycle : Obligations.ResetCycle := by
  intro s rest h
  have hd : s.due = .reset := by
    unfold State.due
    rw [h]
  have hs : step s = .next (blockReset (s.withHost s.env.host.tail)) := by
    unfold step
    rw [hd]
    rfl
  exact ⟨_, hs, rfl, congrArg List.tail h, rfl, rfl⟩
end

section
/-! PROOFS. Clock cycles in a row in which the host does nothing, and a conversion left alone (10_state.md R42, R53,
43_sensor.md R271, R286). -/

namespace Sys2Proof.Machine

/-! ### Rows -/

/-- An entry without its pending step. -/
def Entry.bare (e : Entry) : Entry := { e with sup := none }

theorem Entry.bare_of_none {e : Entry} (h : e.sup = none) : e.bare = e := by
  cases e
  cases h
  rfl

theorem tickPseudocode_bare (unit budget : Nat) (e : Entry) :
    tickPseudocode unit budget e.bare = tickPseudocode unit budget e := rfl

/-- A supervisor's tick leaves no step pending. -/
theorem bare_tickPseudocode (unit budget : Nat) (e : Entry) :
    (tickPseudocode unit budget e).bare = tickPseudocode unit budget e := by
  unfold tickPseudocode
  split
  · simp only
    split
    · rfl
    · split <;> rfl
  · rfl

/-- The supervisor's steps begin from the entry as it is, whatever step was pending before. -/
theorem bare_supervisedRow (s : State) (i : Fin 16) (n : Nat) : ∀ e : Entry,
    (s.supervisedRow i n e).bare = s.supervisedRow i n e.bare := by
  induction n with
  | zero => exact fun _ => rfl
  | succ n ih =>
    intro e
    rw [State.supervisedRow, ih, State.supervisedRow, tickPseudocode_bare]
    split
    · rw [bare_tickPseudocode]
    · rfl

/-- The cycle's part of a row's supervisor steps, whatever step was pending before. -/
theorem bare_settle_idle (s : State) (i : Fin 16) :
    ({ s.table[i] with sup := if s.isTick then s.supStepAt i s.table[i] else none } : Entry).settle.bare =
      s.supervisedRow i s.ticksBefore s.table[i].bare := by
  have he := settle_openCycle (s := s) (r := s) rfl rfl rfl i
  rw [openCycle_table, mapTable_get] at he
  rw [he, State.ticksBefore]
  split
  · exact bare_supervisedRow s i 1 _
  · rfl

/-! ### Cycles in a row -/

/-- Everything `n` cycles in which the host has nothing coming can do. -/
structure IdleFor (n : Nat) (s t : State) : Prop where
  presc : t.presc = (s.presc + n) % s.params.cycPerUs
  now : t.now = s.now + BitVec.ofNat 32 ((s.presc + n) / s.params.cycPerUs)
  params : t.params = s.params
  rxdata : t.rxdata = s.rxdata
  crc : t.crc = s.crc
  session : t.session = s.session
  budget : t.budget = s.budget
  alarm : t.alarm = s.alarm
  count : t.count = s.count
  enumstat : t.enumstat = s.enumstat
  ctrl : t.ctrl = s.ctrl
  pad : t.pad = s.pad
  wave : t.env.wave = s.env.wave
  status : t.status = { s.status with cevt := t.status.cevt }
  rows : ∀ i : Fin 16,
    t.table[i].bare = s.supervisedRow i ((s.presc + n) / s.params.cycPerUs) s.table[i].bare
  landed : (∀ i : Fin 16, s.table[i].sup = none) → ∀ i : Fin 16, t.table[i].sup = none
  cevt : t.status.cevt = true ↔ s.status.cevt = true ∨ ∃ i : Fin 16, s.table[i].cstate = .started ∧
    t.table[i].cstate ≠ .started

/-- A row that is not started stays so: nothing but a command starts it. -/
theorem IdleFor.held {n : Nat} {s t : State} (h : IdleFor n s t) (i : Fin 16) (hi : s.table[i].cstate ≠ .started) :
    t.table[i].cstate ≠ .started := by
  have hrow := congrArg Entry.cstate (h.rows i)
  rw [supervisedRow_held s i _ s.table[i].bare hi] at hrow
  exact fun ht => hi (hrow.symm.trans ht)

theorem IdleFor.refl {s : State} (hp : s.presc < s.params.cycPerUs) : IdleFor 0 s s where
  presc := (Nat.mod_eq_of_lt hp).symm
  now := by
    rw [Nat.add_zero, Nat.div_eq_of_lt hp]
    exact (BitVec.add_zero _).symm
  params := rfl
  rxdata := rfl
  crc := rfl
  session := rfl
  budget := rfl
  alarm := rfl
  count := rfl
  enumstat := rfl
  ctrl := rfl
  pad := rfl
  wave := rfl
  status := rfl
  rows := fun i => by
    rw [Nat.add_zero, Nat.div_eq_of_lt hp]
    rfl
  landed := fun h => h
  cevt := ⟨.inl, fun h => h.elim id fun ⟨_, h1, h2⟩ => absurd h1 h2⟩

/-- Cycles after cycles: the prescaler carries on where it stood. -/
theorem IdleFor.succ {n : Nat} {s u t : State} (hp : s.presc < s.params.cycPerUs) (h : IdleFor 1 s u)
    (g : IdleFor n u t) : IdleFor (n + 1) s t where
  presc := by rw [g.presc, h.presc, h.params, (presc_succ n hp).2]
  now := by
    rw [g.now, h.now, h.presc, h.params, (presc_succ n hp).1, BitVec.ofNat_add, BitVec.add_assoc]
  params := g.params.trans h.params
  rxdata := g.rxdata.trans h.rxdata
  crc := g.crc.trans h.crc
  session := g.session.trans h.session
  budget := g.budget.trans h.budget
  alarm := g.alarm.trans h.alarm
  count := g.count.trans h.count
  enumstat := g.enumstat.trans h.enumstat
  ctrl := g.ctrl.trans h.ctrl
  pad := g.pad.trans h.pad
  wave := g.wave.trans h.wave
  status := by rw [g.status, h.status]
  rows := fun i => by
    rw [g.rows i, h.rows i, supervisedRow_congr h.params h.budget h.count, h.presc, h.params, ← supervisedRow_add,
      (presc_succ n hp).1]
  landed := fun hs => g.landed (h.landed hs)
  cevt := by
    rw [g.cevt, h.cevt]
    constructor
    · rintro ((hc | ⟨i, h1, h2⟩) | ⟨i, h1, h2⟩)
      · exact .inl hc
      · exact .inr ⟨i, h1, g.held i h2⟩
      · exact .inr ⟨i, by_contra fun hs => h.held i hs h1, h2⟩
    · rintro (hc | ⟨i, h1, h2⟩)
      · exact .inl (.inl hc)
      · by_cases hu : u.table[i].cstate = .started
        · exact .inr ⟨i, hu, h2⟩
        · exact .inl (.inr ⟨i, h1, hu⟩)

/-- Whether a cycle is a tick, as the ticks counted in it. -/
theorem ticksBefore_eq {s : State} (hp : s.presc < s.params.cycPerUs) :
    s.ticksBefore = (s.presc + 1) / s.params.cycPerUs := by
  unfold State.ticksBefore
  by_cases ht : s.isTick = true
  · rw [if_pos ht]
    rw [isTick_iff] at ht
    rw [show s.presc + 1 = s.params.cycPerUs by omega, Nat.div_self (by omega)]
  · rw [if_neg ht]
    rw [isTick_iff] at ht
    exact (Nat.div_eq_of_lt (by omega)).symm

/-- One cycle without an act of the host. -/
theorem step_idleFor {s : State} (hh : s.env.host = []) (hp : s.presc < s.params.cycPerUs) :
    ∃ t, step s = .next t ∧ t.env.host = [] ∧ IdleFor 1 s t := by
  obtain ⟨t, hs, h⟩ := step_idle hh hp
  have hst : t = closeCycle (openCycle s) := by
    have hq := step_quiet hh
    rw [hs] at hq
    cases hq
    rfl
  have hstatus : t.status = { s.status with cevt := t.status.cevt } := by
    obtain ⟨r, n, he, -⟩ := closeCycle_eq (openCycle s)
    rw [hst, he]
    rfl
  have hcstate (i : Fin 16) : t.table[i].cstate =
      ((if s.isTick then s.supervisedRow i 1 s.table[i] else { s.table[i] with sup := none }) : Entry).cstate := by
    rw [hst, closeCycle_table, settle_openCycle (s := s) rfl rfl rfl]
  refine ⟨t, hs, h.host, h.presc, h.now, h.params, h.rxdata, h.crc, h.session, h.budget, h.alarm, h.count, h.enumstat,
    h.ctrl, h.pad, h.wave, hstatus, fun i => ?_, fun _ i => ?_, h.cevt.trans (or_congr Iff.rfl ?_)⟩
  · rw [h.table i, bare_settle_idle, ticksBefore_eq hp]
  · rw [h.table i, settle_sup]
  · simp only [leavesStarted_iff, ← hcstate]
    refine exists_congr fun i => ⟨fun ⟨_, h1, h2⟩ => ⟨h1, h2⟩, fun ⟨h1, h2⟩ => ⟨?_, h1, h2⟩⟩
    by_contra hv
    rw [hcstate] at h2
    apply h2
    split
    · rw [supervisedRow_invalid s i 1 _ hv, h1]
    · exact h1

/-- Any number of cycles without an act of the host. -/
theorem runSteps_idleFor (n : Nat) : ∀ {s : State}, s.env.host = [] → s.presc < s.params.cycPerUs →
    ∃ t, runSteps n s = some t ∧ IdleFor n s t := by
  induction n with
  | zero => exact fun _ hp => ⟨_, rfl, .refl hp⟩
  | succ n ih =>
    intro s hh hp
    obtain ⟨u, hs, hu, h⟩ := step_idleFor hh hp
    have hpu : u.presc < u.params.cycPerUs := by
      rw [h.presc, h.params]
      exact Nat.mod_lt _ (by omega)
    obtain ⟨t, ht, g⟩ := ih hu hpu
    exact ⟨t, by rw [runSteps, hs]; exact ht, h.succ hp g⟩

/-! ### A conversion left alone -/

/-- A tick of a started entry, in the units of its ELAPSED (43_sensor.md R271). -/
theorem tickPseudocode_started {unit budget k : Nat} {e : Entry} (he : e.cstate = .started)
    (hlt : k + 1 < 2 ^ 32) : tickPseudocode unit budget { e with elapsed := BitVec.ofNat 32 k, sup := none } =
      if e.res.duration * unit ≤ k + 1 then
        { e with elapsed := BitVec.ofNat 32 (k + 1), cstate := .ready, sup := none }
      else if budget ≠ 0 ∧ budget * unit ≤ k + 1 then
        { e with elapsed := BitVec.ofNat 32 (k + 1), cstate := .timedOut, tvalid := false, sup := none }
      else { e with elapsed := BitVec.ofNat 32 (k + 1), sup := none } := by
  have hn : min ((BitVec.ofNat 32 k).toNat + 1) (2 ^ 32 - 1) = k + 1 := by
    rw [BitVec.toNat_ofNat]
    omega
  simp only [tickPseudocode, if_pos he, ← duration_eq, hn]

/-- A valid entry just started that no tick before the `due`-th takes out of ConversionStarted, and the `due`-th takes to
`c` with TVALID `v`: it counts ELAPSED up to there and then holds. -/
theorem supervisedRow_conversion {s : State} {i : Fin 16} {e : Entry} {due : Nat} {c : CState} {v : Bool}
    (hi : i.val < s.count.toNat) (h0 : e.elapsed = 0) (hc : c ≠ .started)
    (hcount : ∀ k, k + 1 < due →
      tickPseudocode s.params.convUnitUs s.budget.toNat { e with elapsed := BitVec.ofNat 32 k, sup := none } =
        { e with elapsed := BitVec.ofNat 32 (k + 1), sup := none })
    (hend : ∀ k, k + 1 = due →
      tickPseudocode s.params.convUnitUs s.budget.toNat { e with elapsed := BitVec.ofNat 32 k, sup := none } =
        { e with elapsed := BitVec.ofNat 32 due, cstate := c, tvalid := v, sup := none }) (hpos : due ≠ 0) (n : Nat) :
    s.supervisedRow i n e.bare =
      if due ≤ n then { e with elapsed := BitVec.ofNat 32 due, cstate := c, tvalid := v, sup := none }
      else { e with elapsed := BitVec.ofNat 32 n, sup := none } := by
  induction n with
  | zero =>
    rw [if_neg (by omega), State.supervisedRow, Entry.bare, h0]
    rfl
  | succ n ih =>
    have htick (e' : Entry) : s.supervisedRow i 1 e' = tickPseudocode s.params.convUnitUs s.budget.toNat e' := by
      rw [State.supervisedRow, State.supervisedRow, if_pos hi]
    rw [supervisedRow_add, htick, ih]
    rcases lt_trichotomy due (n + 1) with h | h | h
    · rw [if_pos (by omega), if_pos h.le, tickPseudocode, if_neg hc]
    · rw [if_neg (by omega), if_pos h.le, hend n h.symm]
    · rw [if_neg (by omega), if_neg (by omega), hcount n h]

/-- What can be seen of a row whose conversion ends, or has ended, at its tick `due`. -/
theorem conversion_fields {e e' : Entry} {due k : Nat} {c : CState} {v : Bool} (hlt : due < 2 ^ 32)
    (h : e'.bare = if due ≤ k then { e with elapsed := BitVec.ofNat 32 due, cstate := c, tvalid := v, sup := none }
      else { e with elapsed := BitVec.ofNat 32 k, sup := none }) :
    e'.cstate = (if due ≤ k then c else e.cstate) ∧ e'.elapsed.toNat = min k due ∧
      e'.tvalid = (if due ≤ k then v else e.tvalid) ∧ e'.temp = e.temp ∧ e'.res = e.res := by
  by_cases hk : due ≤ k
  · rw [if_pos hk] at h
    obtain ⟨-, htemp, hc, hv, hres, hel, -⟩ := Entry.mk.inj h
    rw [if_pos hk, if_pos hk, hel, BitVec.toNat_ofNat]
    exact ⟨hc, by omega, hv, htemp, hres⟩
  · rw [if_neg hk] at h
    obtain ⟨-, htemp, hc, hv, hres, hel, -⟩ := Entry.mk.inj h
    rw [if_neg hk, if_neg hk, hel, BitVec.toNat_ofNat]
    exact ⟨hc, by omega, hv, htemp, hres⟩

/-- A duration is at least 100 time-units (43_sensor.md R272). -/
theorem duration_pos (r : Resolution) : 0 < r.duration := by cases r <;> decide

end Sys2Proof.Machine

open Sys2Proof Sys2Proof.Machine

/-- Settles O24, by induction on the cycles (`runSteps_idleFor`). -/
theorem idleClock : Obligations.IdleClock := by
  intro s n hh hp
  obtain ⟨t, ht, h⟩ := runSteps_idleFor n hh hp
  have hst := h.status
  refine ⟨t, ht, h.presc, h.now, h.params, h.rxdata, h.crc, h.session, h.budget, h.alarm, h.count, h.enumstat, h.ctrl,
    h.pad, h.wave, by rw [hst], by rw [hst], by rw [hst], by rw [hst], by rw [hst], by rw [hst], fun hs i => ?_, h.cevt⟩
  have hrow := h.rows i
  rwa [Entry.bare_of_none (h.landed hs i), Entry.bare_of_none (hs i)] at hrow

/-- Settles O57: before the tick of the duration neither it nor the budget is reached, and in that tick Ready wins. -/
theorem timedConversion : Obligations.TimedConversion := by
  intro s i n hh hp hi hst h0 hu hlt hb
  obtain ⟨t, ht, h⟩ := runSteps_idleFor n hh hp
  have hpos := (Nat.mul_pos (duration_pos s.table[i].res) hu).ne'
  have hbudget : s.budget.toNat ≠ 0 →
      s.table[i].res.duration * s.params.convUnitUs ≤ s.budget.toNat * s.params.convUnitUs := by
    rcases hb with hb | hb
    · exact fun hne => absurd (congrArg BitVec.toNat hb) hne
    · exact fun _ => Nat.mul_le_mul_right _ hb
  have hrow := (h.rows i).trans (supervisedRow_conversion (c := .ready) (v := s.table[i].tvalid) hi h0 (by decide)
    (fun k hk => (tickPseudocode_started (k := k) hst (by omega)).trans ?_)
    (fun k hk => (tickPseudocode_started (k := k) hst (by omega)).trans ?_) hpos _)
  · obtain ⟨hc, hel, hv, htemp, hres⟩ := conversion_fields hlt hrow
    refine ⟨t, ht, ?_, hel, hv.trans (ite_self _), htemp, hres⟩
    rw [hc, hst]
  · rw [if_neg (by omega), if_neg (fun hn => by have := hbudget hn.1; omega)]
  · rw [if_pos (by omega), hk]

/-- Settles O58: before the tick of the budget neither it nor the longer duration is reached, and in that tick the budget
alone is. -/
theorem timedOutConversion : Obligations.TimedOutConversion := by
  intro s i n hh hp hi hst h0 hu hb hlong hlt
  obtain ⟨t, ht, h⟩ := runSteps_idleFor n hh hp
  have hb0 : s.budget.toNat ≠ 0 := fun h0 => hb (BitVec.eq_of_toNat_eq h0)
  have hpos := (Nat.mul_pos (Nat.pos_of_ne_zero hb0) hu).ne'
  have hshort := Nat.mul_lt_mul_of_pos_right hlong hu
  have hrow := (h.rows i).trans (supervisedRow_conversion (c := .timedOut) (v := false) hi h0 (by decide)
    (fun k hk => (tickPseudocode_started (k := k) hst (by omega)).trans ?_)
    (fun k hk => (tickPseudocode_started (k := k) hst (by omega)).trans ?_) hpos _)
  · obtain ⟨hc, hel, hv, htemp, -⟩ := conversion_fields hlt hrow
    refine ⟨t, ht, ?_, hel, hv, htemp⟩
    rw [hc, hst]
  · rw [if_neg (by omega), if_neg (by omega)]
  · rw [if_neg (by omega), if_pos ⟨hb0, by omega⟩, hk]
end

section
/-! PROOFS. The CRC-8 step and its residue (41_crc.md R210 to R214), and the sign of a decoded temperature
(43_sensor.md R277, R278). -/

namespace Sys2Proof.Machine

/-! ### CRC-8 -/

/-- A part `c` of the CRC's register can be moved into the input: its low bit joins the input bit, and what is left is
shifted (41_crc.md R210). -/
theorem crcBit_xor (a c : Byte) (b : Bool) : crcBit (a ^^^ c) b = crcBit a (b ^^ c.getLsbD 0) ^^^ (c >>> 1) := by
  have hbit : ((a ^^^ c).getLsbD 0 ^^ b) = (a.getLsbD 0 ^^ (b ^^ c.getLsbD 0)) := by
    rw [BitVec.getLsbD_xor, Bool.xor_assoc, Bool.xor_comm b]
  unfold crcBit
  rw [hbit, BitVec.ushiftRight_xor_distrib]
  split
  · rw [BitVec.xor_assoc, BitVec.xor_assoc, BitVec.xor_comm (c >>> 1)]
  · rfl

/-- The byte step depends on the XOR of its arguments alone: all eight bits of the CRC move into the input
(41_crc.md section 1, the table form). -/
theorem crc8Step_eq (c v : Byte) : crc8Step c v = crc8Step 0 (c ^^^ v) := by
  have hgone : c >>> 1 >>> 1 >>> 1 >>> 1 >>> 1 >>> 1 >>> 1 >>> 1 = 0#8 := by
    simp only [← BitVec.shiftRight_add]
    exact BitVec.ushiftRight_eq_zero (Nat.le_refl 8)
  have h : crc8Step (0#8 ^^^ c) v = crc8Step 0#8 (c ^^^ v) := by
    unfold crc8Step
    simp only [crcBit_xor, hgone, BitVec.xor_zero, BitVec.getLsbD_ushiftRight, BitVec.getLsbD_xor, Nat.reduceAdd,
      Bool.xor_comm]
  rwa [BitVec.zero_xor] at h

theorem crc8Step_self (c : Byte) : crc8Step c c = 0 := by
  rw [crc8Step_eq, BitVec.xor_self]
  rfl

/-- Only the zero byte leaves the zero CRC at zero. -/
theorem crc8Step_zero_inj : ∀ v : Byte, crc8Step 0 v = 0 → v = 0 := by decide +kernel

theorem crc8_append (bs : List Byte) (v : Byte) : crc8 (bs ++ [v]) = crc8Step (crc8 bs) v := List.foldl_append

/-- A sequence folds to zero with one more byte exactly if that byte is its CRC (41_crc.md R213). -/
theorem crc8_append_eq_zero (bs : List Byte) (v : Byte) : crc8 (bs ++ [v]) = 0 ↔ crc8 bs = v := by
  rw [crc8_append]
  constructor
  · intro h
    rw [crc8Step_eq] at h
    exact BitVec.xor_eq_zero_iff.mp (crc8Step_zero_inj _ h)
  · rintro rfl
    exact crc8Step_self _

/-- The bytes of a frame are its body and its CRC. -/
theorem frame_toList (sp : Vector Byte 9) : sp.toList = frameBody sp ++ [sp[8]] := by
  apply List.ext_getElem
  · simp [frameBody]
  · intro i h _
    have hi : i < 9 := by simpa using h
    interval_cases i <;> rfl

/-! ### Signs -/

/-- The raw value of two bytes of a word is the word (43_sensor.md R277). -/
theorem raw_bytes (m : BitVec 16) : (m.extractLsb' 8 8).toNat * 256 + (m.extractLsb' 0 8).toNat = m.toNat := by
  rw [BitVec.extractLsb'_toNat, BitVec.extractLsb'_toNat, Nat.shiftRight_eq_div_pow, Nat.shiftRight_zero]
  have := m.isLt
  omega

/-- Decode of a word's two bytes. -/
theorem decodeCenti_word (m : BitVec 16) (b4 : Byte) : decodeCenti (m.extractLsb' 0 8) (m.extractLsb' 8 8) b4 =
    (if 32768 ≤ m.toNat then -(magnitudeCenti (65536 - m.toNat) (resolutionOfConfig b4).toNat : Int)
      else (magnitudeCenti m.toNat (resolutionOfConfig b4).toNat : Int)) := by
  simp only [decodeCenti, raw_bytes, rawMagnitude]
  split <;> rfl

/-- Ten degrees have no fraction: 1000 centidegrees at every resolution. -/
theorem magnitudeCenti_ten (r : Resolution) : magnitudeCenti 160 r.toNat = 1000 := by cases r <;> rfl

end Sys2Proof.Machine

open Sys2Proof Sys2Proof.Machine

/-- Settles O33: the residue is the step of the CRC with itself, and only the CRC itself gives it. -/
theorem crcResidue : Obligations.CrcResidue := by
  refine ⟨crc8Step_eq, fun bs => (crc8_append_eq_zero bs _).mpr rfl, fun rom => ?_, fun sp => ?_⟩
  · rw [romValid, beq_iff_eq]
    exact (crc8_append_eq_zero (romBody rom) (romByte rom 7)).symm
  · rw [frameValid, beq_iff_eq, frame_toList]
    exact (crc8_append_eq_zero (frameBody sp) sp[8]).symm

/-- Settles O53: the negated word's magnitude is the word, and the sign is applied last. -/
theorem decodeSigns : Obligations.DecodeSigns := by
  intro b4 mag h0 hlt
  have hneg : (-mag).toNat = 65536 - mag.toNat := by
    rw [BitVec.toNat_neg]
    omega
  refine ⟨?_, ?_, ?_⟩
  · exact (decodeCenti_word 0x00A0 b4).trans (congrArg Nat.cast (magnitudeCenti_ten _))
  · exact (decodeCenti_word 0xFF60 b4).trans (congrArg (fun n : Nat => -(n : Int)) (magnitudeCenti_ten _))
  · rw [decodeCenti_word, decodeCenti_word, hneg, if_pos (by omega), if_neg (by omega),
      show 65536 - (65536 - mag.toNat) = mag.toNat by omega]
end

section
/-! PROOFS. How a command ends: complete, cut by a block reset, or refused; and what the host's next act does to it in any
of its cycles (60_exceptions.md section 2, 70_reset_and_hazards.md R351, 20_memory.md R101, 10_state.md R61). -/

namespace Sys2Proof.Machine

/-- An access that is not defined is one of another width or alignment (20_memory.md R101). -/
theorem not_defined_iff (a : Access) : a.defined = false ↔ a.size ≠ 4 ∨ a.off.toNat % 4 ≠ 0 := by
  rw [Bool.eq_false_iff, ne_eq, defined_iff, not_and_or]

/-- A block reset puts everything that has a reset value at it (70_reset_and_hazards.md R350). -/
theorem blockReset_values {s v : State} (h : v.params = s.params) : blockReset v =
    { State.reset with
      params := s.params, x := (blockReset v).x, pcnt := (blockReset v).pcnt, env := (blockReset v).env } := by
  rw [← h]
  rfl

/-- The finish cycle ends with DONE set, the engine idle and the line released, whatever else happens in it
(60_exceptions.md R322). -/
theorem closeCycle_complete (code : Code) (s : State) :
    (closeCycle (complete code s)).status.busy = false ∧ (closeCycle (complete code s)).status.done = true ∧
      (closeCycle (complete code s)).seq = none ∧ (closeCycle (complete code s)).ph = .idle ∧
      (closeCycle (complete code s)).pad = false := by
  obtain ⟨r, n, he, -⟩ := closeCycle_eq (complete code s)
  rw [he]
  exact ⟨rfl, rfl, rfl, rfl, rfl⟩

/-- The state with its own host's acts. -/
theorem withHost_self {s : State} {l : List HostEvent} (h : s.env.host = l) : s.withHost l = s := by
  rw [← h]
  rfl

/-- A write to a register that R61 locks is dropped while BUSY = 1. -/
theorem lockedWrite_of_offset {p : Params} {off : Offset} (v : Word)
    (h : off = 0x000 ∨ off = 0x010 ∨ off = 0x024 ∨ off = 0x02C ∨ ∃ j : Fin 16, j.val < p.maxDevices ∧
      (off = BitVec.ofNat 9 (0x100 + 16 * j.val) ∨ off = BitVec.ofNat 9 (0x104 + 16 * j.val))) :
    LockedWrite p (.write off 4 v) := by
  have haligned : off.toNat % 4 = 0 := by
    rcases h with rfl | rfl | rfl | rfl | ⟨j, -, rfl | rfl⟩
    iterate 4 rfl
    iterate 2
      rw [BitVec.toNat_ofNat]
      omega
  have hlocked : ∃ r, regAt p.maxDevices off = some r ∧ r.locked = true := by
    rw [← or_assoc, ← or_assoc, ← or_assoc] at h
    rcases h with h | ⟨j, hj, rfl | rfl⟩
    · exact regAt_locked_low _ (by simpa only [or_assoc] using h)
    · exact ⟨_, regAt_row hj (k := 0) (.inl rfl), rfl⟩
    · exact ⟨_, regAt_row hj (k := 4) (.inr (.inl rfl)), rfl⟩
  obtain ⟨r, hr, hl⟩ := hlocked
  exact ⟨(defined_iff _).mpr ⟨rfl, haligned⟩, off, 4, v, r, rfl, hr, hl⟩

/-- A command that is started by the host's write ends in a next state, or is refused for a later access of the host's. -/
theorem runCommand_next_or_refused {body : Engine Code} (hg : Good body) (s : State) :
    (∃ t, runCommand body s = .next t) ∨ ∃ e ∈ s.env.host, ∃ b, e.act = .access b ∧
      (b.size ≠ 4 ∨ b.off.toNat % 4 ≠ 0) ∧ runCommand body s = .fault (.badAccess b.writes b.off b.size) := by
  rcases runCommand_ends hg s with ⟨code, t, h, -⟩ | ⟨t, h, -⟩ | ⟨a, h, ⟨e, he, hact⟩, hd⟩
  · exact .inl ⟨_, h⟩
  · exact .inl ⟨_, h⟩
  · exact .inr ⟨e, he, a, hact, (not_defined_iff a).mp hd, h⟩

/-- An address in the window is the offset from its base, and no other reaches the block (20_memory.md R100). -/
theorem window_access (p : Params) (off size : Nat) (v : Word) :
    (off < 512 → memRead p (p.owmBase + off) size = some (.read (BitVec.ofNat 9 off) size) ∧
      memWrite p (p.owmBase + off) size v = some (.write (BitVec.ofNat 9 off) size v)) ∧
    (512 ≤ off → memRead p (p.owmBase + off) size = none ∧ memWrite p (p.owmBase + off) size v = none) ∧
    (off < p.owmBase → memRead p off size = none ∧ memWrite p off size v = none) := by
  unfold memRead memWrite
  refine ⟨fun h => ?_, fun h => ?_, fun h => ?_⟩
  · have hin : p.owmBase ≤ p.owmBase + off ∧ p.owmBase + off < p.owmBase + 512 := by omega
    rw [if_pos hin, if_pos hin, Nat.add_sub_cancel_left]
    exact ⟨rfl, rfl⟩
  · have hout : ¬(p.owmBase ≤ p.owmBase + off ∧ p.owmBase + off < p.owmBase + 512) := by omega
    rw [if_neg hout, if_neg hout]
    exact ⟨rfl, rfl⟩
  · have hout : ¬(p.owmBase ≤ off ∧ off < p.owmBase + 512) := by omega
    rw [if_neg hout, if_neg hout]
    exact ⟨rfl, rfl⟩

/-- A step in whose cycle an access is due while no command runs (20_memory.md R101). -/
theorem step_access {s : State} {a : Access} {rest : List HostEvent} (h : s.accessNext a rest) :
    (a.defined = false → step s = refuseAccess a) ∧
    (a.defined = true → (∃ t, step s = .next t) ∨ ∃ e ∈ rest, ∃ b, e.act = .access b ∧
      (b.size ≠ 4 ∨ b.off.toNat % 4 ≠ 0) ∧ step s = .fault (.badAccess b.writes b.off b.size)) := by
  have hrest (w : Word) : (fetchCommand w s).env.host = rest := congrArg List.tail h
  have hdue := due_of_accessNext h
  refine ⟨fun hd => ?_, fun hd => ?_⟩
  · rw [hd] at hdue
    simp only [step, hdue, Bool.false_eq_true, if_false]
  · rw [if_pos hd] at hdue
    unfold step
    split at hdue
    · next w _ =>
      split at hdue
      · rw [hdue]
        exact .inl ⟨_, rfl⟩
      · rw [hdue, ← hrest w]
        simp only
        cases decode w with
        | command i =>
          simp only [exec_eq]
          exact runCommand_next_or_refused (bodyOf_good i) _
        | illegal why => exact runCommand_next_or_refused (good_pure _) _
    · rw [hdue]
      exact .inl ⟨_, rfl⟩

end Sys2Proof.Machine

open Sys2Proof Sys2Proof.Machine

/-- Settles O6: an undefined access is refused where it is due, by `step_access` between commands and by `exec_lock` in a
command. -/
theorem accessContract : Obligations.AccessContract := by
  refine ⟨window_access, fun s a rest h => ⟨fun hd => ?_, fun hd => ?_⟩, fun i s u g a rest hc hh hd he => ⟨?_, ?_⟩⟩
  · exact (step_access h).1 ((not_defined_iff a).mpr hd)
  · exact (step_access h).2 ((defined_iff a).mpr hd)
  · intro hg
    obtain ⟨-, hcut⟩ := exec_lock hc he g rest
    have hrun := ((hcut hg).2 a).1 ((not_defined_iff a).mpr hd)
    rwa [withHost_self hh] at hrun
  · intro hg
    have hrun := (exec_lock hc he g rest).1 (.access a) hg
    rwa [withHost_self hh] at hrun

/-- Settles O12: the write meets the command in one of its cycles and is dropped there. -/
theorem overrunDuringCommand : Obligations.OverrunDuringCommand := by
  intro i s u g off v hc hh hoff he hg
  obtain ⟨-, hcut⟩ := exec_lock hc he g []
  have hrun := ((hcut hg).2 _).2 (lockedWrite_of_offset v hoff) rfl
  rwa [withHost_self hh] at hrun

/-- Settles O22: the reset meets the command in one of its cycles, or finds it ended. -/
theorem resetCutsCommand : Obligations.ResetCutsCommand := by
  intro i s u g rest hc hh he
  obtain ⟨hlater, hcut⟩ := exec_lock hc he g rest
  rw [withHost_self hh] at hcut
  refine ⟨fun hg => ?_, fun hg => ?_⟩
  · obtain ⟨⟨v, hrun, hparams, hhost, hbus, w, hwave, hsuffix⟩, -⟩ := hcut hg
    exact ⟨blockReset v, hrun, blockReset_values hparams, hhost, hbus, v.now, w,
      congrArg (List.cons _) hwave, hsuffix⟩
  · have hrun := hlater .reset hg
    rwa [withHost_self hh] at hrun

/-- Settles O23: every command's pseudocode runs to its end or is cut (`runCommand_ends`). -/
theorem everyCommandEnds : Obligations.EveryCommandEnds := by
  intro i s
  rw [exec_eq]
  rcases runCommand_ends (bodyOf_good i) s with ⟨code, t, h, -⟩ | ⟨t, h, hact, u, rfl, hp⟩ | ⟨a, h, hact, hd⟩
  · exact .inl ⟨_, h, closeCycle_complete code t⟩
  · exact .inr (.inl ⟨hact, _, h, blockReset_values hp⟩)
  · exact .inr (.inr ⟨a, hact, (not_defined_iff a).mp hd, h⟩)
end

section
/-! PROOFS. The transport commands, the CRC commands, SEARCH_CLEAR, illegal words, and the refusals before any slot: each
is its pseudocode's own result put between a command's start and its finish cycle (40_transport.md R177 to R185,
41_crc.md R216, R217, 42_enumeration.md R240, 30_encoding.md R136). -/

namespace Sys2Proof.Machine

/-! ### Commands by what their pseudocode does -/

/-- A command whose pseudocode only uses the line and working registers, with whatever else `P` says of its end. -/
theorem runCommand_of_does {s : State} (hc : s.calm = true) {body : Engine Code} {code : Code} {slots : List Slot}
    {P : State → Prop} (h : ∀ t, nextTick (accept s) = .ok () t → Begun s t →
      ∃ u, body t = .ok code u ∧ Live u ∧ Does slots t u ∧ P u) :
    ∃ v u, runCommand body s = .next v ∧ Ended s v code slots ∧ Untouched s v ∧ Supervised s v ∧ Finished code u v ∧
      P u := by
  obtain ⟨t, ht, hb, hr⟩ := command_starts hc
  obtain ⟨u, hu, hl, hd, hp⟩ := h t ht hb
  obtain ⟨v, hv, hen, hun, hsu, hf⟩ := command_of_does hb (hr body) hu hl hd
  exact ⟨v, u, hv, hen, hun, hsu, hf, hp⟩

/-- A command that ends at t_s with no slot and no write. -/
theorem runCommand_of_still {s : State} (hc : s.calm = true) {body : Engine Code} {code : Code}
    (h : ∀ t, nextTick (accept s) = .ok () t → Begun s t → body t = .ok code t) :
    ∃ v, runCommand body s = .next v ∧ Ended s v code [] ∧ Untouched s v ∧ Supervised s v ∧
      v.status.presence = s.status.presence ∧ v.status.rxbit = s.status.rxbit ∧ v.x = s.startWork := by
  obtain ⟨v, u, hv, hen, hun, hsu, hf, hp, hr, hx⟩ := runCommand_of_does hc (code := code) (slots := [])
    (P := fun u => u.status.presence = s.status.presence ∧ u.status.rxbit = s.status.rxbit ∧ u.x = s.startWork)
    fun t ht hb => ⟨t, h t ht hb, hb.live, .still (.refl t) rfl rfl rfl, hb.presence, hb.rxbit, hb.x⟩
  exact ⟨v, hv, hen, hun, hsu, hf.presence.trans hp, hf.rxbit.trans hr, hf.x.trans hx⟩

/-- A command that uses the line and then writes one register of RXDATA, CRC.ACC and the session state: `u` is the state
before the write `f a`. -/
theorem runCommand_of_write {s : State} (hc : s.calm = true) {body : Engine Code} {code : Code} {slots : List Slot}
    {α : Type} {P : State → α → Prop} (f : α → State → State)
    (hf : ∀ a u, ∃ rx crc se, f a u = { u with rxdata := rx, crc := crc, session := se })
    (h : ∀ t, Begun s t → ∃ u a, body t = .ok code (f a u) ∧ Live u ∧ Does slots t u ∧ P u a) :
    ∃ v u a, runCommand body s = .next v ∧ Ended s v code slots ∧ Untouched s u ∧ Supervised s v ∧
      Finished code (f a u) v ∧ P u a := by
  obtain ⟨t, hb, hr⟩ := command_begins hc
  obtain ⟨u, a, hu, hl, hd, hp⟩ := h t hb
  have hun : Untouched s u := hb.untouched.trans (.of_keeps hd.toKeeps)
  have hsu : Supervised s u := hb.supervised.trans (.of_keeps hd.toKeeps) hb.untouched.count
    (fun q => (hb.untouched.quiet q).1) hd.cevt
  obtain ⟨rx, crc, se, he⟩ := hf a u
  have hlw : Live (f a u) := by
    rw [he]
    exact hl.of_eq rfl rfl rfl rfl
  have hline : OnLine slots t (f a u) := by
    rw [he]
    exact ⟨hd.params, hd.wave, hd.now, hd.bus⟩
  obtain ⟨v, hv, hen, hfin⟩ := command_spec hb (hr body) hu hlw hline
  have hsf : Supervised u v := by
    have hw := hfin.supervised
    rw [he] at hw
    exact hw.congr rfl rfl rfl rfl rfl fun q => q
  have hcevt : u.quiet → u.status.cevt = true → v.status.cevt = true := by
    have hw := hfin.untouched.cevt
    rw [he] at hw
    exact hw
  exact ⟨v, u, a, hv, hen, hun, hsu.trans hsf hun.count (fun q => (hun.quiet q).1) hcevt, hfin, hp⟩

/-- A command that writes CRC.ACC and does nothing else. -/
theorem runCommand_writes_crc {s : State} (hc : s.calm = true) {body : Engine Code} {c : Byte}
    (h : ∀ t : State, t.crc = s.crc → body t = .ok .ok (setCrc c t)) :
    ∃ v, runCommand body s = .next v ∧ Ended s v .ok [] ∧ v.crc = c ∧ Untouched s { v with crc := s.crc } ∧
      Supervised s v ∧ v.status.presence = s.status.presence ∧ v.status.rxbit = s.status.rxbit ∧ v.x = s.startWork := by
  obtain ⟨v, u, -, hv, hen, hun, hsu, hf, hp, hr, hx⟩ := runCommand_of_write hc (code := .ok) (slots := [])
    (P := fun u _ => u.status.presence = s.status.presence ∧ u.status.rxbit = s.status.rxbit ∧ u.x = s.startWork)
    (fun _ : Unit => setCrc c) (fun _ _ => ⟨_, _, _, rfl⟩)
    fun t hb => ⟨t, (), h t hb.untouched.crc, hb.live, .still (.refl t) rfl rfl rfl, hb.presence, hb.rxbit, hb.x⟩
  exact ⟨v, hv, hen, hf.untouched.crc, (hun.setCrc s.crc).trans (hf.untouched.setCrc s.crc), hsu, hf.presence.trans hp,
    hf.rxbit.trans hr, hf.x.trans hx⟩

/-! ### Operand checks -/

/-- A RES outside 9 to 12 is no resolution (30_encoding.md R135). -/
theorem resolutionOf_eq_none {res : BitVec 4} (h : res.toNat < 9 ∨ 12 < res.toNat) : resolutionOf res = none := by
  unfold resolutionOf
  split
  case h_5 => rfl
  all_goals omega

theorem resolutionOf_eq_some {res : BitVec 4} (h : ¬(res.toNat < 9 ∨ 12 < res.toNat)) :
    ∃ r, resolutionOf res = some r := by
  have hn : res.toNat = 9 ∨ res.toNat = 10 ∨ res.toNat = 11 ∨ res.toNat = 12 := by omega
  unfold resolutionOf
  rcases hn with hn | hn | hn | hn <;> rw [hn] <;> exact ⟨_, rfl⟩

theorem badTarget_congr {s t : State} (h : t.count = s.count) (sel : Bool) (idx : BitVec 4) :
    t.badTarget sel idx = s.badTarget sel idx := by
  rw [State.badTarget, validRow_congr h, State.badTarget]

/-- The target of a command is bad if IDX is not below COUNT (43_sensor.md R285, R300). -/
theorem badTarget_iff (s : State) (sel : Bool) (idx : BitVec 4) :
    s.badTarget sel idx = true ↔ sel = true ∧ s.count.toNat ≤ idx.toNat := by
  rw [State.badTarget, Bool.and_eq_true, Bool.not_eq_true', State.validRow, decide_eq_false_iff_not, Nat.not_lt]
  rfl

end Sys2Proof.Machine

open Sys2Proof Sys2Proof.Machine

/-- Settles O3: an illegal word's pseudocode does nothing. -/
theorem illegalWords : Obligations.IllegalWords := by
  intro s w hc hd hill
  obtain ⟨why, hw⟩ := decode_illegal hill
  have hstep : step s = runIllegal (fetchCommand w s) := by
    unfold step
    rw [hd]
    simp only [hw]
  rw [hstep]
  exact runCommand_of_still (fetchCommand_calm hc w) fun _ _ _ => rfl

/-- Settles O25: NOP's pseudocode does nothing. -/
theorem nopFinishes : Obligations.NopFinishes :=
  ⟨fun _ h => decode_of_hasFields (i := .nop) h, fun _ hc => runCommand_of_still hc fun _ _ _ => rfl⟩

/-- Settles O26: one reset slot, and the supervisor's steps of the ticks it takes. -/
theorem resetWritesPresence : Obligations.ResetWritesPresence := by
  refine ⟨fun _ h => decode_of_hasFields (i := .reset) h, fun s hc hl => ?_⟩
  obtain ⟨v, u, hv, hen, hun, hsu, hf, hp, hr, hx, hrows⟩ := runCommand_of_does hc (body := resetBody) (code := .ok)
    (slots := [.reset])
    (P := fun u => answered s.env.bus [!u.status.presence] ∧ u.status.rxbit = s.status.rxbit ∧ u.x = s.startWork ∧
      (s.quiet → Rows s (s.ticksBefore + slotTicks s.params [.reset]) u)) fun t ht hb => by
    obtain ⟨p, u, hu, hlu, hdu, hpu, hru, hxu, ha⟩ := slotReset_spec hb.live
    refine ⟨u, bind_ok hu, hlu, hdu, ?_, hru.trans hb.rxbit, hxu.trans hb.x, fun q => ?_⟩
    · rw [hb.untouched.params, hb.bus] at ha
      rw [hpu]
      exact ha (tPds_ne_zero hl)
    · exact slotReset_rows s _ t (start_rows q _ rfl _ _ ht) _ _ hu
  refine ⟨v, hv, hen, hun, hsu, ?_, hf.rxbit.trans hr, hf.x.trans hx, fun q i => ?_⟩
  · rw [hf.presence]
    exact hp
  · rw [hf.table, (hrows q).coming, Nat.add_right_comm]

/-- Settles O27: one write slot. -/
theorem writeBitSlot : Obligations.WriteBitSlot := by
  refine ⟨fun _ h => decode_of_hasFields (i := .writeBit _) ⟨h, rfl⟩, fun s data hc => ?_⟩
  obtain ⟨v, u, hv, hen, hun, hsu, hf, hp, hr, hx⟩ := runCommand_of_does hc (body := writeBitBody data) (code := .ok)
    (slots := [.write (data.getLsbD 0)])
    (P := fun u => u.status.presence = s.status.presence ∧ u.status.rxbit = s.status.rxbit ∧ u.x = s.startWork)
    fun t _ hb => by
    obtain ⟨u, hu, hlu, hdu, hpu, hru, hxu⟩ := slotWrite_spec hb.live (data.getLsbD 0)
    exact ⟨u, bind_ok hu, hlu, hdu, hpu.trans hb.presence, hru.trans hb.rxbit, hxu.trans hb.x⟩
  exact ⟨v, hv, hen, hun, hsu, hf.presence.trans hp, hf.rxbit.trans hr, hf.x.trans hx⟩

/-- Settles O28: one read slot, whose sample goes to RXBIT. -/
theorem readBitSamples : Obligations.ReadBitSamples := by
  refine ⟨fun _ h => decode_of_hasFields (i := .readBit) h, fun s hc => ?_⟩
  obtain ⟨v, u, hv, hen, hun, hsu, hf, hp, ha, hx⟩ := runCommand_of_does hc (body := readBitBody) (code := .ok)
    (slots := [.read])
    (P := fun u => u.status.presence = s.status.presence ∧
      (s.params.tRs ≠ 0 → answered s.env.bus [u.status.rxbit]) ∧ u.x = s.startWork) fun t _ hb => by
    obtain ⟨b, u, hu, hlu, hdu, hpu, hru, hxu, ha⟩ := slotReadRx_spec hb.live
    rw [hb.untouched.params, hb.bus] at ha
    exact ⟨u, bind_ok hu, hlu, hdu, hpu.trans hb.presence, by rwa [hru], hxu.trans hb.x⟩
  exact ⟨v, hv, hen, hun, hsu, hf.presence.trans hp, by rwa [hf.rxbit], hf.x.trans hx⟩

/-- Settles O29: SendByte. -/
theorem writeByteSlots : Obligations.WriteByteSlots := by
  refine ⟨fun _ h => decode_of_hasFields (i := .writeByte _) ⟨h, rfl⟩, fun s data hc => ?_⟩
  obtain ⟨v, u, hv, hen, hun, hsu, hf, hp, hr, hx⟩ := runCommand_of_does hc (body := writeByteBody data) (code := .ok)
    (slots := byteSlots data)
    (P := fun u => u.status.presence = s.status.presence ∧ u.status.rxbit = s.status.rxbit ∧
      ByteRegsOnly s.startWork u.x) fun t _ hb => by
    obtain ⟨u, hu, hlu, hdu, hpu, hru, hxu⟩ := sendByte_spec hb.live data
    rw [hb.x] at hxu
    exact ⟨u, bind_ok hu, hlu, hdu, hpu.trans hb.presence, hru.trans hb.rxbit, hxu⟩
  exact ⟨v, hv, hen, hun, hsu, hf.presence.trans hp, hf.rxbit.trans hr, by rwa [hf.x]⟩

/-- Settles O30: RecvByte, and RXDATA takes the byte. -/
theorem readByteSlots : Obligations.ReadByteSlots := by
  refine ⟨fun _ h => decode_of_hasFields (i := .readByte) h, fun s hc => ?_⟩
  obtain ⟨v, u, a, hv, hen, hun, hsu, hf, hp, hr, hx, ha⟩ := runCommand_of_write hc (body := readByteBody) (code := .ok)
    (slots := readSlots 8)
    (P := fun u a => u.status.presence = s.status.presence ∧ u.status.rxbit = s.status.rxbit ∧
      ByteRegsOnly s.startWork u.x ∧ (s.params.tRs ≠ 0 → answered s.env.bus (byteBits a)))
    setRxdata (fun _ _ => ⟨_, _, _, rfl⟩) fun t hb => by
    obtain ⟨bits, u, hu, hlu, hdu, hlen, hpu, hru, hxu, ha⟩ := recvByte_spec hb.live
    rw [hb.untouched.params, hb.bus, ← byteBits_byteOfBits hlen] at ha
    rw [hb.x] at hxu
    exact ⟨u, byteOfBits bits, bind_ok hu, hlu, hdu, hpu.trans hb.presence, hru.trans hb.rxbit, hxu, ha⟩
  have hrx : v.rxdata = a := hf.untouched.rxdata
  refine ⟨v, hv, hen, (hun.setRxdata s.rxdata).trans (hf.untouched.setRxdata s.rxdata), hsu, ?_, hf.presence.trans hp,
    hf.rxbit.trans hr, by rw [hf.x]; exact hx⟩
  rw [hrx]
  exact ha

/-- Settles O31: ACC is written. -/
theorem crcClearZeroes : Obligations.CrcClearZeroes := by
  refine ⟨fun _ h => decode_of_hasFields (i := .crcClear) h, fun s hc => ?_⟩
  obtain ⟨v, hv, hen, hcrc, hrest⟩ := runCommand_writes_crc hc (body := crcClearBody) (c := 0) fun _ _ => rfl
  exact ⟨v, hv, hcrc, hen, hrest⟩

/-- Settles O32: ACC is written with the byte step of its value at acceptance. -/
theorem crcByteFolds : Obligations.CrcByteFolds := by
  refine ⟨fun _ h => decode_of_hasFields (i := .crcByte _) ⟨h, rfl⟩, fun s data hc => ?_⟩
  obtain ⟨v, hv, hen, hcrc, hrest⟩ := runCommand_writes_crc hc (body := crcByteBody data) (c := crc8Step s.crc data)
    fun t ht => by
      rw [← ht]
      rfl
  exact ⟨v, hv, hcrc, hen, hrest⟩

/-- Settles O34: the session state is written. -/
theorem searchClearSession : Obligations.SearchClearSession := by
  refine ⟨fun _ h => decode_of_hasFields (i := .searchClear) h, fun s hc => ?_⟩
  obtain ⟨v, u, -, hv, hen, hun, hsu, hf, hp, hr, hx⟩ := runCommand_of_write hc (body := searchClearBody) (code := .ok)
    (slots := [])
    (P := fun u _ => u.status.presence = s.status.presence ∧ u.status.rxbit = s.status.rxbit ∧ u.x = s.startWork)
    (fun _ : Unit => clearSession) (fun _ _ => ⟨_, _, _, rfl⟩)
    fun t hb => ⟨t, (), rfl, hb.live, .still (.refl t) rfl rfl rfl, hb.presence, hb.rxbit, hb.x⟩
  have hse : v.session = .clear := hf.untouched.session
  refine ⟨v, hv, by rw [hse]; rfl, by rw [hse]; rfl, by rw [hse]; rfl, by rw [hse]; rfl, hen,
    (hun.setSession s.session).trans (hf.untouched.setSession s.session), hsu, hf.presence.trans hp, hf.rxbit.trans hr,
    hf.x.trans hx⟩

/-- Settles O35: where LDF = 1 the search step does nothing. -/
theorem searchNextComplete : Obligations.SearchNextComplete := by
  intro s hc hl
  exact runCommand_of_still hc fun t _ hb => searchStep_complete (by rw [hb.untouched.session]; exact hl)

/-- Settles O49: the resolution is checked first, then the index (60_exceptions.md R323). -/
theorem configureRefuses : Obligations.ConfigureRefuses := by
  intro s sel idx res hc h
  refine runCommand_of_still hc fun t _ hb => ?_
  by_cases hres : res.toNat < 9 ∨ 12 < res.toNat
  · rw [if_pos hres, configureBody, resolutionOf_eq_none hres]
    rfl
  · obtain ⟨r, hr⟩ := resolutionOf_eq_some hres
    have hbad : t.badTarget sel idx = true := by
      obtain ⟨hsel, hidx⟩ := (h.resolve_left fun hn => hres (.inl hn)).resolve_left fun hn => hres (.inr hn)
      rw [badTarget_congr hb.untouched.count]
      exact (badTarget_iff s sel idx).mpr ⟨hsel, hidx⟩
    rw [if_neg hres, configureBody, hr]
    exact (bind_ok (get_ok t)).trans (by rw [if_pos hbad]; rfl)
end

section
/-! PROOFS. SEARCH_NEXT and SEARCH_FIRST: the ends of a search step as whole commands, on a bus of devices and in the
order of discovery (42_enumeration.md R233 to R242, R251). -/

namespace Sys2Proof.Machine

/-- What SEARCH_NEXT leaves: the end of the command, the session state `se`, the presence `p`, and the rest as time left
it (42_enumeration.md R241). -/
structure SearchEnds (code : Code) (slots : List Slot) (se : Session) (p : Bool) (s t : State) : Prop where
  ended : Ended s t code slots
  session : t.session = se
  presence : t.status.presence = p
  untouched : Untouched s { t with session := s.session }
  supervised : Supervised s t
  rxbit : t.status.rxbit = s.status.rxbit
  x : SearchRegsOnly s.startWork t.x

/-- SEARCH_NEXT by what its search step does. -/
theorem searchNext_of_step {s : State} (hc : s.calm = true) {code : Code} {slots : List Slot} {se : Session} {p : Bool}
    (h : ∀ t, Begun s t → ∃ u, searchStep t = .ok code u ∧ Searched slots se p t u) :
    ∃ v, exec .searchNext s = .next v ∧ SearchEnds code slots se p s v := by
  obtain ⟨t, hb, hr⟩ := command_begins hc
  obtain ⟨u, hu, hs⟩ := h t hb
  obtain ⟨v, hv, hen, hse, hp, hun, hsu, hrx, hx⟩ := command_of_search hb (hr searchNextBody) hu hs
  exact ⟨v, hv, hen, hse, hp, hun, hsu, hrx, hx⟩

/-- SEARCH_NEXT where the directions lead to the device `d` (42_enumeration.md R233). -/
theorem searchNext_found {s : State} {ds : List Ident} {d : Ident} {rest : List Bool} (hs : s.Undisturbed)
    (hl : s.session.ldf = false) (hf : FollowsTo 64 ds s.session d)
    (hbus : s.env.bus = false :: searchBits ds d 64 1 ++ rest) :
    ∃ v, exec .searchNext s = .next v ∧ SearchEnds (if romValid d then .ok else .crcMismatch) (searchSlots d)
      (if romValid d then afterFound ds s.session d else .clear) true s v := by
  refine searchNext_of_step hs.calm fun t hb => ?_
  have hse := hb.untouched.session
  rw [← hse] at hf hl ⊢
  exact searchStep_found hb.live (by rw [hb.untouched.params]; exact tPds_ne_zero hs.legal)
    (by rw [hb.untouched.params]; exact hs.samples) hl hf rest (by rw [hb.bus, hbus])

/-- A command whose start tick comes. -/
theorem runCommand_of_ok {s t : State} (h : nextTick (accept s) = .ok () t) (body : Engine Code) :
    runCommand body s = landed (body t) := by
  unfold runCommand
  rw [bind_ok h]
  cases body t with
  | ok code u => rfl
  | error c u => cases c <;> rfl

/-- A command that is cut before its start tick, whatever its pseudocode is. -/
theorem runCommand_of_error {s t : State} {c : Cut} (h : nextTick (accept s) = .error c t) (body : Engine Code) :
    runCommand body s = landed (.error c t) := by
  unfold runCommand
  rw [bind_error h]
  cases c <;> rfl

/-- LDF is set by the search step that finds `d` exactly if `d` is the last device of the order (42_enumeration.md R251). -/
theorem afterFound_ldf_iff {pre post : List Ident} {d : Ident} (se : Session)
    (h : (pre ++ d :: post).Pairwise comesBefore) :
    (afterFound (pre ++ d :: post) se d).ldf = true ↔ post = [] := by
  rw [afterFound, beq_iff_eq]
  cases post with
  | nil => exact ⟨fun _ => rfl, fun _ => lastZero_last h⟩
  | cons e post => exact ⟨fun h0 => absurd h0 (follows_next se h).1, nofun⟩

end Sys2Proof.Machine

open Sys2Proof Sys2Proof.Machine

/-- Settles O36: the search step ends at its reset slot. -/
theorem searchNextAbsent : Obligations.SearchNextAbsent := by
  intro s rest hs hl hbus
  obtain ⟨v, hv, h⟩ := searchNext_of_step hs.calm fun t hb =>
    searchStep_absent hb.live (by rw [hb.untouched.params]; exact tPds_ne_zero hs.legal)
      (by rw [hb.untouched.session]; exact hl) rest (by rw [hb.bus, hbus])
  exact ⟨v, hv, h.ended, h.session, h.presence, h.untouched, h.supervised, h.rxbit, h.x⟩

/-- Settles O37: the search step ends at position n + 1. -/
theorem searchNextCollision : Obligations.SearchNextCollision := by
  intro s ds d n rest hs hl hn hf hbus
  obtain ⟨v, hv, h⟩ := searchNext_of_step hs.calm fun t hb =>
    searchStep_collision hn hb.live (by rw [hb.untouched.params]; exact tPds_ne_zero hs.legal)
      (by rw [hb.untouched.params]; exact hs.samples) (by rw [hb.untouched.session]; exact hl)
      (by rw [hb.untouched.session]; exact hf) rest (by rw [hb.bus, hbus])
  exact ⟨v, hv, h.ended, h.session, h.presence, h.untouched, h.supervised, h.rxbit, h.x⟩

/-- Settles O38: the search step reads all 64 positions and the CRC decides. -/
theorem searchNextFinds : Obligations.SearchNextFinds := by
  intro s ds d rest hs hl hf hbus
  obtain ⟨v, hv, h⟩ := searchNext_found hs hl hf hbus
  exact ⟨v, hv, h.ended, h.session, h.presence, h.untouched, h.supervised, h.rxbit, h.x⟩

/-- Settles O39: after `c` the directions lead to the next device of the order (`follows_next`). -/
theorem searchNextAdvances : Obligations.SearchNextAdvances := by
  intro s pre post c d se rest hs hasc hd hse hbus
  obtain ⟨hnotlast, hfollows⟩ := follows_next se hasc
  rw [← hse] at hfollows
  have hl : s.session.ldf = false := by
    rw [hse]
    exact beq_false_of_ne hnotlast
  obtain ⟨v, hv, h⟩ := searchNext_found hs hl hfollows hbus
  have hses := h.session
  rw [if_pos hd] at hses
  refine ⟨v, hv, ?_, by rw [hses]; rfl, ?_⟩
  · have hen := h.ended
    rwa [if_pos hd] at hen
  · have hsplit : pre ++ c :: d :: post = (pre ++ [c]) ++ d :: post := by simp
    rw [hses, hsplit]
    rw [hsplit] at hasc
    exact afterFound_ldf_iff s.session hasc

/-- Settles O40: the host cannot see the session state before the search step begins (`nextTick_session`). -/
theorem searchFirstIsClearNext : Obligations.SearchFirstIsClearNext := by
  intro s
  have htick : nextTick (accept { s with session := ⟨0, 0, false, 0⟩ }) = mapOk clearSession (nextTick (accept s)) :=
    nextTick_session (accept s) ⟨0, 0, false, 0⟩ rfl
  rw [exec_eq, exec_eq]
  cases hn : nextTick (accept s) with
  | ok a t =>
    rw [hn] at htick
    rw [runCommand_of_ok hn, runCommand_of_ok htick]
    rfl
  | error c t =>
    rw [hn] at htick
    cases c with
    | reset => rw [runCommand_of_error hn, runCommand_of_error htick]
    | bad a => rw [runCommand_of_error hn, runCommand_of_error htick]; rfl

/-- Settles O41: SEARCH_FIRST is SEARCH_NEXT on a cleared session, whose directions lead to the first device
(`follows_first`). -/
theorem searchFirstFinds : Obligations.SearchFirstFinds := by
  intro s d post rest hs hasc hd hbus
  obtain ⟨v, hv, h⟩ := searchNext_found (s := { s with session := .clear }) ⟨hs.calm, hs.legal, hs.samples⟩ rfl
    (follows_first hasc) hbus
  rw [if_pos hd, if_pos hd] at h
  obtain ⟨hbusy, hdone, herr, hseq, hph, hpad, hnow, hwave, hb⟩ := h.ended
  refine ⟨v, (searchFirstIsClearNext s).trans hv, ⟨hbusy, hdone, herr, hseq, hph, hpad, hnow, hwave, hb⟩,
    by rw [h.session]; rfl, ?_, h.presence, h.untouched.setSession s.session,
    h.supervised.congr rfl rfl rfl rfl rfl fun q => q, h.rxbit, h.x⟩
  rw [h.session]
  exact afterFound_ldf_iff (pre := []) .clear hasc
end

section
/-! PROOFS. Which commands write what, over every command and every outcome of it that nothing cuts: the registers
(10_state.md sections 2 and 4) and the entries of the device table (43_sensor.md sections 1 and 4). -/

namespace Sys2Proof.Machine

/-! ### Registers -/

/-- `f` is a register that only a command's own writes to it can change: neither time, the line and the registers they
use, nor a command's writes of the table, of STATUS and of its counters. -/
structure Register {α : Type} (f : State → α) : Prop where
  carried : ∀ s t, Carries s t → f t = f s
  unseen : ∀ (s : State) table status seq ph pad env lz lf pass k, f { s with
    table := table, status := status, seq := seq, ph := ph, pad := pad, env := env
    x := { s.x with lastzero := lz, lfdw := lf, pass := pass, k := k } } = f s

/-- The command `i` does not write RXDATA, CRC.ACC, the session state, or COUNT and ENUMSTAT, or the register `f` is
another. -/
structure Spares {α : Type} (f : State → α) (i : Instr) : Prop where
  rxdata : i = .readByte → ∀ s v, f (setRxdata v s) = f s
  crc : i = .crcClear ∨ (∃ data, i = .crcByte data) → ∀ s v, f (setCrc v s) = f s
  session : i = .searchClear ∨ i = .searchNext ∨ i = .searchFirst ∨ i = .enumerate →
    ∀ (s : State) se, f { s with session := se } = f s
  enumstat : i = .enumerate → ∀ (s : State) c e, f { s with count := c, enumstat := e } = f s

section
variable {α : Type} {f : State → α} {v : α}

/-- A write of the session state by a search. -/
theorem Register.search (hf : Register f) (hs : ∀ (s : State) se, f { s with session := se } = f s) (s : State)
    (se : Session) (lz : BitVec 7) (lf : BitVec 4) (h : Live s ∧ f s = v) :
    Live { s with session := se, x := { s.x with lastzero := lz, lfdw := lf } } ∧
      f { s with session := se, x := { s.x with lastzero := lz, lfdw := lf } } = v :=
  ⟨h.1.of_eq rfl rfl rfl rfl,
    (hf.unseen { s with session := se } s.table s.status s.seq s.ph s.pad s.env lz lf s.x.pass s.x.k).trans
      ((hs s se).trans h.2)⟩

/-- A write of the device table and of STATUS. -/
theorem Register.rows (hf : Register f) (s : State) (table : Vector Entry 16) (status : Status) :
    f { s with table := table, status := status } = f s :=
  hf.unseen s table status s.seq s.ph s.pad s.env s.x.lastzero s.x.lfdw s.x.pass s.x.k

/-- A command's own writes leave a register it spares. -/
theorem Spares.mayWrite (hf : Register f) {i : Instr} (h : Spares f i) : MayWrite (fun s => Live s ∧ f s = v) i := by
  cases i with
  | readByte => exact fun s r hs => ⟨hs.1.of_eq rfl rfl rfl rfl, (h.rxdata rfl s r).trans hs.2⟩
  | crcClear => exact fun s c hs => ⟨hs.1.of_eq rfl rfl rfl rfl, (h.crc (.inl rfl) s c).trans hs.2⟩
  | crcByte data => exact fun s c hs => ⟨hs.1.of_eq rfl rfl rfl rfl, (h.crc (.inr ⟨data, rfl⟩) s c).trans hs.2⟩
  | searchClear => exact hf.search (h.session (.inl rfl))
  | searchNext => exact hf.search (h.session (.inr (.inl rfl)))
  | searchFirst => exact hf.search (h.session (.inr (.inr (.inl rfl))))
  | enumerate =>
    refine ⟨hf.search (h.session (.inr (.inr (.inr rfl)))), fun s pass k hs => ⟨hs.1.of_eq rfl rfl rfl rfl, ?_⟩,
      fun s j e hs => ⟨hs.1.freshRow j e, (hf.rows s _ s.status).trans hs.2⟩⟩
    exact (hf.unseen s s.table s.status s.seq s.ph s.pad s.env s.x.lastzero s.x.lfdw pass k).trans hs.2
  | convert sel idx => exact fun s hs => ⟨hs.1.startTargets sel idx, (hf.rows s _ s.status).trans hs.2⟩
  | convPoll => exact fun s hs => ⟨hs.1.pollReady, (hf.rows s _ _).trans hs.2⟩
  | readTemp sel idx => exact fun s hs => ⟨hs.1.storeReading idx, (hf.rows s _ s.status).trans hs.2⟩
  | configure sel idx res => exact fun s r hs => ⟨hs.1.setTargetsRes sel idx r, (hf.rows s _ s.status).trans hs.2⟩
  | nop | reset | writeBit | readBit | writeByte => trivial

/-- The finish cycle leaves a register. -/
theorem Register.finish (hf : Register f) (code : Code) (u : State) : f (closeCycle (complete code u)) = f u := by
  obtain ⟨r, n, he, -⟩ := closeCycle_eq (complete code u)
  rw [he]
  exact hf.unseen u _ _ _ _ _ _ u.x.lastzero u.x.lfdw u.x.pass u.x.k

/-- A command that nothing cuts leaves a register it spares as it was at the command's start. -/
theorem exec_register (hf : Register f) {i : Instr} (h : Spares f i) {s t : State} (hc : s.calm = true)
    (he : exec i s = .next t) (hb : ∀ b, Begun s b → f b = v) : f t = v := by
  obtain ⟨code, u, rfl, hu⟩ := exec_keeps (R := fun s => f s = v) (fun s t _ k hs => (hf.carried s t k).trans hs) i
    (h.mayWrite hf) hc he fun b _ => hb b
  rw [hf.finish]
  rcases hu with hu | ⟨hi, c, e, tr, u', hu', rfl⟩
  · exact hu.2
  · exact (h.enumstat hi u' c _).trans hu'.2

end

/-- A register that no command writes. -/
theorem Spares.of_all {α : Type} {f : State → α} {i : Instr} (h1 : ∀ s v, f (setRxdata v s) = f s)
    (h2 : ∀ s v, f (setCrc v s) = f s) (h3 : ∀ (s : State) se, f { s with session := se } = f s)
    (h4 : ∀ (s : State) c e, f { s with count := c, enumstat := e } = f s) : Spares f i :=
  ⟨fun _ => h1, fun _ => h2, fun _ => h3, fun _ => h4⟩

/-! ### Entries -/

/-- Time can only take the validity of a reading away (43_sensor.md R271). -/
theorem RowPasses.tvalid {v : Bool} {e e' : Entry} (h : RowPasses v e e') (ht : e'.tvalid = true) : e.tvalid = true := by
  by_cases hc : e'.cstate = .timedOut
  · rcases h.invalidated hc with he | he
    · rw [← (h.held (.inl (by rw [he]; decide))).2.1]
      exact ht
    · rw [he] at ht
      cases ht
  · rw [← h.kept hc]
    exact ht

/-- `e'` is the entry `e` of the same device, and not out of a state in which the supervisor leaves it. -/
def SameDevice (e e' : Entry) : Prop := e'.rom = e.rom ∧ (e.cstate ≠ .started → e'.cstate = e.cstate)

/-- `e'` has the reading of `e`, if a valid one at all. -/
def SameReading (e e' : Entry) : Prop := e'.temp = e.temp ∧ (e'.tvalid = true → e.tvalid = true)

theorem SameDevice.passes {v : Bool} {a b c : Entry} (h : SameDevice a b) (k : RowPasses v b c) : SameDevice a c :=
  ⟨k.rom.trans h.1, fun hs => (k.held (.inl (by rw [h.2 hs]; exact hs))).1.trans (h.2 hs)⟩

theorem SameReading.passes {v : Bool} {a b c : Entry} (h : SameReading a b) (k : RowPasses v b c) : SameReading a c :=
  ⟨k.temp.trans h.1, fun ht => h.2 (k.tvalid ht)⟩

/-- CONV_POLL leaves ROM, the readings and every entry that is not started (43_sensor.md R291). -/
theorem pollReady_row (s : State) (j : Fin 16) : (pollReady s).table[j].rom = s.table[j].rom ∧
    (pollReady s).table[j].temp = s.table[j].temp ∧ (pollReady s).table[j].tvalid = s.table[j].tvalid ∧
    (s.table[j].cstate ≠ .started → (pollReady s).table[j].cstate = s.table[j].cstate) := by
  rw [pollReady_table, mapTable_get]
  split
  · next h =>
    rw [State.startedRow, Bool.and_eq_true, beq_iff_eq] at h
    exact ⟨rfl, rfl, rfl, fun hn => absurd h.2 hn⟩
  · exact ⟨rfl, rfl, rfl, fun _ => rfl⟩

/-- CONFIGURE writes nothing of an entry but RES (43_sensor.md R300). -/
theorem setTargetsRes_row (sel : Bool) (idx : BitVec 4) (r : Resolution) (s : State) (j : Fin 16) :
    ∃ res, (setTargetsRes sel idx r s).table[j] = { s.table[j] with res := res } := by
  rw [setTargetsRes_table, mapTable_get]
  split
  · exact ⟨r, rfl⟩
  · exact ⟨s.table[j].res, rfl⟩

/-- READ_TEMP writes neither ROM nor CSTATE (43_sensor.md R296). -/
theorem storeReading_row (idx : BitVec 4) (s : State) (j : Fin 16) :
    ∃ temp tvalid res, (storeReading idx s).table[j] = { s.table[j] with temp := temp, tvalid := tvalid, res := res } := by
  rw [storeReading_table, set_get]
  split
  · next h =>
    subst h
    exact ⟨_, _, _, rfl⟩
  · exact ⟨_, _, _, rfl⟩

/-- What a command other than CONVERT and ENUMERATE writes of row `j` leaves its device. -/
theorem mayWrite_sameDevice {i : Instr} (h1 : ∀ sel idx, i ≠ .convert sel idx) (h2 : i ≠ .enumerate) (e : Entry)
    (j : Fin 16) : MayWrite (fun s => Live s ∧ SameDevice e s.table[j]) i := by
  cases i with
  | convert sel idx => exact absurd rfl (h1 sel idx)
  | enumerate => exact absurd rfl h2
  | readByte | crcClear | crcByte data => exact fun s v h => ⟨h.1.of_eq rfl rfl rfl rfl, h.2⟩
  | searchClear | searchNext | searchFirst => exact fun s se lz lf h => ⟨h.1.of_eq rfl rfl rfl rfl, h.2⟩
  | convPoll =>
    intro s ⟨hl, hrom, hcs⟩
    obtain ⟨prom, -, -, pcs⟩ := pollReady_row s j
    exact ⟨hl.pollReady, prom.trans hrom, fun hn => (pcs (by rw [hcs hn]; exact hn)).trans (hcs hn)⟩
  | readTemp sel idx =>
    intro s ⟨hl, hd⟩
    obtain ⟨_, _, _, hrow⟩ := storeReading_row idx s j
    exact ⟨hl.storeReading idx, by rw [hrow]; exact hd⟩
  | configure sel idx res =>
    intro s r ⟨hl, hd⟩
    obtain ⟨_, hrow⟩ := setTargetsRes_row sel idx r s j
    exact ⟨hl.setTargetsRes sel idx r, by rw [hrow]; exact hd⟩
  | nop | reset | writeBit | readBit | writeByte => trivial

/-- What a command other than CONVERT, ENUMERATE and READ_TEMP writes of row `j` leaves its reading. -/
theorem mayWrite_sameReading {i : Instr} (h1 : ∀ sel idx, i ≠ .convert sel idx) (h2 : i ≠ .enumerate)
    (h3 : ∀ sel idx, i ≠ .readTemp sel idx) (e : Entry) (j : Fin 16) :
    MayWrite (fun s => Live s ∧ SameReading e s.table[j]) i := by
  cases i with
  | convert sel idx => exact absurd rfl (h1 sel idx)
  | readTemp sel idx => exact absurd rfl (h3 sel idx)
  | enumerate => exact absurd rfl h2
  | readByte | crcClear | crcByte data => exact fun s v h => ⟨h.1.of_eq rfl rfl rfl rfl, h.2⟩
  | searchClear | searchNext | searchFirst => exact fun s se lz lf h => ⟨h.1.of_eq rfl rfl rfl rfl, h.2⟩
  | convPoll =>
    intro s ⟨hl, htemp, htv⟩
    obtain ⟨-, ptemp, ptv, -⟩ := pollReady_row s j
    exact ⟨hl.pollReady, ptemp.trans htemp, fun h => htv (ptv.symm.trans h)⟩
  | configure sel idx res =>
    intro s r ⟨hl, hd⟩
    obtain ⟨_, hrow⟩ := setTargetsRes_row sel idx r s j
    exact ⟨hl.setTargetsRes sel idx r, by rw [hrow]; exact hd⟩
  | nop | reset | writeBit | readBit | writeByte => trivial

/-- A READ_TEMP that does not end with OK writes nothing that time and the line do not (43_sensor.md R296). -/
theorem readTempBody_fails {P : State → Prop} (h : Stable P) (sel : Bool) (idx : BitVec 4) :
    Triple P (readTempBody sel idx) fun code t => code ≠ .ok → P t := by
  refine triple_bind (R := fun _ => P) (triple_get fun _ hs => hs) fun s => ?_
  refine triple_ite (fun _ => triple_pure fun _ hs _ => hs) fun _ => ?_
  refine triple_ite (fun _ => triple_pure fun _ hs _ => hs) fun _ => ?_
  refine triple_bind (slotReset_keeps h) fun present => triple_ite (fun _ => triple_pure fun _ hs _ => hs) fun _ => ?_
  refine triple_bind (select_keeps h sel idx) fun _ => triple_bind (readFrame_keeps h) fun _ => ?_
  refine triple_bind (checkFrame_keeps h) fun good => triple_ite (fun _ => triple_pure fun _ hs _ => hs) fun _ => ?_
  exact triple_bind (R := fun _ _ => True) (triple_modify fun _ _ => trivial) fun _ => triple_pure fun _ _ hn => absurd rfl hn

/-- A command that nothing cuts ends in its finish cycle, with what its pseudocode establishes. -/
theorem exec_ends {i : Instr} {s t : State} (hc : s.calm = true) (he : exec i s = .next t) {Q : Code → State → Prop}
    (h : ∀ b, Begun s b → ∀ code u, bodyOf i b = .ok code u → Q code u) :
    ∃ code u, t = closeCycle (complete code u) ∧ Q code u := by
  obtain ⟨b, hb, hr⟩ := command_begins hc
  rw [exec_eq, hr] at he
  have hgood := bodyOf_good i b hb.live.busy
  cases hm : bodyOf i b with
  | ok code u =>
    rw [hm] at he
    cases he
    exact ⟨code, u, rfl, h b hb code u hm⟩
  | error c u =>
    rw [hm] at hgood
    exact absurd hb.live.calm (Bool.eq_false_iff.mp hgood.not_calm)

/-- The finish cycle writes the code to ERR (60_exceptions.md R322). -/
theorem closeCycle_complete_err (code : Code) (s : State) : (closeCycle (complete code s)).status.err = code := by
  obtain ⟨r, n, he, -⟩ := closeCycle_eq (complete code s)
  rw [he]
  rfl

/-- A row at the end of a command, from the row its pseudocode leaves: the finish tick's step of the supervisor. -/
theorem finish_row {u : State} (h : Live u) (code : Code) (j : Fin 16) :
    RowPasses (u.validRow j) u.table[j] (closeCycle (complete code u)).table[j] := by
  rw [(finish_spec h code).table]
  exact h.settle_passes j

/-- The device of row `j` over a command other than CONVERT and ENUMERATE. -/
theorem exec_sameDevice {i : Instr} {s t : State} (hc : s.calm = true) (he : exec i s = .next t)
    (h1 : ∀ sel idx, i ≠ .convert sel idx) (h2 : i ≠ .enumerate) (j : Fin 16) : SameDevice s.table[j] t.table[j] := by
  obtain ⟨code, u, rfl, hu⟩ := exec_keeps (R := fun u => SameDevice s.table[j] u.table[j])
    (fun _ _ _ k hs => hs.passes (k.rows j)) i (mayWrite_sameDevice h1 h2 _ j) hc he
    fun b _ hb => SameDevice.passes ⟨rfl, fun _ => rfl⟩ (hb.supervised.rows j)
  rcases hu with ⟨hl, hd⟩ | ⟨hi, -⟩
  · exact hd.passes (finish_row hl code j)
  · exact absurd hi h2

/-- The reading of row `j` over a command other than CONVERT and ENUMERATE that is no READ_TEMP that ended with OK. -/
theorem exec_sameReading {i : Instr} {s t : State} (hc : s.calm = true) (he : exec i s = .next t)
    (h1 : ∀ sel idx, i ≠ .convert sel idx) (h2 : i ≠ .enumerate)
    (h3 : (∀ sel idx, i ≠ .readTemp sel idx) ∨ t.status.err ≠ .ok) (j : Fin 16) :
    SameReading s.table[j] t.table[j] := by
  have hstable : Stable fun u => Live u ∧ SameReading s.table[j] u.table[j] :=
    live_stable fun _ _ _ k hs => hs.passes (k.rows j)
  obtain ⟨code, u, rfl, hu⟩ := exec_ends hc he
    (Q := fun code u => (∀ sel idx, i ≠ .readTemp sel idx) ∨ code ≠ .ok → Live u ∧ SameReading s.table[j] u.table[j])
    fun b hb code u hm hcond => by
    have hstart : Live b ∧ SameReading s.table[j] b.table[j] :=
      ⟨hb.live, SameReading.passes ⟨rfl, fun h => h⟩ (hb.supervised.rows j)⟩
    by_cases hi : ∀ sel idx, i ≠ .readTemp sel idx
    · rcases body_keeps hstable i (mayWrite_sameReading h1 h2 hi _ j) b hstart code u hm with hu | ⟨he, -⟩
      · exact hu
      · exact absurd he h2
    · simp only [ne_eq, not_forall, not_not] at hi
      obtain ⟨sel, idx, rfl⟩ := hi
      exact readTempBody_fails hstable sel idx b hstart code u hm (hcond.resolve_left fun hn => hn sel idx rfl)
  rw [closeCycle_complete_err] at h3
  obtain ⟨hl, hd⟩ := hu h3
  exact hd.passes (finish_row hl code j)

end Sys2Proof.Machine

open Sys2Proof Sys2Proof.Machine

/-- Settles O59: each register is one that only the named commands' own writes reach. -/
theorem registerWriters : Obligations.RegisterWriters := by
  intro i s t hc he
  refine ⟨fun h1 => ?_, fun h1 h2 => ?_, fun h1 => ⟨?_, ?_⟩, fun h1 h2 h3 h4 => ?_, ?_, ?_, ?_, ?_⟩
  · exact exec_register (f := State.rxdata) ⟨fun _ _ k => k.rxdata, fun _ _ _ _ _ _ _ _ _ _ _ => rfl⟩
      ⟨fun hi => absurd hi h1, fun _ _ _ => rfl, fun _ _ _ => rfl, fun _ _ _ _ => rfl⟩ hc he
      fun _ hb => hb.untouched.rxdata
  · exact exec_register (f := State.crc) ⟨fun _ _ k => k.crc, fun _ _ _ _ _ _ _ _ _ _ _ => rfl⟩
      ⟨fun _ _ _ => rfl, fun hi => absurd hi (not_or.mpr ⟨h1, fun ⟨d, hd⟩ => h2 d hd⟩), fun _ _ _ => rfl,
        fun _ _ _ _ => rfl⟩ hc he fun _ hb => hb.untouched.crc
  · exact exec_register (f := State.count) ⟨fun _ _ k => k.count, fun _ _ _ _ _ _ _ _ _ _ _ => rfl⟩
      ⟨fun _ _ _ => rfl, fun _ _ _ => rfl, fun _ _ _ => rfl, fun hi => absurd hi h1⟩ hc he
      fun _ hb => hb.untouched.count
  · exact exec_register (f := State.enumstat) ⟨fun _ _ k => k.enumstat, fun _ _ _ _ _ _ _ _ _ _ _ => rfl⟩
      ⟨fun _ _ _ => rfl, fun _ _ _ => rfl, fun _ _ _ => rfl, fun hi => absurd hi h1⟩ hc he
      fun _ hb => hb.untouched.enumstat
  · exact exec_register (f := State.session) ⟨fun _ _ k => k.session, fun _ _ _ _ _ _ _ _ _ _ _ => rfl⟩
      ⟨fun _ _ _ => rfl, fun _ _ _ => rfl, fun hi => absurd hi (by simp [h1, h2, h3, h4]), fun _ _ _ _ => rfl⟩ hc he
      fun _ hb => hb.untouched.session
  · exact exec_register (f := State.alarm) ⟨fun _ _ k => k.alarm, fun _ _ _ _ _ _ _ _ _ _ _ => rfl⟩
      (.of_all (fun _ _ => rfl) (fun _ _ => rfl) (fun _ _ => rfl) fun _ _ _ => rfl) hc he fun _ hb => hb.untouched.alarm
  · exact exec_register (f := State.params) ⟨fun _ _ k => k.params, fun _ _ _ _ _ _ _ _ _ _ _ => rfl⟩
      (.of_all (fun _ _ => rfl) (fun _ _ => rfl) (fun _ _ => rfl) fun _ _ _ => rfl) hc he fun _ hb => hb.untouched.params
  · exact exec_register (f := fun s => s.x.cmdw) ⟨fun _ _ k => k.cmdw, fun _ _ _ _ _ _ _ _ _ _ _ => rfl⟩
      (.of_all (fun _ _ => rfl) (fun _ _ => rfl) (fun _ _ => rfl) fun _ _ _ => rfl) hc he fun _ hb => by rw [hb.x]; rfl
  · exact exec_register (f := fun s => s.x.alw) ⟨fun _ _ k => k.alw, fun _ _ _ _ _ _ _ _ _ _ _ => rfl⟩
      (.of_all (fun _ _ => rfl) (fun _ _ => rfl) (fun _ _ => rfl) fun _ _ _ => rfl) hc he fun _ hb => by rw [hb.x]; rfl

/-- Settles O60: time, the line and the writes of these commands leave the device of a row, and all but a READ_TEMP that
ends with OK leave its reading. -/
theorem entryWriters : Obligations.EntryWriters := by
  intro i s t j hc he h1 h2
  obtain ⟨hrom, hcs⟩ := exec_sameDevice hc he h1 h2 j
  exact ⟨hrom, hcs, fun h3 => exec_sameReading hc he h1 h2 h3 j⟩
end

section
/-! PROOFS. The sensor commands: CONVERT, CONV_POLL, READ_TEMP and CONFIGURE as whole commands (43_sensor.md R285 to
R301). -/

namespace Sys2Proof.Machine

/-! ### Reset slot, selection and frame -/

/-- Between `s` and `t` a command has put the slots `slots` on the line; `p` is the last presence sampled. -/
structure Led (slots : List Slot) (p : Bool) (s t : State) : Prop where
  live : Live t
  does : Does slots s t
  presence : t.status.presence = p
  rxbit : t.status.rxbit = s.status.rxbit

theorem Led.trans {a b : List Slot} {p q : Bool} {s t u : State} (h : Led a p s t) (k : Led b q t u) :
    Led (a ++ b) q s u :=
  ⟨k.live, h.does.trans k.does, k.presence, k.rxbit.trans h.rxbit⟩

/-- A row's identifier is not changed on the line. -/
theorem Led.rom {slots : List Slot} {p : Bool} {s t : State} (h : Led slots p s t) (i : Fin 16) :
    t.table[i].rom = s.table[i].rom := (h.does.rows i).rom

/-- A reset slot whose answer is listed. -/
theorem slotReset_answered {s : State} (h : Live s) (hp : s.params.tPds ≠ 0) {p : Bool} {rest : List Bool}
    (hb : s.env.bus = (!p) :: rest) :
    ∃ t, slotReset s = .ok p t ∧ Led [.reset] p s t ∧ t.x = s.x ∧ t.env.bus = rest := by
  obtain ⟨b, t, e, l, d, hpr, hr, hx, ha⟩ := slotReset_spec h
  have hbp : b = p := by
    have := ha hp
    rw [hb, answered_cons] at this
    exact (Bool.not_inj this.1).symm
  subst hbp
  exact ⟨t, e, ⟨l, d, hpr, hr⟩, hx, by rw [d.bus, hb]; rfl⟩

/-- The pseudocode the sensor commands begin their transfers with: a reset slot, BUS_ABSENT with no presence, and else
the selection and the rest (43_sensor.md R285, R296, R300). -/
def selectThen (sel : Bool) (idx : BitVec 4) (k : Engine Code) : Engine Code := do
  let present ← slotReset
  if !present then
    pure .busAbsent
  else
    select sel idx
    k

/-- The slots of a reset and a selection. -/
def selectSlots (sel : Bool) (rom : Ident) : List Slot := .reset :: bytesSlots (selectBytes sel rom)

theorem selectThen_absent {s : State} (h : Live s) (hp : s.params.tPds ≠ 0) {rest : List Bool}
    (hb : s.env.bus = true :: rest) (sel : Bool) (idx : BitVec 4) (k : Engine Code) :
    ∃ t, selectThen sel idx k s = .ok .busAbsent t ∧ Led [.reset] false s t ∧ t.x = s.x := by
  obtain ⟨t, e, hl, hx, -⟩ := slotReset_answered h hp (p := false) hb
  exact ⟨t, (bind_ok e).trans rfl, hl, hx⟩

theorem selectThen_present {s : State} (h : Live s) (hp : s.params.tPds ≠ 0) {rest : List Bool}
    (hb : s.env.bus = false :: rest) (sel : Bool) (idx : BitVec 4) (k : Engine Code) :
    ∃ t, selectThen sel idx k s = k t ∧ Led (selectSlots sel s.table[rowOf idx].rom) true s t ∧
      ByteRegsOnly s.x t.x ∧ t.env.bus = rest := by
  obtain ⟨t, e, hl, hx, hbus⟩ := slotReset_answered h hp (p := true) hb
  obtain ⟨u, e', l', d', hp', hr', hx'⟩ := select_spec hl.live sel idx
  rw [hl.rom] at d'
  rw [hx] at hx'
  refine ⟨u, ?_, hl.trans ⟨l', d', hp'.trans hl.presence, hr'⟩, hx', ?_⟩
  · exact (bind_ok e).trans (bind_ok e')
  · rw [d'.bus, sampleCount_bytesSlots, hbus]
    rfl

/-- ReadFrame where the nine bytes are listed (43_sensor.md R275). -/
theorem readFrame_answered {s : State} (h : Live s) (hr : s.params.tRs ≠ 0) {sp : Vector Byte 9} {rest : List Bool}
    (hb : s.env.bus = frameBits sp ++ rest) :
    ∃ t, readFrame s = .ok () t ∧ Led readFrameSlots s.status.presence s t ∧ FrameRegsOnly s.x t.x ∧ t.x.sp = sp ∧
      t.env.bus = rest := by
  obtain ⟨t, e, l, d, hp, hrx, ⟨sh, bit, hx⟩, ha⟩ := readFrame_spec h
  rw [hb] at ha
  have hcount : sampleCount readFrameSlots = (frameBits sp).length := by
    rw [readFrameSlots, sampleCount_append, sampleCount_byteSlots, sampleCount_readSlots, length_frameBits]
  refine ⟨t, e, ⟨l, d, hp, hrx⟩, ⟨sh, bit, t.x.sp, s.x.c, hx⟩, frame_listed (ha hr), ?_⟩
  rw [d.bus, hcount, hb, List.drop_left]

/-- The pseudocode READ_TEMP and CONFIGURE read a frame with: CRC_MISMATCH if it is not valid, and else the rest. -/
def readThen (sel : Bool) (idx : BitVec 4) (k : Engine Code) : Engine Code :=
  selectThen sel idx do
    readFrame
    let good ← checkFrame
    if !good then
      pure .crcMismatch
    else
      k

/-- The slots of a frame's read. -/
def readThenSlots (sel : Bool) (rom : Ident) : List Slot := selectSlots sel rom ++ readFrameSlots

theorem readThen_answered {s : State} (h : Live s) (hp : s.params.tPds ≠ 0) (hr : s.params.tRs ≠ 0)
    {sp : Vector Byte 9} {rest : List Bool} (hb : s.env.bus = false :: frameBits sp ++ rest) (sel : Bool)
    (idx : BitVec 4) (k : Engine Code) :
    ∃ t, readThen sel idx k s = (if frameValid sp then k t else .ok .crcMismatch t) ∧
      Led (readThenSlots sel s.table[rowOf idx].rom) true s t ∧ FrameRegsOnly s.x t.x ∧ t.x.sp = sp ∧
      t.env.bus = rest := by
  obtain ⟨t1, e1, hl1, hx1, hb1⟩ := selectThen_present h hp hb sel idx _
  obtain ⟨t2, e2, hl2, hx2, hsp, hb2⟩ := readFrame_answered hl1.live (by rw [hl1.does.params]; exact hr) hb1
  obtain ⟨t3, e3, l3, d3, hst, hx3, -⟩ := checkFrame_spec hl2.live
  have hl3 : Led [] true t2 t3 :=
    ⟨l3, d3, by rw [hst]; exact hl2.presence.trans hl1.presence, by rw [hst]⟩
  refine ⟨t3, ?_, ?_, ?_, by rw [hx3]; exact hsp, ?_⟩
  · refine e1.trans ((bind_ok e2).trans ((bind_ok e3).trans ?_))
    rw [hsp]
    cases frameValid sp <;> rfl
  · have := (hl1.trans hl2).trans hl3
    rwa [List.append_nil] at this
  · exact (hx1.frame.trans hx2).trans ⟨t2.x.sh, t2.x.bit, t2.x.sp, _, hx3⟩
  · rw [d3.bus, hb2]
    rfl

/-! ### Commands that write table entries at their end -/

/-- What a command leaves that has used the line up to `u` and then written entries: `w` is `u` with them written. -/
structure WroteRows (code : Code) (slots : List Slot) (s u w v : State) : Prop where
  live : Live u
  ended : Ended s v code slots
  untouched : Untouched s v
  noEvent : s.quiet → (∀ i : Fin 16, s.validRow i = true → s.table[i].cstate ≠ .started) →
    v.status.cevt = s.status.cevt
  count : u.count = s.count
  rows : ∀ i : Fin 16, RowPasses (s.validRow i) s.table[i] u.table[i]
  passed : ∀ i : Fin 16, RowPasses (s.validRow i) s.table[i] u.table[i].settle
  table : ∀ i : Fin 16, v.table[i] = w.table[i].settle
  presence : v.status.presence = u.status.presence
  rxbit : v.status.rxbit = u.status.rxbit
  x : v.x = u.x

/-- A row in which no step is pending sets no CEVT in the finish cycle. -/
theorem closeCycle_complete_cevt (code : Code) {u : State} (h : ∀ i : Fin 16, u.table[i].sup = none) :
    (closeCycle (complete code u)).status.cevt = u.status.cevt := by
  rw [Bool.eq_iff_iff, closeCycle_cevt_supEvent]
  refine or_iff_left ?_
  rintro ⟨i, hi⟩
  rw [show (complete code u).table[i] = u.table[i] from rfl, supEvent_of_none (h i)] at hi
  cases hi

/-- No step is pending in a row that is not started or not valid. -/
theorem SupOk.none_of {s : State} (h : SupOk s) {i : Fin 16} (hi : s.validRow i = true → s.table[i].cstate ≠ .started) :
    s.table[i].sup = none := by
  cases hs : s.table[i].sup with
  | none => rfl
  | some u =>
    obtain ⟨hv, hc, -⟩ := h i u hs
    exact absurd hc (hi hv)

/-- A command whose pseudocode uses the line and working registers and then writes entries with `w`: a write takes the
row's pending step away or keeps it. -/
theorem runCommand_of_rows {s : State} (hc : s.calm = true) {body : Engine Code} {code : Code} {slots : List Slot}
    {P : State → Prop} (w : State → State) (hw : ∀ u, ∃ table, w u = { u with table := table })
    (hlive : ∀ u, Live u → Live (w u))
    (hsup : ∀ u (i : Fin 16), u.table[i].sup = none → (w u).table[i].sup = none)
    (h : ∀ t, Begun s t → ∃ u, body t = .ok code (w u) ∧ Live u ∧ Does slots t u ∧ P u) :
    ∃ v u, runCommand body s = .next v ∧ WroteRows code slots s u (w u) v ∧ P u := by
  obtain ⟨t, hb, hr⟩ := command_begins hc
  obtain ⟨u, hu, hl, hd, hp⟩ := h t hb
  have hun : Untouched s u := hb.untouched.trans (.of_keeps hd.toKeeps)
  have hsu : Supervised s u := hb.supervised.trans (.of_keeps hd.toKeeps) hb.untouched.count
    (fun q => (hb.untouched.quiet q).1) hd.cevt
  have hrun : runCommand body s = .next (closeCycle (complete code (w u))) := by
    rw [hr, hu]
    rfl
  have hnone := hsup u
  have hlw := hlive u hl
  obtain ⟨table, he⟩ := hw u
  have hline : OnLine slots t (w u) := by
    rw [he]
    exact ⟨hd.params, hd.wave, hd.now, hd.bus⟩
  obtain ⟨v, hv, hen, hf⟩ := command_spec hb (hr body) hu hlw hline
  have hvw : v = closeCycle (complete code (w u)) := by
    rw [hrun] at hv
    cases hv
    rfl
  have hunw : Untouched u (w u) := by
    rw [he]
    exact ⟨rfl, rfl, rfl, rfl, rfl, rfl, rfl, fun q => ⟨q, rfl, rfl, rfl, rfl⟩, fun _ h => h⟩
  refine ⟨v, u, hv, ⟨hl, hen, (hun.trans hunw).trans hf.untouched, fun q hn => ?_, hun.count, hsu.rows, fun i => ?_,
    hf.table, ?_, ?_, ?_⟩, hp⟩
  · have hcevt : (w u).status.cevt = s.status.cevt := by
      rw [he]
      exact hsu.noEvent q hn
    rw [hvw, closeCycle_complete_cevt _ fun i => hnone i (hl.sup.none_of fun hv => ?_), hcevt]
    rw [validRow_congr hun.count] at hv
    rw [((hsu.rows i).held (.inl (hn i hv))).1]
    exact hn i hv
  · have := hl.settle_passes i
    rw [validRow_congr hun.count] at this
    exact (hsu.rows i).trans this
  all_goals
    rw [he] at hf
  · exact hf.presence
  · exact hf.rxbit
  · exact hf.x

/-- Which rows a command's targets are (43_sensor.md R285, R300). -/
theorem isTarget_iff {s t : State} (h : t.count = s.count) (sel : Bool) (idx : BitVec 4) (i : Fin 16) :
    t.isTarget sel idx i = true ↔ if sel then i = idx.toFin else i.val < s.count.toNat := by
  cases sel with
  | true => exact beq_iff_eq
  | false => exact (Bool.eq_iff_iff.mp (validRow_congr h i)).trans decide_eq_true_iff

/-- An entry that is not started is only rid of its pending step by the passing of time. -/
theorem RowPasses.of_not_started {v : Bool} {e e' : Entry} (h : RowPasses v e e') (hc : e.cstate ≠ .started) :
    e' = { e with sup := e'.sup } := by
  obtain ⟨h1, h2, h3⟩ := h.held (.inl hc)
  obtain ⟨hrom, htemp, hres, -⟩ := h
  cases e'
  cases e
  simp_all

/-! ### CONVERT -/

theorem startTargets_settle (sel : Bool) (idx : BitVec 4) (u : State) (i : Fin 16) :
    (startTargets sel idx u).table[i].settle =
      if u.isTarget sel idx i then u.table[i].start else u.table[i].settle := by
  rw [startTargets_table, mapTable_get]
  split
  · exact settle_start _
  · rfl

theorem startTargets_sup (sel : Bool) (idx : BitVec 4) (u : State) (i : Fin 16) (h : u.table[i].sup = none) :
    (startTargets sel idx u).table[i].sup = none := by
  rw [startTargets_table, mapTable_get]
  split
  · rfl
  · exact h

/-- What CONVERT does with a target that is not refused. -/
def convertTransfer (sel : Bool) (idx : BitVec 4) : Engine Code :=
  selectThen sel idx do
    sendByte convertTByte
    modify (startTargets sel idx)
    pure .ok

theorem convertBody_eq {s t : State} (h : t.count = s.count) (sel : Bool) (idx : BitVec 4) :
    convertBody sel idx t = if s.badTarget sel idx then .ok .badIndex t else convertTransfer sel idx t := by
  rw [← badTarget_congr h]
  refine (bind_ok (get_ok t)).trans ?_
  cases t.badTarget sel idx <;> rfl

end Sys2Proof.Machine

open Sys2Proof Sys2Proof.Machine

/-- Settles O45: refused at t_s, stopped at the reset slot, or the targets start at the finish tick. -/
theorem convertStarts : Obligations.ConvertStarts := by
  intro s sel idx p rest hc hl hbus
  by_cases hbad : sel = true ∧ s.count.toNat ≤ idx.toNat
  · obtain ⟨v, hv, hen, hun, hsu, hp, hr, hx⟩ := runCommand_of_still hc (body := convertBody sel idx) fun t _ hb => by
      rw [convertBody_eq hb.untouched.count, if_pos ((badTarget_iff s sel idx).mpr hbad)]
    refine ⟨v, hv, hr, ?_, hun, ?_⟩
    · rw [hx]
      exact .refl _
    · rw [if_pos hbad]
      exact ⟨hen, hsu, hp⟩
  have hgood : ∀ t, Begun s t → convertBody sel idx t = convertTransfer sel idx t := fun t hb => by
    rw [convertBody_eq hb.untouched.count, if_neg (mt (badTarget_iff s sel idx).mp hbad)]
  cases p with
  | false =>
    obtain ⟨v, u, hv, hen, hun, hsu, hf, hp, hr, hx⟩ := runCommand_of_does hc (body := convertBody sel idx)
      (code := .busAbsent) (slots := [.reset])
      (P := fun u => u.status.presence = false ∧ u.status.rxbit = s.status.rxbit ∧ u.x = s.startWork) fun t _ hb => by
      obtain ⟨u, hu, hled, hx⟩ := selectThen_absent hb.live (by rw [hb.untouched.params]; exact tPds_ne_zero hl)
        (hb.bus.trans hbus) sel idx _
      exact ⟨u, (hgood t hb).trans hu, hled.live, hled.does, hled.presence, hled.rxbit.trans hb.rxbit, hx.trans hb.x⟩
    refine ⟨v, hv, hf.rxbit.trans hr, ?_, hun, ?_⟩
    · rw [hf.x, hx]
      exact .refl _
    · rw [if_neg hbad, if_pos rfl]
      exact ⟨hen, hsu, hf.presence.trans hp⟩
  | true =>
    obtain ⟨v, u, hv, hw, hp, hr, hx⟩ := runCommand_of_rows hc (body := convertBody sel idx) (code := .ok)
      (slots := selectSlots sel s.table[idx.toFin].rom ++ byteSlots 0x44)
      (P := fun u => u.status.presence = true ∧ u.status.rxbit = s.status.rxbit ∧ ByteRegsOnly s.startWork u.x)
      (startTargets sel idx) (fun _ => ⟨_, rfl⟩) (fun _ h => h.startTargets sel idx) (startTargets_sup sel idx)
      fun t hb => by
      obtain ⟨u, hu, hled, hx, -⟩ := selectThen_present hb.live (by rw [hb.untouched.params]; exact tPds_ne_zero hl)
        (hb.bus.trans hbus) sel idx _
      obtain ⟨w, ew, lw, dw, pw, rw', xw⟩ := sendByte_spec hled.live convertTByte
      have hall := hled.trans ⟨lw, dw, pw.trans hled.presence, rw'⟩
      rw [(hb.supervised.rows _).rom] at hall
      rw [hb.x] at hx
      exact ⟨w, (hgood t hb).trans (hu.trans (bind_ok ew)), lw, hall.does, hall.presence, hall.rxbit.trans hb.rxbit,
        hx.trans xw⟩
    refine ⟨v, hv, hw.rxbit.trans hr, by rwa [hw.x], hw.untouched, ?_⟩
    rw [if_neg hbad, if_neg nofun]
    refine ⟨hw.ended, hw.presence.trans hp, hw.noEvent, fun i => ?_⟩
    rw [hw.table, startTargets_settle]
    by_cases ht : u.isTarget sel idx i = true
    · rw [if_pos ht]
      exact ⟨u.table[i], hw.rows i, (if_pos ((isTarget_iff hw.count sel idx i).mp ht)).symm⟩
    · rw [if_neg ht]
      exact ⟨u.table[i].settle, hw.passed i, (if_neg (mt (isTarget_iff hw.count sel idx i).mpr ht)).symm⟩
end

section
/-! PROOFS. CONV_POLL: the read slot, and the rows tick by tick (43_sensor.md R291). -/

namespace Sys2Proof.Machine

/-- A row after CONV_POLL's write and the supervisor's step of the finish tick. -/
theorem pollReady_settle (u : State) (i : Fin 16) : (pollReady u).table[i].settle =
    if u.validRow i = true ∧ u.table[i].cstate = .started then { u.table[i] with cstate := .ready, sup := none }
    else u.table[i].settle := by
  rw [pollReady_table, mapTable_get]
  by_cases h : u.validRow i = true ∧ u.table[i].cstate = .started
  · rw [if_pos h, if_pos (by rw [State.startedRow, h.1, h.2]; rfl)]
    exact settle_of_none rfl
  · rw [if_neg h, if_neg]
    rwa [State.startedRow, Bool.and_eq_true, beq_iff_eq]

/-- CONV_POLL's write, if the bit read is 1. -/
def pollRows (b : Bool) (u : State) : State := if b then pollReady u else u

theorem pollRows_eq (b : Bool) (u : State) :
    ∃ table cevt, pollRows b u = { u with table := table, status := { u.status with cevt := cevt } } := by
  cases b
  · exact ⟨u.table, u.status.cevt, rfl⟩
  · exact ⟨_, _, rfl⟩

theorem Live.pollRows {u : State} (h : Live u) (b : Bool) : Live (pollRows b u) := by
  cases b
  · exact h
  · exact h.pollReady

/-- A row after CONV_POLL. -/
theorem pollRows_settle (b : Bool) (u : State) (i : Fin 16) : (pollRows b u).table[i].settle =
    if b = true ∧ u.validRow i = true ∧ u.table[i].cstate = .started then
      { u.table[i] with cstate := .ready, sup := none }
    else u.table[i].settle := by
  cases b
  · rfl
  · exact (pollReady_settle u i).trans (by simp only [true_and])

/-- CONV_POLL's write puts no row into ConversionStarted. -/
theorem pollRows_started {b : Bool} {u : State} {i : Fin 16} (h : (pollRows b u).table[i].cstate = .started) :
    u.table[i].cstate = .started := by
  cases b with
  | false => exact h
  | true =>
    by_contra hn
    exact hn (((pollReady_row u i).2.2.2 hn).symm.trans h)

/-- CEVT after CONV_POLL's write. -/
theorem pollRows_cevt (b : Bool) (u : State) : (pollRows b u).status.cevt = true ↔
    u.status.cevt = true ∨ b = true ∧ ∃ i : Fin 16, u.validRow i = true ∧ u.table[i].cstate = .started := by
  cases b with
  | false => simp [pollRows]
  | true =>
    show (u.status.cevt || anyRow u.startedRow u.table) = true ↔ _
    rw [Bool.or_eq_true, anyRow_iff]
    simp [State.startedRow]

/-- A started row after CONV_POLL that read a 1, from its passage `h` to the sample and `k` to the finish cycle's
end. -/
theorem pollReady_outcome {v : Bool} {e m m' : Entry} (h : RowPasses v e m) (k : RowPasses v e m')
    (he : e.cstate = .started) (hm : m.cstate ≠ .started → m'.cstate = m.cstate) (r : Entry)
    (hr : r = if m.cstate = .started then { m with cstate := .ready, sup := none } else m') :
    r.cstate = .ready ∧ r.tvalid = e.tvalid ∨ r.cstate = .timedOut ∧ r.tvalid = false := by
  by_cases hs : m.cstate = .started
  · rw [hr, if_pos hs]
    exact .inl ⟨rfl, h.kept (by rw [hs]; decide)⟩
  · rw [hr, if_neg hs]
    have hc := hm hs
    cases hm' : m'.cstate with
    | idle => exact absurd hm' (k.moved he)
    | started => exact absurd (hc.symm.trans hm') hs
    | ready => exact .inl ⟨rfl, k.kept (by rw [hm']; decide)⟩
    | timedOut => exact .inr ⟨rfl, (k.invalidated hm').resolve_left (by rw [he]; decide)⟩

/-- Without a budget no row times out. -/
theorem supervisedRow_noTimeout {s : State} (hb : s.budget = 0) (i : Fin 16) (n : Nat) (e : Entry)
    (he : e.cstate ≠ .timedOut) : (s.supervisedRow i n e).cstate ≠ .timedOut := by
  induction n with
  | zero => exact he
  | succ n ih =>
    rw [supervisedRow_add, supervisedRow_one, hb]
    simp only [ne_eq, not_true, false_and, if_false]
    split
    · dsimp only
      split <;> decide
    · exact ih

/-- The end of CONV_POLL, from the end `u` of its read slot. -/
structure Polled (b : Bool) (s u v : State) : Prop where
  live : Live u
  count : u.count = s.count
  finish : v = closeCycle (complete .ok (pollRows b u))
  rows : ∀ i : Fin 16, RowPasses (s.validRow i) s.table[i] u.table[i]
  passed : ∀ i : Fin 16, RowPasses (s.validRow i) s.table[i] u.table[i].settle
  supervised : s.quiet → Rows s (s.ticksBefore + slotTicks s.params [.read]) u

theorem convPoll_spec {s : State} (hc : s.calm = true) (hr : s.params.tRs ≠ 0) {b : Bool} {rest : List Bool}
    (hbus : s.env.bus = b :: rest) :
    ∃ v u, runCommand convPollBody s = .next v ∧ Ended s v .ok [.read] ∧ Untouched s v ∧ v.status.rxbit = b ∧
      v.status.presence = s.status.presence ∧ v.x = s.startWork ∧ Polled b s u v := by
  obtain ⟨t, ht, hb, hrun⟩ := command_starts hc
  obtain ⟨b', u, e, l, d, hp, hrx, hx, ha⟩ := slotReadRx_spec hb.live
  have hbb : b' = b := by
    have := ha (by rw [hb.untouched.params]; exact hr)
    rw [hb.bus, hbus, answered_cons] at this
    exact this.1.symm
  subst hbb
  have hun : Untouched s u := hb.untouched.trans (.of_keeps d.toKeeps)
  have hsu : Supervised s u := hb.supervised.trans (.of_keeps d.toKeeps) hb.untouched.count
    (fun q => (hb.untouched.quiet q).1) d.cevt
  have hbody : convPollBody t = .ok .ok (pollRows b' u) := (bind_ok e).trans (by cases b' <;> rfl)
  have hv : runCommand convPollBody s = .next (closeCycle (complete .ok (pollRows b' u))) := by
    rw [hrun, hbody]
    rfl
  have hlw : Live (pollRows b' u) := l.pollRows b'
  have hf := finish_spec hlw .ok
  have hmore : u.status.cevt = true → (pollRows b' u).status.cevt = true := fun h => (pollRows_cevt b' u).mpr (.inl h)
  obtain ⟨table, cevt, he⟩ := pollRows_eq b' u
  have hline : OnLine [.read] t (pollRows b' u) := by
    rw [he]
    exact ⟨d.params, d.wave, d.now, d.bus⟩
  obtain ⟨v, hv', hen, hf⟩ := command_spec hb (hrun convPollBody) hbody hlw hline
  rw [hv] at hv'
  cases hv'
  have hunw : Untouched u (pollRows b' u) := by
    refine ⟨?_, ?_, ?_, ?_, ?_, ?_, ?_, fun q => ?_, fun _ => hmore⟩ <;> rw [he]
    exact ⟨q, rfl, rfl, rfl, rfl⟩
  refine ⟨_, u, hv, hen, (hun.trans hunw).trans hf.untouched, ?_, ?_, ?_, l, hun.count, rfl, hsu.rows, fun i => ?_,
    fun q => slotReadRx_rows s _ t (start_rows q _ rfl _ _ ht) _ _ e⟩
  · rw [hf.rxbit, he]
    exact hrx
  · rw [hf.presence, he]
    exact hp.trans hb.presence
  · rw [hf.x, he]
    exact hx.trans hb.x
  · have := l.settle_passes i
    rw [validRow_congr hun.count] at this
    exact (hsu.rows i).trans this

section
variable {b : Bool} {s u v : State} (h : Polled b s u v) (i : Fin 16)
include h

theorem Polled.row : v.table[i] = if b = true ∧ s.validRow i = true ∧ u.table[i].cstate = .started then
    { u.table[i] with cstate := .ready, sup := none } else u.table[i].settle := by
  rw [h.finish, closeCycle_table]
  refine (pollRows_settle b u i).trans ?_
  rw [validRow_congr h.count]

/-- A row started at the read slot's end was started at the command's start. -/
theorem Polled.started (hu : u.table[i].cstate = .started) : s.table[i].cstate = .started := by
  by_contra hs
  exact hs (((h.rows i).held (.inl hs)).1.symm.trans hu)

/-- A row that has left ConversionStarted by the read slot's end. -/
theorem Polled.left (hu : u.table[i].cstate ≠ .started) : v.table[i].cstate = u.table[i].cstate := by
  rw [h.row, if_neg fun hc => hu hc.2.2]
  exact ((h.live.settle_passes i).held (.inl hu)).1

/-- A row that the poll does not concern. -/
theorem Polled.other (hi : b = false ∨ s.validRow i = false ∨ s.table[i].cstate ≠ .started) :
    RowPasses (s.validRow i) s.table[i] v.table[i] := by
  rw [h.row, if_neg]
  · exact h.passed i
  · rintro ⟨hb, hv, hu⟩
    rcases hi with hi | hi | hi
    · rw [hb] at hi
      cases hi
    · rw [hv] at hi
      cases hi
    · exact hi (h.started i hu)

/-- A row the poll concerns. -/
theorem Polled.polled (hb : b = true) (hv : s.validRow i = true) (hs : s.table[i].cstate = .started) :
    (v.table[i].cstate = .ready ∧ v.table[i].tvalid = s.table[i].tvalid ∨
      v.table[i].cstate = .timedOut ∧ v.table[i].tvalid = false) ∧
    v.table[i].rom = s.table[i].rom ∧ v.table[i].temp = s.table[i].temp ∧ v.table[i].res = s.table[i].res := by
  have hrow := h.row i
  rw [hb, hv] at hrow
  simp only [true_and] at hrow
  refine ⟨pollReady_outcome (h.rows i) (h.passed i) hs (fun hn => ?_) _ hrow, ?_⟩
  · exact ((h.live.settle_passes i).held (.inl hn)).1
  · have hm := h.rows i
    have hp := h.passed i
    rw [hrow]
    split
    · exact ⟨hm.rom, hm.temp, hm.res⟩
    · exact ⟨hp.rom, hp.temp, hp.res⟩

/-- With a quiet host the row at the sample is what the supervisor has made of it tick by tick. -/
theorem Polled.exact (hr : s.params.tRs ≠ 0) (q : s.quiet) :
    let m := s.supervisedRow i (s.ticksBefore + slotTicks s.params [.read]) s.table[i]
    v.table[i] = if b = true ∧ i.val < s.count.toNat ∧ m.cstate = .started then { m with cstate := .ready }
      else s.supervisedRow i 1 m := by
  intro m
  have hrows := h.supervised q
  have hpos : 0 < slotTicks s.params [.read] := by
    show 0 < s.params.tRl + (s.params.tRs + _)
    omega
  have hsup : m.sup = none := by
    obtain ⟨n, hn⟩ := Nat.exists_eq_add_one.mpr (Nat.add_pos_right s.ticksBefore hpos)
    show (s.supervisedRow i _ s.table[i]).sup = none
    rw [hn, supervisedRow_add]
    exact supervisedRow_one_sup s i _
  have hm : ({ u.table[i] with sup := none } : Entry) = m := by
    rw [hrows.landed i]
    show ({ m with sup := none } : Entry) = m
    rw [← hsup]
  have hready : ({ u.table[i] with cstate := .ready, sup := none } : Entry) = { m with cstate := .ready } := by
    rw [← hm]
  rw [h.row, hready, hrows.coming, supervisedRow_add]
  exact if_congr (and_congr_right fun _ => and_congr decide_eq_true_iff (by rw [hrows.cstate])) rfl rfl

/-- CEVT at the end of the poll. -/
theorem Polled.cevt (q : s.quiet) : v.status.cevt = true ↔ s.status.cevt = true ∨ ∃ i : Fin 16,
    i.val < s.count.toNat ∧ s.table[i].cstate = .started ∧ v.table[i].cstate ≠ .started := by
  have hrows := h.supervised q
  have hsup : SupOk (complete .ok (pollRows b u)) := (h.live.pollRows b).sup
  have hw : v.status.cevt = true ↔ (pollRows b u).status.cevt = true ∨ ∃ i : Fin 16,
      (pollRows b u).table[i].cstate = .started ∧ (pollRows b u).table[i].settle.cstate ≠ .started := by
    rw [h.finish]
    exact closeCycle_cevt hsup
  have hvalid : ∀ i : Fin 16, u.validRow i = true ↔ i.val < s.count.toNat := fun i => by
    rw [validRow_congr h.count]
    exact decide_eq_true_iff
  rw [hw, pollRows_cevt, hrows.cevt]
  constructor
  · rintro (((hc | ⟨i, hv, hs, hm⟩) | ⟨hb, i, hv, hu⟩) | ⟨i, hs, hn⟩)
    · exact .inl hc
    · rw [← hrows.cstate] at hm
      exact .inr ⟨i, hv, hs, by rwa [h.left i hm]⟩
    · refine .inr ⟨i, (hvalid i).mp hv, h.started i hu, ?_⟩
      rw [h.row, if_pos ⟨hb, decide_eq_true ((hvalid i).mp hv), hu⟩]
      exact nofun
    · have hu := pollRows_started hs
      refine .inr ⟨i, ?_, h.started i hu, ?_⟩
      · by_contra hv
        have hnone : (pollRows b u).table[i].sup = none := hsup.none_of fun hval =>
          absurd ((hvalid i).mp (by obtain ⟨_, _, he⟩ := pollRows_eq b u; rw [he] at hval; exact hval)) hv
        rw [settle_of_none hnone] at hn
        exact hn hs
      · rw [h.finish, closeCycle_table]
        exact hn
  · rintro (hc | ⟨i, hv, hs, hn⟩)
    · exact .inl (.inl (.inl hc))
    · by_cases hu : u.table[i].cstate = .started
      · cases b with
        | true => exact .inl (.inr ⟨rfl, i, (hvalid i).mpr hv, hu⟩)
        | false =>
          rw [h.row, if_neg nofun] at hn
          exact .inr ⟨i, hu, hn⟩
      · rw [hrows.cstate] at hu
        exact .inl (.inl (.inr ⟨i, hv, hs, hu⟩))
end

end Sys2Proof.Machine

open Sys2Proof Sys2Proof.Machine

/-- Settles O46: `convPoll_spec`, and then row by row. -/
theorem convPollReady : Obligations.ConvPollReady := by
  intro s b rest hc hr hbus
  obtain ⟨v, u, hv, hen, hun, hrx, hp, hx, h⟩ := convPoll_spec hc hr hbus
  have hvalid : ∀ i : Fin 16, i.val < s.count.toNat → s.validRow i = true := fun i hi => decide_eq_true hi
  refine ⟨v, hv, hen, hun, hrx, hp, hx, h.other, fun hb i hi hs => h.polled i hb (hvalid i hi) hs, h.cevt,
    fun q hb0 hb i hi hs => ?_, fun q i => h.exact i hr q⟩
  rcases (h.polled i hb (hvalid i hi) hs).1 with ⟨hready, -⟩ | ⟨hout, -⟩
  · exact hready
  · rw [h.exact i hr q] at hout
    split at hout
    · cases hout
    · exact absurd hout (supervisedRow_noTimeout hb0 i 1 _ (supervisedRow_noTimeout hb0 i _ _ (by rw [hs]; decide)))
end

section
/-! PROOFS. READ_TEMP: the checks before the first slot, the frame, and what it writes (43_sensor.md R296). -/

namespace Sys2Proof.Machine

/-- What READ_TEMP does with an entry that may be read. -/
def readTempTransfer (sel : Bool) (idx : BitVec 4) : Engine Code :=
  readThen sel idx do
    modify (storeReading idx)
    pure .ok

/-- The checks of READ_TEMP at t_s, in the order of 60_exceptions.md R323. -/
theorem readTempBody_eq {s t : State} (h : t.count = s.count) (sel : Bool) (idx : BitVec 4) :
    readTempBody sel idx t = if s.count.toNat ≤ idx.toNat then .ok .badIndex t
      else if t.table[idx.toFin].cstate = .ready then readTempTransfer sel idx t else .ok .convTimeout t := by
  refine (bind_ok (get_ok t)).trans ?_
  have hbad : (!t.validRow (rowOf idx)) = true ↔ s.count.toNat ≤ idx.toNat := by
    rw [← h]
    exact (badTarget_iff t true idx).trans (and_iff_right rfl)
  by_cases h1 : s.count.toNat ≤ idx.toNat
  · rw [if_pos (hbad.mpr h1), if_pos h1]
    rfl
  · rw [if_neg (mt hbad.mp h1), if_neg h1]
    by_cases h2 : t.table[idx.toFin].cstate = .ready
    · rw [if_pos h2, if_neg (by rw [bne_iff_ne, not_not]; exact h2)]
      rfl
    · rw [if_neg h2, if_pos (by rw [bne_iff_ne]; exact h2)]
      rfl

/-- Which valid rows are Ready at t_s: those Ready at acceptance, and those the supervisor's step of the acceptance
cycle makes so (70_reset_and_hazards.md R365). -/
theorem start_ready {s t : State} (h : nextTick (accept s) = .ok () t) {i : Fin 16} (hi : i.val < s.count.toNat) :
    t.table[i].cstate = .ready ↔ s.table[i].cstate = .ready ∨ s.table[i].cstate = .started ∧ s.isTick = true ∧
      100 * 2 ^ (s.table[i].res.toNat - 9) * s.params.convUnitUs ≤ min (s.table[i].elapsed.toNat + 1) (2 ^ 32 - 1) := by
  have hrow : t.table[i].cstate =
      (if s.isTick then s.supervisedRow i 1 s.table[i] else { s.table[i] with sup := none }).cstate := by
    rw [← start_table h]
  rw [hrow]
  by_cases ht : s.isTick = true
  · rw [if_pos ht, supervisedRow_one, ← duration_eq]
    by_cases hc : s.table[i].cstate = .started
    · simp only [hi, hc, ht, and_self, if_true, true_and, reduceCtorEq, false_or]
      split
      · next hd => exact ⟨fun _ => hd, fun _ => rfl⟩
      · next hd =>
        refine ⟨fun hr => ?_, fun h => absurd h hd⟩
        split at hr <;> cases hr
    · simp only [hc, and_false, if_false, false_and, or_false]
  · rw [if_neg ht]
    simp only [ht, Bool.false_eq_true, false_and, and_false, or_false]

/-- READ_TEMP's write, if the frame is valid. -/
def readRows (good : Bool) (idx : BitVec 4) (u : State) : State := if good then storeReading idx u else u

theorem readRows_eq (good : Bool) (idx : BitVec 4) (u : State) :
    ∃ table, readRows good idx u = { u with table := table } := by
  cases good
  · exact ⟨u.table, rfl⟩
  · exact ⟨_, rfl⟩

theorem Live.readRows {u : State} (h : Live u) (good : Bool) (idx : BitVec 4) : Live (readRows good idx u) := by
  cases good
  · exact h
  · exact h.storeReading idx

/-- READ_TEMP writes its own row only. -/
theorem readRows_other (good : Bool) (idx : BitVec 4) (u : State) {i : Fin 16} (h : i ≠ idx.toFin) :
    (readRows good idx u).table[i] = u.table[i] := by
  cases good with
  | false => rfl
  | true =>
    show (storeReading idx u).table[i] = _
    exact set_get_ne u.table h _

/-- The row READ_TEMP writes (43_sensor.md R296). -/
theorem readRows_own (good : Bool) (idx : BitVec 4) (u : State) : (readRows good idx u).table[idx.toFin] =
    if good then { u.table[idx.toFin] with
      temp := BitVec.ofInt 32 (decodePseudocode u.x.sp[0].toNat u.x.sp[1].toNat u.x.sp[4].toNat).1
      tvalid := true
      res := resolutionOfConfig u.x.sp[4] }
    else u.table[idx.toFin] := by
  cases good with
  | false => rfl
  | true =>
    show (storeReading idx u).table[idx.toFin] = _
    rw [storeReading_table, decodeCenti_eq_pseudocode]
    exact set_get_self u.table idx.toFin _

theorem readRows_sup (good : Bool) (idx : BitVec 4) (u : State) (i : Fin 16) (h : u.table[i].sup = none) :
    (readRows good idx u).table[i].sup = none := by
  by_cases hi : i = idx.toFin
  · subst hi
    rw [readRows_own]
    cases good <;> exact h
  · rw [readRows_other good idx u hi, h]

/-- The read of a frame that is listed, as READ_TEMP's own code. -/
theorem readTempTransfer_answered {s t : State} (hs : s.Undisturbed) (hb : Begun s t) {sp : Vector Byte 9}
    {rest : List Bool} (hbus : s.env.bus = false :: frameBits sp ++ rest) (sel : Bool) (idx : BitVec 4) :
    ∃ u, readTempTransfer sel idx t =
        .ok (if frameValid sp then .ok else .crcMismatch) (readRows (frameValid sp) idx u) ∧
      Led (readThenSlots sel s.table[idx.toFin].rom) true t u ∧ FrameRegsOnly s.startWork u.x ∧ u.x.sp = sp := by
  obtain ⟨u, e, hl, hx, hsp, -⟩ := readThen_answered hb.live (by rw [hb.untouched.params]; exact tPds_ne_zero hs.legal)
    (by rw [hb.untouched.params]; exact hs.samples) (hb.bus.trans hbus) sel idx (do modify (storeReading idx); pure .ok)
  rw [(hb.supervised.rows _).rom] at hl
  rw [hb.x] at hx
  refine ⟨u, e.trans ?_, hl, hx, hsp⟩
  cases frameValid sp <;> rfl

end Sys2Proof.Machine

open Sys2Proof Sys2Proof.Machine

/-- Settles O47: the two checks at t_s, and the reset slot. -/
theorem readTempRefuses : Obligations.ReadTempRefuses := by
  intro s sel idx hc e due refuses
  refine ⟨fun hi => ?_, fun hi hd => ?_, fun hi hd hl rest hbus => ?_⟩
  · exact runCommand_of_still hc fun t _ hb => by rw [readTempBody_eq hb.untouched.count, if_pos hi]
  · refine runCommand_of_still hc fun t ht hb => ?_
    rw [readTempBody_eq hb.untouched.count, if_neg (Nat.not_le.mpr hi), if_neg (mt (start_ready ht hi).mp hd)]
  · obtain ⟨v, u, hv, hen, hun, hsu, hf, hp, hr, hx⟩ := runCommand_of_does hc (body := readTempBody sel idx)
      (code := .busAbsent) (slots := [.reset])
      (P := fun u => u.status.presence = false ∧ u.status.rxbit = s.status.rxbit ∧ u.x = s.startWork) fun t ht hb => by
      obtain ⟨u, hu, hled, hx⟩ := selectThen_absent hb.live (by rw [hb.untouched.params]; exact tPds_ne_zero hl)
        (hb.bus.trans hbus) sel idx _
      refine ⟨u, ?_, hled.live, hled.does, hled.presence, hled.rxbit.trans hb.rxbit, hx.trans hb.x⟩
      rw [readTempBody_eq hb.untouched.count, if_neg (Nat.not_le.mpr hi), if_pos ((start_ready ht hi).mpr hd)]
      exact hu
    exact ⟨v, hv, hen, hun, hsu, hf.presence.trans hp, hf.rxbit.trans hr, hf.x.trans hx⟩

/-- Settles O48: the frame is read, and its CRC decides whether the entry is written. -/
theorem readTempReads : Obligations.ReadTempReads := by
  intro s sel idx sp rest hs hi hready hbus
  obtain ⟨v, u, hv, hw, hp, hr, hx, hsp⟩ := runCommand_of_rows hs.calm (body := readTempBody sel idx)
    (P := fun u => u.status.presence = true ∧ u.status.rxbit = s.status.rxbit ∧ FrameRegsOnly s.startWork u.x ∧
      u.x.sp = sp)
    (readRows (frameValid sp) idx) (readRows_eq _ idx) (fun _ h => h.readRows _ idx) (readRows_sup _ idx)
    fun t hb => by
    obtain ⟨u, hu, hled, hx, hsp⟩ := readTempTransfer_answered hs hb hbus sel idx
    refine ⟨u, ?_, hled.live, hled.does, hled.presence, hled.rxbit.trans hb.rxbit, hx, hsp⟩
    have hst : t.table[idx.toFin].cstate = .ready :=
      ((hb.supervised.rows idx.toFin).held (.inl (by rw [hready]; decide))).1.trans hready
    rw [readTempBody_eq hb.untouched.count, if_neg (Nat.not_le.mpr hi), if_pos hst]
    exact hu
  have hnot : s.table[idx.toFin].cstate ≠ .started := by
    rw [hready]
    decide
  have hnone : u.table[idx.toFin].sup = none := hw.live.sup.none_of fun _ => by
    rw [((hw.rows idx.toFin).held (.inl hnot)).1]
    exact hnot
  have hrow := (hw.rows idx.toFin).of_not_started hnot
  rw [hnone] at hrow
  refine ⟨v, hv, ?_, hw.untouched, hw.presence.trans hp, hw.rxbit.trans hr, by rwa [hw.x], hw.noEvent, fun i hne => ?_,
    ?_⟩
  · have := hw.ended
    rwa [readThenSlots, selectSlots, readFrameSlots, ← List.append_assoc] at this
  · rw [hw.table, readRows_other _ idx u hne]
    exact hw.passed i
  · rw [hw.table, settle_of_none (readRows_sup _ idx u _ hnone), readRows_own, hsp, hrow]
end

section
/-! PROOFS. CONFIGURE past its checks: the read, the write, the copy and the ways the line stops it (43_sensor.md R300,
R301). -/

namespace Sys2Proof.Machine

/-- A state in a command, where the parameters let the line's answers be sampled. -/
structure Poised (s : State) : Prop where
  live : Live s
  presences : s.params.tPds ≠ 0
  samples : s.params.tRs ≠ 0

theorem Begun.poised {s t : State} (h : Begun s t) (hs : s.Undisturbed) : Poised t :=
  ⟨h.live, by rw [h.untouched.params]; exact tPds_ne_zero hs.legal, by rw [h.untouched.params]; exact hs.samples⟩

theorem Led.poised {slots : List Slot} {p : Bool} {s t : State} (h : Led slots p s t) (hs : Poised s) : Poised t :=
  ⟨h.live, by rw [h.does.params]; exact hs.presences, by rw [h.does.params]; exact hs.samples⟩

/-- No step of a command past its acceptance latches ALARM again. -/
theorem FrameRegsOnly.alw {x y : Work} (h : FrameRegsOnly x y) : y.alw = x.alw := by
  obtain ⟨_, _, _, _, rfl⟩ := h
  rfl

/-! ### The write and the copy -/

/-- The slots of CONFIGURE's write of TH, TL and CFG, from the latched ALARM `alw`. -/
def writeSlots (sel : Bool) (rom : Ident) (alw : Word) (r : Resolution) : List Slot :=
  selectSlots sel rom ++
    bytesSlots [0x4E, clampByte (alw.extractLsb' 16 16), clampByte (alw.extractLsb' 0 16), cfgByte r]

/-- The slots of CONFIGURE's copy and the wait. -/
def commitSlots (sel : Bool) (rom : Ident) : List Slot := selectSlots sel rom ++ byteSlots 0x48 ++ [.wait]

theorem editFrame_led (r : Resolution) {s : State} (h : Live s) :
    Led [] s.status.presence s (editFrame r s) ∧ FrameRegsOnly s.x (editFrame r s).x := by
  obtain ⟨l, d⟩ := work_step (t := editFrame r s) rfl h
  exact ⟨⟨l, d, rfl, rfl⟩, s.x.sh, s.x.bit, _, s.x.c, rfl⟩

section
variable {s : State} (h : Poised s) {rest : List Bool} (sel : Bool) (idx : BitVec 4) (r : Resolution)
include h

theorem configureWrite_absent (hb : s.env.bus = true :: rest) :
    ∃ t, configureWrite sel idx r s = .ok .busAbsent t ∧ Led [.reset] false s t ∧ FrameRegsOnly s.x t.x := by
  obtain ⟨hl, hx⟩ := editFrame_led r h.live
  obtain ⟨t, e, hl', hx'⟩ := selectThen_absent hl.live h.presences hb sel idx _
  exact ⟨t, (bind_ok (modify_ok _ _)).trans e, hl.trans hl', by rwa [hx']⟩

theorem configureWrite_present (hb : s.env.bus = false :: rest) :
    ∃ t, configureWrite sel idx r s = configureCommit sel idx r t ∧
      Led (writeSlots sel s.table[rowOf idx].rom s.x.alw r) true s t ∧ FrameRegsOnly s.x t.x ∧ t.env.bus = rest := by
  obtain ⟨hl, hx⟩ := editFrame_led r h.live
  obtain ⟨t, e, hl', hx', hbus⟩ := selectThen_present hl.live h.presences hb sel idx _
  obtain ⟨u, eu, lu, du, pu, ru, xu⟩ := sendBytes_spec [writeScratchpadByte, t.x.sp[2], t.x.sp[3], t.x.sp[4]] hl'.live
  have hsp : t.x.sp = (editFrame r s).x.sp := by
    obtain ⟨_, _, he⟩ := hx'
    rw [he]
  have hbytes : [writeScratchpadByte, t.x.sp[2], t.x.sp[3], t.x.sp[4]] =
      [0x4E, clampByte (s.x.alw.extractLsb' 16 16), clampByte (s.x.alw.extractLsb' 0 16), cfgByte r] := by
    rw [hsp]
    simp [editFrame, writeScratchpadByte]
  refine ⟨u, ?_, ?_, (hx.trans hx'.frame).trans xu.frame, ?_⟩
  · exact (bind_ok (modify_ok _ _)).trans (e.trans ((bind_ok (get_ok t)).trans (bind_ok eu)))
  · rw [hbytes] at du
    exact (hl.trans hl').trans ⟨lu, du, pu.trans hl'.presence, ru⟩
  · rw [du.bus, sampleCount_bytesSlots]
    exact hbus

theorem configureCommit_absent (hb : s.env.bus = true :: rest) :
    ∃ t, configureCommit sel idx r s = .ok .busAbsent t ∧ Led [.reset] false s t ∧ FrameRegsOnly s.x t.x := by
  obtain ⟨t, e, hl, hx⟩ := selectThen_absent h.live h.presences hb sel idx _
  exact ⟨t, e, hl, by rw [hx]; exact .refl _⟩

theorem configureCommit_present (hb : s.env.bus = false :: rest) :
    ∃ t, configureCommit sel idx r s = .ok .ok (setTargetsRes sel idx r t) ∧
      Led (commitSlots sel s.table[rowOf idx].rom) true s t ∧ FrameRegsOnly s.x t.x := by
  obtain ⟨t, e, hl, hx, -⟩ := selectThen_present h.live h.presences hb sel idx _
  obtain ⟨u, eu, lu, du, pu, ru, xu⟩ := sendByte_spec hl.live copyScratchpadByte
  obtain ⟨w, ew, lw, dw, pw, rw', xw, -⟩ := drive_spec lu .wait Params.tCopyWait
  refine ⟨w, ?_, ?_, ?_⟩
  · exact e.trans ((bind_ok eu).trans (bind_ok ew))
  · exact (hl.trans ⟨lu, du, pu.trans hl.presence, ru⟩).trans ⟨lw, dw, (pw.trans pu).trans hl.presence, rw'⟩
  · rw [xw]
    exact (hx.trans xu).frame

/-! ### The read, and all three -/

theorem configureRead_absent (hb : s.env.bus = true :: rest) :
    ∃ t, configureRead sel idx r s = .ok .busAbsent t ∧ Led [.reset] false s t ∧ FrameRegsOnly s.x t.x := by
  obtain ⟨t, e, hl, hx⟩ := selectThen_absent h.live h.presences hb sel idx _
  exact ⟨t, e, hl, by rw [hx]; exact .refl _⟩

variable {sp : Vector Byte 9} (hb : s.env.bus = false :: frameBits sp ++ rest)
include hb

/-- Up to the end of the read: a frame with a wrong CRC stops the command, and a valid one does not. -/
theorem configureRead_answered :
    ∃ t, configureRead sel idx r s = (if frameValid sp then configureWrite sel idx r t else .ok .crcMismatch t) ∧
      Led (readThenSlots sel s.table[rowOf idx].rom) true s t ∧ FrameRegsOnly s.x t.x ∧ t.env.bus = rest := by
  obtain ⟨t, e, hl, hx, -, hbus⟩ := readThen_answered h.live h.presences h.samples hb sel idx (configureWrite sel idx r)
  exact ⟨t, e, hl, hx, hbus⟩
end

/-- The slots of CONFIGURE up to the end of its write. -/
def readWriteSlots (sel : Bool) (rom : Ident) (alw : Word) (r : Resolution) : List Slot :=
  readThenSlots sel rom ++ writeSlots sel rom alw r

section
variable {s : State} (h : Poised s) {rest : List Bool} (sel : Bool) (idx : BitVec 4) (r : Resolution)
  {sp : Vector Byte 9} (hv : frameValid sp = true)
include h hv

/-- Stopped at the second reset slot. -/
theorem configureRead_absent_write (hb : s.env.bus = false :: frameBits sp ++ true :: rest) :
    ∃ t, configureRead sel idx r s = .ok .busAbsent t ∧
      Led (readThenSlots sel s.table[rowOf idx].rom ++ [.reset]) false s t ∧ FrameRegsOnly s.x t.x := by
  obtain ⟨t, e, hl, hx, hbus⟩ := configureRead_answered h sel idx r hb
  rw [if_pos hv] at e
  obtain ⟨u, eu, hlu, hxu⟩ := configureWrite_absent (hl.poised h) sel idx r hbus
  exact ⟨u, e.trans eu, hl.trans hlu, hx.trans hxu⟩

/-- Up to the end of the write, where the first two reset slots are answered. -/
theorem configureRead_written (hb : s.env.bus = false :: frameBits sp ++ false :: rest) :
    ∃ t, configureRead sel idx r s = configureCommit sel idx r t ∧
      Led (readWriteSlots sel s.table[rowOf idx].rom s.x.alw r) true s t ∧ FrameRegsOnly s.x t.x ∧
      t.env.bus = rest := by
  obtain ⟨t, e, hl, hx, hbus⟩ := configureRead_answered h sel idx r hb
  rw [if_pos hv] at e
  obtain ⟨u, eu, hlu, hxu, hbu⟩ := configureWrite_present (hl.poised h) sel idx r hbus
  rw [hl.rom, hx.alw] at hlu
  exact ⟨u, e.trans eu, hl.trans hlu, hx.trans hxu, hbu⟩

/-- Stopped at the third reset slot. -/
theorem configureRead_absent_commit (hb : s.env.bus = false :: frameBits sp ++ false :: true :: rest) :
    ∃ t, configureRead sel idx r s = .ok .busAbsent t ∧
      Led (readWriteSlots sel s.table[rowOf idx].rom s.x.alw r ++ [.reset]) false s t ∧ FrameRegsOnly s.x t.x := by
  obtain ⟨t, e, hl, hx, hbus⟩ := configureRead_written h sel idx r hv hb
  obtain ⟨u, eu, hlu, hxu⟩ := configureCommit_absent (hl.poised h) sel idx r hbus
  exact ⟨u, e.trans eu, hl.trans hlu, hx.trans hxu⟩

/-- All three transfers. -/
theorem configureRead_commits (hb : s.env.bus = false :: frameBits sp ++ false :: false :: rest) :
    ∃ t, configureRead sel idx r s = .ok .ok (setTargetsRes sel idx r t) ∧
      Led (readWriteSlots sel s.table[rowOf idx].rom s.x.alw r ++ commitSlots sel s.table[rowOf idx].rom) true s t ∧
      FrameRegsOnly s.x t.x := by
  obtain ⟨t, e, hl, hx, hbus⟩ := configureRead_written h sel idx r hv hb
  obtain ⟨u, eu, hlu, hxu⟩ := configureCommit_present (hl.poised h) sel idx r hbus
  rw [hl.rom] at hlu
  exact ⟨u, e.trans eu, hl.trans hlu, hx.trans hxu⟩
end

/-! ### The whole command -/

theorem resolutionOf_toNat {res : BitVec 4} {r : Resolution} (h : res.toNat = r.toNat) : resolutionOf res = some r := by
  unfold resolutionOf
  rw [h]
  cases r <;> rfl

/-- CONFIGURE past its checks. -/
theorem configureBody_eq {s t : State} (h : t.count = s.count) {sel : Bool} {idx res : BitVec 4} {r : Resolution}
    (hres : res.toNat = r.toNat) (hidx : sel = true → idx.toNat < s.count.toNat) :
    configureBody sel idx res t = configureRead sel idx r t := by
  have hgood : ¬t.badTarget sel idx = true := by
    rw [badTarget_congr h, badTarget_iff]
    exact fun hn => absurd (hidx hn.1) (Nat.not_lt.mpr hn.2)
  unfold configureBody
  rw [resolutionOf_toNat hres]
  exact (bind_ok (get_ok t)).trans (by rw [if_neg hgood])

theorem setTargetsRes_settle (sel : Bool) (idx : BitVec 4) (r : Resolution) (u : State) (i : Fin 16) :
    (setTargetsRes sel idx r u).table[i].settle =
      if u.isTarget sel idx i then { u.table[i].settle with res := r } else u.table[i].settle := by
  rw [setTargetsRes_table, mapTable_get]
  split
  · exact settle_res_eq _ r
  · rfl

theorem setTargetsRes_sup (sel : Bool) (idx : BitVec 4) (r : Resolution) (u : State) (i : Fin 16)
    (h : u.table[i].sup = none) : (setTargetsRes sel idx r u).table[i].sup = none := by
  obtain ⟨_, he⟩ := setTargetsRes_row sel idx r u i
  rw [he]
  exact h

/-- A CONFIGURE that is stopped on the line. -/
theorem configure_stops {s : State} (hs : s.Undisturbed) {sel : Bool} {idx res : BitVec 4} {r : Resolution}
    (hres : res.toNat = r.toNat) (hidx : sel = true → idx.toNat < s.count.toNat) {code : Code} {slots : List Slot}
    {p : Bool}
    (h : ∀ t, Begun s t → ∃ u, configureRead sel idx r t = .ok code u ∧ Led slots p t u ∧ FrameRegsOnly t.x u.x) :
    ∃ t, exec (.configure sel idx res) s = .next t ∧ Ended s t code slots ∧ Untouched s t ∧ Supervised s t ∧
      t.status.presence = p ∧ t.status.rxbit = s.status.rxbit ∧ FrameRegsOnly s.startWork t.x := by
  obtain ⟨v, u, hv, hen, hun, hsu, hf, hp, hr, hx⟩ := runCommand_of_does hs.calm (body := configureBody sel idx res)
    (P := fun u => u.status.presence = p ∧ u.status.rxbit = s.status.rxbit ∧ FrameRegsOnly s.startWork u.x)
    fun t _ hb => by
    obtain ⟨u, hu, hled, hx⟩ := h t hb
    rw [hb.x] at hx
    exact ⟨u, (configureBody_eq hb.untouched.count hres hidx).trans hu, hled.live, hled.does, hled.presence,
      hled.rxbit.trans hb.rxbit, hx⟩
  exact ⟨v, hv, hen, hun, hsu, hf.presence.trans hp, hf.rxbit.trans hr, by rwa [hf.x]⟩

/-- The identifier selected and the latched ALARM are those of the acceptance cycle. -/
theorem Begun.rom {s t : State} (h : Begun s t) (i : Fin 16) : t.table[i].rom = s.table[i].rom :=
  (h.supervised.rows i).rom

theorem Begun.alw {s t : State} (h : Begun s t) : t.x.alw = s.alarm := by
  rw [h.x]
  rfl

end Sys2Proof.Machine

open Sys2Proof Sys2Proof.Machine

/-- Settles O50: all three transfers, and then the targets' RES. -/
theorem configureCommits : Obligations.ConfigureCommits := by
  intro s sel idx res r sp rest hs hres hidx hvalid hbus
  obtain ⟨v, u, hv, hw, hp, hr, hx⟩ := runCommand_of_rows hs.calm (body := configureBody sel idx res) (code := .ok)
    (slots := readWriteSlots sel s.table[idx.toFin].rom s.alarm r ++ commitSlots sel s.table[idx.toFin].rom)
    (P := fun u => u.status.presence = true ∧ u.status.rxbit = s.status.rxbit ∧ FrameRegsOnly s.startWork u.x)
    (setTargetsRes sel idx r) (fun _ => ⟨_, rfl⟩) (fun _ h => h.setTargetsRes sel idx r) (setTargetsRes_sup sel idx r)
    fun t hb => by
    obtain ⟨u, hu, hled, hx⟩ := configureRead_commits (hb.poised hs) sel idx r hvalid (hb.bus.trans hbus)
    rw [hb.rom, hb.alw] at hled
    rw [hb.x] at hx
    exact ⟨u, (configureBody_eq hb.untouched.count hres hidx).trans hu, hled.live, hled.does, hled.presence,
      hled.rxbit.trans hb.rxbit, hx⟩
  refine ⟨v, hv, ?_, hw.untouched, hw.presence.trans hp, hw.rxbit.trans hr, by rwa [hw.x], hw.noEvent, fun i => ?_⟩
  · have := hw.ended
    simp only [readWriteSlots, readThenSlots, writeSlots, commitSlots, selectSlots, readFrameSlots, List.append_assoc,
      List.cons_append] at this ⊢
    exact this
  · rw [hw.table, setTargetsRes_settle]
    refine ⟨u.table[i].settle, hw.passed i, ?_⟩
    exact if_congr (isTarget_iff hw.count sel idx i) rfl rfl

/-- Settles O51: the four ways the line stops it. -/
theorem configureStops : Obligations.ConfigureStops := by
  intro s sel idx res r sp rest hs hres hidx select read write stops
  have hread : readThenSlots sel s.table[idx.toFin].rom = read := by
    rw [readThenSlots, selectSlots, readFrameSlots, ← List.append_assoc]
  have hwrite : readWriteSlots sel s.table[idx.toFin].rom s.alarm r = read ++ write := by
    rw [readWriteSlots, hread]
    rfl
  refine ⟨fun hbus => ?_, fun hvalid hbus => ?_, fun hvalid hbus => ?_, fun hvalid hbus => ?_⟩ <;>
    refine configure_stops hs hres hidx fun t hb => ?_
  · exact configureRead_absent (hb.poised hs) sel idx r (hb.bus.trans hbus)
  · obtain ⟨u, hu, hled, hx, -⟩ := configureRead_answered (hb.poised hs) sel idx r (hb.bus.trans hbus)
    rw [hvalid] at hu
    rw [hb.rom] at hled
    exact ⟨u, hu, hread ▸ hled, hx⟩
  · obtain ⟨u, hu, hled, hx⟩ := configureRead_absent_write (hb.poised hs) sel idx r hvalid (hb.bus.trans hbus)
    rw [hb.rom] at hled
    exact ⟨u, hu, hread ▸ hled, hx⟩
  · obtain ⟨u, hu, hled, hx⟩ := configureRead_absent_commit (hb.poised hs) sel idx r hvalid (hb.bus.trans hbus)
    rw [hb.rom, hb.alw] at hled
    exact ⟨u, hu, hwrite ▸ hled, hx⟩
end


section
/-! PROOFS. ENUMERATE: a run of failed passes and then one that succeeds, or none that does, as whole commands
(42_enumeration.md R250 to R252). -/

namespace Sys2Proof.Machine

/-! ### Rows -/

/-- The identifier a row holds after a pass that found `found`, where `r` is the one it held before. -/
def rowFound (found : List Ident) (i : Nat) (r : Option Ident) : Option Ident :=
  match found[i]? with
  | some d => some d
  | none => r

/-- The rows after one more pass. -/
theorem Written.found {v : Bool} {r : Option Ident} {e e' : Entry} {s : State} {found : List Ident} {i : Fin 16}
    (h : Written v r e s.table[i]) (g : RowPasses v (rowFrom s 0 found i) e') :
    Written v (rowFound found i.val r) e e' := by
  unfold rowFound
  by_cases hi : i.val < found.length
  · rw [rowFrom_in ⟨Nat.zero_le _, by omega⟩, Nat.sub_zero, List.getD_eq_getElem _ _ hi] at g
    rw [List.getElem?_eq_getElem hi]
    exact g
  · rw [rowFrom_out (by omega)] at g
    rw [List.getElem?_eq_none (by omega)]
    exact h.step g

/-- What ENUMERATE leaves of an entry: re-initialised with the identifier `r` a pass wrote to its row, or, if none did,
only stepped by the supervisor. -/
def RowLeft (v : Bool) (r : Option Ident) (e e' : Entry) : Prop :=
  match r with
  | some d => e' = ⟨d, 0, .idle, false, .r12, 0, none⟩
  | none => RowPasses v e e'

theorem Written.left {v : Bool} {r : Option Ident} {e e' : Entry} (h : Written v r e e') (hs : e'.sup = none) :
    RowLeft v r e e' := by
  cases r with
  | none => exact h
  | some d => exact RowPasses.fresh h hs

theorem RowPasses.written {v : Bool} {r : Option Ident} {e e' e'' : Entry} (h : RowPasses v e e')
    (g : Written v r e' e'') : Written v r e e'' := by
  cases r with
  | none => exact RowPasses.trans h g
  | some d => exact g

/-! ### The command -/

theorem maxDevices_bounds {p : Params} (h : p.Legal) : p.maxDevices ≠ 0 ∧ p.maxDevices ≤ 16 := by
  obtain ⟨-, -, -, -, -, -, -, -, -, -, -, hmax, -⟩ := h
  omega

/-- What ENUMERATE leaves but for COUNT, ENUMSTAT and the session state; `r` is what its passes wrote to the rows. -/
structure EnumEnds (code : Code) (slots : List Slot) (r : Fin 16 → Option Ident) (p : Bool) (s v : State) : Prop where
  ended : Ended s v code slots
  rows : ∀ i : Fin 16, RowLeft (s.validRow i) (r i) s.table[i] v.table[i]
  untouched : Untouched s { v with session := s.session, count := s.count, enumstat := s.enumstat }
  noEvent : s.quiet → (∀ i : Fin 16, s.validRow i = true → s.table[i].cstate ≠ .started) →
    v.status.cevt = s.status.cevt
  presence : v.status.presence = p
  rxbit : v.status.rxbit = s.status.rxbit
  x : EnumRegsOnly s.startWork v.x

/-- x.PASS <- 0, before the first pass (42_enumeration.md R250). -/
def clearPass (s : State) : State := { s with x := { s.x with pass := 0 } }

theorem clearPass_spec {s : State} (h : Live s) : Enumerated [] s.status.presence s (clearPass s) :=
  ⟨h.of_eq rfl rfl rfl rfl, .still rfl rfl rfl rfl,
    ⟨rfl, rfl, rfl, rfl, rfl, rfl, rfl, fun q => ⟨q, rfl, rfl, rfl, rfl⟩, fun _ h => h⟩, fun _ hn => ⟨hn, rfl⟩, rfl, rfl,
    ⟨0, s.x.k, s.x, .refl _, rfl⟩⟩

theorem enumerateBody_eq (s : State) :
    enumerateBody s = enumPasses (s.params.enumRetries - 1) .ok (clearPass s) := rfl

/-- The state in which the first pass of ENUMERATE starts. -/
structure PassesBegin (s t : State) : Prop where
  live : Live t
  params : t.params = s.params
  bus : t.env.bus = s.env.bus
  pass : t.x.pass = 0

/-- ENUMERATE by what its passes do. -/
theorem enumerate_of_passes {s : State} (hc : s.calm = true) {code : Code} {slots : List Slot}
    {r : Fin 16 → Option Ident} {p : Bool} {e : Code} {tr : Bool} {P : State → Prop} (count : State → BitVec 5)
    (h : ∀ t, PassesBegin s t → ∃ u, enumPasses (s.params.enumRetries - 1) .ok t =
        .ok code (commitEnum (count u) e tr u) ∧ Enumerated slots p t u ∧
      (∀ i : Fin 16, Written (t.validRow i) (r i) t.table[i] u.table[i]) ∧ P u) :
    ∃ v u, exec .enumerate s = .next v ∧ EnumEnds code slots r p s v ∧ v.count = count u ∧
      v.enumstat = ⟨u.x.pass, e, tr⟩ ∧ v.session = u.session ∧ P u := by
  obtain ⟨t, hb, hrun⟩ := command_begins hc
  obtain ⟨u, hu, E1, hw, hp⟩ := h (clearPass t) ⟨hb.live.of_eq rfl rfl rfl rfl, hb.untouched.params, hb.bus, rfl⟩
  have E : Enumerated slots p t u := (clearPass_spec hb.live).trans E1
  have hbody : bodyOf .enumerate t = .ok code (commitEnum (count u) e tr u) := by
    rw [← hb.untouched.params] at hu
    exact (enumerateBody_eq t).trans hu
  have c := commit_spec E.live code (count u) e tr
  have hbegun : Untouched s { t with session := s.session } := hb.untouched.setSession s.session
  have hun : Untouched s { u with session := s.session } := hbegun.ofSession E.untouched
  have hq : s.quiet → (∀ i : Fin 16, s.validRow i = true → s.table[i].cstate ≠ .started) →
      ∀ i : Fin 16, t.validRow i = true → t.table[i].cstate ≠ .started := fun _ hn i hv => by
    rw [validRow_congr hb.untouched.count] at hv
    rw [((hb.supervised.rows i).held (.inl (hn i hv))).1]
    exact hn i hv
  refine ⟨closeCycle (complete code (commitEnum (count u) e tr u)), u, ?_, ⟨⟨c.busy, c.done, c.err, c.seq, c.ph, c.pad,
    ?_, ?_, ?_⟩, fun i => ?_, ?_, fun q hn => ?_, c.presence.trans E.presence, ?_, ?_⟩, c.count, c.enumstat, c.session, hp⟩
  · rw [exec_eq, hrun, hbody]
    rfl
  · rw [c.now, E.line.now, ← hb.now, ← hb.untouched.params]
  · rw [c.wave, E.line.wave, ← hb.now, ← hb.untouched.params, ← hb.wave]
  · rw [c.bus, E.line.bus, ← hb.bus]
  · have h1 := c.rows i
    have h2 := hw i
    rw [show u.validRow i = s.validRow i from validRow_congr hun.count i] at h1
    rw [show (clearPass t).validRow i = s.validRow i from validRow_congr hb.untouched.count i] at h2
    exact (((hb.supervised.rows i).written h2).step h1).left (c.noStep i)
  · have := hun.trans (c.untouched.setSession s.session)
    rw [show u.count = s.count from hun.count, show u.enumstat = s.enumstat from hun.enumstat] at this
    exact this
  · obtain ⟨h1, h2⟩ := E.noEvent (hb.untouched.quiet q).1 (hq q hn)
    rw [c.noEvent (hun.quiet q).1 h1, h2]
    exact hb.supervised.noEvent q hn
  · exact c.rxbit.trans (E.rxbit.trans hb.rxbit)
  · rw [c.x, ← hb.x]
    exact E.x

/-- The run of failed passes that ENUMERATE begins with. -/
theorem failures_begin {s t : State} (hs : s.Undisturbed) (hb : PassesBegin s t) (passes : List FailedPass)
    (hposs : ∀ p ∈ passes, p.Possible s.params.maxDevices) (m : Nat) {rest : List Bool}
    (hbus : s.env.bus = passes.flatMap FailedPass.bits ++ rest) :
    ∃ u q, Enumerated (passes.flatMap FailedPass.slots) q t u ∧ u.params = s.params ∧
      u.x.pass = BitVec.ofNat 8 passes.length ∧ u.env.bus = rest ∧
      (∀ i : Fin 16, Written (t.validRow i) (rowAfter passes i.val) t.table[i] u.table[i]) ∧
      enumPasses (passes.length + m) .ok t = enumPasses m ((passes.getLast?.map FailedPass.code).getD .ok) u := by
  obtain ⟨u, q, E, hx, hbu, hw, he⟩ := enumPasses_failures passes m .ok rest (fun i => t.table[i]) (fun _ => none) hb.live
    (by rw [hb.params]; exact tPds_ne_zero hs.legal) (by rw [hb.params]; exact hs.samples)
    (by rw [hb.params]; exact (maxDevices_bounds hs.legal).2) (by rw [hb.params]; exact hposs) (hb.bus.trans hbus)
    (fun i => RowPasses.refl _ _)
  rw [hb.pass, show (0 : BitVec 8) = 0#8 from rfl, BitVec.zero_add] at hx
  exact ⟨u, q, E, E.line.params.trans hb.params, hx, hbu, hw, he⟩

/-- The rows after one more failed pass. -/
theorem rowAfter_append (passes : List FailedPass) (last : FailedPass) (i : Nat) :
    rowAfter (passes ++ [last]) i = rowFound last.found i (rowAfter passes i) := by
  rw [rowAfter, List.foldl_append]
  rfl

end Sys2Proof.Machine

open Sys2Proof Sys2Proof.Machine

/-- Settles O43: the failed passes, and then one that finds the devices of the bus. -/
theorem enumerateFinds : Obligations.EnumerateFinds := by
  intro s passes ds rest hs hne hasc hvalid hlen hposs hbus
  obtain ⟨m, hm⟩ : ∃ m, s.params.enumRetries - 1 = passes.length + m :=
    ⟨s.params.enumRetries - 1 - passes.length, by omega⟩
  rw [List.append_assoc] at hbus
  obtain ⟨v, u, hv, h, hcount, hstat, hse, hk, hpass, hses⟩ := enumerate_of_passes hs.calm (code := .ok)
    (slots := passes.flatMap FailedPass.slots ++ (ds.take s.params.maxDevices).flatMap searchSlots)
    (r := fun i => rowFound (ds.take s.params.maxDevices) i.val (rowAfter passes i.val)) (p := true)
    (e := (passes.getLast?.map FailedPass.code).getD .ok) (tr := decide (s.params.maxDevices < ds.length))
    (P := fun u => u.x.k = BitVec.ofNat 5 (ds.take s.params.maxDevices).length ∧
      u.x.pass = BitVec.ofNat 8 (passes.length + 1) ∧
      u.session = afterPass ds .clear (ds.take s.params.maxDevices))
    (fun u => u.x.k) fun t hb => by
    obtain ⟨u1, q, E1, hp1, hx1, hb1, hw1, he1⟩ := failures_begin hs hb passes hposs m hbus
    rw [← hp1] at hb1
    obtain ⟨u, E, hse, hpass, hk, hw, he⟩ := enumPasses_found hasc hvalid hne E1.live
      (by rw [hp1]; exact tPds_ne_zero hs.legal) (by rw [hp1]; exact hs.samples)
      (by rw [hp1]; exact (maxDevices_bounds hs.legal).1) (by rw [hp1]; exact (maxDevices_bounds hs.legal).2) m _ rest
      hb1
    rw [hp1] at E hse hk hw he
    refine ⟨u, by rw [hm, he1, he], E1.trans E, fun i => ?_, hk, ?_, hse⟩
    · refine (hw1 i).found ?_
      rw [← validRow_congr E1.untouched.count]
      exact hw i
    · rw [hpass, hx1, BitVec.ofNat_add]
      rfl
  have hcard : (ds.take s.params.maxDevices).length = min ds.length s.params.maxDevices := by
    rw [List.length_take, Nat.min_comm]
  refine ⟨v, hv, h.ended, ?_, by rw [hstat, hpass], by rw [hse, hses], fun i hi => ?_, fun i hi => ?_, h.untouched,
    h.noEvent, h.presence, h.rxbit, h.x⟩
  · rw [hcount, hk, hcard, BitVec.toNat_ofNat]
    have := (maxDevices_bounds hs.legal).2
    omega
  · have hrow := h.rows i
    rw [rowFound, List.getElem?_eq_getElem hi] at hrow
    exact hrow
  · have hrow := h.rows i
    rw [rowFound, List.getElem?_eq_none hi] at hrow
    exact hrow

/-- Settles O44: every pass fails, the last one too. -/
theorem enumerateAbsent : Obligations.EnumerateAbsent := by
  intro s passes last rest hs hlen hposs hbus
  rw [List.length_append, List.length_singleton] at hlen
  obtain ⟨v, u, hv, h, hcount, hstat, hse, hpass, hses⟩ := enumerate_of_passes hs.calm (code := .busAbsent)
    (slots := (passes ++ [last]).flatMap FailedPass.slots) (r := fun i => rowAfter (passes ++ [last]) i.val)
    (p := decide (last.failure ≠ .absent)) (e := last.code) (tr := false)
    (P := fun u => u.x.pass = BitVec.ofNat 8 s.params.enumRetries ∧ u.session = .clear)
    (fun _ => 0) fun t hb => by
    rw [List.flatMap_append, List.append_assoc] at hbus
    obtain ⟨u1, q, E1, hp1, hx1, hb1, hw1, he1⟩ := failures_begin hs hb passes
      (fun p hp => hposs p (List.mem_append_left _ hp)) 0 hbus
    rw [List.flatMap_singleton] at hb1
    obtain ⟨u, E, hse, hpass, hw, -, he⟩ := enumPasses_failed E1.live (by rw [hp1]; exact tPds_ne_zero hs.legal)
      (by rw [hp1]; exact hs.samples) last (by rw [hp1]; exact (maxDevices_bounds hs.legal).2)
      (by rw [hp1]; exact hposs last (List.mem_append_right _ List.mem_cons_self)) 0 _ rest hb1
    refine ⟨u, ?_, ?_, fun i => ?_, ?_, hse⟩
    · rw [show s.params.enumRetries - 1 = passes.length + 0 by omega, he1, he]
    · rw [List.flatMap_append, List.flatMap_singleton]
      exact E1.trans E
    · rw [rowAfter_append]
      refine (hw1 i).found ?_
      rw [← validRow_congr E1.untouched.count]
      exact hw i
    · rw [hpass, hx1, ← hlen, BitVec.ofNat_add]
      rfl
  exact ⟨v, hv, h.ended, hcount, by rw [hstat, hpass], by rw [hse, hses]; rfl, h.rows, h.untouched, h.noEvent,
    by rw [h.presence, decide_eq_true_iff], h.rxbit, h.x⟩
end
